-- ==== Sys2Proof/Word.lean ====
section
/-!
DEFINITION. The word types of the machine: a register, a program counter, a byte, the numbers of registers.
-/

namespace Sys2Proof

/-- A 64-bit register value or address (R267). -/
abbrev Word := BitVec 64

/-- One byte of memory. -/
abbrev Byte := BitVec 8

/-- The bits of one FP32 value or 32-bit lane (R62, R267). -/
abbrev Lane := BitVec 32

/-- A program counter: 48 bits (R267). -/
abbrev Pc := BitVec 48

/-- The number of an x register, x0 to x7 (R39). -/
abbrev XR := Fin 8

/-- The number of a v register, v0 to v15 (R39). -/
abbrev VR := Fin 16

/-- The number of a mask register, m0 to m3 (R39). -/
abbrev MR := Fin 4

end Sys2Proof
end

