-- ==== Sys2Proof/Syntax.lean ====
section
/-!
DEFINITION. The instructions and operations of the machine: one constructor of `Instr` for each row of the
opcode table, the operand types first. C-slot rows (R42), A-slot rows (R44), long rows (R47, R48), and the rows
that are operations and events of the module.
-/

namespace Sys2Proof

/-- A scope code (R26). -/
inductive Scope where
  | core | tile | sector | quadrant | package | span
  deriving DecidableEq, Repr

/-- The size of a scalar access (R40). -/
inductive Size where
  | b | h | w | d
  deriving DecidableEq, Repr

/-- The operating width, the field sz (R40). -/
inductive Wd where
  | w | d
  deriving DecidableEq, Repr

/-- The two-bit order of an atomic (R40). -/
inductive Ord2 where
  | relaxed | acq | rel | ar
  deriving DecidableEq, Repr

/-- The rounding field rm (R40): the FSW mode, or a mode of its own. -/
inductive Rm where
  | dyn | rne | rtz | rdn | rup
  deriving DecidableEq, Repr

/-- The integer atomic operations (R42, R397). -/
inductive AmoOp where
  | add | and | or | xor | min | max | minu | maxu | swap
  deriving DecidableEq, Repr

/-- The FP32 atomic operations (R42, R397). -/
inductive FamoOp where
  | add | min | max
  deriving DecidableEq, Repr

/-- What SELF reads (R42, R396). -/
inductive SelfKind where
  | tid | core | slot | save
  deriving DecidableEq, Repr

/-- The width from which SEXT and ZEXT extend (R44). -/
inductive ExtFrom where
  | b | h | w
  deriving DecidableEq, Repr

/-- The shift that SHI names in imm19[8:7] (R44). -/
inductive ShOp where
  | shl | shr | sra | rol
  deriving DecidableEq, Repr

/-- The forms of FSGN (R44). -/
inductive SgnOp where
  | copy | neg | xor
  deriving DecidableEq, Repr

/-- The predicates of FCMP (R44, R285). -/
inductive FPred where
  | eq | lt | le | un
  deriving DecidableEq, Repr

/-- The kinds of FCVT (R44, R286). -/
inductive CvtKind where
  | toint | touns | tolong | toulong | fromint | fromuns | fromlong | fromulong
  | tobf16 | frombf16 | tof16 | fromf16
  deriving DecidableEq, Repr

/-- The operations of VINT (R44, R290). -/
inductive VintOp where
  | add | sub | mul | and | or | xor | shl | shr | sra | min | max | minu | maxu
  deriving DecidableEq, Repr

/-- The predicates of VCMP (R44, R291). -/
inductive VPred where
  | feq | flt | fle | fun_ | ieq | ilt | iltu
  deriving DecidableEq, Repr

/-- The reductions of VRED (R44, R293). -/
inductive RedOp where
  | add | max | min
  deriving DecidableEq, Repr

/-- The permutations of VPERM (R44, R294). -/
inductive PermOp where
  | bcast (n : Fin 4) | rot (n : Fin 4) | swap | rev
  deriving DecidableEq, Repr

/-- The kinds of VCVT (R44, R295). -/
inductive VcvtKind where
  | toint | fromint | touns | fromuns
  deriving DecidableEq, Repr

/-- The two-operand mask operations (R44, R296). -/
inductive MaskOp where
  | and | or | xor | andn
  deriving DecidableEq, Repr

/-- The action of a matrix group (R48, R319). -/
inductive Act where
  | none | reissue | trap
  deriving DecidableEq, Repr

/-- A binary8 variant (R39): code[4] unsigned, code[3] finite, code[2:0] the precision p from 1 to 7. -/
structure B8 where
  uns : Bool
  fin : Bool
  p   : Fin 8
  deriving DecidableEq, Repr

/-- The page types, coded as in the PTE (R125). -/
inductive PageType where
  | strict | release | once | priv
  deriving DecidableEq, Repr

/-- The expected generation of a copy or conversion command: the fields gen and gv (R48). -/
abbrev GenArg := Option (BitVec 10)

/-- A firmware image as the boot ROM meets it (R457): its public key, its body, its signature, its security version. -/
structure FwImage where
  pubKey    : List Byte
  body      : List Byte
  signature : List Byte
  svn       : Nat
  version   : BitVec 64
  deriving DecidableEq, Repr

/-- An access of a register that a row names for both its read and its write (R449). -/
inductive RegAcc where
  | read
  | write (val : Word)
  deriving DecidableEq, Repr

/-- Who holds an access that met M (R143, R300, R446): a fibre, an engine channel (`conv` for the conversion
engine), the input stream port of a core, or a host access. -/
inductive Held where
  | fibre (core slot : Nat)
  | channel (tile : Nat) (conv : Bool) (p : Nat)
  | port (core sp : Nat)
  | host (k : Nat)
  deriving DecidableEq, Repr

/-- One constructor for each row of the opcode table. -/
inductive Instr where
  -- Operations and events of the module.
  | moduleReset (img : FwImage)
  | registerWrite (off : Nat) (val : Word)
  | homeAccess (k : Nat)
  | accessReply (k : Nat)
  | acknowledgement (k : Nat)
  | commit (k : Nat)
  | blockAssemblyResume (core slot : Nat)
  | wake (k : Nat)
  | cancel (k : Nat)
  | holdTimeout (h : Held)
  | patrolRead (c : Nat)
  | rowSpareDone (c ch bank row : Nat)
  | pageRetirement (page : Nat)
  | spareAdd (val : Word)
  | poolExt (i : Nat) (val : Word)
  | poolRel (val : Word)
  | forcedRemoval (i : Nat)
  | vaultPatrol (tile : Nat)
  | fmcErr (c : Nat)
  | dimusRun (k : Nat)
  | pptSet (val : Word)
  | pptBase (val : Word)
  | retypeComplete (k : Nat)
  | zeroComplete (k : Nat)
  | channelCompletion (k : Nat)
  | channelResume (tile p : Nat)
  | mmaAccumulation (tile : Nat)
  | partialArrival (k : Nat)
  | resultArrival (k : Nat)
  | abortRequest (k : Nat)
  | abortBroadcastArrival (k : Nat)
  | corePlaneDiscard (k : Nat)
  | barrierSignal (k : Nat)
  | zinCtl (val : Word)
  | inputElementArrival (core port : Nat)
  | quantumExpiry (core : Nat)
  | reservationRequest (k : Nat)
  | reservationAnswer (k : Nat)
  | fibreArrival (k : Nat)
  | poolPlacement (core : Nat)
  | qWr (q : Nat) (val : Word)
  | qCfg (q : Nat) (val : Word)
  | launchDispatch (t : Nat)
  | rootPlacementRetry (t : Nat)
  | launchCompletion (k : Nat)
  | part (t : Nat) (val : Word)
  | evictionSave (t : Nat)
  | evictionDeadline (t : Nat)
  | contextRestore (t : Nat)
  | powerMeasurement (milliwatts : Nat)
  | deadlockEvent (t : Nat)
  | watchdogExpiry (t : Nat)
  | larkStopResume (t : Nat)
  | larkStopKill (t : Nat)
  | bar0UnsupportedRequest (off len : Nat) (write : Bool)
  | bar2Read (off n : Nat)
  | bar2Write (off : Nat) (data : List Byte)
  | hostWriteDrop (k : Nat)
  | hseal (val : Word)
  | msixUnmask (vec : Nat)
  | errCfg (acc : RegAcc)
  | resyncCtl (val : Word)
  | fabId (val : Word)
  | fabricPortTrained (i peer : Nat)
  | fabricPortDown (i : Nat)
  | measExt (val : Word)
  | attCtl (val : Word)
  | taskBreakpoint (i : Nat)
  | traceDrain (tile : Nat)
  | tilePowerGate (tile : Nat)
  | thermalEmergency (tiles : List Nat)
  -- C-slot instructions (R42).
  | beq (xa xb : XR) (off : BitVec 19)
  | bne (xa xb : XR) (off : BitVec 19)
  | blt (xa xb : XR) (off : BitVec 19)
  | bge (xa xb : XR) (off : BitVec 19)
  | bltu (xa xb : XR) (off : BitVec 19)
  | bgeu (xa xb : XR) (off : BitVec 19)
  | bz (xa : XR) (off : BitVec 19)
  | bnz (xa : XR) (off : BitVec 19)
  | j (off : BitVec 25)
  | jal (off : BitVec 25)
  | jr (xa : XR)
  | ld (size : Size) (sgn : Bool) (acq : Option Scope) (xd xa : XR) (off : BitVec 12)
  | st (size : Size) (rel : Option Scope) (xd xa : XR) (off : BitVec 12)
  | vld (vd : VR) (xa : XR) (mk : Option MR) (off : BitVec 12)
  | vst (vd : VR) (xa : XR) (mk : Option MR) (off : BitVec 12)
  | ldg (size : Size) (sgn : Bool) (xd xa xg : XR) (off : BitVec 12)
  | savem (xa : XR) (list : BitVec 10) (off : BitVec 12)
  | loadm (xa : XR) (list : BitVec 10) (off : BitVec 12)
  | pref (tlbOnly : Bool) (xa : XR) (off : BitVec 12)
  | sealb (xa : XR) (off : BitVec 12)
  | clr (xa : XR) (off : BitVec 12)
  | probe (xd xa : XR) (off : BitVec 12)
  | bwait (xa : XR) (off : BitVec 12)
  | amo (op : AmoOp) (sz : Wd) (ord : Ord2) (sc : Scope) (mg : Bool) (xd xs xa : XR)
  | famo (op : FamoOp) (ord : Ord2) (sc : Scope) (mg : Bool) (xd xs xa : XR)
  | decj (sz : Wd) (span : Bool) (xd xa xs : XR)
  | migrate (v : Bool) (xa : XR)
  | anchorClaim (xd : XR)
  | anchorFree (xd : XR)
  | self (kind : SelfKind) (xd : XR)
  | fence (kinds : BitVec 4) (sc : Scope)
  | trap (code : BitVec 16)
  | mfs (xd : XR) (reg : BitVec 12)
  | mts (reg : BitVec 12) (xa : XR)
  | brk (code : BitVec 16)
  | idr (xd : XR) (index : Fin 9)
  -- A-slot instructions (R44).
  | add (sz : Wd) (xd xa xb : XR)
  | sub (sz : Wd) (xd xa xb : XR)
  | mul (sz : Wd) (xd xa xb : XR)
  | mulh (u : Bool) (sz : Wd) (xd xa xb : XR)
  | div (u : Bool) (sz : Wd) (xd xa xb : XR)
  | rem (u : Bool) (sz : Wd) (xd xa xb : XR)
  | and (sz : Wd) (xd xa xb : XR)
  | or (sz : Wd) (xd xa xb : XR)
  | xor (sz : Wd) (xd xa xb : XR)
  | andn (sz : Wd) (xd xa xb : XR)
  | shl (sz : Wd) (xd xa xb : XR)
  | shr (sz : Wd) (xd xa xb : XR)
  | sra (sz : Wd) (xd xa xb : XR)
  | rol (sz : Wd) (xd xa xb : XR)
  | min (u : Bool) (sz : Wd) (xd xa xb : XR)
  | max (u : Bool) (sz : Wd) (xd xa xb : XR)
  | slt (u : Bool) (sz : Wd) (xd xa xb : XR)
  | seteq (sz : Wd) (xd xa xb : XR)
  | setne (sz : Wd) (xd xa xb : XR)
  | clz (sz : Wd) (xd xa : XR)
  | ctz (sz : Wd) (xd xa : XR)
  | popc (sz : Wd) (xd xa : XR)
  | sext (ext : ExtFrom) (xd xa : XR)
  | zext (ext : ExtFrom) (xd xa : XR)
  | sel (sz : Wd) (xd xa xb xc : XR)
  | mov (xd xa : XR)
  | addi (sz : Wd) (xd xa : XR) (imm : BitVec 19)
  | andi (sz : Wd) (xd xa : XR) (imm : BitVec 19)
  | ori (sz : Wd) (xd xa : XR) (imm : BitVec 19)
  | xori (sz : Wd) (xd xa : XR) (imm : BitVec 19)
  | shi (op : ShOp) (sz : Wd) (xd xa : XR) (n : BitVec 6)
  | fadd (rm : Rm) (xd xa xb : XR)
  | fsub (rm : Rm) (xd xa xb : XR)
  | fmul (rm : Rm) (xd xa xb : XR)
  | fdiv (rm : Rm) (xd xa xb : XR)
  | fsqrt (rm : Rm) (xd xa : XR)
  | fma (rm : Rm) (xd xa xb xc : XR)
  | fmin (xd xa xb : XR)
  | fmax (xd xa xb : XR)
  | fsgn (op : SgnOp) (xd xa xb : XR)
  | fcmp (pred : FPred) (xd xa xb : XR)
  | fcvt (kind : CvtKind) (rm : Rm) (xd xa : XR)
  | fclass (xd xa : XR)
  | vadd (rm : Rm) (vd va vb : VR) (mk : Option MR)
  | vsub (rm : Rm) (vd va vb : VR) (mk : Option MR)
  | vmul (rm : Rm) (vd va vb : VR) (mk : Option MR)
  | vfma (rm : Rm) (vd va vb vc : VR) (mk : Option MR)
  | vdiv (rm : Rm) (vd va vb : VR) (mk : Option MR)
  | vsqrt (rm : Rm) (vd va : VR) (mk : Option MR)
  | vmin (vd va vb : VR) (mk : Option MR)
  | vmax (vd va vb : VR) (mk : Option MR)
  | vexp2 (rm : Rm) (vd va : VR) (mk : Option MR)
  | vlog2 (rm : Rm) (vd va : VR) (mk : Option MR)
  | vint (op : VintOp) (vd va vb : VR) (mk : Option MR)
  | vcmp (pred : VPred) (md : MR) (va vb : VR) (mk : Option MR)
  | vselm (vd va vb : VR) (mk : MR)
  | vred (op : RedOp) (rm : Rm) (xd : XR) (va : VR) (mk : Option MR)
  | vperm (op : PermOp) (vd va : VR) (mk : Option MR)
  | vcvt (kind : VcvtKind) (rm : Rm) (vd va : VR) (mk : Option MR)
  | vmask (op : MaskOp) (md ma mb : MR)
  | vmaskNot (md ma : MR)
  | vmaskFromx (md : MR) (xa : XR)
  | vmaskTox (xd : XR) (ma : MR)
  -- Long instructions (R47, R48).
  | movi (xd : XR) (imm : BitVec 48)
  | movhi (xd : XR) (imm : BitVec 16)
  | ldl (size : Size) (sgn : Bool) (acq : Option Scope) (xd xa : XR) (off : BitVec 32)
  | stl (size : Size) (rel : Option Scope) (xs xa : XR) (off : BitVec 32)
  | jl (off : BitVec 45)
  | calll (off : BitVec 45)
  | cas (sz : Wd) (ord : Ord2) (sc : Scope) (mg : Bool) (xd xs xa : XR) (off : BitVec 32)
  | amol (op : AmoOp) (sz : Wd) (ord : Ord2) (sc : Scope) (mg : Bool) (xd xs xa : XR) (off : BitVec 32)
  | vlds (vd : VR) (xa xb : XR) (mk : Option MR) (off : BitVec 32)
  | vsts (vd : VR) (xa xb : XR) (mk : Option MR) (off : BitVec 32)
  | vgath (vd : VR) (xa : XR) (vi : VR) (shift : Fin 4) (mk : Option MR) (off : BitVec 32)
  | vscat (vd : VR) (xa : XR) (vi : VR) (shift : Fin 4) (mk : Option MR) (off : BitVec 32)
  | sbind (sp : Fin 4) (xa : XR)
  | sfree (sp : Fin 4)
  | sstat (xd : XR) (sp : Fin 4)
  | mbegin (act : Act) (wide : Bool) (p : Fin 8) (k : BitVec 8)
  | mma (p : Fin 8) (xa xb : XR) (stride : BitVec 20)
  | mend (p : Fin 8)
  | mst (p : Fin 8) (xa : XR) (stride : BitVec 20)
  | mzero (p : Fin 8)
  | mrv (vd : VR) (p : Fin 8) (row : Fin 32) (grp : Fin 8)
  | mva (p : Fin 8) (vs : VR) (row : Fin 32) (grp : Fin 8)
  | mscl (p : Fin 8) (rs cs : Fin 16)
  | mstat (xr : XR) (p : Fin 8)
  | bget (xr : XR) (p : Fin 8)
  | bset (p : Fin 8) (xa : XR)
  | bthr (act : Act) (p : Fin 8) (k : BitVec 8)
  | bblk (xr xa : XR)
  | bblkSet (xa xb : XR)
  | bmark (xa xb : XR)
  | cpy (ch : Fin 8) (xb xa : XR) (len : BitVec 21) (gen : GenArg) (done : Option XR)
  | cpyg (ch : Fin 8) (xb xa xc : XR) (rows : BitVec 9) (atoms : BitVec 12) (gen : GenArg) (done : Option XR)
  | cpys (ch : Fin 8) (xb xa xc : XR) (rows : BitVec 9) (atoms : BitVec 12) (gen : GenArg) (done : Option XR)
  | cpyt (ch : Fin 8) (xb xa xc : XR) (first : BitVec 21) (gen : GenArg) (done : Option XR)
  | cpyc (ch : Fin 8) (xb xa : XR) (len : BitVec 21) (gen : GenArg) (done : Option XR)
  | cpyk (ch : Fin 8) (slot : Fin 16) (xa xc : XR) (gen : GenArg) (done : Option XR)
  | cpywWait (ch : Fin 8) (xr : XR)
  | cpywQuery (ch : Fin 8) (xr : XR)
  | cvq (fmt : B8) (ch : Fin 4) (xb xa xc : XR) (rows : BitVec 16) (gen : GenArg) (done : Option XR)
  | cvd (fmt : B8) (ch : Fin 4) (xb xa xc : XR) (rows : BitVec 16) (gen : GenArg) (done : Option XR)
  | cvr (src dst : B8) (ch : Fin 4) (xb xa xc : XR) (rows : BitVec 16) (gen : GenArg) (done : Option XR)
  | cvwWait (ch : Fin 4) (xr : XR)
  | cvwQuery (ch : Fin 4) (xr : XR)
  | carm (xa xb : XR)
  | cdis (xa : XR)
  | cabt (xa : XR) (seq : BitVec 16)
  | mcast (col : Bool) (xa : XR) (first last : BitVec 9)
  | barrier (xa xr : XR)
  | cstat (xr xa : XR)
  | ship (n : Fin 64) (xa xb xc : XR)
  | shipr (n : Fin 64) (xr xa xb xc : XR)
  | dload (n : Fin 64) (xa : XR)
  | spawn (v t : Bool) (xa xb xc : XR) (res : Option XR)
  | spawnr (t : Bool) (xa xb xc : XR) (w h : BitVec 10) (res : Option XR)
  | map (lvl : Fin 3) (xa xb : XR)
  | unmap (lvl : Fin 3) (xa : XR)
  | tlbiVa (xa : XR)
  | tlbiCtx (xb : XR)
  | retype (ty : PageType) (empty : Bool) (xa : XR) (done : Option XR)
  | watchOn (filter : Fin 8) (xa : XR)
  | watchOff (filter : Fin 8) (xa : XR)
  | zero (xa : XR) (pages : BitVec 16) (done : Option XR)
  -- Events of a bundle, of the arithmetic pipeline and of the module.
  | illegalEncoding (w0 w1 : BitVec 32)
  | arithmeticResult (k : Nat)
  | contextKillComplete (t : Nat)
  | fabPort (i : Nat)
  -- Instructions and events without operands (last: the constructors with operands come first).
  | poolReleaseDone
  | moveStart
  | moveCut
  | moveFinalPass
  | moveRelease
  | moveAbort
  | zinniaSnapshot
  | ebudRefill
  | larkResume
  | hcbStat
  | errorInterrupt
  | resyncDone
  | attestationDone
  | thermalThrottle
  | nopc
  | exit
  | yield
  | push
  | pull
  | rtt
  | nopa
  | tlbiAll
  | instructionFetchFault
  deriving DecidableEq, Repr

/-- What a bundle holds (R34): a pair of a C-slot and an A-slot instruction, or one long instruction. -/
inductive Bundle where
  | pair (c a : Instr)
  | long (i : Instr)
  deriving DecidableEq, Repr

end Sys2Proof
end

