-- ==== Sys2Proof/WellFormed.lean ====
section
/-!
DEFINITION. The checks that R39 to R51 make on the operands of an instruction beyond the widths of its fields,
and the slot in which each row stands.
-/

namespace Sys2Proof

/-- Where a row of the table stands: a slot of a bundle, a long bundle, or no bundle at all (an operation or
event of the module). -/
inductive SlotKind where
  | c | a | long | event
  deriving DecidableEq, Repr

/-- The system registers that the map of R425 numbers. -/
def sysRegKnown (n : BitVec 12) : Bool :=
  let k := n.toNat
  k ≤ 0x006 || (0x008 ≤ k && k ≤ 0x017) || (0x020 ≤ k && k ≤ 0x024) || (0x028 ≤ k && k ≤ 0x02C) || k == 0x030

/-- R39: the precision of a binary8 variant is from 1 to 7. -/
def B8.wf (v : B8) : Bool := v.p != 0

/-- R40: a .d access holds sgn at 0. -/
def sgnWf (size : Size) (sgn : Bool) : Bool := !(size == .d && sgn)

/-- The slot of each row (R42, R44, R47, R48). -/
def Instr.slotKind : Instr → SlotKind
  | .nopc | .beq .. | .bne .. | .blt .. | .bge .. | .bltu .. | .bgeu .. | .bz .. | .bnz .. | .j .. | .jal ..
  | .jr .. | .ld .. | .st .. | .vld .. | .vst .. | .ldg .. | .savem .. | .loadm .. | .pref .. | .sealb .. | .clr ..
  | .probe .. | .bwait .. | .amo .. | .famo .. | .decj .. | .exit | .yield | .migrate .. | .anchorClaim ..
  | .anchorFree .. | .self .. | .fence .. | .push | .pull | .trap .. | .rtt | .mfs .. | .mts .. | .brk ..
  | .idr .. => .c
  | .nopa | .add .. | .sub .. | .mul .. | .mulh .. | .div .. | .rem .. | .and .. | .or .. | .xor .. | .andn ..
  | .shl .. | .shr .. | .sra .. | .rol .. | .min .. | .max .. | .slt .. | .seteq .. | .setne .. | .clz .. | .ctz ..
  | .popc .. | .sext .. | .zext .. | .sel .. | .mov .. | .addi .. | .andi .. | .ori .. | .xori .. | .shi ..
  | .fadd .. | .fsub .. | .fmul .. | .fdiv .. | .fsqrt .. | .fma .. | .fmin .. | .fmax .. | .fsgn .. | .fcmp ..
  | .fcvt .. | .fclass .. | .vadd .. | .vsub .. | .vmul .. | .vfma .. | .vdiv .. | .vsqrt .. | .vmin .. | .vmax ..
  | .vexp2 .. | .vlog2 .. | .vint .. | .vcmp .. | .vselm .. | .vred .. | .vperm .. | .vcvt .. | .vmask ..
  | .vmaskNot .. | .vmaskFromx .. | .vmaskTox .. => .a
  | .movi .. | .movhi .. | .ldl .. | .stl .. | .jl .. | .calll .. | .cas .. | .amol .. | .vlds .. | .vsts ..
  | .vgath .. | .vscat .. | .sbind .. | .sfree .. | .sstat .. | .mbegin .. | .mma .. | .mend .. | .mst .. | .mzero ..
  | .mrv .. | .mva .. | .mscl .. | .mstat .. | .bget .. | .bset .. | .bthr .. | .bblk .. | .bblkSet .. | .bmark ..
  | .cpy .. | .cpyg .. | .cpys .. | .cpyt .. | .cpyc .. | .cpyk .. | .cpywWait .. | .cpywQuery .. | .cvq .. | .cvd ..
  | .cvr .. | .cvwWait .. | .cvwQuery .. | .carm .. | .cdis .. | .cabt .. | .mcast .. | .barrier .. | .cstat ..
  | .ship .. | .shipr .. | .dload .. | .spawn .. | .spawnr .. | .map .. | .unmap .. | .tlbiVa .. | .tlbiCtx ..
  | .tlbiAll | .retype .. | .watchOn .. | .watchOff .. | .zero .. => .long
  | .moduleReset .. | .registerWrite .. | .homeAccess .. | .accessReply .. | .acknowledgement .. | .commit ..
  | .blockAssemblyResume .. | .wake .. | .cancel .. | .holdTimeout .. | .patrolRead .. | .rowSpareDone ..
  | .pageRetirement .. | .spareAdd .. | .poolExt .. | .poolRel .. | .poolReleaseDone | .forcedRemoval ..
  | .vaultPatrol .. | .fmcErr .. | .dimusRun .. | .pptSet .. | .pptBase .. | .moveStart | .moveCut | .moveFinalPass
  | .moveRelease | .moveAbort | .retypeComplete .. | .zeroComplete .. | .channelCompletion .. | .channelResume ..
  | .mmaAccumulation .. | .partialArrival .. | .resultArrival .. | .abortRequest .. | .abortBroadcastArrival ..
  | .corePlaneDiscard .. | .barrierSignal .. | .zinCtl .. | .zinniaSnapshot | .inputElementArrival ..
  | .quantumExpiry .. | .reservationRequest .. | .reservationAnswer .. | .fibreArrival .. | .poolPlacement ..
  | .qWr .. | .qCfg .. | .launchDispatch .. | .rootPlacementRetry .. | .launchCompletion .. | .part ..
  | .evictionSave .. | .evictionDeadline .. | .contextRestore .. | .ebudRefill | .powerMeasurement ..
  | .deadlockEvent .. | .watchdogExpiry .. | .larkStopResume .. | .larkStopKill .. | .larkResume
  | .bar0UnsupportedRequest .. | .bar2Read .. | .bar2Write .. | .hostWriteDrop .. | .hseal .. | .hcbStat
  | .msixUnmask .. | .errorInterrupt | .errCfg .. | .resyncCtl .. | .resyncDone | .fabId .. | .fabricPortTrained ..
  | .fabricPortDown .. | .measExt .. | .attCtl .. | .attestationDone | .taskBreakpoint .. | .traceDrain ..
  | .tilePowerGate .. | .thermalThrottle | .thermalEmergency .. | .illegalEncoding .. | .instructionFetchFault
  | .arithmeticResult .. | .contextKillComplete .. | .fabPort .. => .event

/-- The operand checks of R39 to R48 that a field's width does not make. -/
def Instr.wf : Instr → Bool
  | .ld size sgn _ _ _ _ | .ldl size sgn _ _ _ _ | .ldg size sgn _ _ _ _ => sgnWf size sgn
  | .savem _ list _ => list != 0
  | .loadm xa list _ => list != 0 && !list.getLsbD xa.val
  | .fence kinds _ => kinds != 0
  | .mfs _ reg | .mts reg _ => sysRegKnown reg
  | .shi _ sz _ _ n => sz == .d || decide (n.toNat < 32)
  | .vred op rm _ _ _ => op == .add || rm == .dyn
  | .mbegin act wide p _ => p.val % 2 == 0 || (!wide && act != .reissue)
  | .cpy _ _ _ len _ _ | .cpyc _ _ _ len _ _ => len != 0
  | .cpyg _ _ _ _ rows atoms _ _ | .cpys _ _ _ _ rows atoms _ _ => rows != 0 && atoms != 0
  | .cvq fmt _ _ _ _ rows _ _ | .cvd fmt _ _ _ _ rows _ _ => fmt.wf && rows != 0
  | .cvr src dst _ _ _ _ rows _ _ => src.wf && dst.wf && rows != 0
  | .mcast col _ first last => decide (first.toNat ≤ last.toNat) && (!col || decide (last.toNat ≤ 255))
  | .dload n _ => decide (16 ≤ n.val)
  | .spawn _ t _ _ _ res => t || res.isSome
  | .spawnr t _ _ _ w h res =>
    (t || res.isSome) && decide (1 ≤ w.toNat) && decide (w.toNat ≤ 512) && decide (1 ≤ h.toNat) && decide (h.toNat ≤ 256)
  | .retype ty empty _ _ => !empty || ty == .once
  | .zero _ pages _ => pages != 0
  | _ => true

end Sys2Proof
end

