-- ==== Sys2Proof/Decode.lean ====
section
/-!
DEFINITION. Decoding of bundles (R33 to R51) and the encoder written from the same tables. A word is a natural
number below 2^32; a field is read by division, so that encoding is a sum.
-/

namespace Sys2Proof

/-- Why bytes are no instruction (R50). -/
inductive Reject where
  /-- fewer than 8 bytes were given -/
  | shortBundle
  /-- a C-slot word that R42 does not assign, or a reserved field or value in it -/
  | badC
  /-- an A-slot word that R44 does not assign, or a reserved field or value in it -/
  | badA
  /-- a long bundle that R47 and R48 do not assign, or a reserved field or value in it -/
  | badLong
  /-- a pair that R37 forbids -/
  | badPair
  deriving DecidableEq, Repr

/-- What decoding eight bytes gives. -/
inductive Decoded where
  | ok (b : Bundle)
  | reject (r : Reject)
  deriving DecidableEq, Repr

/-! ## Bit fields and byte order -/

/-- The field of `n` bits of `w` whose lowest bit is `lo` (R6). -/
def fld (w lo n : Nat) : Nat := w / 2 ^ lo % 2 ^ n

/-- The number that bytes hold, the least significant byte first (R5). -/
def natOfBytes : List Byte → Nat
  | [] => 0
  | b :: bs => b.toNat + 256 * natOfBytes bs

/-- The `n` bytes of a number, the least significant first (R5). -/
def bytesOfNat : Nat → Nat → List Byte
  | 0, _ => []
  | n + 1, v => BitVec.ofNat 8 v :: bytesOfNat n (v / 256)

/-- An x register of a 3-bit field (R39). -/
def xr (w lo : Nat) : XR := Fin.ofNat 8 (fld w lo 3)
/-- A v register of a 4-bit field (R39). -/
def vr (w lo : Nat) : VR := Fin.ofNat 16 (fld w lo 4)
/-- A mask register of a 2-bit field (R39). -/
def mr (w lo : Nat) : MR := Fin.ofNat 4 (fld w lo 2)

/-! ## Codes of the operand types -/

/-- Scope codes (R26); 6 and 7 are reserved. -/
def Scope.ofCode : Nat → Option Scope
  | 0 => some .core | 1 => some .tile | 2 => some .sector | 3 => some .quadrant | 4 => some .package
  | 5 => some .span | _ => none
/-- The code of a scope (R26). -/
def Scope.code : Scope → Nat
  | .core => 0 | .tile => 1 | .sector => 2 | .quadrant => 3 | .package => 4 | .span => 5

/-- Size codes (R40). -/
def Size.ofCode : Nat → Size
  | 0 => .b | 1 => .h | 2 => .w | _ => .d
/-- The code of a size, and the base-two logarithm of its bytes (R40). -/
def Size.code : Size → Nat
  | .b => 0 | .h => 1 | .w => 2 | .d => 3

/-- The width that sz names (R40). -/
def Wd.ofBit : Nat → Wd
  | 0 => .w | _ => .d
/-- The bit sz of a width (R40). -/
def Wd.bit : Wd → Nat
  | .w => 0 | .d => 1

/-- Order codes of atomics (R40). -/
def Ord2.ofCode : Nat → Ord2
  | 0 => .relaxed | 1 => .acq | 2 => .rel | _ => .ar
/-- The code of an order (R40). -/
def Ord2.code : Ord2 → Nat
  | .relaxed => 0 | .acq => 1 | .rel => 2 | .ar => 3

/-- Rounding codes (R40); 101 to 111 are reserved. -/
def Rm.ofCode : Nat → Option Rm
  | 0 => some .dyn | 1 => some .rne | 2 => some .rtz | 3 => some .rdn | 4 => some .rup | _ => none
/-- The code of a rounding field (R40). -/
def Rm.code : Rm → Nat
  | .dyn => 0 | .rne => 1 | .rtz => 2 | .rdn => 3 | .rup => 4

/-- Operation codes of AMO (R42). -/
def AmoOp.ofCode : Nat → Option AmoOp
  | 0 => some .add | 1 => some .and | 2 => some .or | 3 => some .xor | 4 => some .min | 5 => some .max
  | 6 => some .minu | 7 => some .maxu | 8 => some .swap | _ => none
/-- The code of an AMO operation (R42). -/
def AmoOp.code : AmoOp → Nat
  | .add => 0 | .and => 1 | .or => 2 | .xor => 3 | .min => 4 | .max => 5 | .minu => 6 | .maxu => 7 | .swap => 8

/-- Operation codes of FAMO (R42). -/
def FamoOp.ofCode : Nat → Option FamoOp
  | 0 => some .add | 1 => some .min | 2 => some .max | _ => none
/-- The code of a FAMO operation (R42). -/
def FamoOp.code : FamoOp → Nat
  | .add => 0 | .min => 1 | .max => 2

/-- What SELF names (R42). -/
def SelfKind.ofCode : Nat → SelfKind
  | 0 => .tid | 1 => .core | 2 => .slot | _ => .save
/-- The code of SELF (R42). -/
def SelfKind.code : SelfKind → Nat
  | .tid => 0 | .core => 1 | .slot => 2 | .save => 3

/-- Source widths of SEXT and ZEXT (R44). -/
def ExtFrom.ofCode : Nat → Option ExtFrom
  | 0 => some .b | 1 => some .h | 2 => some .w | _ => none
/-- The code of a source width (R44). -/
def ExtFrom.code : ExtFrom → Nat
  | .b => 0 | .h => 1 | .w => 2

/-- The shift of imm19[8:7] (R44). -/
def ShOp.ofCode : Nat → ShOp
  | 0 => .shl | 1 => .shr | 2 => .sra | _ => .rol
/-- The code of a shift (R44). -/
def ShOp.code : ShOp → Nat
  | .shl => 0 | .shr => 1 | .sra => 2 | .rol => 3

/-- The forms of FSGN (R44). -/
def SgnOp.ofCode : Nat → Option SgnOp
  | 0 => some .copy | 1 => some .neg | 2 => some .xor | _ => none
/-- The code of a form of FSGN (R44). -/
def SgnOp.code : SgnOp → Nat
  | .copy => 0 | .neg => 1 | .xor => 2

/-- The predicates of FCMP (R285). -/
def FPred.ofCode : Nat → Option FPred
  | 0 => some .eq | 1 => some .lt | 2 => some .le | 3 => some .un | _ => none
/-- The code of a predicate of FCMP (R285). -/
def FPred.code : FPred → Nat
  | .eq => 0 | .lt => 1 | .le => 2 | .un => 3

/-- The kinds of FCVT (R286). -/
def CvtKind.ofCode : Nat → Option CvtKind
  | 0 => some .toint | 1 => some .touns | 2 => some .tolong | 3 => some .toulong | 4 => some .fromint
  | 5 => some .fromuns | 6 => some .fromlong | 7 => some .fromulong | 8 => some .tobf16 | 9 => some .frombf16
  | 10 => some .tof16 | 11 => some .fromf16 | _ => none
/-- The code of a kind of FCVT (R286). -/
def CvtKind.code : CvtKind → Nat
  | .toint => 0 | .touns => 1 | .tolong => 2 | .toulong => 3 | .fromint => 4 | .fromuns => 5 | .fromlong => 6
  | .fromulong => 7 | .tobf16 => 8 | .frombf16 => 9 | .tof16 => 10 | .fromf16 => 11

/-- The operations of VINT (R290). -/
def VintOp.ofCode : Nat → Option VintOp
  | 0 => some .add | 1 => some .sub | 2 => some .mul | 3 => some .and | 4 => some .or | 5 => some .xor
  | 6 => some .shl | 7 => some .shr | 8 => some .sra | 9 => some .min | 10 => some .max | 11 => some .minu
  | 12 => some .maxu | _ => none
/-- The code of an operation of VINT (R290). -/
def VintOp.code : VintOp → Nat
  | .add => 0 | .sub => 1 | .mul => 2 | .and => 3 | .or => 4 | .xor => 5 | .shl => 6 | .shr => 7 | .sra => 8
  | .min => 9 | .max => 10 | .minu => 11 | .maxu => 12

/-- The predicates of VCMP (R291). -/
def VPred.ofCode : Nat → Option VPred
  | 0 => some .feq | 1 => some .flt | 2 => some .fle | 3 => some .fun_ | 4 => some .ieq | 5 => some .ilt
  | 6 => some .iltu | _ => none
/-- The code of a predicate of VCMP (R291). -/
def VPred.code : VPred → Nat
  | .feq => 0 | .flt => 1 | .fle => 2 | .fun_ => 3 | .ieq => 4 | .ilt => 5 | .iltu => 6

/-- The reductions of VRED (R293). -/
def RedOp.ofCode : Nat → Option RedOp
  | 0 => some .add | 1 => some .max | 2 => some .min | _ => none
/-- The code of a reduction (R293). -/
def RedOp.code : RedOp → Nat
  | .add => 0 | .max => 1 | .min => 2

/-- The kinds of VCVT (R295). -/
def VcvtKind.ofCode : Nat → Option VcvtKind
  | 0 => some .toint | 1 => some .fromint | 2 => some .touns | 3 => some .fromuns | _ => none
/-- The code of a kind of VCVT (R295). -/
def VcvtKind.code : VcvtKind → Nat
  | .toint => 0 | .fromint => 1 | .touns => 2 | .fromuns => 3

/-- The code of a two-operand mask operation (R296). -/
def MaskOp.code : MaskOp → Nat
  | .and => 0 | .or => 1 | .xor => 2 | .andn => 3

/-- The actions of a group (R48); 11 is reserved. -/
def Act.ofCode : Nat → Option Act
  | 0 => some .none | 1 => some .reissue | 2 => some .trap | _ => Option.none
/-- The code of an action (R48). -/
def Act.code : Act → Nat
  | .none => 0 | .reissue => 1 | .trap => 2

/-- A binary8 variant of its 5-bit code (R39). -/
def B8.ofCode (c : Nat) : B8 :=
  { uns := fld c 4 1 == 1, fin := fld c 3 1 == 1, p := Fin.ofNat 8 (fld c 0 3) }
/-- The 5-bit code of a binary8 variant (R39). -/
def B8.code (v : B8) : Nat := v.uns.toNat * 16 + v.fin.toNat * 8 + v.p.val

/-- Page types of their two-bit code (R125). -/
def PageType.ofCode : Nat → PageType
  | 0 => .strict | 1 => .release | 2 => .once | _ => .priv
/-- The code of a page type (R125). -/
def PageType.code : PageType → Nat
  | .strict => 0 | .release => 1 | .once => 2 | .priv => 3

/-- An optional scope: the bit ord and the field sc, which is 0 when ord is 0 (R42). -/
def optScope (ord sc : Nat) : Option (Option Scope) :=
  if ord = 0 then (if sc = 0 then some none else none) else (Scope.ofCode sc).map some

/-- The mask fields me and mk: mk is 0 when me is 0 (R40). -/
def optMask (me mk : Nat) : Option (Option MR) :=
  if me = 0 then (if mk = 0 then some none else none) else some (some (Fin.ofNat 4 mk))

/-- The generation fields gv and gen: gen is an expected generation that is checked only when gv is 1 (R48). -/
def optGen (gv gen : Nat) : GenArg := if gv = 0 then none else some (BitVec.ofNat 10 gen)

/-- The result fields rv and xr: xr is 0 when rv is 0 (R46). -/
def optXr (rv x : Nat) : Option (Option XR) :=
  if rv = 0 then (if x = 0 then some none else none) else some (some (Fin.ofNat 8 x))

/-- An instruction whose reserved fields are zero and whose operands are well formed, or none. -/
def guardInstr (reserved : Bool) (i : Instr) : Option Instr := if reserved && i.wf then some i else none

/-! ## The C slot (R41, R42) -/

/-- The branch of C-slot opcode 0x01 to 0x06. -/
def decodeBranch (op : Nat) (xa xb : XR) (off : BitVec 19) : Option Instr :=
  match op with
  | 0x01 => some (.beq xa xb off)
  | 0x02 => some (.bne xa xb off)
  | 0x03 => some (.blt xa xb off)
  | 0x04 => some (.bge xa xb off)
  | 0x05 => some (.bltu xa xb off)
  | 0x06 => some (.bgeu xa xb off)
  | _ => none

/-- A C-slot word: W0 with W0[31] = 1 (R41, R42). -/
def decodeC (w : Nat) : Option Instr :=
  let op := fld w 25 6
  let x22 := xr w 22
  let x19 := xr w 19
  let f := fld w 12 7
  let off12 := BitVec.ofNat 12 (fld w 0 12)
  let imm := fld w 0 19
  match op with
  | 0x00 => guardInstr (fld w 0 25 == 0) .nopc
  | 0x01 | 0x02 | 0x03 | 0x04 | 0x05 | 0x06 => decodeBranch op x22 x19 (BitVec.ofNat 19 imm)
  | 0x07 => guardInstr (fld w 19 3 == 0) (.bz x22 (BitVec.ofNat 19 imm))
  | 0x08 => guardInstr (fld w 19 3 == 0) (.bnz x22 (BitVec.ofNat 19 imm))
  | 0x09 => some (.j (BitVec.ofNat 25 (fld w 0 25)))
  | 0x0A => some (.jal (BitVec.ofNat 25 (fld w 0 25)))
  | 0x0B => guardInstr (fld w 22 3 == 0 && imm == 0) (.jr x19)
  | 0x10 => (optScope (fld w 15 1) (fld w 12 3)).bind fun acq =>
      guardInstr true (.ld (Size.ofCode (fld w 17 2)) (fld w 16 1 == 1) acq x22 x19 off12)
  | 0x11 => (optScope (fld w 15 1) (fld w 12 3)).bind fun rel =>
      guardInstr (fld w 16 1 == 0) (.st (Size.ofCode (fld w 17 2)) rel x22 x19 off12)
  | 0x12 => (optMask (fld w 17 1) (fld w 15 2)).bind fun mk =>
      guardInstr (fld w 12 3 == 0) (.vld (vr w 21) (xr w 18) mk off12)
  | 0x13 => (optMask (fld w 17 1) (fld w 15 2)).bind fun mk =>
      guardInstr (fld w 12 3 == 0) (.vst (vr w 21) (xr w 18) mk off12)
  | 0x14 => guardInstr (fld w 12 1 == 0)
      (.ldg (Size.ofCode (fld w 14 2)) (fld w 13 1 == 1) x22 x19 (xr w 16) off12)
  | 0x15 => guardInstr true (.savem x22 (BitVec.ofNat 10 (fld w 12 10)) off12)
  | 0x16 => guardInstr true (.loadm x22 (BitVec.ofNat 10 (fld w 12 10)) off12)
  | 0x17 => guardInstr (fld w 22 3 == 0 && fld w 12 5 == 0 && fld w 18 1 == 0) (.pref (fld w 17 1 == 1) x19 off12)
  | 0x18 => guardInstr (fld w 22 3 == 0 && f == 0) (.sealb x19 off12)
  | 0x19 => guardInstr (fld w 22 3 == 0 && f == 0) (.clr x19 off12)
  | 0x1A => guardInstr (f == 0) (.probe x22 x19 off12)
  | 0x1B => guardInstr (fld w 22 3 == 0 && f == 0) (.bwait x19 off12)
  | 0x20 => (AmoOp.ofCode (fld w 12 4)).bind fun aop => (Scope.ofCode (fld w 6 3)).bind fun sc =>
      guardInstr (fld w 0 5 == 0)
        (.amo aop (Wd.ofBit (fld w 11 1)) (Ord2.ofCode (fld w 9 2)) sc (fld w 5 1 == 1) x22 (xr w 16) x19)
  | 0x21 => (FamoOp.ofCode (fld w 12 4)).bind fun aop => (Scope.ofCode (fld w 6 3)).bind fun sc =>
      guardInstr (fld w 0 5 == 0 && fld w 11 1 == 0)
        (.famo aop (Ord2.ofCode (fld w 9 2)) sc (fld w 5 1 == 1) x22 (xr w 16) x19)
  | 0x22 => guardInstr (fld w 12 4 == 0 && fld w 9 2 == 0 && fld w 0 6 == 0 && (fld w 6 3 == 4 || fld w 6 3 == 5))
      (.decj (Wd.ofBit (fld w 11 1)) (fld w 6 3 == 5) x22 x19 (xr w 16))
  | 0x28 => guardInstr (fld w 0 25 == 0) .exit
  | 0x29 => guardInstr (fld w 0 25 == 0) .yield
  | 0x2A => guardInstr (fld w 22 3 == 0 && fld w 1 18 == 0) (.migrate (fld w 0 1 == 1) x19)
  | 0x2B => guardInstr (fld w 1 21 == 0) (if fld w 0 1 = 1 then .anchorClaim x22 else .anchorFree x22)
  | 0x2C => guardInstr (fld w 2 20 == 0) (.self (SelfKind.ofCode (fld w 0 2)) x22)
  | 0x30 => (Scope.ofCode (fld w 4 3)).bind fun sc =>
      guardInstr (fld w 7 18 == 0) (.fence (BitVec.ofNat 4 (fld w 0 4)) sc)
  | 0x31 => guardInstr (fld w 0 25 == 0) .push
  | 0x32 => guardInstr (fld w 0 25 == 0) .pull
  | 0x38 => guardInstr (fld w 16 9 == 0) (.trap (BitVec.ofNat 16 (fld w 0 16)))
  | 0x39 => guardInstr (fld w 0 25 == 0) .rtt
  | 0x3A => guardInstr (fld w 12 10 == 0) (.mfs x22 off12)
  | 0x3B => guardInstr (fld w 22 3 == 0 && f == 0) (.mts off12 x19)
  | 0x3C => guardInstr (fld w 16 9 == 0) (.brk (BitVec.ofNat 16 (fld w 0 16)))
  | 0x3D => guardInstr (fld w 4 18 == 0 && decide (fld w 0 4 < 9)) (.idr x22 (Fin.ofNat 9 (fld w 0 4)))
  | _ => none

/-! ## The A slot (R43, R44) -/

/-- An A-slot word in format AR: opcodes 0x00 to 0x1A and 0x20 to 0x2B. -/
def decodeAr (w : Nat) : Option Instr :=
  let op := fld w 26 6
  let xd := xr w 23
  let xa := xr w 20
  let xb := xr w 17
  let xc := xr w 14
  let sz := Wd.ofBit (fld w 13 1)
  let fn := fld w 9 4
  let u := fld w 9 1 == 1
  -- the fields that most rows leave reserved
  let rB := fld w 17 3 == 0
  let rC := fld w 14 3 == 0
  let rSz := fld w 13 1 == 0
  let rFn := fn == 0
  let rFnU := fld w 10 3 == 0
  let rRm := fld w 6 3 == 0
  let r0 := fld w 0 6 == 0
  let plain := rC && rFn && rRm && r0
  let plainU := rC && rFnU && rRm && r0
  let plain1 := plain && rB
  let fp := rC && rSz && rFn && r0
  match op with
  | 0x00 => guardInstr (fld w 0 26 == 0) .nopa
  | 0x01 => guardInstr plain (.add sz xd xa xb)
  | 0x02 => guardInstr plain (.sub sz xd xa xb)
  | 0x03 => guardInstr plain (.mul sz xd xa xb)
  | 0x04 => guardInstr plainU (.mulh u sz xd xa xb)
  | 0x05 => guardInstr plainU (.div u sz xd xa xb)
  | 0x06 => guardInstr plainU (.rem u sz xd xa xb)
  | 0x07 => guardInstr plain (.and sz xd xa xb)
  | 0x08 => guardInstr plain (.or sz xd xa xb)
  | 0x09 => guardInstr plain (.xor sz xd xa xb)
  | 0x0A => guardInstr plain (.andn sz xd xa xb)
  | 0x0B => guardInstr plain (.shl sz xd xa xb)
  | 0x0C => guardInstr plain (.shr sz xd xa xb)
  | 0x0D => guardInstr plain (.sra sz xd xa xb)
  | 0x0E => guardInstr plain (.rol sz xd xa xb)
  | 0x0F => guardInstr plainU (.min u sz xd xa xb)
  | 0x10 => guardInstr plainU (.max u sz xd xa xb)
  | 0x11 => guardInstr plainU (.slt u sz xd xa xb)
  | 0x12 => guardInstr plain (.seteq sz xd xa xb)
  | 0x13 => guardInstr plain (.setne sz xd xa xb)
  | 0x14 => guardInstr plain1 (.clz sz xd xa)
  | 0x15 => guardInstr plain1 (.ctz sz xd xa)
  | 0x16 => guardInstr plain1 (.popc sz xd xa)
  | 0x17 => (ExtFrom.ofCode fn).bind fun e => guardInstr (rB && rC && rSz && rRm && r0) (.sext e xd xa)
  | 0x18 => (ExtFrom.ofCode fn).bind fun e => guardInstr (rB && rC && rSz && rRm && r0) (.zext e xd xa)
  | 0x19 => guardInstr (rFn && rRm && r0) (.sel sz xd xa xb xc)
  | 0x1A => guardInstr (plain1 && rSz) (.mov xd xa)
  | 0x20 => (Rm.ofCode (fld w 6 3)).bind fun rm => guardInstr fp (.fadd rm xd xa xb)
  | 0x21 => (Rm.ofCode (fld w 6 3)).bind fun rm => guardInstr fp (.fsub rm xd xa xb)
  | 0x22 => (Rm.ofCode (fld w 6 3)).bind fun rm => guardInstr fp (.fmul rm xd xa xb)
  | 0x23 => (Rm.ofCode (fld w 6 3)).bind fun rm => guardInstr fp (.fdiv rm xd xa xb)
  | 0x24 => (Rm.ofCode (fld w 6 3)).bind fun rm => guardInstr (fp && rB) (.fsqrt rm xd xa)
  | 0x25 => (Rm.ofCode (fld w 6 3)).bind fun rm => guardInstr (rSz && rFn && r0) (.fma rm xd xa xb xc)
  | 0x26 => guardInstr (fp && rRm) (.fmin xd xa xb)
  | 0x27 => guardInstr (fp && rRm) (.fmax xd xa xb)
  | 0x28 => (SgnOp.ofCode fn).bind fun o => guardInstr (rC && rSz && rRm && r0) (.fsgn o xd xa xb)
  | 0x29 => (FPred.ofCode fn).bind fun o => guardInstr (rC && rSz && rRm && r0) (.fcmp o xd xa xb)
  | 0x2A => (CvtKind.ofCode fn).bind fun k => (Rm.ofCode (fld w 6 3)).bind fun rm =>
      guardInstr (rB && rC && rSz && r0) (.fcvt k rm xd xa)
  | 0x2B => guardInstr (fp && rB && rRm) (.fclass xd xa)
  | _ => none

/-- An A-slot word in format AI: opcodes 0x1B to 0x1F. -/
def decodeAi (w : Nat) : Option Instr :=
  let xd := xr w 23
  let xa := xr w 20
  let sz := Wd.ofBit (fld w 19 1)
  let imm := BitVec.ofNat 19 (fld w 0 19)
  match fld w 26 6 with
  | 0x1B => some (.addi sz xd xa imm)
  | 0x1C => some (.andi sz xd xa imm)
  | 0x1D => some (.ori sz xd xa imm)
  | 0x1E => some (.xori sz xd xa imm)
  | 0x1F => guardInstr (fld w 9 10 == 0 && fld w 6 1 == 0)
      (.shi (ShOp.ofCode (fld w 7 2)) sz xd xa (BitVec.ofNat 6 (fld w 0 6)))
  | _ => none

/-- A permutation of fn and the field vc of VPERM (R294). -/
def decodePerm (fn vc : Nat) : Option PermOp :=
  match fn with
  | 0 => if vc < 4 then some (.bcast (Fin.ofNat 4 vc)) else none
  | 1 => if vc < 4 then some (.rot (Fin.ofNat 4 vc)) else none
  | 2 => if vc = 0 then some .swap else none
  | 3 => if vc = 0 then some .rev else none
  | _ => none

/-- VMASK by its field fn (R296). -/
def decodeVmask (w : Nat) : Option Instr :=
  let vd := fld w 22 4
  let va := fld w 18 4
  let vb := fld w 14 4
  let rest := fld w 4 10 == 0
  let dM := decide (vd < 4)
  let aM := decide (va < 4)
  let bM := decide (vb < 4)
  match fld w 0 4 with
  | 0 => guardInstr (rest && dM && aM && bM) (.vmask .and (mr w 22) (mr w 18) (mr w 14))
  | 1 => guardInstr (rest && dM && aM && bM) (.vmask .or (mr w 22) (mr w 18) (mr w 14))
  | 2 => guardInstr (rest && dM && aM && bM) (.vmask .xor (mr w 22) (mr w 18) (mr w 14))
  | 3 => guardInstr (rest && dM && aM && bM) (.vmask .andn (mr w 22) (mr w 18) (mr w 14))
  | 4 => guardInstr (rest && dM && aM && vb == 0) (.vmaskNot (mr w 22) (mr w 18))
  | 5 => guardInstr (rest && dM && decide (va < 8) && vb == 0) (.vmaskFromx (mr w 22) (xr w 18))
  | 6 => guardInstr (rest && decide (vd < 8) && aM && vb == 0) (.vmaskTox (xr w 22) (mr w 18))
  | _ => none

/-- An A-slot word in format AV: opcodes 0x2C to 0x3C. -/
def decodeAv (w : Nat) : Option Instr :=
  let vd := vr w 22
  let va := vr w 18
  let vb := vr w 14
  let vc := vr w 10
  let fn := fld w 0 4
  let rB := fld w 14 4 == 0
  let rC := fld w 10 4 == 0
  let rRm := fld w 4 3 == 0
  let rFn := fn == 0
  let rm := Rm.ofCode (fld w 4 3)
  let mk := optMask (fld w 9 1) (fld w 7 2)
  match fld w 26 6 with
  | 0x2C => rm.bind fun rm => mk.bind fun mk => guardInstr (rC && rFn) (.vadd rm vd va vb mk)
  | 0x2D => rm.bind fun rm => mk.bind fun mk => guardInstr (rC && rFn) (.vsub rm vd va vb mk)
  | 0x2E => rm.bind fun rm => mk.bind fun mk => guardInstr (rC && rFn) (.vmul rm vd va vb mk)
  | 0x2F => rm.bind fun rm => mk.bind fun mk => guardInstr rFn (.vfma rm vd va vb vc mk)
  | 0x30 => rm.bind fun rm => mk.bind fun mk => guardInstr (rC && rFn) (.vdiv rm vd va vb mk)
  | 0x31 => rm.bind fun rm => mk.bind fun mk => guardInstr (rB && rC && rFn) (.vsqrt rm vd va mk)
  | 0x32 => mk.bind fun mk => guardInstr (rC && rRm && rFn) (.vmin vd va vb mk)
  | 0x33 => mk.bind fun mk => guardInstr (rC && rRm && rFn) (.vmax vd va vb mk)
  | 0x34 => rm.bind fun rm => mk.bind fun mk => guardInstr (rB && rC && rFn) (.vexp2 rm vd va mk)
  | 0x35 => rm.bind fun rm => mk.bind fun mk => guardInstr (rB && rC && rFn) (.vlog2 rm vd va mk)
  | 0x36 => (VintOp.ofCode fn).bind fun o => mk.bind fun mk => guardInstr (rC && rRm) (.vint o vd va vb mk)
  | 0x37 => (VPred.ofCode fn).bind fun o => mk.bind fun mk =>
      guardInstr (rC && rRm && decide (fld w 22 4 < 4)) (.vcmp o (mr w 22) va vb mk)
  | 0x38 => guardInstr (rC && rRm && rFn && fld w 9 1 == 1) (.vselm vd va vb (mr w 7))
  | 0x39 => (RedOp.ofCode fn).bind fun o => rm.bind fun rm => mk.bind fun mk =>
      guardInstr (rB && rC && decide (fld w 22 4 < 8)) (.vred o rm (xr w 22) va mk)
  | 0x3A => (decodePerm fn (fld w 10 4)).bind fun o => mk.bind fun mk => guardInstr (rB && rRm) (.vperm o vd va mk)
  | 0x3B => (VcvtKind.ofCode fn).bind fun k => rm.bind fun rm => mk.bind fun mk =>
      guardInstr (rB && rC) (.vcvt k rm vd va mk)
  | 0x3C => decodeVmask w
  | _ => none

/-- An A-slot word: W1 of a pair (R43, R44). -/
def decodeA (w : Nat) : Option Instr :=
  let op := fld w 26 6
  if 0x1B ≤ op ∧ op ≤ 0x1F then decodeAi w
  else if 0x2C ≤ op then decodeAv w
  else decodeAr w

/-! ## Long bundles (R45 to R48) -/

/-- Opcodes 0x00 to 0x16, formats LI, LJ, LM, LV and LS (R47). -/
def decodeLongLow (w0 w1 : Nat) : Option Instr :=
  let off32 := BitVec.ofNat 32 w1
  let lmX := xr w0 21
  let lmA := xr w0 18
  let lmS := xr w0 15
  let lvV := vr w0 20
  let lvA := xr w0 17
  let lvMk := optMask (fld w0 9 1) (fld w0 7 2)
  match fld w0 24 7 with
  | 0x00 => guardInstr (fld w0 16 5 == 0) (.movi (xr w0 21) (BitVec.ofNat 48 (fld w0 0 16 * 2 ^ 32 + w1)))
  | 0x01 => guardInstr (fld w0 16 5 == 0 && w1 == 0) (.movhi (xr w0 21) (BitVec.ofNat 16 (fld w0 0 16)))
  | 0x02 => (optScope (fld w0 11 1) (fld w0 8 3)).bind fun acq =>
      guardInstr (fld w0 15 3 == 0 && fld w0 0 8 == 0)
        (.ldl (Size.ofCode (fld w0 13 2)) (fld w0 12 1 == 1) acq lmX lmA off32)
  | 0x03 => (optScope (fld w0 11 1) (fld w0 8 3)).bind fun rel =>
      guardInstr (fld w0 21 3 == 0 && fld w0 12 1 == 0 && fld w0 0 8 == 0)
        (.stl (Size.ofCode (fld w0 13 2)) rel lmS lmA off32)
  | 0x04 => guardInstr (fld w0 13 11 == 0) (.jl (BitVec.ofNat 45 (fld w0 0 13 * 2 ^ 32 + w1)))
  | 0x05 => guardInstr (fld w0 13 11 == 0) (.calll (BitVec.ofNat 45 (fld w0 0 13 * 2 ^ 32 + w1)))
  | 0x06 => (Scope.ofCode (fld w0 5 3)).bind fun sc =>
      guardInstr (fld w0 11 4 == 0 && fld w0 0 4 == 0)
        (.cas (Wd.ofBit (fld w0 10 1)) (Ord2.ofCode (fld w0 8 2)) sc (fld w0 4 1 == 1) lmX lmS lmA off32)
  | 0x07 => (AmoOp.ofCode (fld w0 11 4)).bind fun o => (Scope.ofCode (fld w0 5 3)).bind fun sc =>
      guardInstr (fld w0 0 4 == 0)
        (.amol o (Wd.ofBit (fld w0 10 1)) (Ord2.ofCode (fld w0 8 2)) sc (fld w0 4 1 == 1) lmX lmS lmA off32)
  | 0x10 => lvMk.bind fun mk =>
      guardInstr (fld w0 10 4 == 0 && fld w0 0 7 == 0) (.vlds lvV lvA (xr w0 14) mk off32)
  | 0x11 => lvMk.bind fun mk =>
      guardInstr (fld w0 10 4 == 0 && fld w0 0 7 == 0) (.vsts lvV lvA (xr w0 14) mk off32)
  | 0x12 => lvMk.bind fun mk =>
      guardInstr (fld w0 14 3 == 0 && fld w0 2 5 == 0)
        (.vgath lvV lvA (vr w0 10) (Fin.ofNat 4 (fld w0 0 2)) mk off32)
  | 0x13 => lvMk.bind fun mk =>
      guardInstr (fld w0 14 3 == 0 && fld w0 2 5 == 0)
        (.vscat lvV lvA (vr w0 10) (Fin.ofNat 4 (fld w0 0 2)) mk off32)
  | 0x14 => guardInstr (fld w0 0 19 == 0 && w1 == 0) (.sbind (Fin.ofNat 4 (fld w0 22 2)) (xr w0 19))
  | 0x15 => guardInstr (fld w0 0 22 == 0 && w1 == 0) (.sfree (Fin.ofNat 4 (fld w0 22 2)))
  | 0x16 => guardInstr (fld w0 19 3 == 0 && fld w0 0 16 == 0 && w1 == 0)
      (.sstat (xr w0 16) (Fin.ofNat 4 (fld w0 22 2)))
  | _ => none

/-- The fields of format LE (R45, R46). -/
structure Le where
  ec : Nat
  p  : Nat
  xa : Nat
  xb : Nat
  xc : Nat
  xr : Nat
  rv : Nat
  f  : Nat
  w1 : Nat
  deriving DecidableEq, Repr

/-- The fields of a long bundle in format LE. -/
def Le.ofWords (w0 w1 : Nat) : Le :=
  { ec := fld w0 22 2, p := fld w0 19 3, xa := fld w0 16 3, xb := fld w0 13 3, xc := fld w0 10 3,
    xr := fld w0 7 3, rv := fld w0 6 1, f := fld w0 0 6, w1 := w1 }

/-- W0 of a long bundle in format LE. -/
def Le.w0 (op : Nat) (l : Le) : Nat :=
  op * 2 ^ 24 + l.ec * 2 ^ 22 + l.p * 2 ^ 19 + l.xa * 2 ^ 16 + l.xb * 2 ^ 13 + l.xc * 2 ^ 10 + l.xr * 2 ^ 7
    + l.rv * 2 ^ 6 + l.f

/-- An x register of an LE field. -/
def fx (n : Nat) : XR := Fin.ofNat 8 n

/-- Matrix and bound rows, opcodes 0x20 to 0x34 (R48). -/
def decodeMatrix (op : Nat) (l : Le) : Option Instr :=
  let p := fx l.p
  let rP := l.p == 0
  let rA := l.xa == 0
  let rB := l.xb == 0
  let rC := l.xc == 0
  let rR := l.xr == 0 && l.rv == 0
  let rF := l.f == 0
  let r1 := l.w1 == 0
  let k := BitVec.ofNat 8 (fld l.w1 0 8)
  let kOnly := fld l.w1 8 24 == 0
  let strideOnly := fld l.w1 20 12 == 0
  let stride := BitVec.ofNat 20 (fld l.w1 0 20)
  let cellOnly := fld l.w1 5 3 == 0 && fld l.w1 11 21 == 0
  let row : Fin 32 := Fin.ofNat 32 (fld l.w1 0 5)
  let grp : Fin 8 := Fin.ofNat 8 (fld l.w1 8 3)
  let f2 := fld l.f 0 2 == 0
  match op with
  | 0x20 => (Act.ofCode (fld l.f 4 2)).bind fun a =>
      guardInstr (l.ec == 0 && rA && rB && rC && rR && fld l.f 0 3 == 0 && kOnly) (.mbegin a (fld l.f 3 1 == 1) p k)
  | 0x21 => guardInstr (l.ec == 3 && rC && rR && rF && strideOnly) (.mma p (fx l.xa) (fx l.xb) stride)
  | 0x22 => guardInstr (l.ec == 0 && rA && rB && rC && rR && rF && r1) (.mend p)
  | 0x23 => guardInstr (l.ec == 2 && rB && rC && rR && rF && strideOnly) (.mst p (fx l.xa) stride)
  | 0x24 => guardInstr (l.ec == 0 && rA && rB && rC && rR && rF && r1) (.mzero p)
  | 0x25 => guardInstr (l.ec == 0 && rA && rB && rC && rR && f2 && cellOnly)
      (.mrv (Fin.ofNat 16 (fld l.f 2 4)) p row grp)
  | 0x26 => guardInstr (l.ec == 0 && rA && rB && rC && rR && f2 && cellOnly)
      (.mva p (Fin.ofNat 16 (fld l.f 2 4)) row grp)
  | 0x27 => guardInstr (l.ec == 0 && rA && rB && rC && rR && rF && fld l.w1 8 24 == 0)
      (.mscl p (Fin.ofNat 16 (fld l.w1 0 4)) (Fin.ofNat 16 (fld l.w1 4 4)))
  | 0x28 => guardInstr (l.ec == 0 && rA && rB && rC && l.rv == 1 && rF && r1) (.mstat (fx l.xr) p)
  | 0x30 => guardInstr (l.ec == 0 && rA && rB && rC && l.rv == 1 && rF && r1) (.bget (fx l.xr) p)
  | 0x31 => guardInstr (l.ec == 0 && rB && rC && rR && rF && r1) (.bset p (fx l.xa))
  | 0x32 => (Act.ofCode (fld l.f 4 2)).bind fun a =>
      guardInstr (l.ec == 0 && rA && rB && rC && rR && fld l.f 0 4 == 0 && kOnly) (.bthr a p k)
  | 0x33 =>
      if l.f = 0 then guardInstr (l.ec == 0 && rP && rB && rC && l.rv == 1 && r1) (.bblk (fx l.xr) (fx l.xa))
      else guardInstr (l.ec == 0 && rP && rC && rR && l.f == 1 && r1) (.bblkSet (fx l.xa) (fx l.xb))
  | 0x34 => guardInstr (l.ec == 0 && rP && rC && rR && rF && r1) (.bmark (fx l.xa) (fx l.xb))
  | _ => none

/-- Copy and conversion rows, opcodes 0x38 to 0x43 (R48). -/
def decodeEngine (op : Nat) (l : Le) : Option Instr :=
  let ch : Fin 8 := fx l.p
  let cv : Fin 4 := Fin.ofNat 4 l.p
  let cvOk := decide (l.p < 4)
  let xa := fx l.xa
  let xb := fx l.xb
  let xc := fx l.xc
  let rA := l.xa == 0
  let rB := l.xb == 0
  let rC := l.xc == 0
  let rF := l.f == 0
  let r1 := l.w1 == 0
  let gen := optGen (fld l.w1 21 1) (fld l.w1 22 10)
  let done := optXr l.rv l.xr
  let len := BitVec.ofNat 21 (fld l.w1 0 21)
  let rows := BitVec.ofNat 9 (fld l.w1 12 9)
  let atoms := BitVec.ofNat 12 (fld l.w1 0 12)
  let rows16 := BitVec.ofNat 16 (fld l.w1 0 16)
  let r5 := fld l.w1 16 5 == 0
  let fmt := B8.ofCode (fld l.f 0 5)
  let f5 := fld l.f 5 1 == 0
  match op with
  | 0x38 => done.bind fun d => guardInstr (l.ec == 1 && rC && rF) (.cpy ch xb xa len gen d)
  | 0x39 => done.bind fun d => guardInstr (l.ec == 1 && rF) (.cpyg ch xb xa xc rows atoms gen d)
  | 0x3A => done.bind fun d => guardInstr (l.ec == 1 && rF) (.cpys ch xb xa xc rows atoms gen d)
  | 0x3B => done.bind fun d => guardInstr (l.ec == 1 && rF) (.cpyt ch xb xa xc len gen d)
  | 0x3C => done.bind fun d => guardInstr (l.ec == 1 && rC && rF) (.cpyc ch xb xa len gen d)
  | 0x3D => done.bind fun d =>
      guardInstr (l.ec == 1 && rB && fld l.f 4 2 == 0 && fld l.w1 0 21 == 0)
        (.cpyk ch (Fin.ofNat 16 (fld l.f 0 4)) xa xc gen d)
  | 0x3E => guardInstr (l.ec == 0 && rA && rB && rC && l.rv == 1 && fld l.f 1 5 == 0 && r1)
      (if l.f = 0 then .cpywWait ch (fx l.xr) else .cpywQuery ch (fx l.xr))
  | 0x40 => done.bind fun d =>
      guardInstr (l.ec == 2 && cvOk && r5 && f5) (.cvq fmt cv xb xa xc rows16 gen d)
  | 0x41 => done.bind fun d =>
      guardInstr (l.ec == 2 && cvOk && r5 && f5) (.cvd fmt cv xb xa xc rows16 gen d)
  | 0x42 => done.bind fun d =>
      guardInstr (l.ec == 2 && cvOk && f5) (.cvr (B8.ofCode (fld l.w1 16 5)) fmt cv xb xa xc rows16 gen d)
  | 0x43 => guardInstr (l.ec == 0 && cvOk && rA && rB && rC && l.rv == 1 && fld l.f 1 5 == 0 && r1)
      (if l.f = 0 then .cvwWait cv (fx l.xr) else .cvwQuery cv (fx l.xr))
  | _ => none

/-- Collective and Dimus rows, opcodes 0x48 to 0x52 (R48). -/
def decodeCollective (op : Nat) (l : Le) : Option Instr :=
  let xa := fx l.xa
  let xb := fx l.xb
  let rP := l.p == 0
  let rB := l.xb == 0
  let rC := l.xc == 0
  let rR := l.xr == 0 && l.rv == 0
  let rF := l.f == 0
  let r1 := l.w1 == 0
  let n : Fin 64 := Fin.ofNat 64 l.f
  match op with
  | 0x48 => guardInstr (l.ec == 1 && rP && rC && rR && rF && r1) (.carm xa xb)
  | 0x49 => guardInstr (l.ec == 0 && rP && rB && rC && rR && rF && r1) (.cdis xa)
  | 0x4A => guardInstr (l.ec == 0 && rP && rB && rC && rR && rF && fld l.w1 16 16 == 0)
      (.cabt xa (BitVec.ofNat 16 (fld l.w1 0 16)))
  | 0x4B => guardInstr (l.ec == 1 && rP && rB && rC && rR && fld l.f 1 5 == 0 && fld l.w1 9 7 == 0 && fld l.w1 25 7 == 0)
      (.mcast (fld l.f 0 1 == 1) xa (BitVec.ofNat 9 (fld l.w1 0 9)) (BitVec.ofNat 9 (fld l.w1 16 9)))
  | 0x4C => guardInstr (l.ec == 1 && rP && rB && rC && l.rv == 1 && rF && r1) (.barrier xa (fx l.xr))
  | 0x4D => guardInstr (l.ec == 0 && rP && rB && rC && l.rv == 1 && rF && r1) (.cstat (fx l.xr) xa)
  | 0x50 => guardInstr (l.ec == 1 && rP && rR && r1) (.ship n xa xb (fx l.xc))
  | 0x51 => guardInstr (l.ec == 1 && rP && l.rv == 1 && r1) (.shipr n (fx l.xr) xa xb (fx l.xc))
  | 0x52 => guardInstr (l.ec == 0 && rP && rB && rC && rR && r1) (.dload n xa)
  | _ => none

/-- Fibre and system rows, opcodes 0x58 to 0x67 (R48). -/
def decodeSystem (op : Nat) (l : Le) : Option Instr :=
  let xa := fx l.xa
  let xb := fx l.xb
  let rP := l.p == 0
  let rA := l.xa == 0
  let rB := l.xb == 0
  let rC := l.xc == 0
  let rR := l.xr == 0 && l.rv == 0
  let r1 := l.w1 == 0
  let done := optXr l.rv l.xr
  let e0 := l.ec == 0 && rP
  let lvl : Fin 3 := Fin.ofNat 3 (fld l.f 0 2)
  match op with
  | 0x58 => done.bind fun r => guardInstr (e0 && fld l.f 2 4 == 0 && r1)
      (.spawn (fld l.f 0 1 == 1) (fld l.f 1 1 == 1) xa xb (fx l.xc) r)
  | 0x59 => done.bind fun r =>
      guardInstr (e0 && fld l.f 0 1 == 0 && fld l.f 2 4 == 0 && fld l.w1 10 6 == 0 && fld l.w1 26 6 == 0)
        (.spawnr (fld l.f 1 1 == 1) xa xb (fx l.xc) (BitVec.ofNat 10 (fld l.w1 0 10)) (BitVec.ofNat 10 (fld l.w1 16 10)) r)
  | 0x60 => guardInstr (e0 && rC && rR && decide (l.f < 3) && r1) (.map lvl xa xb)
  | 0x61 => guardInstr (e0 && rB && rC && rR && decide (l.f < 3) && r1) (.unmap lvl xa)
  | 0x62 =>
      if l.f = 0 then guardInstr (e0 && rB && rC && rR && r1) (.tlbiVa xa)
      else if l.f = 1 then guardInstr (e0 && rA && rC && rR && r1) (.tlbiCtx xb)
      else guardInstr (e0 && rA && rB && rC && rR && l.f == 2 && r1) .tlbiAll
  | 0x63 => done.bind fun r => guardInstr (e0 && rB && rC && fld l.f 3 3 == 0 && r1)
      (.retype (PageType.ofCode (fld l.f 0 2)) (fld l.f 2 1 == 1) xa r)
  | 0x64 => guardInstr (e0 && rB && rC && rR && fld l.f 4 2 == 0 && r1)
      (if fld l.f 3 1 = 1 then .watchOn (Fin.ofNat 8 (fld l.f 0 3)) xa else .watchOff (Fin.ofNat 8 (fld l.f 0 3)) xa)
  | 0x67 => done.bind fun r => guardInstr (e0 && rB && rC && l.f == 0 && fld l.w1 16 16 == 0)
      (.zero xa (BitVec.ofNat 16 (fld l.w1 0 16)) r)
  | _ => none

/-- A long bundle: W0 with W0[31] = 0, and W1 (R45 to R48). -/
def decodeLong (w0 w1 : Nat) : Option Instr :=
  let op := fld w0 24 7
  if op < 0x20 then decodeLongLow w0 w1
  else
    let l := Le.ofWords w0 w1
    if op < 0x38 then decodeMatrix op l
    else if op < 0x48 then decodeEngine op l
    else if op < 0x58 then decodeCollective op l
    else decodeSystem op l

/-! ## What an instruction reads and writes (R35, R37, R269) -/

/-- The registers that an instruction names: read and written x, v and mask registers. -/
structure RegUse where
  rx : List XR := []
  wx : List XR := []
  rv : List VR := []
  wv : List VR := []
  rm : List MR := []
  wm : List MR := []
  deriving DecidableEq, Repr

/-- The x registers that a SAVEM or LOADM list names. -/
def listRegs (list : BitVec 10) : List XR := (List.finRange 8).filter fun i => list.getLsbD i.val

/-- The registers each instruction reads and writes, from its entry. -/
def Instr.regUse : Instr → RegUse
  | .beq a b _ | .bne a b _ | .blt a b _ | .bge a b _ | .bltu a b _ | .bgeu a b _ => { rx := [a, b] }
  | .bz a _ | .bnz a _ | .jr a => { rx := [a] }
  | .jal _ | .calll _ => { wx := [7] }
  | .ld _ _ _ d a _ | .ldl _ _ _ d a _ => { rx := [a], wx := [d] }
  | .st _ _ d a _ => { rx := [d, a] }
  | .stl _ _ s a _ => { rx := [s, a] }
  | .vld d a mk _ => { rx := [a], wv := [d], rm := mk.toList }
  | .vst d a mk _ => { rx := [a], rv := [d], rm := mk.toList }
  | .ldg _ _ d a g _ => { rx := [a, g], wx := [d] }
  | .savem a list _ => { rx := a :: listRegs list }
  | .loadm a list _ => { rx := [a], wx := listRegs list }
  | .pref _ a _ | .sealb a _ | .clr a _ | .bwait a _ => { rx := [a] }
  | .probe d a _ => { rx := [a], wx := [d] }
  | .amo _ _ _ _ _ d s a | .famo _ _ _ _ d s a | .amol _ _ _ _ _ d s a _ => { rx := [s, a], wx := [d] }
  | .cas _ _ _ _ d s a _ => { rx := [d, s, a], wx := [d] }
  | .decj _ _ d a s => { rx := [a, s], wx := [d] }
  | .migrate _ a | .mts _ a => { rx := [a] }
  | .anchorClaim d | .anchorFree d | .self _ d | .mfs d _ | .idr d _ => { wx := [d] }
  | .add _ d a b | .sub _ d a b | .mul _ d a b | .and _ d a b | .or _ d a b | .xor _ d a b | .andn _ d a b
  | .shl _ d a b | .shr _ d a b | .sra _ d a b | .rol _ d a b | .seteq _ d a b | .setne _ d a b
  | .fmin d a b | .fmax d a b => { rx := [a, b], wx := [d] }
  | .mulh _ _ d a b | .div _ _ d a b | .rem _ _ d a b | .min _ _ d a b | .max _ _ d a b | .slt _ _ d a b =>
    { rx := [a, b], wx := [d] }
  | .clz _ d a | .ctz _ d a | .popc _ d a | .sext _ d a | .zext _ d a | .fclass d a | .mov d a =>
    { rx := [a], wx := [d] }
  | .sel _ d a b c => { rx := [a, b, c], wx := [d] }
  | .addi _ d a _ | .andi _ d a _ | .ori _ d a _ | .xori _ d a _ | .shi _ _ d a _ => { rx := [a], wx := [d] }
  | .fadd _ d a b | .fsub _ d a b | .fmul _ d a b | .fdiv _ d a b => { rx := [a, b], wx := [d] }
  | .fsqrt _ d a | .fcvt _ _ d a => { rx := [a], wx := [d] }
  | .fma _ d a b c => { rx := [a, b, c], wx := [d] }
  | .fsgn _ d a b | .fcmp _ d a b => { rx := [a, b], wx := [d] }
  | .vadd _ d a b mk | .vsub _ d a b mk | .vmul _ d a b mk | .vdiv _ d a b mk | .vint _ d a b mk =>
    { rv := [a, b], wv := [d], rm := mk.toList }
  | .vmin d a b mk | .vmax d a b mk => { rv := [a, b], wv := [d], rm := mk.toList }
  | .vfma _ d a b c mk => { rv := [a, b, c], wv := [d], rm := mk.toList }
  | .vsqrt _ d a mk | .vexp2 _ d a mk | .vlog2 _ d a mk | .vperm _ d a mk | .vcvt _ _ d a mk =>
    { rv := [a], wv := [d], rm := mk.toList }
  | .vcmp _ d a b mk => { rv := [a, b], wm := [d], rm := mk.toList }
  | .vselm d a b mk => { rv := [a, b], wv := [d], rm := [mk] }
  | .vred _ _ d a mk => { rv := [a], wx := [d], rm := mk.toList }
  | .vmask _ d a b => { wm := [d], rm := [a, b] }
  | .vmaskNot d a => { wm := [d], rm := [a] }
  | .vmaskFromx d a => { rx := [a], wm := [d] }
  | .vmaskTox d a => { wx := [d], rm := [a] }
  | .movi d _ => { wx := [d] }
  | .movhi d _ => { rx := [d], wx := [d] }
  | .vlds d a b mk _ => { rx := [a, b], wv := [d], rm := mk.toList }
  | .vsts d a b mk _ => { rx := [a, b], rv := [d], rm := mk.toList }
  | .vgath d a i _ mk _ => { rx := [a], rv := [i], wv := [d], rm := mk.toList }
  | .vscat d a i _ mk _ => { rx := [a], rv := [d, i], rm := mk.toList }
  | .sbind sp a => { rx := [a], wv := [Fin.ofNat 16 (12 + sp.val)] }
  | .sstat d _ => { wx := [d] }
  | .mma _ a b _ => { rx := [a, b] }
  | .mst _ a _ | .bset _ a => { rx := [a] }
  | .mrv d _ _ _ => { wv := [d] }
  | .mva _ s _ _ => { rv := [s] }
  | .mstat r _ | .bget r _ => { wx := [r] }
  | .bblk r a => { rx := [a], wx := [r] }
  | .bblkSet a b | .bmark a b => { rx := [a, b] }
  | .cpy _ b a _ _ d | .cpyc _ b a _ _ d => { rx := [a, b], wx := d.toList }
  | .cpyg _ b a c _ _ _ d | .cpys _ b a c _ _ _ d => { rx := [a, b, c], wx := d.toList }
  | .cpyt _ b a c _ _ d => { rx := [a, b, c], wx := d.toList }
  | .cpyk _ _ a c _ d => { rx := [a, c], wx := d.toList }
  | .cpywWait _ r | .cpywQuery _ r | .cvwWait _ r | .cvwQuery _ r => { wx := [r] }
  | .cvq _ _ b a c _ _ d | .cvd _ _ b a c _ _ d => { rx := [a, b, c], wx := d.toList }
  | .cvr _ _ _ b a c _ _ d => { rx := [a, b, c], wx := d.toList }
  | .carm a b => { rx := [a, b] }
  | .cdis a | .cabt a _ | .mcast _ a _ _ => { rx := [a] }
  | .barrier a r | .cstat r a => { rx := [a], wx := [r] }
  | .ship _ a b c => { rx := [a, b, c] }
  | .shipr _ r a b c => { rx := [a, b, c], wx := [r] }
  | .dload _ a => { rx := [a] }
  | .spawn _ _ a b c r | .spawnr _ a b c _ _ r => { rx := [a, b, c, 0, 1, 2, 3], wx := r.toList }
  | .map _ a b => { rx := [a, b] }
  | .unmap _ a | .tlbiVa a | .tlbiCtx a | .watchOn _ a | .watchOff _ a => { rx := [a] }
  | .retype _ _ a r => { rx := [a], wx := r.toList }
  | .zero a _ r => { rx := [a], wx := r.toList }
  | _ => {}

/-- R37: the A-slot instructions that write FSW, because they can raise an FP flag. -/
def Instr.raisesFlags : Instr → Bool
  | .fadd .. | .fsub .. | .fmul .. | .fdiv .. | .fsqrt .. | .fma .. | .fmin .. | .fmax .. | .fcmp .. | .fcvt .. => true
  | .vadd .. | .vsub .. | .vmul .. | .vfma .. | .vdiv .. | .vsqrt .. | .vmin .. | .vmax .. | .vexp2 .. | .vlog2 ..
  | .vcmp .. | .vred .. | .vcvt .. => true
  | _ => false

/-- R37: the C-slot instructions that write FSW. -/
def Instr.writesFswC : Instr → Bool
  | .mts reg _ => reg == 0
  | .loadm _ list _ => list.getLsbD 8
  | _ => false

/-- R37: the C-slot instructions that pair with NOPA alone. -/
def Instr.wantsNopa : Instr → Bool
  | .exit | .migrate .. | .trap .. | .brk .. | .rtt | .savem .. | .loadm .. => true
  | _ => false

/-- The pairs that R37 allows. -/
def pairAllowed (c a : Instr) : Bool :=
  let uc := c.regUse
  let ua := a.regUse
  !(uc.wx.any (· ∈ ua.wx)) && !(uc.wv.any (· ∈ ua.wv)) && !(uc.wm.any (· ∈ ua.wm))
    && !(c.writesFswC && a.raisesFlags) && !(c.wantsNopa && a != .nopa)

/-- A bundle of its two words (R34, R37). -/
def decodeWords (w0 w1 : Nat) : Decoded :=
  if fld w0 31 1 = 1 then
    match decodeC w0 with
    | none => .reject .badC
    | some c =>
      match decodeA w1 with
      | none => .reject .badA
      | some a => if pairAllowed c a then .ok (.pair c a) else .reject .badPair
  else
    match decodeLong w0 w1 with
    | none => .reject .badLong
    | some i => .ok (.long i)

/-- A bundle of the first eight of the given bytes, with the rest (R33, R34). -/
def decodeBundle (bs : List Byte) : Decoded × List Byte :=
  if bs.length < 8 then (.reject .shortBundle, bs)
  else (decodeWords (natOfBytes (bs.take 4)) (natOfBytes ((bs.drop 4).take 4)), bs.drop 8)

/-! ## The encoder -/

/-- The words of an instruction: a C-slot word, an A-slot word, or both words of a long bundle. -/
inductive Words where
  | c (w0 : Nat)
  | a (w1 : Nat)
  | long (w0 w1 : Nat)
  deriving DecidableEq, Repr

/-- A C-slot word of its opcode and its fields (R34). -/
def cw (op body : Nat) : Words := .c (2 ^ 31 + op * 2 ^ 25 + body)

/-- Format CM and CS: xd, xa, and the low 19 bits (R41). -/
def cm (op : Nat) (xd xa : Nat) (low : Nat) : Words := cw op (xd * 2 ^ 22 + xa * 2 ^ 19 + low)

/-- Format AR (R43). -/
def ar (op : Nat) (xd xa xb xc sz fn rm : Nat) : Words :=
  .a (op * 2 ^ 26 + xd * 2 ^ 23 + xa * 2 ^ 20 + xb * 2 ^ 17 + xc * 2 ^ 14 + sz * 2 ^ 13 + fn * 2 ^ 9 + rm * 2 ^ 6)

/-- Format AI (R43). -/
def ai (op : Nat) (xd xa sz imm : Nat) : Words := .a (op * 2 ^ 26 + xd * 2 ^ 23 + xa * 2 ^ 20 + sz * 2 ^ 19 + imm)

/-- The bits of a mask operand in format AV and LV: me and mk, mk at the lower place `lo` (R40). -/
def mkBits (lo : Nat) : Option MR → Nat
  | none => 0
  | some m => 2 ^ (lo + 2) + m.val * 2 ^ lo

/-- Format AV (R43). -/
def av (op : Nat) (vd va vb vc : Nat) (mk : Option MR) (rm fn : Nat) : Words :=
  .a (op * 2 ^ 26 + vd * 2 ^ 22 + va * 2 ^ 18 + vb * 2 ^ 14 + vc * 2 ^ 10 + mkBits 7 mk + rm * 2 ^ 4 + fn)

/-- The bits ord and sc of an optional scope, sc at `lo` and ord above it (R42). -/
def scBits (lo : Nat) : Option Scope → Nat
  | none => 0
  | some s => 2 ^ (lo + 3) + s.code * 2 ^ lo

/-- The fields gv and gen of W1 (R48). -/
def genBits : GenArg → Nat
  | none => 0
  | some g => 2 ^ 21 + g.toNat * 2 ^ 22

/-- The fields of an LE bundle that names a result register, or none (R46). -/
def leRes (r : Option XR) (l : Le) : Le :=
  match r with
  | none => l
  | some x => { l with xr := x.val, rv := 1 }

/-- An LE bundle whose fields are all zero. -/
def le0 : Le := { ec := 0, p := 0, xa := 0, xb := 0, xc := 0, xr := 0, rv := 0, f := 0, w1 := 0 }

/-- A long bundle in format LE. -/
def leW (op : Nat) (l : Le) : Words := .long (l.w0 op) l.w1

/-- The code of a permutation and its field vc (R294). -/
def PermOp.codes : PermOp → Nat × Nat
  | .bcast n => (0, n.val)
  | .rot n => (1, n.val)
  | .swap => (2, 0)
  | .rev => (3, 0)

/-- The words of a C-slot instruction (R42). -/
def encodeC : Instr → Option Words
  | .nopc => some (cw 0x00 0)
  | .beq a b off => some (cm 0x01 a b off.toNat)
  | .bne a b off => some (cm 0x02 a b off.toNat)
  | .blt a b off => some (cm 0x03 a b off.toNat)
  | .bge a b off => some (cm 0x04 a b off.toNat)
  | .bltu a b off => some (cm 0x05 a b off.toNat)
  | .bgeu a b off => some (cm 0x06 a b off.toNat)
  | .bz a off => some (cm 0x07 a 0 off.toNat)
  | .bnz a off => some (cm 0x08 a 0 off.toNat)
  | .j off => some (cw 0x09 off.toNat)
  | .jal off => some (cw 0x0A off.toNat)
  | .jr a => some (cm 0x0B 0 a 0)
  | .ld size sgn acq d a off =>
    some (cm 0x10 d a (size.code * 2 ^ 17 + sgn.toNat * 2 ^ 16 + scBits 12 acq + off.toNat))
  | .st size rel d a off => some (cm 0x11 d a (size.code * 2 ^ 17 + scBits 12 rel + off.toNat))
  | .vld d a mk off => some (cw 0x12 (d.val * 2 ^ 21 + a.val * 2 ^ 18 + mkBits 15 mk + off.toNat))
  | .vst d a mk off => some (cw 0x13 (d.val * 2 ^ 21 + a.val * 2 ^ 18 + mkBits 15 mk + off.toNat))
  | .ldg size sgn d a g off =>
    some (cm 0x14 d a (g.val * 2 ^ 16 + size.code * 2 ^ 14 + sgn.toNat * 2 ^ 13 + off.toNat))
  | .savem a list off => some (cw 0x15 (a.val * 2 ^ 22 + list.toNat * 2 ^ 12 + off.toNat))
  | .loadm a list off => some (cw 0x16 (a.val * 2 ^ 22 + list.toNat * 2 ^ 12 + off.toNat))
  | .pref tlbOnly a off => some (cm 0x17 0 a (tlbOnly.toNat * 2 ^ 17 + off.toNat))
  | .sealb a off => some (cm 0x18 0 a off.toNat)
  | .clr a off => some (cm 0x19 0 a off.toNat)
  | .probe d a off => some (cm 0x1A d a off.toNat)
  | .bwait a off => some (cm 0x1B 0 a off.toNat)
  | .amo op sz ord sc mg d s a =>
    some (cm 0x20 d a (s.val * 2 ^ 16 + op.code * 2 ^ 12 + sz.bit * 2 ^ 11 + ord.code * 2 ^ 9 + sc.code * 2 ^ 6
      + mg.toNat * 2 ^ 5))
  | .famo op ord sc mg d s a =>
    some (cm 0x21 d a (s.val * 2 ^ 16 + op.code * 2 ^ 12 + ord.code * 2 ^ 9 + sc.code * 2 ^ 6 + mg.toNat * 2 ^ 5))
  | .decj sz span d a s =>
    some (cm 0x22 d a (s.val * 2 ^ 16 + sz.bit * 2 ^ 11 + (4 + span.toNat) * 2 ^ 6))
  | .exit => some (cw 0x28 0)
  | .yield => some (cw 0x29 0)
  | .migrate v a => some (cm 0x2A 0 a v.toNat)
  | .anchorClaim d => some (cm 0x2B d 0 1)
  | .anchorFree d => some (cm 0x2B d 0 0)
  | .self k d => some (cm 0x2C d 0 k.code)
  | .fence kinds sc => some (cw 0x30 (sc.code * 2 ^ 4 + kinds.toNat))
  | .push => some (cw 0x31 0)
  | .pull => some (cw 0x32 0)
  | .trap code => some (cw 0x38 code.toNat)
  | .rtt => some (cw 0x39 0)
  | .mfs d reg => some (cm 0x3A d 0 reg.toNat)
  | .mts reg a => some (cm 0x3B 0 a reg.toNat)
  | .brk code => some (cw 0x3C code.toNat)
  | .idr d index => some (cm 0x3D d 0 index.val)
  | _ => none

/-- The words of an A-slot instruction (R44). -/
def encodeA : Instr → Option Words
  | .nopa => some (.a 0)
  | .add sz d a b => some (ar 0x01 d a b 0 sz.bit 0 0)
  | .sub sz d a b => some (ar 0x02 d a b 0 sz.bit 0 0)
  | .mul sz d a b => some (ar 0x03 d a b 0 sz.bit 0 0)
  | .mulh u sz d a b => some (ar 0x04 d a b 0 sz.bit u.toNat 0)
  | .div u sz d a b => some (ar 0x05 d a b 0 sz.bit u.toNat 0)
  | .rem u sz d a b => some (ar 0x06 d a b 0 sz.bit u.toNat 0)
  | .and sz d a b => some (ar 0x07 d a b 0 sz.bit 0 0)
  | .or sz d a b => some (ar 0x08 d a b 0 sz.bit 0 0)
  | .xor sz d a b => some (ar 0x09 d a b 0 sz.bit 0 0)
  | .andn sz d a b => some (ar 0x0A d a b 0 sz.bit 0 0)
  | .shl sz d a b => some (ar 0x0B d a b 0 sz.bit 0 0)
  | .shr sz d a b => some (ar 0x0C d a b 0 sz.bit 0 0)
  | .sra sz d a b => some (ar 0x0D d a b 0 sz.bit 0 0)
  | .rol sz d a b => some (ar 0x0E d a b 0 sz.bit 0 0)
  | .min u sz d a b => some (ar 0x0F d a b 0 sz.bit u.toNat 0)
  | .max u sz d a b => some (ar 0x10 d a b 0 sz.bit u.toNat 0)
  | .slt u sz d a b => some (ar 0x11 d a b 0 sz.bit u.toNat 0)
  | .seteq sz d a b => some (ar 0x12 d a b 0 sz.bit 0 0)
  | .setne sz d a b => some (ar 0x13 d a b 0 sz.bit 0 0)
  | .clz sz d a => some (ar 0x14 d a 0 0 sz.bit 0 0)
  | .ctz sz d a => some (ar 0x15 d a 0 0 sz.bit 0 0)
  | .popc sz d a => some (ar 0x16 d a 0 0 sz.bit 0 0)
  | .sext e d a => some (ar 0x17 d a 0 0 0 e.code 0)
  | .zext e d a => some (ar 0x18 d a 0 0 0 e.code 0)
  | .sel sz d a b c => some (ar 0x19 d a b c sz.bit 0 0)
  | .mov d a => some (ar 0x1A d a 0 0 0 0 0)
  | .addi sz d a imm => some (ai 0x1B d a sz.bit imm.toNat)
  | .andi sz d a imm => some (ai 0x1C d a sz.bit imm.toNat)
  | .ori sz d a imm => some (ai 0x1D d a sz.bit imm.toNat)
  | .xori sz d a imm => some (ai 0x1E d a sz.bit imm.toNat)
  | .shi op sz d a n => some (ai 0x1F d a sz.bit (op.code * 2 ^ 7 + n.toNat))
  | .fadd rm d a b => some (ar 0x20 d a b 0 0 0 rm.code)
  | .fsub rm d a b => some (ar 0x21 d a b 0 0 0 rm.code)
  | .fmul rm d a b => some (ar 0x22 d a b 0 0 0 rm.code)
  | .fdiv rm d a b => some (ar 0x23 d a b 0 0 0 rm.code)
  | .fsqrt rm d a => some (ar 0x24 d a 0 0 0 0 rm.code)
  | .fma rm d a b c => some (ar 0x25 d a b c 0 0 rm.code)
  | .fmin d a b => some (ar 0x26 d a b 0 0 0 0)
  | .fmax d a b => some (ar 0x27 d a b 0 0 0 0)
  | .fsgn op d a b => some (ar 0x28 d a b 0 0 op.code 0)
  | .fcmp p d a b => some (ar 0x29 d a b 0 0 p.code 0)
  | .fcvt k rm d a => some (ar 0x2A d a 0 0 0 k.code rm.code)
  | .fclass d a => some (ar 0x2B d a 0 0 0 0 0)
  | .vadd rm d a b mk => some (av 0x2C d a b 0 mk rm.code 0)
  | .vsub rm d a b mk => some (av 0x2D d a b 0 mk rm.code 0)
  | .vmul rm d a b mk => some (av 0x2E d a b 0 mk rm.code 0)
  | .vfma rm d a b c mk => some (av 0x2F d a b c mk rm.code 0)
  | .vdiv rm d a b mk => some (av 0x30 d a b 0 mk rm.code 0)
  | .vsqrt rm d a mk => some (av 0x31 d a 0 0 mk rm.code 0)
  | .vmin d a b mk => some (av 0x32 d a b 0 mk 0 0)
  | .vmax d a b mk => some (av 0x33 d a b 0 mk 0 0)
  | .vexp2 rm d a mk => some (av 0x34 d a 0 0 mk rm.code 0)
  | .vlog2 rm d a mk => some (av 0x35 d a 0 0 mk rm.code 0)
  | .vint op d a b mk => some (av 0x36 d a b 0 mk 0 op.code)
  | .vcmp p d a b mk => some (av 0x37 d a b 0 mk 0 p.code)
  | .vselm d a b mk => some (av 0x38 d a b 0 (some mk) 0 0)
  | .vred op rm d a mk => some (av 0x39 d a 0 0 mk rm.code op.code)
  | .vperm op d a mk => some (av 0x3A d a 0 op.codes.2 mk 0 op.codes.1)
  | .vcvt k rm d a mk => some (av 0x3B d a 0 0 mk rm.code k.code)
  | .vmask op d a b => some (av 0x3C d a b 0 none 0 op.code)
  | .vmaskNot d a => some (av 0x3C d a 0 0 none 0 4)
  | .vmaskFromx d a => some (av 0x3C d a 0 0 none 0 5)
  | .vmaskTox d a => some (av 0x3C d a 0 0 none 0 6)
  | _ => none

/-- The words of a long instruction below opcode 0x20 (R47). -/
def encodeLongLow : Instr → Option Words
  | .movi d imm => some (.long (d.val * 2 ^ 21 + imm.toNat / 2 ^ 32) (imm.toNat % 2 ^ 32))
  | .movhi d imm => some (.long (0x01 * 2 ^ 24 + d.val * 2 ^ 21 + imm.toNat) 0)
  | .ldl size sgn acq d a off =>
    some (.long (0x02 * 2 ^ 24 + d.val * 2 ^ 21 + a.val * 2 ^ 18 + size.code * 2 ^ 13 + sgn.toNat * 2 ^ 12
      + scBits 8 acq) off.toNat)
  | .stl size rel s a off =>
    some (.long (0x03 * 2 ^ 24 + a.val * 2 ^ 18 + s.val * 2 ^ 15 + size.code * 2 ^ 13 + scBits 8 rel) off.toNat)
  | .jl off => some (.long (0x04 * 2 ^ 24 + off.toNat / 2 ^ 32) (off.toNat % 2 ^ 32))
  | .calll off => some (.long (0x05 * 2 ^ 24 + off.toNat / 2 ^ 32) (off.toNat % 2 ^ 32))
  | .cas sz ord sc mg d s a off =>
    some (.long (0x06 * 2 ^ 24 + d.val * 2 ^ 21 + a.val * 2 ^ 18 + s.val * 2 ^ 15 + sz.bit * 2 ^ 10
      + ord.code * 2 ^ 8 + sc.code * 2 ^ 5 + mg.toNat * 2 ^ 4) off.toNat)
  | .amol op sz ord sc mg d s a off =>
    some (.long (0x07 * 2 ^ 24 + d.val * 2 ^ 21 + a.val * 2 ^ 18 + s.val * 2 ^ 15 + op.code * 2 ^ 11
      + sz.bit * 2 ^ 10 + ord.code * 2 ^ 8 + sc.code * 2 ^ 5 + mg.toNat * 2 ^ 4) off.toNat)
  | .vlds d a b mk off =>
    some (.long (0x10 * 2 ^ 24 + d.val * 2 ^ 20 + a.val * 2 ^ 17 + b.val * 2 ^ 14 + mkBits 7 mk) off.toNat)
  | .vsts d a b mk off =>
    some (.long (0x11 * 2 ^ 24 + d.val * 2 ^ 20 + a.val * 2 ^ 17 + b.val * 2 ^ 14 + mkBits 7 mk) off.toNat)
  | .vgath d a i sh mk off =>
    some (.long (0x12 * 2 ^ 24 + d.val * 2 ^ 20 + a.val * 2 ^ 17 + i.val * 2 ^ 10 + mkBits 7 mk + sh.val) off.toNat)
  | .vscat d a i sh mk off =>
    some (.long (0x13 * 2 ^ 24 + d.val * 2 ^ 20 + a.val * 2 ^ 17 + i.val * 2 ^ 10 + mkBits 7 mk + sh.val) off.toNat)
  | .sbind sp a => some (.long (0x14 * 2 ^ 24 + sp.val * 2 ^ 22 + a.val * 2 ^ 19) 0)
  | .sfree sp => some (.long (0x15 * 2 ^ 24 + sp.val * 2 ^ 22) 0)
  | .sstat d sp => some (.long (0x16 * 2 ^ 24 + sp.val * 2 ^ 22 + d.val * 2 ^ 16) 0)
  | _ => none

/-- The words of a long instruction in format LE (R48). -/
def encodeLe : Instr → Option Words
  | .mbegin act wide p k =>
    some (leW 0x20 { le0 with p := p, f := act.code * 16 + wide.toNat * 8, w1 := k.toNat })
  | .mma p a b stride => some (leW 0x21 { le0 with ec := 3, p := p, xa := a, xb := b, w1 := stride.toNat })
  | .mend p => some (leW 0x22 { le0 with p := p })
  | .mst p a stride => some (leW 0x23 { le0 with ec := 2, p := p, xa := a, w1 := stride.toNat })
  | .mzero p => some (leW 0x24 { le0 with p := p })
  | .mrv d p row grp => some (leW 0x25 { le0 with p := p, f := d.val * 4, w1 := row.val + grp.val * 2 ^ 8 })
  | .mva p s row grp => some (leW 0x26 { le0 with p := p, f := s.val * 4, w1 := row.val + grp.val * 2 ^ 8 })
  | .mscl p rs cs => some (leW 0x27 { le0 with p := p, w1 := rs.val + cs.val * 16 })
  | .mstat r p => some (leW 0x28 (leRes (some r) { le0 with p := p }))
  | .bget r p => some (leW 0x30 (leRes (some r) { le0 with p := p }))
  | .bset p a => some (leW 0x31 { le0 with p := p, xa := a })
  | .bthr act p k => some (leW 0x32 { le0 with p := p, f := act.code * 16, w1 := k.toNat })
  | .bblk r a => some (leW 0x33 (leRes (some r) { le0 with xa := a }))
  | .bblkSet a b => some (leW 0x33 { le0 with xa := a, xb := b, f := 1 })
  | .bmark a b => some (leW 0x34 { le0 with xa := a, xb := b })
  | .cpy ch b a len g d =>
    some (leW 0x38 (leRes d { le0 with ec := 1, p := ch, xa := a, xb := b, w1 := genBits g + len.toNat }))
  | .cpyg ch b a c rows atoms g d =>
    some (leW 0x39 (leRes d { le0 with
      ec := 1, p := ch, xa := a, xb := b, xc := c, w1 := genBits g + rows.toNat * 2 ^ 12 + atoms.toNat }))
  | .cpys ch b a c rows atoms g d =>
    some (leW 0x3A (leRes d { le0 with
      ec := 1, p := ch, xa := a, xb := b, xc := c, w1 := genBits g + rows.toNat * 2 ^ 12 + atoms.toNat }))
  | .cpyt ch b a c sp0 g d =>
    some (leW 0x3B (leRes d { le0 with ec := 1, p := ch, xa := a, xb := b, xc := c, w1 := genBits g + sp0.toNat }))
  | .cpyc ch b a len g d =>
    some (leW 0x3C (leRes d { le0 with ec := 1, p := ch, xa := a, xb := b, w1 := genBits g + len.toNat }))
  | .cpyk ch slot a c g d =>
    some (leW 0x3D (leRes d { le0 with ec := 1, p := ch, xa := a, xc := c, f := slot, w1 := genBits g }))
  | .cpywWait ch r => some (leW 0x3E (leRes (some r) { le0 with p := ch }))
  | .cpywQuery ch r => some (leW 0x3E (leRes (some r) { le0 with p := ch, f := 1 }))
  | .cvq fmt ch b a c rows g d =>
    some (leW 0x40 (leRes d { le0 with
      ec := 2, p := ch, xa := a, xb := b, xc := c, f := fmt.code, w1 := genBits g + rows.toNat }))
  | .cvd fmt ch b a c rows g d =>
    some (leW 0x41 (leRes d { le0 with
      ec := 2, p := ch, xa := a, xb := b, xc := c, f := fmt.code, w1 := genBits g + rows.toNat }))
  | .cvr src dst ch b a c rows g d =>
    some (leW 0x42 (leRes d { le0 with
      ec := 2, p := ch, xa := a, xb := b, xc := c, f := dst.code, w1 := genBits g + src.code * 2 ^ 16 + rows.toNat }))
  | .cvwWait ch r => some (leW 0x43 (leRes (some r) { le0 with p := ch }))
  | .cvwQuery ch r => some (leW 0x43 (leRes (some r) { le0 with p := ch, f := 1 }))
  | .carm a b => some (leW 0x48 { le0 with ec := 1, xa := a, xb := b })
  | .cdis a => some (leW 0x49 { le0 with xa := a })
  | .cabt a seq => some (leW 0x4A { le0 with xa := a, w1 := seq.toNat })
  | .mcast col a first last =>
    some (leW 0x4B { le0 with ec := 1, xa := a, f := col.toNat, w1 := first.toNat + last.toNat * 2 ^ 16 })
  | .barrier a r => some (leW 0x4C (leRes (some r) { le0 with ec := 1, xa := a }))
  | .cstat r a => some (leW 0x4D (leRes (some r) { le0 with xa := a }))
  | .ship n a b c => some (leW 0x50 { le0 with ec := 1, xa := a, xb := b, xc := c, f := n })
  | .shipr n r a b c => some (leW 0x51 (leRes (some r) { le0 with ec := 1, xa := a, xb := b, xc := c, f := n }))
  | .dload n a => some (leW 0x52 { le0 with xa := a, f := n })
  | .spawn v t a b c r =>
    some (leW 0x58 (leRes r { le0 with xa := a, xb := b, xc := c, f := t.toNat * 2 + v.toNat }))
  | .spawnr t a b c w h r =>
    some (leW 0x59 (leRes r { le0 with xa := a, xb := b, xc := c, f := t.toNat * 2, w1 := w.toNat + h.toNat * 2 ^ 16 }))
  | .map lvl a b => some (leW 0x60 { le0 with xa := a, xb := b, f := lvl })
  | .unmap lvl a => some (leW 0x61 { le0 with xa := a, f := lvl })
  | .tlbiVa a => some (leW 0x62 { le0 with xa := a })
  | .tlbiCtx b => some (leW 0x62 { le0 with xb := b, f := 1 })
  | .tlbiAll => some (leW 0x62 { le0 with f := 2 })
  | .retype ty empty a d => some (leW 0x63 (leRes d { le0 with xa := a, f := empty.toNat * 4 + ty.code }))
  | .watchOn f a => some (leW 0x64 { le0 with xa := a, f := 8 + f.val })
  | .watchOff f a => some (leW 0x64 { le0 with xa := a, f := f })
  | .zero a pages d => some (leW 0x67 (leRes d { le0 with xa := a, w1 := pages.toNat }))
  | _ => none

/-- The words of an instruction; none for an operation or event of the module. -/
def encode (i : Instr) : Option Words :=
  match i.slotKind with
  | .c => encodeC i
  | .a => encodeA i
  | .long => (encodeLongLow i).orElse fun _ => encodeLe i
  | .event => none

/-- What the decoder reads from the words of one instruction. -/
def decodeOne : Words → Option Instr
  | .c w0 => if fld w0 31 1 = 1 then decodeC w0 else none
  | .a w1 => decodeA w1
  | .long w0 w1 => if fld w0 31 1 = 0 then decodeLong w0 w1 else none

/-- The two words of a bundle that holds the words of one instruction: a C-slot word is paired with NOPA, an
A-slot word with NOPC (R56). -/
def Words.bundle : Words → Nat × Nat
  | .c w0 => (w0, 0)
  | .a w1 => (2 ^ 31, w1)
  | .long w0 w1 => (w0, w1)

/-- The words that a number of the opcode table stands for. A number of at most 32 bits is one slot word: it is a
C-slot word when bit 31 is 1 and the C slot has such a word, and otherwise an A-slot word. A longer number is both
words of a bundle, the first word lowest. -/
def tableWords (nbits w : Nat) : Words :=
  if nbits ≤ 32 then
    if fld w 31 1 = 1 ∧ (decodeC (w % 2 ^ 32)).isSome then .c (w % 2 ^ 32) else .a (w % 2 ^ 32)
  else if fld w 31 1 = 1 then
    if fld w 32 32 = 0 then .c (w % 2 ^ 32) else .a (fld w 32 32)
  else .long (w % 2 ^ 32) (fld w 32 32)

/-- The instruction that the decoder reads from a number of the opcode table. -/
def decodeTableWord (nbits w : Nat) : Option Instr :=
  let ws := tableWords nbits w
  let (w0, w1) := ws.bundle
  match (decodeBundle (bytesOfNat 4 w0 ++ bytesOfNat 4 w1)).1 with
  | .reject _ => none
  | .ok (.long i) => some i
  | .ok (.pair c a) => match ws with
    | .a _ => some a
    | _ => some c

end Sys2Proof
end

