-- ==== Sys2Proof/Machine/Ecc.lean ====
section
/-!
DEFINITION. The extended Hamming codes of far memory and of the vaults (R88, R92, R172, R173): the positions of a code word,
check bits, syndromes and their classes, and the storage of block metadata beside the data (R87, R90).
-/

namespace Sys2Proof.Machine

/-! ## The codes -/

/-- The position in the code word of protected bit `i`: check bits sit at the powers of two, and protected bits fill the
others in ascending order (R88, R172). -/
def codePos (i : Nat) : Nat := (List.range 9).foldl (fun p k => if 2 ^ k ≤ p then p + 1 else p) (i + 1)

/-- The protected bit at a position; none at that of a check bit. -/
def codeBit (p : Nat) : Option Nat := if p = 0 ∨ 2 ^ Nat.log2 p = p then none else some (p - 2 - Nat.log2 p)

/-- The exclusive or of the positions of the bits that are set among `n` protected bits. -/
def codeXor (n w : Nat) : Nat := (List.range n).foldl (fun acc i => if w.testBit i then acc ^^^ codePos i else acc) 0

/-- The parity of the low `n` bits. -/
def parityOf (n w : Nat) : Nat := ((List.range n).filter w.testBit).length % 2

/-- The check bits of `n` protected bits that show a syndrome, under a code of `k` Hamming bits and one parity bit, which covers
all the others. -/
def codeCheck (k n w x : Nat) : Nat :=
  let h := (codeXor n w ^^^ x) % 2 ^ k
  h + 2 ^ k * ((parityOf n w + parityOf k h + x / 2 ^ k) % 2)

/-- The syndrome of `n` protected bits and the check bits read with them (R92, R173). -/
def codeSyndrome (k n w c : Nat) : Nat :=
  (c ^^^ codeXor n w) % 2 ^ k + 2 ^ k * ((parityOf n w + parityOf (k + 1) c) % 2)

/-- The bits that an atom's code protects: its 256 data bits, then its six side bits (R88). -/
def atomBits (data side : Nat) : Nat := data % 2 ^ 256 + side % 64 * 2 ^ 256

/-- The bits that a vault word's code protects: its 64 data bits, then bits 33:3 of its raw offset (R172). -/
def wordBits (data off : Nat) : Nat := data % 2 ^ 64 + fld off 3 31 * 2 ^ 64

/-- The Marigold mask of an atom (R92). -/
def marigold : Nat := 0x3E9
/-- The mask of a poisoned vault word (R173). -/
def vaultMarigold : Nat := 0xFD

/-- The classes of an atom or a vault word by its syndrome (R92, R173). -/
inductive EccClass where
  | clean | poisoned | single | uncorrectable | misdirected
  deriving DecidableEq, Repr

/-- The class of an atom's syndrome (R92). -/
def atomClass (x : Nat) : EccClass :=
  if x = 0 then .clean
  else if x = marigold then .poisoned
  else if fld x 9 1 = 1 ∧ fld x 0 9 ≤ 271 then .single
  else .uncorrectable

/-- The class of a vault word's syndrome: positions above 71 are those of address bits (R172, R173). -/
def wordClass (x : Nat) : EccClass :=
  if x = 0 then .clean
  else if x = vaultMarigold then .poisoned
  else if fld x 7 1 = 1 ∧ fld x 0 7 ≤ 71 then .single
  else if fld x 7 1 = 1 ∧ fld x 0 7 ≤ 102 then .misdirected
  else .uncorrectable

/-! ## Metadata beside the data (R87, R90) -/

/-- The side bits of atom `j` of an HBM4 block: metadata bits 6 j + 5 to 6 j (R90). -/
def sideBits (m j : Nat) : Nat := fld m (6 * j) 6

/-- The metadata slot of an LPDDR-6 block: two halves, each under a 7-bit SEC-DED code, whose bits the spec does not give
(R90, log 112). -/
def slotBits (code : Nat → Nat) (m : Nat) : Nat :=
  fld m 0 48 + code (fld m 0 48) % 128 * 2 ^ 48 + fld m 48 48 * 2 ^ 56 + code (fld m 48 48) % 128 * 2 ^ 104

/-- The address within its channel of an LPDDR-6 byte (R87). -/
def channelAddr (a : Nat) : Nat :=
  let o := a - 0x040000000000
  o / 4096 / 48 * 4096 + o % 4096

/-- The LPDDR-6 byte at an address within a channel; those of the metadata carve-out lie at its end (R27, R87). -/
def channelByte (ch x : Nat) : Nat := 0x040000000000 + (x / 4096 * 48 + ch) * 4096 + x % 4096

/-- The metadata slot of an LPDDR-6 block: 16 bytes in the carve-out of the same channel, of which the last 64 MiB hold remap
state (R87). -/
def slotPlace (a : Nat) : Nat :=
  channelByte ((a - 0x040000000000) / 4096 % 48) (62 * 2 ^ 30 + channelAddr a / 512 * 16)

end Sys2Proof.Machine
end

