-- ==== Sys2Proof/Config.lean ====
section
/-!
DEFINITION. The free values: what the spec leaves open. Each is an opaque constant of which nothing is known; a
function of a number is applied to the counter `fresh` of the state, so that each use is a new value.
-/

namespace Sys2Proof

/-- Which of several agents moves next when the plan is empty (log 1). -/
opaque Config.pick : Nat → Nat

/-- Network cycles that pass before time is read (log 7). -/
opaque Config.delay : Nat → Nat

/-- Which entry a full cache gives up (log 6). -/
opaque Config.victim : Nat → Nat

/-- A byte that the spec does not determine: another package's memory (log 8), the position of an unstated payload. -/
opaque Config.freeByte : Nat → Byte

/-- A 64-bit value that the spec does not determine (log 2). -/
opaque Config.freeWord : Nat → Word

/-- Whether something the spec leaves open comes about: a prefetch, a fetch ahead, an early eviction (log 2). -/
opaque Config.freeBool : Nat → Bool

/-- How a trace record's data holds a cause and a level: the spec names the two and gives no layout (R463, log 14). -/
opaque Config.traceCause : Nat → Nat → Lane

/-- The bank and row of a far-memory address within its channel (log 28). -/
opaque Config.rowOf : Nat → Nat × Nat

/-- The set of a slice in which a line lies: the spec gives no index bits (R161, log 114). -/
opaque Config.setOf : Nat → Nat

/-- How record 0x2A shows the class of a syndrome, uncorrectable or misdirected (R167, log 131). -/
opaque Config.syndromeClass : Nat → Word

/-- The 7-bit code over 48 bits of metadata in an LPDDR-6 slot (R90, log 112). -/
opaque Config.slotCode : Nat → Nat

/-- Whether an SLH-DSA signature of a body verifies under a public key (R457, log 31). -/
opaque Config.slhVerify : List Byte → List Byte → List Byte → Bool

/-- The 32-byte digest of the public key that the fuses hold (R457, log 31). -/
opaque Config.fusedDigest : List Byte

/-- The minimum security version number that the fuses hold (R457, log 31). -/
opaque Config.fusedSvn : Nat

/-- The module's part number (R459, log 31). -/
opaque Config.partNumber : Nat

/-- Bytes 160 to 167 of an attestation report, from the part number and the fused minimum (R459, log 31). -/
opaque Config.fuseWord : Nat → Nat → Word

/-- The signature of an attestation report under the module's key (R459, log 31). -/
opaque Config.attSign : List Byte → List Byte

/-- The device attestation public key (R459, log 31). -/
opaque Config.attKey : List Byte

end Sys2Proof
end

