-- ==== Sys2Proof/Machine/AMap.lean ====
section
/-!
DEFINITION. Finite maps on natural numbers as lists of pairs with strictly rising keys: the canonical form in which
equal maps are equal lists. A map with a default lists no entry that equals the default.
-/

namespace Sys2Proof.Machine

/-- A map on natural numbers: pairs with strictly rising keys. -/
abbrev AMap (α : Type) := List (Nat × α)

/-- The entry of a key. -/
def AMap.get? {α : Type} : AMap α → Nat → Option α
  | [], _ => none
  | (k, v) :: m, i => if i = k then some v else if i < k then none else AMap.get? m i

/-- The entry of a key, or a default. -/
def AMap.getD {α : Type} (m : AMap α) (i : Nat) (d : α) : α := (AMap.get? m i).getD d

/-- The map with an entry added or replaced. -/
def AMap.insert {α : Type} : AMap α → Nat → α → AMap α
  | [], i, v => [(i, v)]
  | (k, w) :: m, i, v =>
    if i < k then (i, v) :: (k, w) :: m
    else if i = k then (i, v) :: m
    else (k, w) :: AMap.insert m i v

/-- The map without a key. -/
def AMap.erase {α : Type} : AMap α → Nat → AMap α
  | [], _ => []
  | (k, w) :: m, i => if i < k then (k, w) :: m else if i = k then m else (k, w) :: AMap.erase m i

/-- The map with an entry set, where an entry equal to the default is not listed. -/
def AMap.setD {α : Type} [DecidableEq α] (m : AMap α) (i : Nat) (v d : α) : AMap α :=
  if v = d then AMap.erase m i else AMap.insert m i v

/-- Whether the keys rise strictly and all lie above a bound. -/
def AMap.rising {α : Type} : Option Nat → AMap α → Bool
  | _, [] => true
  | none, (k, _) :: m => AMap.rising (some k) m
  | some b, (k, _) :: m => decide (b < k) && AMap.rising (some k) m

/-- The canonical form of a map with the default `d`. -/
def AMap.wf {α : Type} [DecidableEq α] (d : α) (m : AMap α) : Bool :=
  AMap.rising none m && m.all fun p => p.2 ≠ d

/-- The keys of a map, rising. -/
def AMap.keys {α : Type} (m : AMap α) : List Nat := m.map (·.1)

end Sys2Proof.Machine
end

