-- ==== Sys2Proof/Machine/Fp.lean ====
section
/-!
DEFINITION. Floating-point values and formats (R62 to R84): exact values, one rounding at the end. Decoding and
encoding of FP32, FP16, BF16, the binary8 family and integers, the arithmetic of R284, R286 and R289.
-/

namespace Sys2Proof.Machine

/-- A decoded value: a NaN (signalling or quiet), an infinity, or a finite number (−1)^neg × m × 2^e (R62). -/
inductive Fx where
  | nan (signalling : Bool)
  | inf (neg : Bool)
  | fin (neg : Bool) (m : Nat) (e : Int)
  deriving DecidableEq, Repr

/-- The four rounding modes (R64). -/
inductive RMode where
  | rne | rtz | rdn | rup
  deriving DecidableEq, Repr

/-- The mode that two bits of FSW.RM name (R64). -/
def RMode.ofCode : Nat → RMode
  | 0 => .rne | 1 => .rtz | 2 => .rdn | _ => .rup

/-- The mode of an instruction: its field rm, or FSW.RM when rm is 000 (R64). -/
def RMode.ofRm (fswRm : Nat) : Rm → RMode
  | .dyn => RMode.ofCode fswRm | .rne => .rne | .rtz => .rtz | .rdn => .rdn | .rup => .rup

/-- The five FP flags in the order of the trap value of R68: NV 4, DZ 3, OF 2, UF 1, NX 0. -/
abbrev Flags := BitVec 5

/-- The flag NV. -/
def flagNV : Flags := 0x10
/-- The flag DZ. -/
def flagDZ : Flags := 0x08
/-- The flags OF and NX, which an overflow raises (R65). -/
def flagOF : Flags := 0x05
/-- The flag UF. -/
def flagUF : Flags := 0x02
/-- The flag NX. -/
def flagNX : Flags := 0x01

/-- A binary format by its exponent and fraction widths (R62, R69). -/
structure Fmt where
  eb : Nat
  fb : Nat
  deriving DecidableEq, Repr

/-- FP32 (R62). -/
def fp32 : Fmt := { eb := 8, fb := 23 }
/-- FP16 (R69). -/
def fp16 : Fmt := { eb := 5, fb := 10 }
/-- BF16 (R69). -/
def bf16 : Fmt := { eb := 8, fb := 7 }

/-- The bias of a format (R69). -/
def Fmt.bias (f : Fmt) : Nat := 2 ^ (f.eb - 1) - 1
/-- The exponent of the least subnormal (R62). -/
def Fmt.emin (f : Fmt) : Int := 1 - (f.bias : Int) - (f.fb : Int)
/-- The code of +infinity (R62). -/
def Fmt.infCode (f : Fmt) : Nat := (2 ^ f.eb - 1) * 2 ^ f.fb
/-- The canonical NaN (R63, R69). -/
def Fmt.nanCode (f : Fmt) : Nat := f.infCode + 2 ^ (f.fb - 1)
/-- The weight of the sign bit. -/
def Fmt.signBit (f : Fmt) : Nat := 2 ^ (f.eb + f.fb)

/-- The value of a code of a format (R62, R69). -/
def Fmt.decode (f : Fmt) (c : Nat) : Fx :=
  let neg := fld c (f.eb + f.fb) 1 == 1
  let e := fld c f.fb f.eb
  let t := fld c 0 f.fb
  if e = 2 ^ f.eb - 1 then
    if t = 0 then .inf neg else .nan (fld c (f.fb - 1) 1 == 0)
  else if e = 0 then .fin neg t f.emin
  else .fin neg (2 ^ f.fb + t) (f.emin + (e : Int) - 1)

/-- Twice the place of a remainder r below 2^d: 0 exact, 1 below half, 2 half, 3 above half. -/
def halfPlace (r d : Nat) : Nat :=
  if r = 0 then 0 else if 2 * r < 2 ^ d then 1 else if 2 * r = 2 ^ d then 2 else 3

/-- Whether a truncated code rounds up in magnitude (R64). -/
def roundsUp (mode : RMode) (neg : Bool) (odd : Bool) (place : Nat) : Bool :=
  match mode with
  | .rne => place == 3 || (place == 2 && odd)
  | .rtz => false
  | .rdn => neg && place != 0
  | .rup => !neg && place != 0

/-- m × 2^e in units of 2^q, and where the rest of it lies (halfPlace). -/
def toUnits (m : Nat) (e q : Int) : Nat × Nat :=
  if q ≤ e then (m * 2 ^ (e - q).toNat, 0)
  else
    let d := (q - e).toNat
    (m / 2 ^ d, halfPlace (m % 2 ^ d) d)

/-- The number of significant bits of m. -/
def bitLen (m : Nat) : Nat := if m = 0 then 0 else Nat.log2 m + 1

/-- The code of m × 2^e in a format whose significand has p = mb + 1 bits and whose least unit is 2^emin, rounded
by the mode, without an upper limit; with the place of what was cut off. -/
def codeOf (mb : Nat) (emin : Int) (mode : RMode) (neg : Bool) (m : Nat) (e : Int) : Nat × Nat :=
  let q := max emin (e + (bitLen m : Int) - (mb : Int) - 1)
  let (n, place) := toUnits m e q
  let c := (q - emin).toNat * 2 ^ mb + n
  (if roundsUp mode neg (c % 2 == 1) place then c + 1 else c, place)

/-- Whether m × 2^e is tiny: below the least normal magnitude after rounding to the format's bits as if the
exponent had no lower limit. R66 says so of FP32; for FP16 and BF16 the destination's own least normal and its own significant
bits are taken (R84; DESIGN CHOICE, log 128). -/
def isTiny (f : Fmt) (mode : RMode) (neg : Bool) (m : Nat) (e : Int) : Bool :=
  let q := e + (bitLen m : Int) - (f.fb : Int) - 1
  let (n, place) := toUnits m e q
  let n' := if roundsUp mode neg (n % 2 == 1) place then n + 1 else n
  decide ((bitLen n' : Int) + q ≤ f.emin + (f.fb : Int))

/-- The code to which an overflow rounds (R65). -/
def overflowCode (f : Fmt) (mode : RMode) (neg : Bool) : Nat :=
  match mode, neg with
  | .rne, _ => f.infCode
  | .rtz, _ => f.infCode - 1
  | .rdn, false => f.infCode - 1
  | .rdn, true => f.infCode
  | .rup, false => f.infCode
  | .rup, true => f.infCode - 1

/-- A value rounded to a format, with the flags of R65 to R67. -/
def Fmt.encode (f : Fmt) (mode : RMode) : Fx → Nat × Flags
  | .nan _ => (f.nanCode, 0)
  | .inf neg => (neg.toNat * f.signBit + f.infCode, 0)
  | .fin neg m e =>
    if m = 0 then (neg.toNat * f.signBit, 0)
    else
      let (c, place) := codeOf f.fb f.emin mode neg m e
      if f.infCode ≤ c then (neg.toNat * f.signBit + overflowCode f mode neg, flagOF)
      else
        let nx : Flags := if place = 0 then 0 else flagNX
        let uf : Flags := if place ≠ 0 ∧ isTiny f mode neg m e then flagUF else 0
        (neg.toNat * f.signBit + c, nx ||| uf)

/-- A value of FP32 lane bits. -/
def Fx.ofLane (b : Lane) : Fx := fp32.decode b.toNat

/-- FP32 bits with the flags raised. -/
structure FpRes where
  bits  : Lane
  flags : Flags
  deriving DecidableEq, Repr

/-- round_f32 (R12). -/
def round32 (mode : RMode) (x : Fx) : FpRes :=
  let (c, fl) := fp32.encode mode x
  { bits := BitVec.ofNat 32 c, flags := fl }

/-- The canonical NaN (R63). -/
def canonNan : Lane := 0x7FC00000#32

/-- NV when one of the operands is a signalling NaN. -/
def sNaN : List Fx → Flags
  | [] => 0
  | .nan true :: _ => flagNV
  | _ :: xs => sNaN xs

/-- Whether a value is a NaN. -/
def Fx.isNan : Fx → Bool
  | .nan _ => true
  | _ => false

/-- A value with its sign turned. -/
def Fx.negate : Fx → Fx
  | .nan s => .nan s
  | .inf n => .inf !n
  | .fin n m e => .fin (!n) m e

/-- The signed integer that (neg, m) stands for. -/
def signed (neg : Bool) (m : Nat) : Int := if neg then -(m : Int) else m

/-- The exact sum of two values. The sign of an exact zero sum is the common sign, or + (− under RDN) (R284). -/
def Fx.add (mode : RMode) : Fx → Fx → Fx × Flags
  | .nan _, _ => (.nan false, 0)
  | _, .nan _ => (.nan false, 0)
  | .inf a, .inf b => if a == b then (.inf a, 0) else (.nan false, flagNV)
  | .inf a, .fin .. => (.inf a, 0)
  | .fin .., .inf b => (.inf b, 0)
  | .fin na ma ea, .fin nb mb eb =>
    let e := min ea eb
    let s := signed na (ma * 2 ^ (ea - e).toNat) + signed nb (mb * 2 ^ (eb - e).toNat)
    if s = 0 then (.fin (if na == nb then na else mode == .rdn) 0 e, 0)
    else (.fin (decide (s < 0)) s.natAbs e, 0)

/-- The exact product of two values (R284). -/
def Fx.mul : Fx → Fx → Fx × Flags
  | .nan _, _ => (.nan false, 0)
  | _, .nan _ => (.nan false, 0)
  | .inf a, .inf b => (.inf (a != b), 0)
  | .inf a, .fin nb mb _ => if mb = 0 then (.nan false, flagNV) else (.inf (a != nb), 0)
  | .fin na ma _, .inf b => if ma = 0 then (.nan false, flagNV) else (.inf (na != b), 0)
  | .fin na ma ea, .fin nb mb eb => (.fin (na != nb) (ma * mb) (ea + eb), 0)

/-- A rounded result with flags raised before the rounding. -/
def finish32 (mode : RMode) (pre : Flags) (r : Fx × Flags) : FpRes :=
  let z := round32 mode r.1
  { bits := z.bits, flags := z.flags ||| pre ||| r.2 }

/-- FADD (R284). -/
def fpAdd (mode : RMode) (a b : Lane) : FpRes :=
  let x := Fx.ofLane a
  let y := Fx.ofLane b
  finish32 mode (sNaN [x, y]) (Fx.add mode x y)

/-- FSUB (R284). -/
def fpSub (mode : RMode) (a b : Lane) : FpRes :=
  let x := Fx.ofLane a
  let y := Fx.ofLane b
  finish32 mode (sNaN [x, y]) (Fx.add mode x y.negate)

/-- FMUL (R284). -/
def fpMul (mode : RMode) (a b : Lane) : FpRes :=
  let x := Fx.ofLane a
  let y := Fx.ofLane b
  finish32 mode (sNaN [x, y]) (Fx.mul x y)

/-- FMA: one rounding; 0 × ∞ is invalid whatever c is (R284). -/
def fpFma (mode : RMode) (a b c : Lane) : FpRes :=
  let x := Fx.ofLane a
  let y := Fx.ofLane b
  let z := Fx.ofLane c
  let p := Fx.mul x y
  let r := Fx.add mode p.1 z
  finish32 mode (sNaN [x, y, z] ||| p.2) r

/-- The square root digit by digit: the greatest r with r² ≤ n, for n below 4^fuel. -/
def isqrtLoop : Nat → Nat → Nat → Nat
  | 0, _, r => r
  | k + 1, n, r =>
    let t := r + 2 ^ k
    if t * t ≤ n then isqrtLoop k n t else isqrtLoop k n r

/-- The greatest integer whose square is at most n. -/
def isqrt (n : Nat) : Nat := isqrtLoop (Nat.log2 n / 2 + 1) n 0

/-- An inexact positive value known by its leading bits: the number itself when nothing was cut off, and
otherwise a number strictly between n and n + 1, held as an odd multiple of half a unit. -/
def sticky (neg : Bool) (n : Nat) (e : Int) (rest : Bool) : Fx :=
  .fin neg (if rest then 2 * n + 1 else 2 * n) (e - 1)

/-- FDIV (R284): the quotient to 60 bits and the rest. -/
def fpDiv (mode : RMode) (a b : Lane) : FpRes :=
  let x := Fx.ofLane a
  let y := Fx.ofLane b
  let pre := sNaN [x, y]
  let r : Fx × Flags :=
    match x, y with
    | .nan _, _ => (.nan false, 0)
    | _, .nan _ => (.nan false, 0)
    | .inf _, .inf _ => (.nan false, flagNV)
    | .inf s, .fin t _ _ => (.inf (s != t), 0)
    | .fin s _ _, .inf t => (.fin (s != t) 0 0, 0)
    | .fin s m e, .fin t n f =>
      if n = 0 then (if m = 0 then (.nan false, flagNV) else (.inf (s != t), flagDZ))
      else if m = 0 then (.fin (s != t) 0 0, 0)
      else
        let q := m * 2 ^ 60 / n
        (sticky (s != t) q (e - f - 60) (m * 2 ^ 60 % n != 0), 0)
  finish32 mode pre r

/-- FSQRT (R284): the root to at least 30 bits and the rest. -/
def fpSqrt (mode : RMode) (a : Lane) : FpRes :=
  let x := Fx.ofLane a
  let r : Fx × Flags :=
    match x with
    | .nan _ => (.nan false, 0)
    | .inf false => (.inf false, 0)
    | .inf true => (.nan false, flagNV)
    | .fin s m e =>
      if m = 0 then (.fin s 0 e, 0)
      else if s then (.nan false, flagNV)
      else
        let e2 := e - 64 - (e % 2)
        let n := m * 2 ^ (e - e2).toNat
        let r := isqrt n
        (sticky false r (e2 / 2) (r * r != n), 0)
  finish32 mode (sNaN [x]) r

/-- The order of two finite values: −1, 0 or 1; the sign of a zero is ignored. -/
def cmpFin (na : Bool) (ma : Nat) (ea : Int) (nb : Bool) (mb : Nat) (eb : Int) : Int :=
  let e := min ea eb
  let a := signed na (ma * 2 ^ (ea - e).toNat)
  let b := signed nb (mb * 2 ^ (eb - e).toNat)
  if a < b then -1 else if a = b then 0 else 1

/-- The order of two values that are no NaN. -/
def Fx.cmp : Fx → Fx → Int
  | .inf a, .inf b => if a == b then 0 else if a then -1 else 1
  | .inf a, _ => if a then -1 else 1
  | _, .inf b => if b then 1 else -1
  | .fin na ma ea, .fin nb mb eb => cmpFin na ma ea nb mb eb
  | _, _ => 0

/-- The sign of a value. -/
def Fx.sign : Fx → Bool
  | .nan _ => false
  | .inf n => n
  | .fin n _ _ => n

/-- Whether a is below b in the order of FMIN, where −0 is below +0 (R284). -/
def Fx.below (a b : Fx) : Bool :=
  let c := Fx.cmp a b
  c == -1 || (c == 0 && a.sign && !b.sign)

/-- FMIN (R284). -/
def fpMin (a b : Lane) : FpRes :=
  let x := Fx.ofLane a
  let y := Fx.ofLane b
  if x.isNan || y.isNan then { bits := canonNan, flags := sNaN [x, y] }
  else { bits := if y.below x then b else a, flags := 0 }

/-- FMAX (R284). -/
def fpMax (a b : Lane) : FpRes :=
  let x := Fx.ofLane a
  let y := Fx.ofLane b
  if x.isNan || y.isNan then { bits := canonNan, flags := sNaN [x, y] }
  else { bits := if x.below y then b else a, flags := 0 }

/-- FCMP (R285): the truth of the predicate and the flags. -/
def fpCmp (p : FPred) (a b : Lane) : Bool × Flags :=
  let x := Fx.ofLane a
  let y := Fx.ofLane b
  if x.isNan || y.isNan then
    match p with
    | .eq => (false, sNaN [x, y])
    | .lt | .le => (false, flagNV)
    | .un => (true, sNaN [x, y])
  else
    let c := Fx.cmp x y
    match p with
    | .eq => (c == 0, 0)
    | .lt => (c == -1, 0)
    | .le => (c != 1, 0)
    | .un => (false, 0)

/-- FSGN (R284): only the sign bit changes. -/
def fpSgn (op : SgnOp) (a b : Lane) : Lane :=
  let s := match op with
    | .copy => b.msb
    | .neg => !b.msb
    | .xor => xor a.msb b.msb
  (a &&& 0x7FFFFFFF#32) ||| (if s then 0x80000000#32 else 0)

/-- FCLASS (R287). -/
def fpClass (a : Lane) : Nat :=
  match Fx.ofLane a with
  | .nan true => 8
  | .nan false => 9
  | .inf true => 0
  | .inf false => 7
  | .fin n m _ =>
    if m = 0 then (if n then 3 else 4)
    else if fld a.toNat 23 8 = 0 then (if n then 2 else 5)
    else (if n then 1 else 6)

/-- A finite value rounded to an integer: its magnitude, and whether it was inexact (R286). -/
def roundInt (mode : RMode) (neg : Bool) (m : Nat) (e : Int) : Nat × Bool :=
  let (n, place) := toUnits m e 0
  (if roundsUp mode neg (n % 2 == 1) place then n + 1 else n, place != 0)

/-- A value converted to an integer of a range: NaN gives 0, a value beyond the range its nearer end (R83, R286). -/
def toIntRange (mode : RMode) (lo hi : Int) : Fx → Int × Flags
  | .nan _ => (0, flagNV)
  | .inf neg => (if neg then lo else hi, flagNV)
  | .fin neg m e =>
    let (n, inexact) := roundInt mode neg m e
    let v := signed neg n
    if v < lo then (lo, flagNV)
    else if hi < v then (hi, flagNV)
    else (v, if inexact then flagNX else 0)

/-- An integer as an exact value. -/
def Fx.ofInt (v : Int) : Fx := .fin (decide (v < 0)) v.natAbs 0

/-- FCVT (R286): the 64-bit result and the flags. -/
def fpCvt (k : CvtKind) (mode : RMode) (a : Word) : Word × Flags :=
  let lane : Lane := a.setWidth 32
  let x := Fx.ofLane lane
  let half (f : Fmt) : Word × Flags :=
    let (c, fl) := f.encode mode x
    (BitVec.ofNat 64 c, fl ||| sNaN [x])
  let widen (f : Fmt) : Word × Flags :=
    let y := f.decode (fld a.toNat 0 16)
    ((round32 .rne y).bits.setWidth 64, sNaN [y])
  let from_ (v : Int) : Word × Flags :=
    let r := round32 mode (Fx.ofInt v)
    (r.bits.setWidth 64, r.flags)
  match k with
  | .toint => let r := toIntRange mode (-2 ^ 31) (2 ^ 31 - 1) x; (BitVec.ofInt 64 r.1, r.2)
  | .touns => let r := toIntRange mode 0 (2 ^ 32 - 1) x; (BitVec.ofInt 64 r.1, r.2)
  | .tolong => let r := toIntRange mode (-2 ^ 63) (2 ^ 63 - 1) x; (BitVec.ofInt 64 r.1, r.2)
  | .toulong => let r := toIntRange mode 0 (2 ^ 64 - 1) x; (BitVec.ofInt 64 r.1, r.2)
  | .fromint => from_ lane.toInt
  | .fromuns => from_ (lane.toNat : Int)
  | .fromlong => from_ a.toInt
  | .fromulong => from_ (a.toNat : Int)
  | .tobf16 => half bf16
  | .frombf16 => widen bf16
  | .tof16 => half fp16
  | .fromf16 => widen fp16

/-! ## Base-two exponential and logarithm (R289) -/

/-- The fractional bits to which the exponential is computed. -/
def exp2Bits : Nat := 140

/-- The product of 2^(2^−i) over the 1 bits of a fraction of `n` bits, from the top bit: `c` is 2^(2^−i) and `acc`
the product so far, both in units of 2^−exp2Bits, cut off. -/
def exp2Loop : Nat → Nat → Nat → Nat → Nat
  | 0, _, _, acc => acc
  | n + 1, frac, c, acc =>
    let root := isqrt (c * 2 ^ exp2Bits)
    let acc' := if fld frac n 1 = 1 then acc * root / 2 ^ exp2Bits else acc
    exp2Loop n frac root acc'

/-- 2^x for a finite nonzero x, as an exact power or with the bits that decide every rounding (DEDUCED: log 10). -/
def exp2Fin (neg : Bool) (m : Nat) (e : Int) : Fx :=
  let big := decide ((bitLen m : Int) + e > 9)
  let small := decide ((bitLen m : Int) + e < -30)
  if big then (if neg then sticky false 1 (-400) true else .fin false 1 400)
  else if small then
    (if neg then .fin false (2 ^ 40 - 1) (-40) else .fin false (2 ^ 40 + 1) (-40))
  else
    -- x in units of 2^−60; the exponent of x's last bit is at least −54 here
    let u : Int := signed neg (m * 2 ^ (e + 60).toNat)
    let k := u / 2 ^ 60
    let frac := (u % 2 ^ 60).toNat
    if frac = 0 then .fin false 1 k
    else sticky false (exp2Loop 60 frac (2 * 2 ^ exp2Bits) (2 ^ exp2Bits)) (k - (exp2Bits : Int)) true

/-- VEXP2 of a lane (R289). -/
def fpExp2 (mode : RMode) (a : Lane) : FpRes :=
  let x := Fx.ofLane a
  let r : Fx :=
    match x with
    | .nan _ => .nan false
    | .inf false => .inf false
    | .inf true => .fin false 0 0
    | .fin neg m e => if m = 0 then .fin false 1 0 else exp2Fin neg m e
  finish32 mode (sNaN [x]) (r, 0)

/-- The fractional bits from which the logarithm squares. -/
def log2Bits : Nat := 300

/-- `n` further bits of log2 of y in [1, 2), y in units of 2^−log2Bits: the bits so far are `acc`. -/
def log2Loop : Nat → Nat → Nat → Nat
  | 0, _, acc => acc
  | n + 1, y, acc =>
    let z := y * y / 2 ^ log2Bits
    if 2 * 2 ^ log2Bits ≤ z then log2Loop n (z / 2) (2 * acc + 1) else log2Loop n z (2 * acc)

/-- log2 of a finite positive value, exact for a power of two, and otherwise with the bits that decide every
rounding (DEDUCED: log 10). -/
def log2Fin (m : Nat) (e : Int) : Fx :=
  let l := bitLen m
  let k : Int := e + (l : Int) - 1
  let y := m * 2 ^ log2Bits / 2 ^ (l - 1)
  if y = 2 ^ log2Bits then (if k = 0 then .fin false 0 0 else Fx.ofInt k)
  else
    let v : Int := k * 2 ^ 130 + (log2Loop 130 y 0 : Int)
    -- the exact value lies strictly between v and v + 1 units of 2^−130
    if 0 ≤ v then sticky false v.toNat (-130) true else sticky true (-v - 1).toNat (-130) true

/-- VLOG2 of a lane (R289). -/
def fpLog2 (mode : RMode) (a : Lane) : FpRes :=
  let x := Fx.ofLane a
  let r : Fx × Flags :=
    match x with
    | .nan _ => (.nan false, 0)
    | .inf false => (.inf false, 0)
    | .inf true => (.nan false, flagNV)
    | .fin neg m e =>
      if m = 0 then (.inf true, flagDZ)
      else if neg then (.nan false, flagNV)
      else (log2Fin m e, 0)
  finish32 mode (sNaN [x]) r

/-! ## The binary8 family (R71 to R77) -/

end Sys2Proof.Machine

namespace Sys2Proof

open Machine

/-- The bits of the trailing field, p − 1. -/
def B8.mb (v : B8) : Nat := v.p.val - 1
/-- The exponent bias B (R71). -/
def B8.bias (v : B8) : Nat := if v.uns then 2 ^ (8 - v.p.val) else 2 ^ (7 - v.p.val)
/-- The exponent of the least unit. -/
def B8.emin (v : B8) : Int := 1 - (v.bias : Int) - (v.mb : Int)
/-- The NaN code (R72). -/
def B8.nanCode (v : B8) : Nat := if v.uns then 0xFF else 0x80
/-- The code of the largest finite value (R72). -/
def B8.maxCode (v : B8) : Nat :=
  match v.uns, v.fin with
  | false, false => 0x7E
  | false, true => 0x7F
  | true, false => 0xFD
  | true, true => 0xFE
/-- The magnitude of a positive finite code by the formula of R72. -/
def B8.mag (v : B8) (c : Nat) : Nat × Int :=
  let e := c / 2 ^ v.mb
  let t := c % 2 ^ v.mb
  if e = 0 then (t, v.emin) else (2 ^ v.mb + t, v.emin + (e : Int) - 1)
/-- The value of a binary8 code (R72, R73). -/
def B8.decode (v : B8) (c : Nat) : Fx :=
  if c = v.nanCode then .nan false
  else
    let neg := !v.uns && decide (0x80 ≤ c)
    let p := if neg then c - 0x80 else c
    if !v.fin && p = v.maxCode + 1 then .inf neg
    else
      let (m, e) := v.mag p
      .fin neg m e
/-- encode_b8 (R76, R77). -/
def B8.encode (v : B8) : Fx → Nat
  | .nan _ => v.nanCode
  | .inf neg =>
    if v.uns && neg then 0
    else
      let c := if v.fin then v.maxCode else v.maxCode + 1
      if neg then c + 0x80 else c
  | .fin neg m e =>
    if m = 0 || (v.uns && neg) then 0
    else
      let (mm, me) := v.mag v.maxCode
      let (nm, ne) := v.mag (v.maxCode + 1)
      let c :=
        if cmpFin false m e false mm me = 1 then
          if v.fin then v.maxCode
          else
            -- the half-way value (mx + nx) / 2
            let q := min me ne
            let half := mm * 2 ^ (me - q).toNat + nm * 2 ^ (ne - q).toNat
            if cmpFin false m e false half (q - 1) = 1 then v.maxCode + 1 else v.maxCode
        else (codeOf v.mb v.emin .rne false m e).1
      if c = 0 || !neg then c else c + 0x80

end Sys2Proof

namespace Sys2Proof.Machine

/-- The FP32 bits of an exactly representable value. -/
def Fx.toLane (x : Fx) : Lane := (round32 .rne x).bits

/-- A value times 2^k, without an exponent limit (R79). -/
def Fx.scale (k : Int) : Fx → Fx
  | .fin n m e => .fin n m (e + k)
  | x => x

end Sys2Proof.Machine
end

