-- ==== Sys2Proof/Machine/State.lean ====
section
/-!
DEFINITION. The state of the machine as plain data, the reasons a step can stop, and the state after reset.
-/

namespace Sys2Proof.Machine

/-! ## Registers and fibres -/

/-- The flag of a register or lane (R212, R377). `absent` is the model's own: the access named an extent that was removed while
it was on its way (R107, R108, log 118). -/
inductive RFlag where
  | none | poison | gen | abort | mismatch | pool | absent
  deriving DecidableEq, Repr

/-- A fibre register: its value, its full/empty bit, its flag, and the address that the flag names (R212, R267). -/
structure XReg where
  val  : Word := 0
  full : Bool := false
  flag : RFlag := .none
  va   : Word := 0
  deriving DecidableEq, Repr

/-- A lane of the vector file (R267). -/
structure VLane where
  val  : Lane := 0
  full : Bool := true
  flag : RFlag := .none
  va   : Word := 0
  deriving DecidableEq, Repr

/-- The states of a fibre (R377, R379). -/
inductive FState where
  | free | ready | running | parked | transit
  deriving DecidableEq, Repr

/-- The registers that one level of a trap bank holds (R422, R425). -/
structure TrapBank where
  cause : Word := 0
  pc    : Word := 0
  val   : Word := 0
  keep  : Word := 0
  deriving DecidableEq, Repr

/-- What makes a PARKED fibre READY (R379). -/
inductive Need where
  | none
  /-- registers and vector registers that must be FULL -/
  | regs (xs : List XR) (vs : List VR)
  /-- messages that must have been answered -/
  | gone (ids : List Nat)
  /-- messages that must have been performed at their homes (R218) -/
  | performed (ids : List Nat)
  /-- the hold of a physical page must end (R143); the address is that of the held access -/
  | hold (page : Nat) (va : Word)
  /-- the BWAIT record of the fibre must be woken (R205) -/
  | block
  /-- an entry of the block-assembly buffer (R193) -/
  | assembly
  /-- a copy or conversion channel that is no longer BUSY (R246, R264) -/
  | channel (tile : Nat) (conv : Bool) (p : Nat)
  /-- a collective entry that is no longer armed or in progress (R368) -/
  | coll (tile : Nat) (blk : Nat)
  /-- a block that no open group and no live collective entry holds (R321, R362) -/
  | guard (blk : Nat)
  /-- no vector load waits for a block (R186) -/
  | vrecs
  /-- no Aster record is outstanding (R392) -/
  | recs
  /-- a slot or pool entry at the destination (R388) -/
  | slot
  /-- a MMA's operand buffer (R313) -/
  | mma (tile : Nat)
  deriving DecidableEq, Repr

/-- How far a parked bundle has come: what it does when it issues again (model's own). -/
inductive Resume where
  | none
  /-- stage `n` of the instruction: the messages that it waits for, and the first failure that an answer brought:
  its cause and trap value -/
  | stage (n : Nat) (ids : List Nat) (fail : Option (Nat × Word))
  deriving DecidableEq, Repr

/-- An element format code of R59. -/
abbrev FmtCode := BitVec 6

/-- A place that an access has been found to reach: its virtual address, its raw physical address (span-global in
another package), its bytes, the element format, and the page's type. -/
structure Site where
  va     : Word
  pa     : Nat
  len    : Nat
  fmt    : FmtCode
  ty     : PageType
  remote : Bool
  deriving DecidableEq, Repr

/-- A write of bytes at a site. -/
structure Put where
  site : Site
  data : List Byte
  deriving DecidableEq, Repr

/-- A fibre record (R377) with its trap banks (R422). -/
structure Fibre where
  x      : Vector XReg 8 := Vector.replicate 8 {}
  pc     : Pc := 0
  save   : BitVec 16 := 0
  tid    : BitVec 48 := 0
  fsw    : BitVec 32 := 0
  recs   : Nat := 0
  /-- records of vector loads among them (R186) -/
  vrecs  : Nat := 0
  wait   : Nat := 0
  anc    : Bool := false
  st     : FState := .free
  bank1  : TrapBank := {}
  bank2  : TrapBank := {}
  /-- the wake condition of a PARKED fibre -/
  need   : Need := .none
  /-- model's own -/
  resume : Resume := .none
  /-- accesses with a smaller message number are performed before any later access (R241, R242) -/
  order  : Nat := 0
  /-- the next bundle is the first after an RTT (R461) -/
  afterRtt : Bool := false
  /-- the fibre has become READY through a wake since the eviction of its context began (R415) -/
  woken  : Bool := false
  /-- the window formats of the access that is held (R178) -/
  wf     : Option (Vector (BitVec 6) 8) := none
  /-- the bundle that is parked has been debited (R417) -/
  paid   : Bool := false
  /-- the writes that the parked bundle makes once the commits of the blocks it completes have been performed (R36, R187) -/
  owed   : List Put := []
  /-- the number of the next message when the fibre last did what can order another fibre's write before its own accesses (R228,
  R230, log 5) -/
  synced : Nat := 0
  deriving DecidableEq, Repr

/-- A write of a fibre to a RELEASE page: its fibre, the number of the next message when it was performed, its bytes (R230,
log 5). -/
structure Version where
  tid  : BitVec 48
  time : Nat
  data : List Byte
  deriving DecidableEq, Repr

/-! ## Memory -/

/-- The presence states (R89, R190). -/
inductive Pres where
  | empty | full | deferred | retired
  deriving DecidableEq, Repr

/-- Block metadata (R89): the fields of bits 36:0. -/
structure BMeta where
  dsc   : Bool := false
  maxe  : BitVec 8 := 0
  bound : BitVec 16 := 0
  gen   : BitVec 10 := 0
  pres  : Pres := .empty
  deriving DecidableEq, Repr

/-- A line of an L2 slice: whether it is dirty, and what its own check bits show (R161, R164, R165, R166). -/
structure L2Line where
  dirty   : Bool := false
  parity  : Bool := false
  uncorr  : Bool := false
  single  : Bool := false
  metaErr : Bool := false
  deriving DecidableEq, Repr

/-- A TLB entry (R133): the level of its leaf, its virtual page and physical page at that level, the context, the
permissions, type and flags. -/
structure TlbEntry where
  lvl  : Nat
  vpn  : Nat
  ctx  : Nat
  pa   : Nat
  r    : Bool
  w    : Bool
  x    : Bool
  ty   : PageType
  d    : Bool
  g    : Bool
  wa   : Bool
  deriving DecidableEq, Repr

/-- A walk-cache entry (R134): the non-leaf entry of a context at a level for a prefix of the virtual address. -/
structure WalkEntry where
  ctx   : Nat
  lvl   : Nat
  vpn   : Nat
  table : Nat
  deriving DecidableEq, Repr

/-- An entry of a block-assembly buffer (R193): the block's physical address, the bytes written, and what a BMARK
has asserted (R343). -/
structure BabEntry where
  blk   : Nat
  bytes : AMap Byte
  mark  : Option (FmtCode × BitVec 16)
  deriving DecidableEq, Repr

/-! ## Cores -/

/-- A hot slot of a core (R380 to R382). -/
structure Hot where
  slot  : Option Nat := none
  /-- bundles issued since the fibre became RUNNING -/
  count : Nat := 0
  /-- the quantum that applies to the running fibre (R383) -/
  qtm   : Nat := 1024
  /-- the slot at which the next search starts -/
  start : Nat := 0
  deriving DecidableEq, Repr

/-- A lane of an element that an output port is about to store, when its data comes by a load: where it goes. -/
structure PortLane where
  /-- the message that holds the store's place among the fibre's accesses -/
  id     : Nat
  lane   : Nat
  va     : Word
  pa     : Nat
  fmt    : FmtCode
  ty     : PageType
  remote : Bool
  deriving DecidableEq, Repr

/-- A stream port (R297 to R304): the descriptor, the window formats captured at SBIND, the elements consumed or
written, the element reads begun and queued, the elements read ahead, the failure that stopped it. -/
structure Port where
  bound  : Bool := false
  out    : Bool := false
  n1     : Nat := 0
  n0     : Nat := 0
  base   : Word := 0
  s0     : BitVec 48 := 0
  s1     : BitVec 48 := 0
  wf     : Vector FmtCode 8 := Vector.replicate 8 0
  ctx    : Nat := 0
  slot   : Nat := 0
  pos    : Nat := 0
  asked  : Nat := 0
  /-- elements whose read is queued on a block: element number and physical address -/
  queued : AMap Nat := []
  /-- elements that have arrived and are not yet in the register -/
  got    : AMap (Vector Lane 4) := []
  /-- the element at which reading stopped, and its virtual address -/
  failed : Option (Nat × Word) := none
  cause  : Nat := 0
  /-- the page that holds back the read of the element `asked`, and its virtual address (R143, R300) -/
  held   : Option (Nat × Word) := none
  /-- an output port's element whose lanes a load is to fill -/
  lanes  : List PortLane := []
  deriving DecidableEq, Repr

/-- A barrier that a fibre waits in (R372): its slot, register, rank, members, next round. -/
structure BarRun where
  slot : Nat
  tid  : BitVec 48
  xd   : XR
  set  : Nat × Nat × Nat × Nat
  rank : Nat
  n    : Nat
  rnd  : Nat
  deriving DecidableEq, Repr

/-- An entry of a core's barrier table (R373): the identifier, the epoch bit, the signals received, and the barrier that
this core is in. -/
structure Barrier where
  bid   : Nat
  epoch : Bool := false
  got   : List (Bool × Nat) := []
  run   : Option BarRun := none
  deriving DecidableEq, Repr

/-- A core's own registers and tables. -/
structure Core where
  v      : Vector (Vector VLane 4) 16 := Vector.replicate 16 (Vector.replicate 4 {})
  m      : Vector (BitVec 4) 4 := Vector.replicate 4 0
  sp     : Vector Port 4 := Vector.replicate 4 {}
  anchor : Option Nat := none
  hotN   : Hot := {}
  hotH   : Hot := {}
  ctxid  : BitVec 10 := 0
  ebud   : Int := 0x8000
  /-- the costs that apply: EBUD_COST of the resident context as it stood at the last refill (R417) -/
  cost   : Word := 0x0004190002000040
  qtm    : Nat := 1024
  wf     : Vector (BitVec 6) 8 := Vector.replicate 8 0
  wfl    : Vector Word 8 := Vector.replicate 8 0
  ident  : Vector Word 9 := Vector.replicate 9 0
  /-- the PRIVATE read buffer: lines, oldest first (R163) -/
  rbuf   : List (Nat × List Byte) := []
  /-- the PRIVATE write buffer: lines and their written bytes, oldest first (R163) -/
  wbuf   : List (Nat × AMap Byte) := []
  /-- the block-assembly buffer (R193) -/
  bab    : List BabEntry := []
  /-- bundles fetched ahead, by address (R162, R244) -/
  ahead  : AMap (Nat × Nat) := []
  /-- the barrier table (R373) -/
  bars   : List Barrier := []
  /-- core-plane messages sent and delivered since module reset (R436) -/
  sent   : Nat := 0
  rcvd   : Nat := 0
  deriving DecidableEq, Repr

/-! ## Messages in flight -/

/-- Who waits for an access: its reply, acknowledgement or answer goes there. -/
inductive Owner where
  /-- the fibre in a slot -/
  | fibre (core slot : Nat)
  /-- a line of a core's PRIVATE write buffer (R163) -/
  | push (core : Nat)
  /-- a stream port: its element number (R298) -/
  | port (core sp k : Nat)
  /-- a copy or conversion channel (R245) -/
  | channel (tile : Nat) (conv : Bool) (p : Nat)
  /-- the matrix array of a tile (R314) -/
  | mma (tile : Nat)
  /-- a host access (R446) -/
  | host (k : Nat)
  /-- a collective entry of a tile (R355) -/
  | coll (tile : Nat) (idx : Nat)
  /-- a fibre that has ended: the core on which it was (R392) -/
  | ended (core : Nat)
  /-- nobody -/
  | nobody
  deriving DecidableEq, Repr

/-- What the data of a read fills. -/
inductive Dst where
  /-- an x register, extended (R40, R183) -/
  | x (xd : XR) (size : Size) (sgn : Bool) (fmt : FmtCode)
  /-- lanes of a v register; the first byte read belongs to the lowest lane named (R185, R199) -/
  | v (vd : VR) (lanes : BitVec 4) (fmt : FmtCode)
  /-- FSW by LOADM (R433) -/
  | fsw
  /-- the trap PC of the fibre's level by LOADM (R433) -/
  | tpc
  /-- row `i` of the A operand of a MMA (R310) -/
  | row (i : Nat)
  /-- no register -/
  | none
  deriving DecidableEq, Repr

/-- The classes of an access (R220). -/
structure Cls where
  strict : Bool := false
  acq    : Bool := false
  rel    : Bool := false
  ld     : Bool := false
  st     : Bool := false
  /-- a release whose scope is below span: it waits for no access homed in another package (R225) -/
  near   : Bool := false
  deriving DecidableEq, Repr

/-- An atomic operation on one location (R397). -/
inductive AtomOp where
  | amo (op : AmoOp)
  | famo (op : FamoOp)
  | cas (expected : Word)
  deriving DecidableEq, Repr

/-- What a commit carries: the bound and maximum exponent of the block, and the atoms or words that are poisoned
(R94, R192, R336). -/
structure CommitData where
  data   : List Byte
  bound  : BitVec 16
  maxe   : BitVec 8
  poison : List Nat
  deriving DecidableEq, Repr

/-- What an access does at its home. -/
inductive HomeOp where
  | read (dst : Dst)
  | write (data : List Byte)
  /-- a store of an output port whose bytes a load is to bring: it is not performed before they have come (R299, R301) -/
  | await
  | atomic (op : AtomOp) (sz : Wd) (operand : Word) (xd : XR) (mg : Bool)
  | sysRead (xd : XR)
  | sysWrite (val : Word)
  | commit (c : CommitData)
  | decj (sz : Wd) (xd : XR) (blk : Nat)
  /-- a commit of MST or MCAST into a block that it has reserved; those of MST are performed in order (R324, R371) -/
  | mstCommit (c : CommitData) (inOrder : Bool)
  /-- the rows that MST writes into a block by their offsets, with the bound and magnitude that it gives the block; whether
  the rows make up all of it (R324, R338) -/
  | mstWrite (rows : List (Nat × List Byte)) (bound : BitVec 16) (maxe : BitVec 8) (whole : Bool)
  /-- a cancel of a stream port's record (R215) -/
  | cancel (core sp : Nat)
  /-- a channel reads its next unit, or writes the oldest it has read (R250, R252) -/
  | chanRead
  | chanWrite
  /-- a channel's command ends (R253) -/
  | chanEnd
  /-- a Dimus run (R114): the routine, its operands and payload, the reply register -/
  | dimus (n : Nat) (p q : Word) (pay : List Byte) (xd : Option XR)
  deriving DecidableEq, Repr

/-- An access on its way to its home (R218). -/
structure Acc where
  owner : Owner
  tid   : BitVec 48
  ctx   : Nat
  /-- the virtual address of the first byte -/
  va    : Word
  /-- the physical address of the first byte: raw for a vault byte -/
  pa    : Nat
  len   : Nat
  ty    : PageType
  cls   : Cls
  /-- the generation that an LDG expects (R217) -/
  gen   : Option (BitVec 10) := none
  op    : HomeOp
  /-- sent while its page was held: the home keeps it back until the hold ends (R143, R243) -/
  late  : Bool := false
  /-- the core-plane router at which a copy of MCAST leaves the one that goes on; none for an access of the memory plane
  (R348, R371) -/
  tap   : Option Nat := none
  deriving DecidableEq, Repr

/-- An Aster record (R199). -/
structure Aster where
  tid   : BitVec 48 := 0
  next  : BitVec 64 := 0
  fmt   : BitVec 6 := 0
  dreg  : BitVec 4 := 0
  lanes : BitVec 4 := 0
  size  : BitVec 2 := 0
  sgn   : Bool := false
  ctx   : BitVec 10 := 0
  inst  : BitVec 16 := 0
  kind  : BitVec 3 := 0
  gen   : BitVec 10 := 0
  pkg   : BitVec 10 := 0
  core  : BitVec 17 := 0
  slot  : BitVec 8 := 0
  off   : BitVec 9 := 0
  len   : BitVec 7 := 0
  deriving DecidableEq, Repr

/-- A collective partial of one chunk of 16 elements (R355): its tags, the rank at whose router it combines and its side,
the values, and what R363 needs: the bounds of the ranks in it, whether a value in it was an infinity or a NaN, whether an
add was inexact, and the largest exponent of a nonzero add. A partial whose level spans all ranks is one of the root's. -/
structure Partial where
  tenant : Nat
  cid    : BitVec 16
  seq    : BitVec 16
  group  : Nat
  hash   : BitVec 32
  level  : Nat
  chunk  : Nat
  rank   : Nat
  right  : Bool
  vals   : List Lane
  eps    : List (BitVec 16)
  bad    : Bool
  inex   : Bool
  emax   : Option Int
  /-- the geometry of the group: the core of rank 0, the step to the next rank, the ranks -/
  root   : Nat
  step   : Nat
  n      : Nat
  op     : Nat
  deriving DecidableEq, Repr

/-- A fibre in flight, or waiting in an overflow pool (R387, R394): its context, core and record. -/
structure Travel where
  ctx   : Nat
  core  : Nat
  /-- the slot reserved for it; none for a pool entry -/
  slot  : Option Nat
  f     : Fibre
  /-- the core that it has left, where there is one -/
  src   : Option Nat := none
  deriving DecidableEq, Repr

/-- What asks for a reservation (R388): a SPAWN without and with .t, a MIGRATE, an atomic with .m. -/
inductive ReqMode where
  | spawn | spawnT | migrate | atomic
  deriving DecidableEq, Repr

/-- A request for reservations (R388, R391): the asking fibre, the result register, the records to be placed. -/
structure SpawnReq where
  mode  : ReqMode
  core  : Nat
  slot  : Nat
  tid   : BitVec 48
  res   : Option XR
  kids  : List Travel
  deriving DecidableEq, Repr

/-- What travels between agents (R218). -/
inductive Msg where
  /-- an arithmetic result on its way to an x register (R270) -/
  | arithX (core slot : Nat) (xd : XR) (val : Word) (flags : Flags)
  /-- an arithmetic result on its way to the lanes of a v register that the mask enables (R270) -/
  | arithV (core slot : Nat) (vd : VR) (lanes : BitVec 4) (vals : Vector Lane 4) (flags : Flags)
  /-- an access on its way to its home: not yet performed -/
  | req (a : Acc)
  /-- the data of a performed read on its way to its reader, with the flag of R212 -/
  | reply (owner : Owner) (dst : Dst) (data : List Byte) (flag : RFlag)
  /-- a value on its way to an x register, after which the fibre may migrate to a core (R398) -/
  | fill (core slot : Nat) (xd : XR) (val : Word) (flag : RFlag) (mig : Option Nat)
  /-- the acknowledgement of a performed write -/
  | ack (owner : Owner)
  /-- the answer of a home to a commit: 0 performed, 1 second write, 2 retired (R196) -/
  | answer (owner : Owner) (code : Nat) (va : Word)
  /-- a wake on its way to its reader: the block, the record, the data it asked for, the flag (R204, R205) -/
  | wake (blk : Nat) (rec : Aster) (data : List Byte) (flag : RFlag)
  /-- a fill of a register named by done= or res= (R253, R391) -/
  | done (core slot : Nat) (tid : BitVec 48) (xd : XR) (val : Word)
  /-- reservations of a spawn on their way, and then their answers: none when one failed (R388, R391) -/
  | reserve (r : SpawnReq)
  | reserved (r : SpawnReq) (kids : Option (List Travel))
  /-- a fibre record on its way (R394) -/
  | travel (t : Travel)
  /-- a collective partial on its way to a router (R355) -/
  | part (p : Partial)
  /-- a result or a decision of a root on its way to a rank (R355): the core and the root's, the tags, the blocks with their
  bounds -/
  | result (core root : Nat) (cid seq : BitVec 16) (tenant group : Nat) (blocks : List (List Byte × BitVec 16 × BitVec 8))
  /-- an abort on its way from a core to a root, and a root's abort or mismatch on its way to a rank (R359, R369) -/
  | abort (src root : Nat) (cid seq : BitVec 16) (tenant group n step : Nat) (mismatch : Bool)
  | aborted (core root : Nat) (cid seq : BitVec 16) (tenant group : Nat) (mismatch : Bool)
  /-- a barrier signal on its way to a core (R372) -/
  | signal (core src bid : Nat) (epoch : Bool) (rnd : Nat) (tenant : Nat)
  /-- a RETYPE or a ZERO under way (R147, R154): its fibre, its result register -/
  | retype (core slot : Nat) (tid : BitVec 48) (done : Option XR) (ty : PageType) (empty : Bool) (leaf page : Nat)
  | zero (core slot : Nat) (tid : BitVec 48) (done : Option XR) (page n : Nat)
  /-- the home of a DONE block notifies the launch unit (R409) -/
  | launchDone (blk : Nat)
  deriving DecidableEq, Repr

/-! ## The scheduler of the model -/

/-- A turn of the plan: which agent moves, or which event comes about (log 1). -/
inductive Turn where
  /-- a core issues a bundle -/
  | core (c : Nat)
  /-- a core fetches ahead the bundle at an address of its context (R162) -/
  | ahead (c : Nat) (pc : Pc)
  /-- a core discards what it has fetched ahead at a physical address -/
  | discard (c pa : Nat)
  /-- the host accesses BAR0: offset, bytes, what it writes (R445) -/
  | bar0 (off n : Nat) (data : Option Word)
  /-- what another package has held goes on (R136, R456) -/
  | fabric (pkg : Nat)
  | event (i : Instr)
  deriving DecidableEq, Repr

/-- How the bundle or slot that ran last ended (model's own). -/
inductive Disp where
  | none | retired | trapped
  /-- a C slot that traps on what its home has found (R35) -/
  | homeTrapped
  | parked | stalled | gone
  deriving DecidableEq, Repr

/-- The operands of a pair as both slots read them (R35). -/
structure Latch where
  f : Fibre
  v : Vector (Vector VLane 4) 16
  m : Vector (BitVec 4) 4
  /-- the next message number when the bundle issued -/
  next : Nat
  deriving DecidableEq, Repr

/-- The fibre whose bundle is running (model's own). -/
structure Cur where
  core  : Nat := 0
  slot  : Nat := 0
  latch : Option Latch := none
  /-- the bundle's two words, W0 in bits 31:0 (R428) -/
  word  : Word := 0
  disp  : Disp := .none
  /-- window formats that stand in for the core's: those of a held access, or of a port (R178, R297) -/
  wf    : Option (Vector (BitVec 6) 8) := none
  deriving DecidableEq, Repr

/-- A context kill under way (R419, R424): the context, the reason, the cause, and the fibre that trapped; the
queue whose watchdog expired. -/
structure Kill where
  ctx    : Nat
  reason : Nat
  cause  : Nat := 0
  tid    : BitVec 48 := 0
  pc     : Pc := 0
  queue  : Nat := 0
  /-- LARK_STAT.SEQ of its stop (R435) -/
  seq    : Nat := 0
  deriving DecidableEq, Repr

/-- What the record of a core tells of a stop of the Larkspur tree (R436): its cycle, the messages that it had sent and received, and
bits 23:0 of its last word. -/
structure StopRec where
  core  : Nat
  cyc   : Nat
  sent  : Nat
  rcvd  : Nat
  slots : Nat
  deriving DecidableEq, Repr

/-- A host error record that a state summary holds back: its kind, the time of its event, its context and tenant, its payload (R451,
R454). -/
structure HeldErr where
  kind    : Nat
  time    : Nat
  rc      : Option (Nat × Nat)
  payload : List Word
  deriving DecidableEq, Repr

/-- The trace buffer of a tile (R462, R464): the records it holds, oldest first, each with its context; the records
lost since the last one written; the bytes written so far to the segment of each context's ring. -/
structure TraceBuf where
  recs : List (Nat × Word × Word) := []
  lost : Nat := 0
  pos  : AMap Nat := []
  deriving DecidableEq, Repr

/-! ## Tiles -/

/-- An accumulator of a matrix array with its bound, group state and scale selection (R305). -/
structure Accum where
  /-- nonzero cells: cell (i, j) at 32 i + j -/
  cells : AMap Lane := []
  bound : BitVec 16 := 0
  isOpen : Bool := false
  tid   : BitVec 48 := 0
  start : Pc := 0
  act   : Act := .none
  wide  : Bool := false
  k     : BitVec 8 := 0
  reis  : Bool := false
  count : Nat := 0
  pair  : Bool := false
  /-- the group has claimed the next accumulator (R319) -/
  claim : Bool := false
  scl   : Bool := false
  rs    : Fin 16 := 0
  cs    : Fin 16 := 0
  /-- blocks that MMAs of the open group have read as A, and B-region blocks as B (R255, R321) -/
  aRead : List Nat := []
  bRead : List Nat := []
  deriving DecidableEq, Repr

/-- An MMA that has retired and waits in an operand buffer (R313): its operands as bytes, row by row and column by
column, and the bounds and magnitudes of R332. -/
structure MmaJob where
  p   : Fin 8
  wide : Bool
  fmt : FmtCode
  a   : List Byte
  b   : List Byte
  ea  : BitVec 16
  eb  : BitVec 16
  ma  : BitVec 8
  mb  : BitVec 8
  deriving DecidableEq, Repr

/-- Row i of the A operand of a MMA: where it lies, and whether it comes by a message (R310). -/
structure MmaRow where
  va  : Word
  pa  : Nat
  ty  : PageType
  msg : Bool
  deriving DecidableEq, Repr

/-- A MMA that has not retired: its fibre, its accumulator and format, its rows, those that have been read with the bound
and magnitude of their blocks, those whose records are queued, the failure that one met (R313, R314). -/
structure MmaFetch where
  core   : Nat
  slot   : Nat
  p      : Fin 8
  fmt    : FmtCode
  len    : Nat
  rows   : List MmaRow
  got    : AMap (List Byte × BitVec 16 × BitVec 8) := []
  queued : List Nat := []
  fail   : Option (Nat × Word) := none
  deriving DecidableEq, Repr

/-- The states of a channel (R246). -/
inductive ChState where
  | idle | busy | parked | error
  deriving DecidableEq, Repr

/-- The operation of an engine command, with its operands as issue read them (R258 to R265). -/
inductive EngOp where
  | cpy (len : Nat)
  | cpyg (rows rb : Nat)
  | cpys (rows rb : Nat)
  | cpyt (base : Nat)
  | cpyc (len : Nat)
  | cpyk (slot : Fin 16)
  | cvq (v : B8) (rows : Nat)
  | cvd (v : B8) (rows : Nat)
  | cvr (src dst : B8) (rows : Nat)
  deriving DecidableEq, Repr

/-- An engine command: the operation, x[xa], x[xb] and x[xc], the generation, the issuing fibre and its done=. -/
structure EngCmd where
  op   : EngOp
  src  : Word
  dst  : Word
  aux  : Word
  gen  : GenArg
  done : Option XR
  core : Nat
  slot : Nat
  tid  : BitVec 48
  ctx  : Nat
  deriving DecidableEq, Repr

/-- Bytes that a channel writes at a virtual address: the 8-byte words that are poisoned by their offsets, and the bound
and magnitude that they bring (R254, R266). -/
structure EngWrite where
  va     : Word
  data   : List Byte
  poison : List Nat
  bound  : BitVec 16
  maxe   : BitVec 8
  deriving DecidableEq, Repr

/-- What a read of a channel has brought: the bytes, the poisoned 8-byte words by their offsets, the bound and magnitude of the
source block. -/
structure EngData where
  data   : List Byte
  poison : List Nat := []
  bound  : BitVec 16 := 0
  maxe   : BitVec 8 := 0
  deriving DecidableEq, Repr

/-- What a parked or waiting channel waits for. -/
inductive ChWait where
  | none | block (blk : Nat) (va : Word) | hold (page : Nat) (va : Word) | group
  deriving DecidableEq, Repr

/-- A block of a ONCE destination that a channel assembles (R250): bytes written, poisoned atoms, bound and magnitude. -/
structure ChAsm where
  blk    : Nat
  va     : Word
  bytes  : AMap Byte
  poison : List Nat
  bound  : BitVec 16
  maxe   : BitVec 8
  deriving DecidableEq, Repr

/-- A block of a STRICT or RELEASE page that the running command has written (R254): the bytes by a mask, the bound and
magnitude that it had, those that the command brings, and those last set. -/
structure ChMeta where
  mask : Nat
  old  : BitVec 16 × BitVec 8
  new  : BitVec 16 × BitVec 8
  set  : BitVec 16 × BitVec 8
  deriving DecidableEq, Repr

/-- A copy or conversion channel (R245 to R256). -/
structure Chan where
  st     : ChState := .idle
  status : Word := 0
  cmd    : Option EngCmd := none
  /-- the index list or layout record, as far as it has been read -/
  table  : List Byte := []
  /-- every destination page has been translated and checked (R249) -/
  ready  : Bool := false
  /-- units read, units written, bytes written -/
  rd     : Nat := 0
  wr     : Nat := 0
  bytes  : Nat := 0
  /-- what the first reads of the next unit have brought (R251) -/
  part   : List EngData := []
  /-- units read and not yet written, oldest first -/
  buf    : List (List EngWrite) := []
  /-- the offset in its column slices at which a CPYC writes (R262) -/
  slice  : Nat := 0
  asm    : List ChAsm := []
  wrote  : AMap ChMeta := []
  /-- the largest bound and magnitude among the source blocks read (R262) -/
  top    : BitVec 16 × BitVec 8 := (0, 0)
  wait   : ChWait := .none
  deriving DecidableEq, Repr

/-- The states of a collective entry (R357). -/
inductive CollState where
  | armed | firing | done | aborted | mismatch | preempted
  deriving DecidableEq, Repr

/-- An entry of a collective table (R350). A FREE entry is not listed. -/
structure Coll where
  st     : CollState
  core   : Nat
  slot   : Nat
  tid    : BitVec 48
  ctx    : Nat
  /-- the first input block: physical address, and virtual -/
  blk    : Nat
  nb     : Nat
  cid    : BitVec 16
  seq    : BitVec 16
  hash   : BitVec 32
  op     : Nat
  etype  : FmtCode
  allred : Bool
  pkind  : Nat
  /-- the group: its number, the core of rank 0, the step to the next rank, the ranks, this entry's rank -/
  group  : Nat
  root   : Nat
  step   : Nat
  n      : Nat
  rank   : Nat
  /-- the physical addresses of the blocks of DEST; none for a rank without one -/
  dest   : List Nat
  /-- chunks of the last level that the root holds -/
  held   : AMap Partial := []
  /-- the root has decided (R359) -/
  decided : Bool := false
  /-- when the entry ended: a number that rises -/
  ended  : Nat := 0
  deriving DecidableEq, Repr

/-- A tile: its matrix array, engines, collective table and router overflow (R305, R245, R350, R349). -/
structure Tile where
  acc    : Vector Accum 8 := Vector.replicate 8 {}
  /-- scale slots as numbers of 32 bytes; entry i in bits 8 i + 7 to 8 i (R305, R306) -/
  scale  : Vector (BitVec 256) 16 := Vector.replicate 16 0x7F7F7F7F7F7F7F7F7F7F7F7F7F7F7F7F7F7F7F7F7F7F7F7F7F7F7F7F7F7F7F7F#256
  mmas   : List MmaJob := []
  /-- the MMA that is being fetched -/
  fetch  : Option MmaFetch := none
  copy   : Vector Chan 8 := Vector.replicate 8 {}
  conv   : Vector Chan 4 := Vector.replicate 4 {}
  coll   : List Coll := []
  /-- the abort list: identifier, sequence number, whether a mismatch; newest last (R360) -/
  aborts : List (BitVec 16 × BitVec 16) := []
  /-- partials that found all slots of a router taken (R349): the core of the router, the partial -/
  spill  : List (Nat × Partial) := []
  gated  : Bool := false
  deriving DecidableEq, Repr

/-- A router of the core plane (R349, R360): the partials in its combining slots, the tags it has forwarded an abort
for: tenant, identifier, sequence number, group. -/
structure Router where
  slots : List Partial := []
  tags  : List (Nat × BitVec 16 × BitVec 16 × Nat) := []
  deriving DecidableEq, Repr

/-! ## Launches, the host, and slow activities -/

/-- A launch that runs in a partition (R406 to R409). -/
structure Launch where
  q      : Nat
  ctx    : Nat
  level  : Nat
  irq    : Bool
  /-- the DONE block -/
  done   : Nat
  /-- the watchdog window read at dispatch (R419) -/
  win    : Nat
  /-- the home of DONE has notified the launch unit -/
  notified : Bool := false
  deriving DecidableEq, Repr

/-- A launch packet that has been validated (R404): its dimensions are pairs of axis and extent. -/
structure Packet where
  irq     : Bool
  ox      : Nat
  sx      : Nat
  oy      : Nat
  sy      : Nat
  entry   : Pc
  param   : Word
  tid0    : Nat
  counter : Word
  done    : Word
  dims    : List (Nat × Nat)
  deriving DecidableEq, Repr

/-- What a partition switches to once it is free (R414): a launch taken from a queue, with its packet's number and the
physical addresses of COUNTER and DONE, or an evicted context with an incomplete launch. -/
inductive Incoming where
  | fresh (q num : Nat) (pk : Packet) (ctx counter done : Nat)
  | back (ctx : Nat)
  deriving DecidableEq, Repr

/-- A wake that waits in an Aster pool (R208), with the group that holds it. -/
structure HeldWake where
  blk   : Nat
  ast   : Aster
  data  : List Byte
  flag  : RFlag
  group : Nat
  deriving DecidableEq, Repr

/-- What Menath has sent to the host: completions of BAR requests and MSI-X messages (R445, R446). -/
inductive HostMsg where
  | msix (vec : Nat) (addr : Word) (data : BitVec 32)
  | read (k : Nat) (data : List Byte) (poisoned : Bool)
  | unsupported (k : Nat)
  | abort (k : Nat)
  | bar0 (off : Nat) (data : Word)
  | bar0Unsupported (off : Nat)
  deriving DecidableEq, Repr

/-- A host access that waits on a held page, or behind a posted write that does (R446): its number, address, data for
a write, and whether it is a write of a register. -/
structure HostWait where
  k     : Nat
  pa    : Nat
  n     : Nat
  data  : Option (List Byte)
  reg   : Bool := false
  deriving DecidableEq, Repr

/-- A page move under way (R151): blocks still to be copied in this pass. -/
structure Move where
  src   : Nat
  dst   : Nat
  /-- next block of the running pass -/
  pos   : Nat := 0
  /-- blocks copied in the running pass -/
  copied : Nat := 0
  deriving DecidableEq, Repr

/-- A routine of the Dimus table (R117). -/
structure Routine where
  align : Nat
  pay   : Bool
  steps : List (BitVec 32)
  deriving DecidableEq, Repr

/-- What the opaque parts of a saved image hold (R439, R440), with the model's own parts of the records: tiles by
number, cores by number, and for each fibre what wakes it; the overflow groups in use in the vaults, and the syndromes of
their words. -/
structure Saved where
  part   : Nat
  tiles  : AMap Tile
  cores  : AMap Core
  fibres : AMap Fibre
  groups : List Nat
  words  : AMap Nat
  deriving DecidableEq, Repr

/-! ## The machine -/

/-- Why the machine stops. -/
inductive Fault where
  /-- an event names a message, entry or request that does not exist: nothing comes about. Raised by the events
  whose operand is a number that the plan gives. Safe: the hardware has no such event. -/
  | noSuchEvent
  deriving DecidableEq, Repr

/-- Why an instruction has no meaning. -/
inductive Refusal where
  /-- not modelled yet. Raised by exec's arms only. Safe. -/
  | notModelled (mnemonic : String)
  deriving DecidableEq, Repr

/-- The state of the machine. -/
structure State where
  /-- model's own: whose turn is next (log 1) -/
  plan   : List Turn := []
  /-- model's own: the running bundle -/
  cur    : Cur := {}
  /-- model's own: the number of the next free value (log 2) -/
  fresh  : Nat := 0
  /-- network cycles since module reset, a lower bound (log 7) -/
  clk    : Nat := 0
  net    : AMap Msg := []
  nextId : Nat := 0
  fibres : AMap Fibre := []
  cores  : AMap Core := []
  /-- system registers that do not hold their reset value, by offset in the register space -/
  regs   : AMap Word := []
  /-- local memory by physical address; an unlisted byte reads 0x00 (log 3) -/
  mem    : AMap Byte := []
  /-- block metadata by block number (R89) -/
  bmeta  : AMap BMeta := []
  /-- the syndrome of each 32-byte atom of far memory by atom number (R88, R92) -/
  synd   : AMap Nat := []
  /-- the syndrome of each 8-byte vault word by word number (R172, R173) -/
  vsynd  : AMap Nat := []
  /-- blocks of which a half of the metadata slot, or the tag, cannot be corrected (R90, R96, R170) -/
  badMeta : AMap Unit := []
  /-- retired pages and their replacements, by page number (R102) -/
  redir  : AMap Nat := []
  /-- correctable errors of a row within the current patrol pass, by row (R100) -/
  rowCnt : AMap Nat := []
  /-- rows declared failing and not yet repaired or retired: controller, channel, bank, row (R100, R101) -/
  rowFail : List (Nat × Nat × Nat × Nat) := []
  /-- lines that the L2 slices hold, by line number (R161) -/
  l2     : AMap L2Line := []
  /-- TLBs: of core c at c, of the engines of tile t at 131,072 + t, of the I/O die at 200,000 (R133) -/
  tlbs   : AMap (List TlbEntry) := []
  /-- walk caches by sector (R134) -/
  walks  : AMap (List WalkEntry) := []
  /-- Aster overflow groups in use, by physical address (R201) -/
  groups : AMap Unit := []
  /-- wakes held in an Aster pool for a context that is not resident (R208) -/
  heldWakes : List HeldWake := []
  /-- the instance number of each context (R495) -/
  inst   : AMap (BitVec 16) := []
  /-- host memory that rings and buffers name; an unlisted byte reads 0x00 (log 3) -/
  hostMem : AMap Byte := []
  /-- context kills under way, by partition (R419, R424) -/
  kills  : AMap Kill := []
  /-- the partition that a Larkspur stop under way has stopped, and the stop's number (R435) -/
  lark   : Option (Nat × Nat) := none
  /-- error records dropped since the last one written (R450) -/
  errLost : Nat := 0
  /-- the stop records that have not been written yet, by the stop's number (R436) -/
  stops  : AMap (List StopRec) := []
  /-- error records raised while a state summary runs, oldest first (R454) -/
  errHeld : List HeldErr := []
  /-- trace buffers by tile (R462) -/
  trace  : AMap TraceBuf := []
  tiles  : AMap Tile := []
  routers : AMap Router := []
  /-- Dimus routines 16 to 63 that DLOAD has installed (R116, R121) -/
  routines : AMap Routine := []
  /-- DLOADs under way, in the order in which they cleared the entry's valid bit (R121): entry, core, slot, image -/
  dloading : List (Nat × Nat × Nat × List Byte) := []
  /-- fibres that wait in overflow pools (R387), and pool entries reserved, by context -/
  pool   : List Travel := []
  poolResv : AMap Nat := []
  /-- running launches by partition (R406) -/
  launches : AMap Launch := []
  /-- arbitration by partition and level, at 32 t + level: the queue granted, and the grants left (R406) -/
  arb    : AMap (Nat × Nat) := []
  /-- root fibres that have found no place yet (R408) -/
  roots  : List Travel := []
  /-- evicted contexts with an incomplete launch: partition and launch (R414) -/
  evicted : AMap (Nat × Launch) := []
  /-- what a partition switches to once it is free (R414) -/
  incoming : AMap Incoming := []
  /-- partitions whose deadlock event has been raised since a fibre of theirs last became READY (R419) -/
  asleep : List Nat := []
  /-- partitions whose eviction has completed its second step (R416) -/
  saving : List Nat := []
  /-- while the temperature throttles: by context the allotments ALLOT and ALLOTM that the power loop has set, and those of the
  temperature action (R418) -/
  thermal : AMap ((Nat × Nat) × (Nat × Nat)) := []
  /-- saved images by context (R437) -/
  saved  : AMap Saved := []
  /-- the host combining buffer, oldest first (R447) -/
  hcb    : List BabEntry := []
  /-- messages to the host, newest first -/
  toHost : List HostMsg := []
  hostHeld : List HostWait := []
  /-- host requests made so far -/
  hostReqs : Nat := 0
  /-- patrol positions of the far-memory controllers: the next block (R98) -/
  patrol : AMap Nat := []
  /-- patrol positions of the vault controllers: the next word (R175) -/
  vpatrol : AMap Nat := []
  /-- spare pages in the order listed (R103) -/
  spares : List Nat := []
  /-- rows repaired: spare rows used of each bank, by row key of row 0 (R101) -/
  rowsUsed : AMap Nat := []
  /-- remap entries used of each channel, by row key of bank 0 and row 0 (R101) -/
  remapUsed : AMap Nat := []
  /-- pages whose retirement is pending (R103) -/
  retirePend : List Nat := []
  move   : Option Move := none
  /-- the state summary under way (R454) -/
  summary : Option (List Byte) := none
  /-- the attestation report under way (R459) -/
  report : Option (List Byte) := none
  /-- the firmware's version, and the minimum security version that images have raised (R457) -/
  fwVersion : Word := 0
  minSvn : Nat := 0
  /-- the counters of the router links, by the 4-byte word of a snapshot's body that shows them (R374, R376) -/
  links  : AMap (BitVec 32) := []
  /-- the writes to bytes of RELEASE pages that plain reads may return, newest first, by the place of their first byte: the newest is
  what memory holds, and none happens-before a newer one (R230, log 5) -/
  past   : AMap (List Version) := []
  /-- model's own: the number of the next message when the counters were last latched, if none was on its way then (log 30) -/
  quietAt : Option Nat := some 0
  deriving DecidableEq, Repr

/-- The machine right after module reset. -/
def State.reset : State := {}

/-- The outcome of a step of this machine. -/
abbrev Out := Host.Outcome State Fault Refusal

end Sys2Proof.Machine
end

