-- ==== Sys2Proof/Machine/Flags.lean ====
section
/-!
DEFINITION. The fibre status word FSW (R272, R273): its flags, enables and modes, and what writes change. How each
operation computes its flags stands beside its result in Fp.lean (R67 to R72).
-/

namespace Sys2Proof.Machine

/-- FSW.LVL. -/
def fswLvl (w : BitVec 32) : Nat := fld w.toNat 22 2
/-- FSW.SYS. -/
def fswSys (w : BitVec 32) : Bool := w.getLsbD 21
/-- FSW.IZ. -/
def fswIz (w : BitVec 32) : Bool := w.getLsbD 16
/-- FSW.RM. -/
def fswRm (w : BitVec 32) : Nat := fld w.toNat 5 2
/-- The enables ENV, EDZ, EOF, EUF and ENX in the order of the flags. -/
def fswEnables (w : BitVec 32) : Flags := BitVec.ofNat 5 (fld w.toNat 8 5)
/-- The bits of FSW that a write by MTS or LOADM reaches: not LVL and SYS, not the reserved ones (R273). -/
def fswWritable : BitVec 32 := 0x00011F7F#32
/-- FSW after a write of `v` by MTS or LOADM (R273). -/
def fswWrite (old v : BitVec 32) : BitVec 32 := (old &&& ~~~fswWritable) ||| (v &&& fswWritable)
/-- FSW with flags set. -/
def fswOr (w : BitVec 32) (f : Flags) : BitVec 32 := w ||| f.setWidth 32
/-- FSW with LVL and SYS set (R423, R430). -/
def fswLevel (w : BitVec 32) (lvl : Nat) (sys : Bool) : BitVec 32 :=
  (w &&& 0xFF1FFFFF#32) ||| BitVec.ofNat 32 (lvl * 2 ^ 22 + sys.toNat * 2 ^ 21)

end Sys2Proof.Machine
end

