-- ==== Sys2Proof/Machine/Regs.lean ====
section
/-!
DEFINITION. Access to the state: fibres, registers with their full bits and flags, masks, FSW, and messages.
-/

namespace Sys2Proof.Machine

/-! ## Access to the state -/

/-- The key of a core's slot among the fibres. -/
def fibKey (c k : Nat) : Nat := c * 256 + k

/-- The fibre in a slot of a core; a slot that is not listed is FREE (R377). -/
def State.fib (s : State) (c k : Nat) : Fibre := s.fibres.getD (fibKey c k) {}

/-- The state with a slot's fibre set. -/
def State.setFib (s : State) (c k : Nat) (f : Fibre) : State :=
  { s with fibres := s.fibres.setD (fibKey c k) f {} }

/-- The state with a slot's fibre changed. -/
def State.modFib (s : State) (c k : Nat) (g : Fibre → Fibre) : State := s.setFib c k (g (s.fib c k))

/-- The registers and tables of a core. -/
def State.core (s : State) (c : Nat) : Core := s.cores.getD c {}

/-- The state with a core's registers set. -/
def State.setCore (s : State) (c : Nat) (k : Core) : State := { s with cores := s.cores.setD c k {} }

/-- The state with a core's registers changed. -/
def State.modCore (s : State) (c : Nat) (g : Core → Core) : State := s.setCore c (g (s.core c))

/-- The fibre whose bundle is running. -/
def State.me (s : State) : Fibre := s.fib s.cur.core s.cur.slot

/-- The state with the running fibre set. -/
def State.setMe (s : State) (f : Fibre) : State := s.setFib s.cur.core s.cur.slot f

/-- The state with the running fibre changed. -/
def State.modMe (s : State) (g : Fibre → Fibre) : State := s.setMe (g s.me)

/-- The core on which the bundle runs. -/
def State.myCore (s : State) : Core := s.core s.cur.core

/-- The operands of the bundle: those latched for a pair, and otherwise the fibre's own (R35). -/
def State.ops (s : State) : Latch :=
  match s.cur.latch with
  | some l => l
  | none => { f := s.me, v := s.myCore.v, m := s.myCore.m, next := s.nextId }

/-- The state with the way the slot ended noted. -/
def State.withDisp (s : State) (d : Disp) : State := { s with cur := { s.cur with disp := d } }

/-- A fresh number for a free value (log 2). -/
def State.takeFresh (s : State) : Nat × State := (s.fresh, { s with fresh := s.fresh + 1 })

/-- The state with a message sent, and the message's number. -/
def State.send (s : State) (m : Msg) : State × Nat :=
  ({ s with net := s.net.insert s.nextId m, nextId := s.nextId + 1 }, s.nextId)

/-- The state with a message replaced. -/
def State.putMsg (s : State) (id : Nat) (m : Msg) : State := { s with net := s.net.insert id m }

/-- The state without a message. -/
def State.dropMsg (s : State) (id : Nat) : State := { s with net := s.net.erase id }

/-! ## Fibres and their status word (R272) -/

/-- The trap level of a fibre. -/
def Fibre.lvl (f : Fibre) : Nat := fswLvl f.fsw
/-- Whether a fibre runs in system mode. -/
def Fibre.sys (f : Fibre) : Bool := fswSys f.fsw
/-- The trap bank of a level (R422). -/
def Fibre.bank (f : Fibre) (n : Nat) : TrapBank := if n = 2 then f.bank2 else f.bank1
/-- The fibre with the trap bank of a level set. -/
def Fibre.setBank (f : Fibre) (n : Nat) (b : TrapBank) : Fibre :=
  if n = 2 then { f with bank2 := b } else { f with bank1 := b }

/-! ## Registers -/

/-- The operand in an x register. -/
def State.rx (s : State) (i : XR) : Word := (s.ops.f.x.get i).val
/-- The operand FSW. -/
def State.rfsw (s : State) : BitVec 32 := s.ops.f.fsw
/-- The operand in a lane of a v register. -/
def State.rv (s : State) (i : VR) (k : Fin 4) : Lane := ((s.ops.v.get i).get k).val
/-- The operand in a mask register. -/
def State.rm (s : State) (i : MR) : BitVec 4 := s.ops.m.get i
/-- The lanes that an optional mask enables (R274). -/
def State.enabled (s : State) : Option MR → BitVec 4
  | none => 0xF
  | some m => s.rm m

/-- A fibre with a register written: FULL and without a flag (R268). -/
def Fibre.fill (f : Fibre) (i : XR) (v : Word) : Fibre := { f with x := f.x.set i { val := v, full := true } }
/-- A fibre with a register made EMPTY; its value stands until it is filled. -/
def Fibre.empty (f : Fibre) (i : XR) : Fibre := { f with x := f.x.set i { f.x.get i with full := false } }
/-- A fibre with a register filled with a flag (R212). -/
def Fibre.flagged (f : Fibre) (i : XR) (fl : RFlag) (va : Word) : Fibre :=
  { f with x := f.x.set i { val := (f.x.get i).val, full := true, flag := fl, va := va } }

/-- The state with a register of the running fibre written. -/
def State.setX (s : State) (i : XR) (v : Word) : State := s.modMe (·.fill i v)
/-- The state with a register of the running fibre made EMPTY. -/
def State.emptyX (s : State) (i : XR) : State := s.modMe (·.empty i)
/-- The state with an optional result register written. -/
def State.setXo (s : State) (i : Option XR) (v : Word) : State :=
  match i with
  | none => s
  | some i => s.setX i v

/-- A v register with the enabled lanes changed. -/
def vmapLanes (en : BitVec 4) (r : Vector VLane 4) (g : Fin 4 → VLane → VLane) : Vector VLane 4 :=
  Vector.ofFn fun k : Fin 4 => if en.getLsbD k.val then g k (r.get k) else r.get k

/-- A core with the enabled lanes of a v register changed. -/
def Core.modV (c : Core) (r : VR) (en : BitVec 4) (g : Fin 4 → VLane → VLane) : Core :=
  { c with v := c.v.set r (vmapLanes en (c.v.get r) g) }

/-- The state with the enabled lanes of a v register of the running core written. -/
def State.setV (s : State) (r : VR) (en : BitVec 4) (vals : Fin 4 → Lane) : State :=
  s.modCore s.cur.core fun c => c.modV r en fun k _ => { val := vals k }
/-- The state with the enabled lanes of a v register of the running core made EMPTY. -/
def State.emptyV (s : State) (r : VR) (en : BitVec 4) : State :=
  s.modCore s.cur.core fun c => c.modV r en fun _ l => { l with full := false }
/-- The state with a mask register of the running core written. -/
def State.setM (s : State) (r : MR) (v : BitVec 4) : State :=
  s.modCore s.cur.core fun c => { c with m := c.m.set r v }

/-- The state with FP flags set in the running fibre's FSW (R67). -/
def State.raise (s : State) (fl : Flags) : State :=
  if fl = 0 then s else s.modMe fun f => { f with fsw := fswOr f.fsw fl }

/-! ## Waking -/

/-- Whether the x registers of a list are all FULL. -/
def Fibre.allFull (f : Fibre) (xs : List XR) : Bool := xs.all fun i => (f.x.get i).full
/-- Whether all lanes of the v registers of a list are FULL. -/
def vAllFull (v : Vector (Vector VLane 4) 16) (vs : List VR) : Bool :=
  vs.all fun r => (List.finRange 4).all fun k => ((v.get r).get k).full

end Sys2Proof.Machine
end

