-- ==== Sys2Proof/Machine/Mem.lean ====
section
/-!
DEFINITION. Physical memory: the address map (R27 to R31), system registers as they stand, bytes and metadata of
blocks, the error codes of atoms and vault words (R92, R173), host memory and host error records (R449 to R451).
-/

namespace Sys2Proof.Machine

/-! ## The address map -/

/-- The ranges of the local map (R27). -/
inductive Region where
  | hbmInter | hbmLocal | lpddr | carve | sysreg | vault | window (k : Fin 8) | pooled | none
  deriving DecidableEq, Repr

/-- The first address of the system register space (R27). -/
def sysBase : Nat := 0x0F0000000000
/-- The first raw vault address (R27). -/
def vaultBase : Nat := 0x100000000000
/-- The bytes of all vaults. -/
def vaultSize : Nat := 0x400000000

/-- The range in which a local physical address lies (R27). -/
def regionOf (a : Nat) : Region :=
  if a < 0x008000000000 then .hbmInter
  else if a < 0x00C000000000 then .hbmLocal
  else if a < 0x040000000000 then .none
  else if a < 0x06E800000000 then .lpddr
  else if a < 0x070000000000 then .carve
  else if a < 0x0F0000000000 then .none
  else if a < 0x0F0001000000 then .sysreg
  else if a < 0x100000000000 then .none
  else if a < 0x100400000000 then .vault
  else if a < 0x102400000000 then .window (Fin.ofNat 8 ((a - 0x100400000000) / 0x400000000))
  else if a < 0x200000000000 then .none
  else if a < 0x400000000000 then .pooled
  else .none

/-- The raw address of a byte: that of the vault byte for a window address (R30). -/
def rawOf (a : Nat) : Nat :=
  match regionOf a with
  | .window _ => vaultBase + (a - 0x100400000000) % 0x400000000
  | _ => a

/-- The window of an address. -/
def windowOf (a : Nat) : Option (Fin 8) :=
  match regionOf a with
  | .window k => some k
  | _ => none

/-- The package number of a span-global address (R31). -/
def pkgOf (a : Nat) : Nat := fld a 46 10
/-- The local address of a span-global address (R31). -/
def localOf (a : Nat) : Nat := fld a 0 46
/-- The block of a byte: its number. -/
def blockOf (a : Nat) : Nat := a / 512
/-- The page of a byte: its number. -/
def pageOf (a : Nat) : Nat := a / 65536

/-- Whether an address lies in HBM4. -/
def isHbm (a : Nat) : Bool := regionOf a == .hbmInter || regionOf a == .hbmLocal
/-- Whether an address lies in HBM4 or LPDDR-6. -/
def isDram (a : Nat) : Bool := isHbm a || regionOf a == .lpddr
/-- Whether a raw address lies in a vault. -/
def isVault (a : Nat) : Bool := regionOf a == .vault

/-- The tile of a raw vault address (R30). -/
def vaultTile (a : Nat) : Nat := (a - vaultBase) / 0x100000
/-- The offset of a raw vault address in its tile's vault. -/
def vaultOff (a : Nat) : Nat := (a - vaultBase) % 0x100000

/-- The parts of a vault (R168). -/
inductive VaultPart where
  | scratch (core : Nat)
  | system
  | bRegion
  deriving DecidableEq, Repr

/-- The part of a vault that holds an offset (R168). -/
def vaultPart (off : Nat) : VaultPart :=
  if off < 0x80000 then .scratch (off / 0x10000)
  else if off < 0xC0000 then .system
  else .bRegion

/-- The row of a core (R22). -/
def coreRow (c : Nat) : Nat := c / 512
/-- The column of a core (R22). -/
def coreCol (c : Nat) : Nat := c % 512
/-- The tile of a core (R23). -/
def tileOf (c : Nat) : Nat := coreRow c / 2 * 128 + coreCol c / 4
/-- The number of a core within its tile (R23). -/
def coreInTile (c : Nat) : Nat := coreRow c % 2 * 4 + coreCol c % 4
/-- The sector of a core (R23). -/
def sectorOf (c : Nat) : Nat := coreRow c / 16 * 16 + coreCol c / 32
/-- The quadrant of a core (R23). -/
def quadrantOf (c : Nat) : Nat := coreRow c / 64 * 4 + coreCol c / 128
/-- The core of a tile with a number within it (R23). -/
def tileCore (t i : Nat) : Nat := (t / 128 * 2 + i / 4) * 512 + (t % 128 * 4 + i % 4)
/-- The sector of a tile. -/
def tileSector (t : Nat) : Nat := sectorOf (tileCore t 0)

/-- The home sector of a far-memory address (R158). -/
def homeSector (a : Nat) : Nat :=
  let x := (fld a 16 1 * 8 + fld a 9 3) ^^^ fld a 17 4
  let sec (q s : Nat) : Nat := (4 * (q / 4) + s / 4) * 16 + 4 * (q % 4) + s % 4
  match regionOf a with
  | .hbmInter => sec (fld a 12 4) x
  | .hbmLocal => sec ((a - 0x008000000000) / 0x400000000) x
  | _ => fld a 9 8 ^^^ fld a 17 8

/-- The core to which `.v` and `.m` send a fibre (R398); none for the system register space. -/
def homeCore (a : Nat) : Option Nat :=
  let raw := rawOf a
  match regionOf raw with
  | .vault =>
    match vaultPart (vaultOff raw) with
    | .scratch i => some (tileCore (vaultTile raw) i)
    | _ => some (tileCore (vaultTile raw) 3)
  | .hbmInter | .hbmLocal | .lpddr | .pooled =>
    let s := homeSector raw
    let k := fld raw 9 6
    -- tile k of the sector in row-major order: the sector is 8 tiles wide
    some (tileCore ((s / 16 * 8 + k / 8) * 128 + (s % 16 * 8 + k % 8)) 3)
  | _ => none

/-! ## System registers as they stand -/

/-- The value of a system register at module reset, by its offset (R7). -/
def regReset (off : Nat) : Word :=
  if 0x190000 ≤ off ∧ off < 0x191000 then
    if off % 0x40 = 0 then 0x1004#64
    else if off % 0x40 = 8 then (if (off - 0x190000) / 0x40 < 16 then 512#64 else 16#64) else 0
  else if 0x1E0000 ≤ off ∧ off < 0x1E8000 then (if off % 0x40 = 8 then 0x04000000#64 else 0)
  else if 0x1F0000 ≤ off ∧ off < 0x1F0200 then 0x03E80000#64
  else if 0x1F1000 ≤ off ∧ off < 0x1F5000 then
    (if off % 16 = 0 then 0x0080000280000400#64 else 0x0004190002000040#64)
  else if 0x300000 ≤ off ∧ off < 0x308000 then (if off % 16 = 8 then 0x0000000100000000#64 else 0)
  else 0

/-- A system register as it stands. -/
def State.reg (s : State) (off : Nat) : Word := s.regs.getD off (regReset off)
/-- The state with a system register set. -/
def State.setReg (s : State) (off : Nat) (v : Word) : State := { s with regs := s.regs.setD off v (regReset off) }
/-- A field of a system register. -/
def State.regF (s : State) (off lo n : Nat) : Nat := fld (s.reg off).toNat lo n
/-- A word with a field replaced. -/
def withField (w : Word) (lo n v : Nat) : Word :=
  BitVec.ofNat 64 (w.toNat - fld w.toNat lo n * 2 ^ lo + v % 2 ^ n * 2 ^ lo)
/-- The state with a field of a system register set. -/
def State.setRegF (s : State) (off lo n v : Nat) : State := s.setReg off (withField (s.reg off) lo n v)

/-- This package's number (R455). -/
def State.myPkg (s : State) : Nat := s.regF 0x213000 0 10

/-- Whether an extent currently covers a pooled address (R28, R106): its slot of 512 MiB is mapped. -/
def State.pooledPresent (s : State) (a : Nat) : Bool :=
  s.regF (0x100000 + 8 * ((a - 0x200000000000) / 0x20000000)) 63 1 == 1

/-- Whether a local address exists for an access (R28). -/
def State.exists_ (s : State) (a : Nat) : Bool :=
  match regionOf a with
  | .none | .carve => false
  | .pooled => s.pooledPresent a
  | _ => true

/-- Whether a span-global address of another package lies in a range of the map; which extents that package has is not known
here (R28, R31; log 8). -/
def mapped (a : Nat) : Bool :=
  match regionOf (localOf a) with
  | .none | .carve => false
  | _ => true

/-! ## Bytes -/

/-- Where the bytes of a pooled address lie: the port and device address of its extent (R106). -/
def State.poolPlace (s : State) (a : Nat) : Nat :=
  let e := s.reg (0x100000 + 8 * ((a - 0x200000000000) / 0x20000000))
  2 ^ 60 + fld e.toNat 62 1 * 2 ^ 52 + fld e.toNat 29 23 * 2 ^ 29 + a % 2 ^ 29

/-- A raw address after the redirection of a retired page (R102). -/
def State.redirected (s : State) (a : Nat) : Nat :=
  match s.redir.get? (pageOf a) with
  | some p => p * 65536 + a % 65536
  | none => a

/-- Whether two raw addresses name one block: that of a retired page and its replacement's are one (R102). -/
def State.sameBlk (s : State) (a b : Nat) : Bool := s.redirected a / 512 == s.redirected b / 512

/-- The place of a raw byte: after redirection of a retired page, and that of a pooled extent on its device. -/
def State.placeOf (s : State) (a : Nat) : Nat :=
  match s.redir.get? (pageOf a) with
  | some p => p * 65536 + a % 65536
  | none => if regionOf a = .pooled then s.poolPlace a else a

/-- One byte of memory at a raw local address. -/
def State.byte (s : State) (a : Nat) : Byte := s.mem.getD (s.placeOf a) 0

/-- `n` bytes from a raw local address. -/
def State.bytes (s : State) (a : Nat) : Nat → List Byte
  | 0 => []
  | n + 1 => s.byte a :: s.bytes (a + 1) n

/-- The state with one byte of memory stored. -/
def State.setByte (s : State) (a : Nat) (b : Byte) : State := { s with mem := s.mem.setD (s.placeOf a) b 0 }

/-- The state with bytes stored from a raw local address. -/
def State.setBytes (s : State) (a : Nat) : List Byte → State
  | [] => s
  | b :: bs => (s.setByte a b).setBytes (a + 1) bs

/-- The little-endian number in `n` bytes. -/
def State.nat (s : State) (a n : Nat) : Nat := natOfBytes (s.bytes a n)

/-- Bytes of host memory. -/
def State.hostBytes (s : State) (a : Nat) : Nat → List Byte
  | 0 => []
  | n + 1 => s.hostMem.getD a 0 :: s.hostBytes (a + 1) n

/-- The state with bytes of host memory stored. -/
def State.setHostBytes (s : State) (a : Nat) : List Byte → State
  | [] => s
  | b :: bs => ({ s with hostMem := s.hostMem.setD a b 0 }).setHostBytes (a + 1) bs

/-- The canonical form of memory: addresses rise strictly, and no byte that equals what an unlisted address reads as is
listed (log 3). -/
def Memory.wf (m : AMap Byte) : Bool := AMap.wf 0 m

/-! ## Metadata -/

/-- Whether a raw address has block metadata: pooled extents carry none (R91). -/
def hasMeta (a : Nat) : Bool := isDram a || isVault a

/-- The metadata of the block of a raw address (R89, R91). -/
def State.blkMeta (s : State) (a : Nat) : BMeta :=
  if hasMeta a then s.bmeta.getD (blockOf (s.placeOf a)) {}
  else { maxe := 0xFF, bound := 0xFFFF, pres := .full }

/-- The state with the metadata of a block set; discarded where there is none (R91). -/
def State.setMeta (s : State) (a : Nat) (m : BMeta) : State :=
  if hasMeta a then { s with bmeta := s.bmeta.setD (blockOf (s.placeOf a)) m {} } else s

/-- The state with the metadata of a block changed. -/
def State.modMeta (s : State) (a : Nat) (g : BMeta → BMeta) : State := s.setMeta a (g (s.blkMeta a))

/-- The code of a presence state (R89). -/
def Pres.code : Pres → Nat
  | .empty => 0 | .full => 1 | .deferred => 2 | .retired => 3

/-- The presence state of a code (R89). -/
def Pres.ofCode : Nat → Pres
  | 0 => .empty | 1 => .full | 2 => .deferred | _ => .retired

/-- Metadata bits 36:0 (R89). -/
def BMeta.toNat (m : BMeta) : Nat :=
  m.dsc.toNat * 2 ^ 36 + m.maxe.toNat * 2 ^ 28 + m.bound.toNat * 2 ^ 12 + m.gen.toNat * 2 ^ 2 + m.pres.code

/-- The metadata of its bits 36:0. -/
def BMeta.ofNat (n : Nat) : BMeta :=
  { dsc := fld n 36 1 == 1, maxe := BitVec.ofNat 8 (fld n 28 8), bound := BitVec.ofNat 16 (fld n 12 16),
    gen := BitVec.ofNat 10 (fld n 2 10), pres := Pres.ofCode (fld n 0 2) }

/-! ## Time and error records -/

/-- The current network cycle, of which only a lower bound is known (log 7). -/
def State.now (s : State) : Nat × State :=
  let t := s.clk + Config.delay s.fresh
  (t, { s with clk := t, fresh := s.fresh + 1 })

/-- The eight bytes of a word. -/
def wordBytes (w : Word) : List Byte := bytesOfNat 8 w.toNat

/-- Where a host error record's context and tenant come from. -/
structure RecCtx where
  ctx    : Nat
  tenant : Nat
  deriving DecidableEq, Repr

/-- The 64 bytes of a host error record (R451). -/
def errBytes (kind pkg seq time : Nat) (rc : Option RecCtx) (payload : List Word) : List Byte :=
  let (c, t, cv) := match rc with
    | some r => (r.ctx, r.tenant, 1)
    | none => (0, 0, 0)
  let head := kind * 2 ^ 56 + c % 1024 * 2 ^ 46 + t % 64 * 2 ^ 40 + cv * 2 ^ 39 + pkg
  let words := [BitVec.ofNat 64 head, BitVec.ofNat 64 seq, BitVec.ofNat 64 time] ++ payload
  ((words ++ List.replicate 8 0).take 8).flatMap wordBytes

/-! ## Error codes of atoms and vault words -/

/-- The bytes that one check code protects at a raw address: 8 in a vault, 32 elsewhere. -/
def eccUnit (a : Nat) : Nat := if isVault a then 8 else 32

/-- The class of the atom or word of a raw address. -/
def State.ecc (s : State) (a : Nat) : EccClass :=
  let p := s.placeOf a
  if isVault a then wordClass (s.vsynd.getD (p / 8) 0) else atomClass (s.synd.getD (p / 32) 0)

/-- The state with the syndrome of an atom or word set: clean, or poisoned. -/
def State.setPoison (s : State) (a : Nat) (poisoned : Bool) : State :=
  let p := s.placeOf a
  if isVault a then { s with vsynd := s.vsynd.setD (p / 8) (if poisoned then vaultMarigold else 0) 0 }
  else { s with synd := s.synd.setD (p / 32) (if poisoned then marigold else 0) 0 }

/-- Whether a read of the atom or word is delivered with poison (R92, R173). -/
def State.unitPoisoned (s : State) (a : Nat) : Bool :=
  match s.ecc a with
  | .clean | .single => false
  | .poisoned | .uncorrectable | .misdirected => true

/-- The first addresses of the atoms or words that a range of bytes touches. -/
def unitsOf (a len : Nat) : List Nat :=
  let u := eccUnit a
  if len = 0 then []
  else (List.range ((a + len - 1) / u - a / u + 1)).map fun i => (a / u + i) * u

/-- The first poisoned atom or word in a range. -/
def State.firstPoison (s : State) (a len : Nat) : Option Nat := (unitsOf a len).find? fun u => s.unitPoisoned u

/-! ## RETIRED blocks, and the records that Menath writes -/

/-- The first byte of the block of an address. -/
def blkOf (a : Nat) : Nat := a / 512 * 512

/-- Whether the metadata atoms of an HBM4 block are lost, or half of an LPDDR-6 slot, or the tag of a vault block (R90, R96,
R170). -/
def State.metaLost (s : State) (blk : Nat) : Bool :=
  ((s.badMeta.get? (blockOf (s.placeOf blk))).isSome && hasMeta blk)
    || (isHbm blk && (List.range 7).any fun j => s.unitPoisoned (blk + 32 * j))

/-- Whether a block is RETIRED (R96). -/
def State.isRetired (s : State) (a : Nat) : Bool :=
  hasMeta a && ((s.blkMeta a).pres == .retired || s.metaLost (blkOf a))

/-- The state after a write of a STRICT or RELEASE block: dirty, and its bound and maximum exponent unknown (R89, R337). -/
def State.noteWrite (s : State) (a : Nat) : State :=
  s.modMeta a fun m => { m with dsc := true, bound := 0xFFFF, maxe := 0xFF }

/-- The key of the line of a slice that holds an address (R161). -/
def State.lineKey (s : State) (a : Nat) : Nat := s.redirected a / 64

/-- Whether two lines lie in one slice (R158). -/
def sameSlice (j k : Nat) : Bool := homeSector (j * 64) == homeSector (k * 64)
/-- Whether two lines lie in one set of one slice (R161). -/
def sameSet (j k : Nat) : Bool := sameSlice j k && Config.setOf j % 4096 == Config.setOf k % 4096

/-- The lines that the set of a line holds while the set is full, none while it has room: a set holds 16 lines, and a slice that
holds fewer has no full set (R161). -/
def State.fullSet (s : State) (k : Nat) : List (Nat × L2Line) :=
  let set := s.l2.filter fun l => sameSet l.1 k
  if (s.l2.filter fun l => sameSlice l.1 k).length < 16 || set.length < 16 then [] else set

/-- A line that Menath writes with a record of its own is dirty in its slice. In a full set it is itself the victim, and is written
back at once (R161). -/
def State.dirtyLine (s : State) (k : Nat) : State :=
  match s.l2.get? k with
  | some l => { s with l2 := s.l2.insert k { l with dirty := true } }
  | none => if (s.fullSet k).isEmpty then { s with l2 := s.l2.insert k { dirty := true } } else s

/-- Bytes that make up whole atoms or words, written by Menath itself: they clear the poison of each; a RETIRED block keeps
what it holds (R95, R97). -/
def State.writeWhole (s : State) (a : Nat) (bs : List Byte) : State :=
  if s.isRetired a then s
  else
    let s := ((unitsOf a bs.length).foldl (fun s u => s.setPoison u false) s).setBytes a bs
    if isVault a then s else s.dirtyLine (s.lineKey a)

/-- One record written at the ring's next place (R449, R451), in host memory or in the module's own: with the time of its event, that
of its writing where none is given. -/
def State.putErr (s : State) (kind : Nat) (rc : Option RecCtx) (payload : List Word) (time : Option Nat := none) : State :=
  let (t, s) := match time with
    | some t => (t, s)
    | none => s.now
  let wr := (s.reg 0x211010).toNat
  let size := s.regF 0x211008 56 5
  let a := s.regF 0x211000 6 58 * 64 + wr % 2 ^ size * 64
  let bs := errBytes kind s.myPkg wr t rc payload
  let s :=
    if s.regF 0x211008 62 1 = 1 then s.setHostBytes a bs
    else if s.isRetired (rawOf a) then s
    else (s.writeWhole (rawOf a) bs).noteWrite (rawOf a)
  s.setReg 0x211010 (BitVec.ofNat 64 (wr + 1))

/-- Whether the ring takes a record (R450). -/
def State.errRoom (s : State) : Bool :=
  s.regF 0x211008 63 1 == 1 &&
    ((s.reg 0x211010) - (s.reg 0x211018)).toNat != 2 ^ s.regF 0x211008 56 5

/-- A record dropped: DROP saturates (R449, R450). -/
def State.dropErr (s : State) : State :=
  let d := s.regF 0x211008 0 32
  { s.setRegF 0x211008 0 32 (min (d + 1) (2 ^ 32 - 1)) with errLost := s.errLost + 1 }

/-- A host error record written or dropped (R450): after drops the record of kind 0x01 comes first. -/
def State.errNow (s : State) (kind : Nat) (rc : Option RecCtx) (payload : List Word) (time : Option Nat := none) : State :=
  if !s.errRoom then s.dropErr
  else
    let s := if s.errLost = 0 then s
      else { s.putErr 0x01 none [BitVec.ofNat 64 s.errLost] with errLost := 0 }
    if s.errRoom then s.putErr kind rc payload time else s.dropErr

/-- A host error record sent (R450): one that is raised while a state summary runs is written after it (R454). -/
def State.errRec (s : State) (kind : Nat) (rc : Option RecCtx) (payload : List Word) : State :=
  if s.summary.isSome then
    let (t, s) := s.now
    { s with errHeld := s.errHeld ++ [{ kind := kind, time := t, rc := rc.map fun r => (r.ctx, r.tenant), payload := payload }] }
  else s.errNow kind rc payload

/-- The far-memory controller of a raw address (R86, R87, R99). -/
def controllerOf (a : Nat) : Option Nat :=
  match regionOf a with
  | .hbmInter => some (fld a 12 4)
  | .hbmLocal => some ((a - 0x008000000000) / 0x400000000)
  | .lpddr => some (16 + (a - 0x040000000000) / 4096 % 48)
  | _ => none

/-- The key of a row among the rows counted. -/
def rowKey (c ch bank row : Nat) : Nat := ((c * 64 + ch) * 1024 + bank) * 2 ^ 32 + row

/-- The blocks of a far-memory controller (R85, R98). -/
def fmcBlocks (c : Nat) : Nat := if c < 16 then 100663296 else 130023424

/-- The n-th block of a controller, in ascending order (R29, R86, R87). -/
def fmcBlock (c n : Nat) : Nat :=
  if c < 16 then
    if n < 67108864 then n / 8 * 65536 + c * 4096 + n % 8 * 512
    else 0x008000000000 + c * 0x400000000 + (n - 67108864) * 512
  else 0x040000000000 + (n / 8 * 48 + (c - 16)) * 4096 + n % 8 * 512

/-- The controller of a row's key. -/
def rowController (k : Nat) : Nat := k / 2 ^ 32 / 1024 / 64

/-- The patrol of a controller one block on (R98): after the last block a new pass begins, and the rows' counts with it. -/
def State.patrolNext (s : State) (c : Nat) : State :=
  let n := s.patrol.getD c 0
  let s := if n + 1 = fmcBlocks c then { s with rowCnt := s.rowCnt.filter fun e => rowController e.1 != c } else s
  { s with patrol := s.patrol.setD c ((n + 1) % fmcBlocks c) 0 }

/-- What a demand access that reaches far memory does for the patrol: one to the patrol's next block counts as its read (R98). -/
def State.demand (s : State) (a : Nat) : State :=
  match controllerOf a with
  | none => s
  | some c => if fmcBlock c (s.patrol.getD c 0) = blkOf a then s.patrolNext c else s

/-- The channel of a far-memory address: address bits 11:7 in HBM4, the granule modulo 48 in LPDDR-6 (R86, R87). -/
def channelOf (a : Nat) : Nat :=
  if regionOf a = .lpddr then (a - 0x040000000000) / 4096 % 48 else fld a 7 5

/-- The channel, bank and row of a far-memory address (R86, R87): how a channel's addresses map to banks and rows is free
(log 28). -/
def rowOf (a : Nat) : Nat × Nat × Nat := (channelOf a, Config.rowOf a)

/-- The state with a row declared failing (R100). -/
def State.failRow (s : State) (c a : Nat) : State :=
  let (ch, bank, row) := rowOf a
  let r := (c, ch, bank, row)
  if r ∈ s.rowFail then s else { s with rowFail := s.rowFail ++ [r] }

/-- The state with a correctable atom counted: in FMC_ERR.CE, and in its row while CETHR is not 0 (R99, R100); an atom of a
retired page is one of its replacement's row (R102). A slice's correctable error counts
as one of its address's controller; that of a pooled line, which has none, is counted nowhere (R164; DESIGN CHOICE, log 113). -/
def State.countCe (s : State) (a : Nat) : State :=
  let a := s.redirected a
  match controllerOf a with
  | none => s
  | some c =>
    let off := 0x190008 + 0x40 * c
    let s := s.setRegF off 40 24 (min (s.regF off 40 24 + 1) (2 ^ 24 - 1))
    let thr := s.regF (0x190000 + 0x40 * c) 8 8
    if thr = 0 then s
    else
      let (ch, bank, row) := rowOf a
      let k := rowKey c ch bank row
      let n := s.rowCnt.getD k 0 + 1
      let s := { s with rowCnt := s.rowCnt.setD k n 0 }
      if thr ≤ n then s.failRow c a else s

/-- The state with an uncorrectable atom counted and recorded: FMC_ERR.UE, record 0x21, the row (R92, R100, R104), at the place
where it lies (R102). -/
def State.countUe (s : State) (a : Nat) : State :=
  let a := s.redirected a
  match controllerOf a with
  | none => s
  | some c =>
    let off := 0x190008 + 0x40 * c
    let s := s.setRegF off 24 16 (min (s.regF off 24 16 + 1) (2 ^ 16 - 1))
    let s := s.errRec 0x21 none [BitVec.ofNat 64 (a / 32 * 32), BitVec.ofNat 64 c]
    s.failRow c a

/-- The bits that the code of the atom or word of a raw address protects (R88, R90, R172): the side bits of an HBM4 atom carry
the block's metadata, those of another atom are zero. -/
def State.protected_ (s : State) (a : Nat) : Nat :=
  let u := a / eccUnit a * eccUnit a
  if isVault a then wordBits (s.nat u 8) (u - vaultBase)
  else atomBits (s.nat u 32) (if isHbm a then sideBits (s.blkMeta u).toNat (u % 512 / 32) else 0)

/-- The syndrome that the state keeps for the atom or word of a raw address. -/
def State.syndrome (s : State) (a : Nat) : Nat :=
  let p := s.placeOf (a / eccUnit a * eccUnit a)
  if isVault a then s.vsynd.getD (p / 8) 0 else s.synd.getD (p / 32) 0

/-- The check bits that stand beside the atom or word of a raw address (R88, R172). -/
def State.checkBits (s : State) (a : Nat) : Nat :=
  if isVault a then codeCheck 7 95 (s.protected_ a) (s.syndrome a) else codeCheck 9 262 (s.protected_ a) (s.syndrome a)

/-- The metadata slot of an LPDDR-6 block: its place and its bits (R87, R90). -/
def State.metaSlot (s : State) (a : Nat) : Nat × Nat := (slotPlace a, slotBits Config.slotCode (s.blkMeta a).toNat)

/-- The state with one bit of the byte memory inverted: bit `i` of those from a raw address on. -/
def State.flipBit (s : State) (a i : Nat) : State := s.setByte (a + i / 8) (s.byte (a + i / 8) ^^^ BitVec.ofNat 8 (2 ^ (i % 8)))

/-- The single-bit error that a syndrome names corrected: a data bit in its byte, a side bit of an HBM4 atom in the metadata
that it carries, a check bit in itself (R88, R90, R92, R173). -/
def State.correctUnit (s : State) (a : Nat) : State :=
  let u := a / eccUnit a * eccUnit a
  let n := 8 * eccUnit a
  let x := s.syndrome a
  let s := s.setPoison u false
  match codeBit (x % 2 ^ (if isVault a then 7 else 9)) with
  | none => s
  | some i =>
    if i < n then s.flipBit u i
    else if isHbm a then s.modMeta a fun m => BMeta.ofNat (m.toNat ^^^ 2 ^ (6 * (u % 512 / 32) + (i - n)))
    else s

/-- The controller reads one atom or word and acts on its syndrome (R92, R173): a correctable one is corrected and counted, an
uncorrectable one is written with the Marigold pattern. The numbers of the classes in record 0x2A are free (R167, log 131). -/
def State.readUnit (s : State) (a : Nat) : State :=
  let lost (k : Nat) : State :=
    let s := s.setPoison a true
    if isVault a then s.errRec 0x2A none [BitVec.ofNat 64 (a / 8 * 8), Config.syndromeClass k] else s.countUe a
  match s.ecc a with
  | .clean | .poisoned => s
  | .single => if isVault a then s.correctUnit a else (s.correctUnit a).countCe a
  | .uncorrectable => lost 0
  | .misdirected => lost 1

/-- The controller reads every atom or word of a range. -/
def State.readUnits (s : State) (a len : Nat) : State := (unitsOf a len).foldl State.readUnit s

/-- A write of part of a block in one atom or word: it replaces a whole unit and clears its poison, and otherwise is
discarded when the unit is poisoned, with record 0x28 (R95, R174). -/
def State.writeUnit (s : State) (tid : BitVec 48) (a : Nat) (bs : List Byte) : State :=
  if s.unitPoisoned a then
    if bs.length = eccUnit a then (s.setPoison a false).setBytes a bs
    else s.errRec 0x28 none [tid.setWidth 64, BitVec.ofNat 64 a]
  else s.setBytes a bs

/-- A write of bytes, unit by unit; `fuel` bounds the units. -/
def State.writeUnits (s : State) (tid : BitVec 48) : Nat → Nat → List Byte → State
  | 0, _, _ => s
  | fuel + 1, a, bs =>
    if bs.isEmpty then s
    else
      let n := eccUnit a - a % eccUnit a
      (s.writeUnit tid a (bs.take n)).writeUnits tid fuel (a + n) (bs.drop n)

end Sys2Proof.Machine
end

