-- ==== Sys2Proof/Machine/Routes.lean ====
section
/-!
DEFINITION. Partitions as rectangles of cores and tiles (R413), the ways of messages over the core plane (R345, R346), and what a stop
of the Larkspur tree records of its cores (R435, R436).
-/

namespace Sys2Proof.Machine

/-! ## Partitions (R413) -/

/-- The offset of PART[t]. -/
def partOff (t : Nat) : Nat := 0x1F0000 + 8 * t
/-- Whether partition t is enabled. -/
def State.partEn (s : State) (t : Nat) : Bool := s.regF (partOff t) 63 1 == 1
/-- PART[t].STATE: 0 IDLE, 1 RUNNING, 2 EVICTING, 3 STOPPING, 4 RESETTING. -/
def State.partState (s : State) (t : Nat) : Nat := s.regF (partOff t) 60 3
/-- The state with PART[t].STATE set. -/
def State.setPartState (s : State) (t v : Nat) : State := s.setRegF (partOff t) 60 3 v
/-- The resident context of partition t. -/
def State.resident (s : State) (t : Nat) : Option Nat :=
  if s.regF (partOff t) 49 1 = 1 then some (s.regF (partOff t) 50 10) else none
/-- Whether a sector lies in the rectangle that PART[t] names. -/
def State.partHasSector (s : State) (t sec : Nat) : Bool :=
  let r0 := s.regF (partOff t) 12 4
  let c0 := s.regF (partOff t) 8 4
  let h := s.regF (partOff t) 4 4 + 1
  let w := s.regF (partOff t) 0 4 + 1
  decide (r0 ≤ sec / 16) && decide (sec / 16 < r0 + h) && decide (c0 ≤ sec % 16) && decide (sec % 16 < c0 + w)
/-- Whether a core lies in partition t. -/
def State.partHas (s : State) (t c : Nat) : Bool := s.partEn t && s.partHasSector t (sectorOf c)
/-- The partition of a core. -/
def State.partOf (s : State) (c : Nat) : Option Nat := (List.range 64).find? fun t => s.partHas t c
/-- Whether a core lies in the partition of another. -/
def State.samePart (s : State) (c d : Nat) : Bool :=
  match s.partOf c with
  | some t => decide (d < 131072) && s.partHasSector t (sectorOf d)
  | none => false
/-- The first sector row of a partition. -/
def State.partRow (s : State) (t : Nat) : Nat := s.regF (partOff t) 12 4
/-- The first sector column of a partition. -/
def State.partCol (s : State) (t : Nat) : Nat := s.regF (partOff t) 8 4
/-- The height of a partition in sectors. -/
def State.partHeight (s : State) (t : Nat) : Nat := s.regF (partOff t) 4 4 + 1
/-- The width of a partition in sectors. -/
def State.partWidth (s : State) (t : Nat) : Nat := s.regF (partOff t) 0 4 + 1

/-- The tiles of a partition in row-major order (R437): a sector holds 8 rows of 8 tiles. -/
def State.partTiles (s : State) (t : Nat) : List Nat :=
  (List.range (8 * s.partHeight t)).flatMap fun y =>
    (List.range (8 * s.partWidth t)).map fun x => (8 * s.partRow t + y) * 128 + 8 * s.partCol t + x

/-- The core at a row and a column of a partition, counted in cores. -/
def State.partCore (s : State) (t row col : Nat) : Nat := (16 * s.partRow t + row) * 512 + 32 * s.partCol t + col

/-- The cores of a partition in row-major order. -/
def State.partCores (s : State) (t : Nat) : List Nat :=
  (List.range (16 * s.partHeight t)).flatMap fun y => (List.range (32 * s.partWidth t)).map fun x => s.partCore t y x

/-! ## The ways of messages (R345, R346) -/

/-- The partition in which a context is resident. -/
def State.partWith (s : State) (ctx : Nat) : Option Nat :=
  (List.range 64).find? fun t => s.partEn t && s.resident t == some ctx

/-- The way of a message over the core plane: its tenant, the core that sent it, the router at which its own copy begins, the
core at which it arrives, its virtual channel (R346), its payload in bytes where the spec says it. -/
structure Route where
  tenant : Nat
  src    : Nat
  tap    : Nat
  dst    : Nat
  vc     : Nat
  bytes  : Option Nat := none
  deriving DecidableEq, Repr

/-- The core whose scratchpad holds a vault byte. -/
def scratchCore (pa : Nat) : Nat := tileCore (vaultTile pa) (vaultOff pa / 0x10000)

/-- The ways of the messages that one of the model's stands for; none for an access or answer of the memory plane. A message of a
unit that is no core enters at its destination's router (log 127); the answer to a reservation travels on VC 1 (DESIGN CHOICE,
log 151). -/
def State.routesOf (s : State) : Msg → List Route
  | .reserve r =>
    (s.partOf r.core).toList.flatMap fun t => r.kids.map fun k =>
      { tenant := t, src := r.core, tap := r.core, dst := k.core, vc := 0 }
  | .reserved r _ =>
    (s.partOf r.core).toList.flatMap fun t => r.kids.map fun k =>
      { tenant := t, src := k.core, tap := k.core, dst := r.core, vc := 1 }
  | .travel t =>
    let src := t.src.getD t.core
    (s.partOf t.core).toList.map fun p =>
      { tenant := p, src := src, tap := src, dst := t.core, vc := if t.f.sys then 2 else 0, bytes := some 96 }
  | .req a => match a.tap, a.owner with
    | some tap, .fibre c _ =>
      (s.partOf c).toList.map fun t =>
        { tenant := t, src := c, tap := tap, dst := scratchCore a.pa, vc := 0, bytes := some 512 }
    | _, _ => []
  | .wake _ r _ _ =>
    (s.partWith r.ctx.toNat).toList.map fun t =>
      { tenant := t, src := r.core.toNat, tap := r.core.toNat, dst := r.core.toNat, vc := 1 }
  | .done c .. => (s.partOf c).toList.map fun t => { tenant := t, src := c, tap := c, dst := c, vc := 1 }
  | .part p =>
    let dst := p.root + p.rank * p.step
    let src := if p.right then p.root + (p.rank + 2 ^ p.level) * p.step else dst
    [{ tenant := p.tenant, src := src, tap := src, dst := dst, vc := 3, bytes := some 64 }]
  | .result c root _ _ t _ blocks =>
    -- a decision alone is no result (R346)
    let one : Route := { tenant := t, src := root, tap := root, dst := c, vc := 2 }
    if blocks.isEmpty then [one] else List.replicate blocks.length { one with vc := 3, bytes := some 512 }
  | .abort src root _ _ t .. => [{ tenant := t, src := src, tap := src, dst := root, vc := 2 }]
  | .aborted c root _ _ t .. => [{ tenant := t, src := root, tap := root, dst := c, vc := 2 }]
  | .signal c src _ _ _ t => [{ tenant := t, src := src, tap := src, dst := c, vc := 3 }]
  | _ => []

/-- The messages of one way: at most four payload flits each (R345). -/
def Route.msgs (r : Route) : Nat := match r.bytes with
  | some n => max 1 ((n + 63) / 64)
  | none => 1

/-- The core-plane messages on their way that a core has sent (R436). -/
def State.inFlightFrom (s : State) (c : Nat) : Nat :=
  ((s.net.flatMap fun m => s.routesOf m.2).map fun r => if r.src = c then r.msgs else 0).sum

/-! ## Stops (R435, R436) -/

/-- The offset of LARK_STAT. -/
def larkStatOff : Nat := 0x20A010

/-- A stop of the Larkspur tree counted and begun: its number, and the state in which it is writing its records (R435). -/
def State.countStop (s : State) : Nat × State :=
  let n := s.regF larkStatOff 0 32 + 1
  (n % 2 ^ 32, (s.setRegF larkStatOff 0 32 n).setRegF larkStatOff 63 1 1)

/-- What the record of a core tells of its stop (R436): the stop reaches the core within 24 cycles of cycle `cyc`, as free value `n`
says. -/
def State.stopRec (s : State) (cyc n c : Nat) : StopRec :=
  let r := s.core c
  let hot (h : Hot) : Nat := h.slot.getD 0
  { core := c, cyc := cyc + (Config.freeWord n).toNat % 25, sent := r.sent + s.inFlightFrom c, rcvd := r.rcvd
    slots := hot r.hotN * 2 ^ 16 + hot r.hotH * 2 ^ 8 + r.hotH.slot.isSome.toNat * 2 + r.hotN.slot.isSome.toNat }

/-- The tree stops the cores of a partition (R435): the stop's number, and the state that keeps what its records tell. -/
def State.stopCores (s : State) (t : Nat) : Nat × State :=
  let (n, s) := s.countStop
  let (now, s) := s.now
  let recs := (s.partCores t).map fun c => s.stopRec (now / 2) (s.fresh + c) c
  (n, { s with fresh := s.fresh + 131072, stops := s.stops.insert n recs })

end Sys2Proof.Machine
end

