-- ==== Sys2Proof/Machine/Ops.lean ====
section
/-!
DEFINITION. The operations that the meanings share: partitions, parking and waking fibres, taking an exception and returning
from one (R421 to R430), and the ways a slot of a bundle ends.
-/

namespace Sys2Proof.Machine

/-! ## Cores of a partition (R413, R435) -/

/-- The context that runs on a core, and its tenant. -/
def State.recCtx (s : State) (c : Nat) : Option RecCtx :=
  (s.partOf c).map fun t => { ctx := (s.core c).ctxid.toNat, tenant := t }
/-- Whether a core has been stopped by the Larkspur tree or a kill (R435). -/
def State.isStopped (s : State) (c : Nat) : Bool :=
  match s.partOf c with
  | none => false
  | some t => s.partState t == 3 || s.partState t == 4 || (s.lark.map (·.1)) == some t

/-! ## Trace (R462 to R464) -/

/-- The trace buffer of a tile. -/
def State.traceBuf (s : State) (t : Nat) : TraceBuf := s.trace.getD t {}
/-- The state with a tile's trace buffer set. -/
def State.setTrace (s : State) (t : Nat) (b : TraceBuf) : State := { s with trace := s.trace.setD t b {} }

/-- Whether a context's trace is on for an event (R462). -/
def State.traceOn (s : State) (ctx evt : Nat) : Bool :=
  let off := 0x228000 + 16 * ctx
  decide (12 ≤ s.regF off 0 5) && s.regF off (32 + evt) 1 == 1

/-- The 16 bytes of a trace record as two words (R463). -/
def traceWords (evt core : Nat) (tid : BitVec 48) (cyc : Nat) (data : Lane) : Word × Word :=
  (BitVec.ofNat 64 (evt * 2 ^ 60 + core * 2 ^ 57 + tid.toNat), BitVec.ofNat 64 (cyc % 2 ^ 32 * 2 ^ 32 + data.toNat))

/-- A trace record of an enabled event on a core (R463); a full buffer loses it, and the next record written is a
loss marker with record 0x42 (R464). -/
def State.traceRec (s : State) (c ctx evt : Nat) (tid : BitVec 48) (data : Lane) : State :=
  if !s.traceOn ctx evt then s
  else
    let t := tileOf c
    let (t0, s) := s.now
    let cyc := t0 / 2
    let b := s.traceBuf t
    let r := traceWords evt (coreInTile c) tid cyc data
    if b.lost = 0 then
      if b.recs.length < 256 then s.setTrace t { b with recs := b.recs ++ [(ctx, r)] }
      else s.setTrace t { b with lost := 1 }
    else if b.recs.length + 1 < 256 then
      let m := traceWords 15 0 0 cyc (BitVec.ofNat 32 b.lost)
      let s := s.setTrace t { b with recs := b.recs ++ [(ctx, m), (ctx, r)], lost := 0 }
      s.errRec 0x42 none [BitVec.ofNat 64 t, BitVec.ofNat 64 b.lost]
    else s.setTrace t { b with lost := b.lost + 1 }

/-! ## Parking and waking (R379) -/

/-- Whether a message has been performed at its home: it no longer travels there (R218). -/
def State.isPerformed (s : State) (id : Nat) : Bool :=
  match s.net.get? id with
  | some (.req _) => false
  | _ => true

/-- Whether a wake condition is met by what the state holds now. -/
def State.needMet (s : State) (c : Nat) (f : Fibre) : Need → Bool
  | .none => true
  | .regs xs vs => f.allFull xs && vAllFull (s.core c).v vs
  | .gone ids => ids.all fun i => (s.net.get? i).isNone
  | .performed ids => ids.all s.isPerformed
  | .recs => f.recs == 0
  | .vrecs => f.vrecs == 0
  | .assembly | .hold .. | .block | .channel .. | .coll .. | .guard _ | .slot | .mma .. => false

/-- A fibre made READY. -/
def Fibre.ready (f : Fibre) : Fibre := { f with st := .ready, wait := 0, need := .none, woken := true }

/-- A fibre of a core has become READY: the detector of lost progress is armed again (R419). -/
def State.rearm (s : State) (c : Nat) : State :=
  if s.asleep.isEmpty then s else { s with asleep := s.asleep.filter fun t => !s.partHas t c }

/-- The state in which every PARKED fibre that a test names is READY, with a trace record for each (R463). -/
def State.wakeWhere (s : State) (p : Nat → Nat → Fibre → Bool) : State :=
  let up := s.fibres.filter fun e => e.2.st = .parked && p (e.1 / 256) (e.1 % 256) e.2
  up.foldl
    (fun s e => ((s.setFib (e.1 / 256) (e.1 % 256) e.2.ready).rearm (e.1 / 256)).traceRec (e.1 / 256)
      (s.core (e.1 / 256)).ctxid.toNat 5 e.2.tid (BitVec.ofNat 32 e.2.wait)) s

/-- The state in which the fibres whose wake conditions are met are READY. -/
def State.settle (s : State) : State := s.wakeWhere fun c _ f => s.needMet c f f.need

/-- The fibres of a core and their slots. -/
def State.fibresOf (s : State) (c : Nat) : List (Nat × Fibre) :=
  s.fibres.filterMap fun e => if e.1 / 256 = c then some (e.1 % 256, e.2) else none

/-- A hot slot without the fibre of a slot; the next search starts after it (R381). -/
def Hot.leave (h : Hot) (k : Nat) : Hot :=
  if h.slot = some k then { h with slot := none, start := (k + 1) % 256 } else h

/-- The state in which a fibre has left the hot slots of its core. -/
def State.leaveHot (s : State) (c k : Nat) : State :=
  s.modCore c fun r => { r with hotN := r.hotN.leave k, hotH := r.hotH.leave k }

/-! ## In-flight arithmetic (R270, R271) -/

/-- The fill of a register by an arithmetic result, with its flags. -/
def State.applyArith (s : State) : Msg → State
  | .arithX c k xd v fl => s.modFib c k fun f => { f.fill xd v with fsw := fswOr f.fsw fl }
  | .arithV c k vd lanes vals fl =>
    let s := s.modCore c fun r => r.modV vd lanes fun i _ => { val := vals.get i }
    s.modFib c k fun f => { f with fsw := fswOr f.fsw fl }
  | _ => s

/-- Whether a message is an arithmetic result of the fibre in a slot. -/
def Msg.arithOf (c k : Nat) : Msg → Bool
  | .arithX c' k' .. => c' == c && k' == k
  | .arithV c' k' .. => c' == c && k' == k
  | _ => false

/-- The state in which every arithmetic result in flight of a fibre has been written (R271). -/
def State.drainArith (s : State) (c k : Nat) : State :=
  let mine := s.net.filter fun p => p.2.arithOf c k
  let s := mine.foldl (fun s p => s.applyArith p.2) s
  { s with net := s.net.filter fun p => !p.2.arithOf c k }

/-! ## Taking an exception and returning from one -/

/-- The offset of CTX_TRAP[c] (R426). -/
def ctxTrapOff (ctx : Nat) : Nat := 0x200000 + 32 * ctx
/-- The vector of a level for a context: tvec1 and tvec2 (R425, R426). -/
def State.tvec (s : State) (ctx lvl : Nat) : Word := s.reg (ctxTrapOff ctx + (lvl - 1) * 8)

/-- The start of a context kill (R419, R424): the Larkspur tree stops the partition (R435), and what the kill's completion needs is
kept. -/
def State.startKill (s : State) (t : Nat) (k : Kill) : State :=
  if (s.kills.get? t).isSome then s
  else
    let (n, s) := s.stopCores t
    { s.setPartState t 3 with kills := s.kills.insert t { k with seq := n } }

/-- The kill of the running fibre's context by a trap that cannot be taken (R424); no partition changes state while a state summary
runs, so that the trap is then met again after it (R454). Outside every partition only the fibre ends. -/
def State.killByTrap (s : State) (cause : Nat) : State :=
  let f := s.me
  let c := s.cur.core
  match s.partOf c with
  | some t =>
    if s.summary.isSome then s.withDisp .stalled
    else (s.startKill t { ctx := s.myCore.ctxid.toNat, reason := 1, cause := cause, tid := f.tid, pc := f.pc }).withDisp .trapped
  | none => ((s.setMe {}).leaveHot c s.cur.slot).withDisp .trapped

/-- Whether the context on a core is being evicted: no fibre of it becomes RUNNING (R415). -/
def State.evicting (s : State) (c : Nat) : Bool :=
  match s.partOf c with
  | some t => s.partState t == 2
  | none => false

/-- The running fibre, as `f`, moved to the hot slot of a priority: it goes on there when the slot is empty, and otherwise
waits READY (R381, R423, R430). One that was PARKED, and whose context is being evicted, does not become RUNNING (R415). -/
def State.enterHot (s : State) (f : Fibre) (high : Bool) : State :=
  let s := s.leaveHot s.cur.core s.cur.slot
  let h := if high then s.myCore.hotH else s.myCore.hotN
  if h.slot.isSome || (f.st == .ready && s.evicting s.cur.core) then s.setMe { f with st := .ready }
  else
    let put (r : Core) : Core :=
      let h := { h with slot := some s.cur.slot, count := 0, qtm := r.qtm }
      if high then { r with hotH := h } else { r with hotN := h }
    (s.modCore s.cur.core put).setMe { f with st := .running }

/-- Trap entry (R423) with cause code `c` and trap value `v`, raised by the bundle at `pc`. -/
def State.trapEntryAt (s : State) (aslot : Bool) (c : Nat) (v : Word) (pc : Pc) : State :=
  let s := s.drainArith s.cur.core s.cur.slot
  let f := s.me
  let l := f.lvl
  let vec := s.tvec s.myCore.ctxid.toNat (l + 1)
  if l = 2 || !vec.getLsbD 0 then s.killByTrap c
  else
    let cause := BitVec.ofNat 64 (c + f.sys.toNat * 2 ^ 7 + aslot.toNat * 2 ^ 8)
    let b := { f.bank (l + 1) with cause := cause, pc := pc.setWidth 64, val := v }
    let g := { f.setBank (l + 1) b with
      fsw := fswLevel f.fsw (l + 1) true, pc := (vec &&& ~~~7#64).setWidth 48, wait := 0, need := .none,
      resume := .none, order := s.nextId, afterRtt := false, wf := none, paid := false, owed := [] }
    let s := s.traceRec s.cur.core s.myCore.ctxid.toNat 1 f.tid (Config.traceCause c (l + 1))
    (if f.sys then s.setMe g else s.enterHot g true).withDisp .trapped

/-- Trap entry at the running bundle. -/
def State.trapEntry (s : State) (aslot : Bool) (c : Nat) (v : Word) : State := s.trapEntryAt aslot c v s.me.pc

/-- The return from a trap (R430), at level 1 or 2 in system mode. -/
def State.trapReturn (s : State) : State :=
  let s := s.drainArith s.cur.core s.cur.slot
  let f := s.me
  let n := f.lvl
  let b := f.bank n
  let sys := b.cause.getLsbD 7
  let f := { f with
    fsw := fswLevel f.fsw (n - 1) sys, pc := b.pc.setWidth 48, order := s.nextId, afterRtt := true }
  let s := s.traceRec s.cur.core s.myCore.ctxid.toNat 2 f.tid (Config.traceCause (fld b.cause.toNat 0 6) n)
  (if sys then s.setMe f else s.enterHot f false).withDisp .retired

/-! ## How a slot ends -/

/-- The end of an A slot: its effects stand, and the PC is the C slot's to move. -/
def State.endA (s : State) : Out := .next (s.withDisp .retired)

/-- The retirement of a C slot or a long instruction that does not transfer control (R33). -/
def State.retire (s : State) : State :=
  (s.modMe fun f => { f with pc := f.pc + 8, resume := .none, afterRtt := false, wf := none, paid := false, owed := [] }).withDisp .retired

/-- The end of a C slot or a long instruction that does not transfer control. -/
def State.endC (s : State) : Out := .next s.retire

/-- The end of a C slot or a long instruction that transfers control. -/
def State.endJump (s : State) (pc : Pc) : Out :=
  .next ((s.modMe fun f => { f with pc := pc, resume := .none, afterRtt := false, wf := none, paid := false, owed := [] }).withDisp .retired)

/-- The end of a slot that traps. -/
def State.endTrap (s : State) (aslot : Bool) (c : Nat) (v : Word) : Out := .next (s.trapEntry aslot c v)

/-- The end of a C slot that traps on what its access has met at its home: the A slot's faults come before (R35). -/
def State.endHomeTrap (s : State) (c : Nat) (v : Word) : Out := .next ((s.trapEntry false c v).withDisp .homeTrapped)

/-- The running fibre parked: its bundle issues again when the condition is met (R379). -/
def State.parkMe (s : State) (wait : Nat) (need : Need) : State :=
  let s := s.traceRec s.cur.core s.myCore.ctxid.toNat 4 s.me.tid (BitVec.ofNat 32 wait)
  ((s.modMe fun f => { f with st := .parked, wait := wait, need := need }).leaveHot s.cur.core s.cur.slot).withDisp
    .parked

/-- The end of a slot that parks its fibre. -/
def State.endPark (s : State) (wait : Nat) (need : Need) : Out := .next (s.parkMe wait need)

/-- The window formats that apply to the running bundle's accesses: the core's, or those that a held access or a port has kept
(R178, R297). -/
def State.formats (s : State) : Vector FmtCode 8 := s.cur.wf.getD s.myCore.wf

/-- The end of a slot whose access meets M (R143): the fibre parks on the hold, and the access keeps its formats (R178). -/
def State.endHold (s : State) (page : Nat) (va : Word) : Out :=
  (s.modMe fun f => { f with wf := some s.formats }).endPark 3 (.hold page va)

/-- The end of a slot whose bundle cannot issue yet: the fibre is not parked (R379, R417). -/
def State.endStall (s : State) : Out := .next (s.withDisp .stalled)

end Sys2Proof.Machine
end

