-- ==== Sys2Proof/Machine/Home.lean ====
section
/-!
DEFINITION. What a home does: Aster records and queues (R198 to R201), commits and wake-outs (R196, R204, R213),
RETIRED blocks (R96, R211), plain reads and writes, and atomics (R397); then the arrival of replies, acknowledgements,
answers and wakes at their owners (R205, R212, R218).
-/

namespace Sys2Proof.Machine

/-! ## Element formats (R59) -/

/-- Whether a format code is assigned (R59). -/
def fmtOk (c : FmtCode) : Bool :=
  let n := c.toNat
  if n < 32 then n == 0 || n == 1 || n == 2 || n == 4 || n == 5 || n == 6 || n == 7 else n % 8 != 0

/-- The bytes of an element of a format (R59). -/
def fmtBytes (c : FmtCode) : Nat :=
  match c.toNat with
  | 0 => 4
  | 1 | 2 | 6 | 7 => 2
  | _ => 1

/-- The exact value of an element's bits in a format (R59, R73, R83). -/
def fmtDecode (c : FmtCode) (v : Nat) : Fx :=
  match c.toNat with
  | 0 => fp32.decode v
  | 1 => fp16.decode v
  | 2 => bf16.decode v
  | 4 => Fx.ofInt (BitVec.ofNat 8 v).toInt
  | 5 => Fx.ofInt (v % 256 : Nat)
  | 6 => Fx.ofInt (BitVec.ofNat 16 v).toInt
  | 7 => Fx.ofInt (v % 65536 : Nat)
  | n => (B8.ofCode (n % 32)).decode (v % 256)

/-- FP32 bits of an element's bits: FP32 itself is moved as bits (R179). -/
def fmtToLane (c : FmtCode) (v : Nat) : Lane :=
  if c = 0 then BitVec.ofNat 32 v else (fmtDecode c v).toLane

/-- An exact value encoded in a format under R83: RNE, saturation, no flags. -/
def fmtEncode (c : FmtCode) (x : Fx) : Nat :=
  let int (lo hi : Int) (n : Nat) : Nat := (BitVec.ofInt n (toIntRange .rne lo hi x).1).toNat
  match c.toNat with
  | 0 => (fp32.encode .rne x).1
  | 1 => (fp16.encode .rne x).1
  | 2 => (bf16.encode .rne x).1
  | 4 => int (-128) 127 8
  | 5 => int 0 255 8
  | 6 => int (-32768) 32767 16
  | 7 => int 0 65535 16
  | n => (B8.ofCode (n % 32)).encode x

/-- An FP32 lane encoded in a format: FP32 itself is moved as bits (R179, R184). -/
def laneToFmt (c : FmtCode) (l : Lane) : Nat := if c = 0 then l.toNat else fmtEncode c (Fx.ofLane l)

/-! ## Aster records (R199) -/

/-- The 256 bits of a record. -/
def Aster.toNat (r : Aster) : Nat :=
  r.tid.toNat * 2 ^ 192 + r.next.toNat * 2 ^ 128 + r.fmt.toNat * 2 ^ 122 + r.dreg.toNat * 2 ^ 118
    + r.lanes.toNat * 2 ^ 114 + r.size.toNat * 2 ^ 112 + r.sgn.toNat * 2 ^ 111 + r.ctx.toNat * 2 ^ 80
    + r.inst.toNat * 2 ^ 64 + r.kind.toNat * 2 ^ 61 + r.gen.toNat * 2 ^ 51 + r.pkg.toNat * 2 ^ 41
    + r.core.toNat * 2 ^ 24 + r.slot.toNat * 2 ^ 16 + r.off.toNat * 2 ^ 7 + r.len.toNat

/-- The record of 256 bits. -/
def Aster.ofNat (n : Nat) : Aster :=
  { tid := BitVec.ofNat 48 (fld n 192 48), next := BitVec.ofNat 64 (fld n 128 64), fmt := BitVec.ofNat 6 (fld n 122 6),
    dreg := BitVec.ofNat 4 (fld n 118 4), lanes := BitVec.ofNat 4 (fld n 114 4), size := BitVec.ofNat 2 (fld n 112 2),
    sgn := fld n 111 1 == 1, ctx := BitVec.ofNat 10 (fld n 80 10), inst := BitVec.ofNat 16 (fld n 64 16),
    kind := BitVec.ofNat 3 (fld n 61 3), gen := BitVec.ofNat 10 (fld n 51 10), pkg := BitVec.ofNat 10 (fld n 41 10),
    core := BitVec.ofNat 17 (fld n 24 17), slot := BitVec.ofNat 8 (fld n 16 8), off := BitVec.ofNat 9 (fld n 7 9),
    len := BitVec.ofNat 7 (fld n 0 7) }

/-- The record in a slot of a block or group. -/
def State.asterAt (s : State) (base i : Nat) : Aster := Aster.ofNat (s.nat (base + 32 * i) 32)
/-- Bytes written by a home in whole atoms or words for a block's queue: they clear poison, and the block is dirty (R89, R95). -/
def State.writeQueue (s : State) (a : Nat) (bs : List Byte) : State :=
  (s.writeWhole a bs).modMeta a fun m => { m with dsc := true }
/-- The state with a record placed in a slot. -/
def State.setAster (s : State) (base i : Nat) (r : Aster) : State := s.writeQueue (base + 32 * i) (bytesOfNat 32 r.toNat)
/-- Whether a record's slot can be read without error (R211). -/
def State.slotGood (s : State) (base i : Nat) : Bool := (s.firstPoison (base + 32 * i) 32).isNone

/-- The bases of a block's overflow groups (R200). -/
def State.groupsOf (s : State) : Nat → Nat → List Nat
  | 0, _ => []
  | fuel + 1, base =>
    let last := s.asterAt base 15
    if last.kind = 7 then last.next.toNat :: s.groupsOf fuel last.next.toNat else []

/-- The places of a block's queue in queue order, as (base, slot) pairs: all 16 slots of a block without a group; else
slots 0 to 14 of the block and of each group, whose slot 15 only chains (R200). The chain is followed through at most
`fuel` groups. -/
def State.queuePlaces (s : State) (fuel blk : Nat) : List (Nat × Nat) :=
  match s.groupsOf fuel blk with
  | [] => (List.range 16).map fun i => (blk, i)
  | gs => (blk :: gs).flatMap fun base => (List.range 15).map fun i => (base, i)

/-- The home reads the slots of a block's queue and of its groups, as far as the chain can be followed (R92, R211). -/
def State.readChain (s : State) : Nat → Nat → State
  | 0, _ => s
  | fuel + 1, base =>
    let s := s.readUnits base 512
    let last := s.asterAt base 15
    if last.kind = 7 && s.slotGood base 15 then s.readChain fuel last.next.toNat else s

/-- The most groups that a chain can have. -/
def State.chainFuel (s : State) : Nat := s.groups.length + 1

/-- The live records of a block's queue in queue order, with their places (R200). -/
def State.queue (s : State) (blk : Nat) : List ((Nat × Nat) × Aster) :=
  ((s.queuePlaces s.chainFuel blk).map fun p => (p, s.asterAt p.1 p.2)).filter fun q => q.2.kind ≠ 0 && q.2.kind ≠ 7

/-- A free overflow group for a block and a reader's context (R201). -/
def State.freeGroup (s : State) (blk ctx : Nat) : Option Nat :=
  let own : List Nat :=
    if isVault blk then
      match vaultPart (vaultOff blk) with
      | .scratch i =>
        let base := vaultBase + vaultTile blk * 0x100000 + 0x86000 + i * 0x8000
        (List.range 12).map fun j => base + 512 * j
      | _ => []
    else []
  match own.find? fun g => (s.groups.get? g).isNone with
  | some g => some g
  | none =>
    let off := 0x1C0000 + 8 * ctx
    if s.regF off 0 1 = 0 then none
    else
      let base := s.regF off 16 30 * 65536
      let n := s.regF off 4 12 * 128
      -- the pool's groups in use are counted, so the first free one is among the first (count + 1)
      ((List.range (min n (s.groups.length + 1))).map fun j => base + 512 * j).find? fun g => (s.groups.get? g).isNone

/-- The home reads the queue of a block. -/
def State.readQueue (s : State) (blk : Nat) : State := s.readChain s.chainFuel blk

/-- A record queued on a block: the lowest void slot, or a new group (R200); none when no group is free (R202). -/
def State.enqueue (s : State) (blk : Nat) (r : Aster) : Option State :=
  let s := s.readQueue blk
  let places := s.queuePlaces s.chainFuel blk
  match places.find? fun p => (s.asterAt p.1 p.2).kind = 0 with
  | some p => some (s.setAster p.1 p.2 r)
  | none =>
    match s.freeGroup blk r.ctx.toNat with
    | none => none
    | some g =>
      let tail := ((s.groupsOf s.chainFuel blk).getLast?).getD blk
      let s := s.writeQueue g (List.replicate 512 0)
      let s :=
        if tail = blk then ((s.setAster g 0 (s.asterAt blk 15)).setAster g 1 r)
        else s.setAster g 0 r
      let s := s.setAster tail 15 { kind := 7, next := BitVec.ofNat 64 g }
      some { s with groups := s.groups.insert g () }

/-- The state with a block's overflow groups freed. -/
def State.freeGroups (s : State) (gs : List Nat) : State :=
  { s with groups := gs.foldl (fun m g => AMap.erase m g) s.groups }

/-! ## RETIRED blocks and wakes -/

/-- A record's wake sent, with the flag that R207 or R212 gives it. -/
def State.sendWake (s : State) (blk : Nat) (r : Aster) (data : List Byte) (fl : RFlag) : State :=
  (s.send (.wake blk r ((data.drop r.off.toNat).take r.len.toNat) fl)).1

/-- The groups of a block that its home can reach: the chain ends where a slot 15 cannot be read (R211). -/
def State.groupsRead (s : State) : Nat → Nat → List Nat
  | 0, _ => []
  | fuel + 1, base =>
    let last := s.asterAt base 15
    if last.kind = 7 && s.slotGood base 15 then last.next.toNat :: s.groupsRead fuel last.next.toNat else []

/-- The first finding of a RETIRED block (R96, R211): PRES reads 11, the readers whose records can be read are woken with the
poison flag, lost records and the block are recorded. A record is lost when its slot or a chain before it cannot be read. -/
def State.retireBlock (s : State) (a : Nat) : State :=
  let blk := blkOf a
  let m := s.blkMeta blk
  if m.pres = .retired then s
  else
    let s := if m.pres = .deferred then s.readQueue blk else s
    let q := if m.pres = .deferred then s.queue blk else []
    let reach := blk :: s.groupsRead s.chainFuel blk
    let (good, lost) := q.partition fun e => decide (e.1.1 ∈ reach) && s.slotGood e.1.1 e.1.2
    let gs := if m.pres = .deferred then s.groupsOf s.chainFuel blk else []
    let s := (s.setMeta blk { m with dsc := true, pres := .retired }).freeGroups gs
    let s := good.foldl (fun s e => s.sendWake blk e.2 [] .poison) s
    let s := if lost.isEmpty then s
      else s.errRec 0x2B none [BitVec.ofNat 64 blk, BitVec.ofNat 64 lost.length]
    s.errRec 0x22 none [BitVec.ofNat 64 blk]

/-! ## Wakes that wait (R208) -/

/-- Whether a wake's record can be delivered: its context is resident, or its core lies in no partition. -/
def State.reachable (s : State) (r : Aster) : Bool :=
  (s.partWith r.ctx.toNat).isSome || (s.partOf r.core.toNat).isNone

/-- Whether a wake's record names an instance that its context no longer has: it is discarded (R495). -/
def State.stale (s : State) (r : Aster) : Bool := r.inst != s.inst.getD r.ctx.toNat 0

/-- A free group of a context's Aster pool for a wake that must wait there (R208). -/
def State.poolGroup (s : State) (ctx : Nat) : Option Nat :=
  let off := 0x1C0000 + 8 * ctx
  if s.regF off 0 1 = 0 then none
  else
    let base := s.regF off 16 30 * 65536
    ((List.range (min (s.regF off 4 12 * 128) (s.groups.length + 1))).map fun j => base + 512 * j).find? fun g =>
      (s.groups.get? g).isNone

/-- The blocks whose home waits with a wake for a free group (R208). -/
def State.stuckBlocks (s : State) : List Nat :=
  s.net.filterMap fun m => match m.2 with
    | .wake b r _ _ => if !s.stale r && !s.reachable r && (s.poolGroup r.ctx.toNat).isNone then some b else none
    | _ => none

/-- Whether a home waits with a wake of a block for a free group, and holds every access to the block (R208). -/
def State.wakeStuck (s : State) (blk : Nat) : Bool := s.stuckBlocks.any fun b => s.sameBlk b blk

/-- Whether a home holds every access to some block of a page (R208). -/
def State.pageStuck (s : State) (page : Nat) : Bool :=
  s.stuckBlocks.any fun b => pageOf (s.redirected b) == pageOf (s.redirected (page * 65536))

/-! ## Fibre stores (R168, R377) -/

/-- The code of a flag in a record (R377), which has none for an extent that is gone: the record shows poison (log 118). -/
def RFlag.code : RFlag → Nat
  | .none => 0 | .poison => 1 | .gen => 2 | .abort => 3 | .mismatch => 4 | .pool => 5 | .absent => 1

/-- The flag of a code. -/
def RFlag.ofCode : Nat → RFlag
  | 1 => .poison | 2 => .gen | 3 => .abort | 4 => .mismatch | 5 => .pool | _ => .none

/-- The code of a state in a record (R377). -/
def FState.code : FState → Nat
  | .free => 0 | .ready => 1 | .running => 2 | .parked => 3 | .transit => 4

/-- The state of a code. -/
def FState.ofCode : Nat → FState
  | 1 => .ready | 2 => .running | 3 => .parked | 4 => .transit | _ => .free

/-- The sum of numbers placed `w` bits apart. -/
def packBits (w : Nat) : List Nat → Nat
  | [] => 0
  | n :: ns => n + 2 ^ w * packBits w ns

/-- The 96 bytes of a fibre's record (R377). -/
def Fibre.record (f : Fibre) : List Byte :=
  f.x.toList.flatMap (fun r => bytesOfNat 8 r.val.toNat)
    ++ bytesOfNat 8 (f.save.toNat * 2 ^ 48 + f.pc.toNat)
    ++ bytesOfNat 8 (packBits 1 (f.x.toList.map fun r => r.full.toNat) * 2 ^ 48 + f.tid.toNat)
    ++ bytesOfNat 4 f.fsw.toNat ++ bytesOfNat 4 (packBits 3 (f.x.toList.map fun r => RFlag.code r.flag))
    ++ bytesOfNat 8 (f.recs % 256 * 2 ^ 16 + f.wait % 16 * 2 ^ 4 + f.anc.toNat * 2 ^ 3 + FState.code f.st)

/-- The place of slot `k` of core `c` in its fibre store (R168). -/
def storeAddr (c k : Nat) : Nat := vaultBase + tileOf c * 0x100000 + 0x80000 + coreInTile c * 0x8000 + 96 * k

/-- The record of a slot in its fibre store brought up to date: a fibre in a hot slot is not held there (R380), and of a FREE
slot only STATE has a meaning (R377). -/
def State.syncSlot (s : State) (c k : Nat) : State :=
  let f := s.fib c k
  let r := s.core c
  if r.hotN.slot = some k ∨ r.hotH.slot = some k then s
  else if f.st = .free then s.setBytes (storeAddr c k + 88) [0]
  else s.setBytes (storeAddr c k) f.record

/-- The fibre-store records that an access touches brought up to date, while a context is resident. -/
def State.syncStore (s : State) (a len : Nat) : State :=
  let o := vaultOff a
  if len = 0 || !isVault a || vaultPart o != .system || 0x6000 ≤ o % 0x8000 then s
  else
    let c := tileCore (vaultTile a) ((o - 0x80000) / 0x8000)
    if ((s.partOf c).bind s.resident).isNone then s
    else
      let k := o % 0x8000 / 96
      ((List.range ((o % 0x8000 + len - 1) / 96 - k + 1)).map (k + ·)).foldl
        (fun s k => if k < 256 then s.syncSlot c k else s) s

/-- A block whose metadata is found lost becomes RETIRED (R96). -/
def State.findRetired (s : State) (a : Nat) : State :=
  if s.isRetired a && (s.blkMeta a).pres != .retired then s.retireBlock a else s

/-- An access finds a block: the controller reads the atoms or words it touches, and with them the atoms that carry the block's
metadata (R90); a block whose metadata is lost becomes RETIRED (R92, R96, R166). -/
def State.meet (s : State) (a len : Nat) : State :=
  let s := (s.syncStore a len).readUnits a len
  (if isHbm a then s.readUnits (blkOf a) 224 else s).findRetired a

/-- What a slice finds of a line's own errors (R164 to R166): a parity error of a clean line, or a single-bit error of a dirty
one, is correctable; an uncorrectable error in a dirty line poisons its two atoms. -/
def State.judgeLine (s : State) (k : Nat) (l : L2Line) : State :=
  let a := k * 64
  let s := if (l.parity && !l.dirty) || (l.dirty && l.single) then s.countCe a else s
  if l.dirty && l.uncorr then
    ((s.setPoison a true).setPoison (a + 32) true).errRec 0x29 none [BitVec.ofNat 64 a, BitVec.ofNat 64 (homeSector a)]
  else s

/-- The slice's metadata of a block is lost: the block becomes RETIRED, and its lines have no metadata error left (R166). -/
def State.loseMeta (s : State) (a : Nat) : State :=
  let k := s.lineKey a / 8
  let s := s.retireBlock a
  { s with l2 := s.l2.map fun e => if e.1 / 8 = k then (e.1, { e.2 with metaErr := false }) else e }

/-- The state in which a slice has written a line back and no longer holds it; metadata of its block that the slice has lost
retires the block (R161, R165, R166). -/
def State.writeBack (s : State) (k : Nat) : State :=
  match s.l2.get? k with
  | none => s
  | some l =>
    let s := s.judgeLine k l
    let s := { s with l2 := s.l2.erase k }
    if l.metaErr then s.loseMeta (k * 64) else s

/-- The state in which a slice has room for a line: a full set evicts a free victim (R161). -/
def State.roomFor (s : State) (k : Nat) : State :=
  let set := s.fullSet k
  if set.isEmpty then s
  else
    let (n, s) := s.takeFresh
    match set[Config.victim n % 16]? with
    | some l => s.writeBack l.1
    | none => s

/-- A line of an L2 slice touched by an access: it is fetched when it is not held; its errors are found; the slice's metadata of
its block, when that is lost, retires the block (R161, R164 to R166). -/
def State.touchLine (s : State) (a : Nat) (write : Bool) : State :=
  if !(isDram a || regionOf a == .pooled) then s
  else
    let k := s.lineKey a
    let s := if (s.l2.get? k).isSome then s else (s.roomFor k).demand (s.redirected a)
    let l := s.l2.getD k {}
    let s := s.judgeLine k l
    let lost := (List.range 8).any fun j => (s.l2.getD (k / 8 * 8 + j) {}).metaErr
    let s := if lost then s.loseMeta a else s
    { s with l2 := s.l2.insert k { dirty := l.dirty || write } }

/-- The lines of a range touched. -/
def State.touchLines (s : State) (a len : Nat) (write : Bool) : State :=
  if len = 0 then s
  else ((List.range ((a + len - 1) / 64 - a / 64 + 1)).map fun i => (a / 64 + i) * 64).foldl
    (fun s x => s.touchLine x write) s

/-! ## Collectives at their inputs (R350, R355) -/

/-- The state of a tile. -/
def State.tile (s : State) (t : Nat) : Tile := s.tiles.getD t {}
/-- The state with a tile set. -/
def State.setTile (s : State) (t : Nat) (k : Tile) : State := { s with tiles := s.tiles.setD t k {} }
/-- The state with a tile changed. -/
def State.modTile (s : State) (t : Nat) (g : Tile → Tile) : State := s.setTile t (g (s.tile t))

/-- Whether an entry is ARMED, FIRING or PREEMPTED. -/
def Coll.live (e : Coll) : Bool := e.st == .armed || e.st == .firing || e.st == .preempted
/-- Whether an entry covers a block (R350). -/
def Coll.covers (e : Coll) (blk : Nat) : Bool := decide (e.blk ≤ blk) && decide (blk < e.blk + 512 * e.nb)
/-- The input blocks of an entry. -/
def Coll.inputs (e : Coll) : List Nat := (List.range e.nb).map fun i => e.blk + 512 * i
/-- The messages that the values of an entry's blocks fill: 16 elements each (R355). -/
def Coll.chunks (e : Coll) : Nat := e.nb * 32 / fmtBytes e.etype

/-- FULLIN: the input blocks of an entry that are FULL (R350). -/
def State.fullIn (s : State) (e : Coll) : Nat := (e.inputs.filter fun b => (s.blkMeta b).pres == .full).length

/-- The state with the entry of a tile that begins at a block changed. -/
def State.modColl (s : State) (t blk : Nat) (g : Coll → Coll) : State :=
  s.modTile t fun k => { k with coll := k.coll.map fun e => if e.blk = blk then g e else e }

/-- A partial at the place where it is combined next (R355): at its own rank's router on the left, at its partner's on the
right, or at the root; one without a partner passes up a level. `fuel` bounds the levels. -/
def Partial.placed (p : Partial) : Nat → Partial
  | 0 => p
  | fuel + 1 =>
    let w := 2 ^ p.level
    if p.n ≤ w then { p with right := false, rank := 0 }
    else if p.rank / w % 2 = 1 then { p with right := true, rank := p.rank - w }
    else if p.rank + w < p.n then { p with right := false }
    else { p with level := p.level + 1 }.placed fuel

/-- The values of a chunk of a rank's inputs as FP32: those of poisoned elements are free (log 32). -/
def State.chunkVals (s : State) (e : Coll) (i : Nat) : List Lane × State :=
  let n := fmtBytes e.etype
  let a := e.blk + 16 * n * i
  if (s.firstPoison a (16 * n)).isSome then
    ((List.range 16).map fun j => (Config.freeWord (s.fresh + j)).setWidth 32, { s with fresh := s.fresh + 16 })
  else ((List.range 16).map fun j => (fmtDecode e.etype (s.nat (a + n * j) n)).toLane, s)

/-- Whether an FP32 value is an infinity or a NaN. -/
def laneBad (l : Lane) : Bool := fld l.toNat 23 8 == 255

/-- A rank's partial of a chunk. -/
def State.leaf (s : State) (e : Coll) (tenant i : Nat) : Partial × State :=
  let (vals, s) := s.chunkVals e i
  let p : Partial :=
    { tenant := tenant, cid := e.cid, seq := e.seq, group := e.group, hash := e.hash, level := 0, chunk := i, rank := e.rank,
      right := false, vals := vals, eps := [(s.blkMeta (e.blk + 16 * fmtBytes e.etype * i)).bound],
      bad := vals.any laneBad, inex := false, emax := none, root := e.root, step := e.step, n := e.n, op := e.op }
  (p.placed 11, s)

/-- The chunks of a rank sent from the i-th on (R355). -/
def State.sendLeaves (s : State) (e : Coll) (tenant : Nat) : Nat → Nat → State
  | 0, _ => s
  | m + 1, i =>
    let (p, s) := s.leaf e tenant i
    ((s.send (.part p)).1).sendLeaves e tenant m (i + 1)

/-- The tenant of a core's context: its partition. -/
def State.tenantOf (s : State) (c : Nat) : Nat := (s.partOf c).getD 0

/-- The result of a collective over several packages, which is free (log 8): NB blocks with their bounds and magnitudes. -/
def freeBlocks : Nat → Nat → List (List Byte × BitVec 16 × BitVec 8)
  | 0, _ => []
  | m + 1, n =>
    let w := Config.freeWord n
    ((List.range 512).map (fun i => Config.freeByte (n + i)), w.setWidth 16, (w >>> 16).setWidth 8) :: freeBlocks m (n + 512)

/-- The root's word on a collective of several packages, which is free (log 8): a result, with the record of the decision where the
root lies in this package (R463), an abort, or a mismatch. -/
def State.spanDecision (s : State) (e : Coll) (tenant : Nat) : State :=
  let (n, s) := s.takeFresh
  match (Config.freeWord n).toNat % 3 with
  | 0 =>
    let blocks := if e.dest.isEmpty then [] else freeBlocks e.nb s.fresh
    let s := { s with fresh := s.fresh + 512 * e.nb }
    let s := if e.rank = 0 then s.traceRec e.core e.ctx 7 0 (e.cid.setWidth 32) else s
    (s.send (.result e.core e.core e.cid e.seq tenant e.group blocks)).1
  | m => (s.send (.aborted e.core e.core e.cid e.seq tenant e.group (m == 2))).1

/-- An entry fires (R355): it reads its inputs and sends their values. In a collective of several packages an eviction elsewhere
makes it fire again under its next SEQ, at once and as often as a free value says (R361, log 8). -/
def State.fire (s : State) (t : Nat) (e : Coll) : State :=
  let s := e.inputs.foldl (fun s b => s.readUnits b 512) s
  let tenant := s.tenantOf e.core
  if e.pkind = 2 ∧ 1 < e.n then
    let (n, s) := s.takeFresh
    let e := { e with seq := e.seq + (Config.freeWord n).setWidth 16 }
    (s.modColl t e.blk fun o => { o with st := .firing, held := [], decided := false, seq := e.seq }).spanDecision e tenant
  else (s.modColl t e.blk fun e => { e with st := .firing, held := [], decided := false }).sendLeaves e tenant e.chunks 0

/-- The ARMED entries of a tile whose inputs are all FULL fire. -/
def State.fireTile (s : State) (t : Nat) : State :=
  ((s.tile t).coll).foldl (fun s e => if e.st = .armed ∧ s.fullIn e = e.nb then s.fire t e else s) s

/-- What a commit to a block does for the collective entries of its vault (R355). -/
def State.fireAt (s : State) (blk : Nat) : State :=
  if isVault blk && ((s.tile (vaultTile blk)).coll.any fun e => e.st == .armed && e.covers blk) then s.fireTile (vaultTile blk)
  else s

/-! ## Commits (R192, R196, R204, R213) -/

/-- Whether MST has reserved a block: other commits and CLRs wait for its commit (R324). -/
def State.reserved (s : State) (blk : Nat) : Bool :=
  s.net.any fun m => match m.2 with
    | .req a => s.sameBlk a.pa blk && (match a.op with
      | .mstCommit .. => true
      | _ => false)
    | _ => false

/-! ## Superseded writes (R230) -/

/-- The writes to some bytes that plain reads may return, newest first. -/
def State.versions (s : State) (pa : Nat) : List Version := s.past.getD (s.placeOf pa) []

/-- The state in which bytes have been written anew: no earlier write of any of them is returned any more. -/
def State.dropVersions (s : State) (pa len : Nat) : State :=
  if s.past.isEmpty then s
  else
    let p := s.placeOf pa
    { s with past := s.past.filter fun e => !(decide (e.1 < p + len) && decide (p < e.1 + 8)) }

/-- A write of a fibre to a RELEASE page, noted with the older ones `old` that it leaves to plain reads: those of other fibres, of the
same bytes, performed since the fibre last did what can order them before it (R230; DEDUCED, log 5). -/
def State.noteVersion (s : State) (old : List Version) (a : Acc) (data : List Byte) : State :=
  match a.ty, a.owner with
  | .release, .fibre c j =>
    if 8 < data.length then s
    else
      let f := s.fibres.getD (c * 256 + j) {}
      let heard := if f.tid = a.tid then f.synced else s.nextId
      let left := old.filter fun w => w.tid != a.tid && decide (heard < w.time) && w.data.length == data.length
      { s with past := s.past.insert (s.placeOf a.pa) ({ tid := a.tid, time := s.nextId, data := data } :: left) }
  | _, _ => s

/-- The superseded bytes that a plain read of a RELEASE page may return (R230): those of writes older than the newest, unless the
reader has itself written since. -/
def State.superseded (s : State) (a : Acc) : List (List Byte) :=
  if a.ty = .release ∧ !a.cls.acq then
    match (s.versions a.pa).takeWhile fun w => w.tid != a.tid with
    | v :: vs => if v.data = s.bytes a.pa a.len then vs.map (·.data) else []
    | [] => []
  else []

/-- What a plain read returns: the bytes of memory, or superseded ones, as a free value says (R230). -/
def State.pickVersion (s : State) (a : Acc) (data : List Byte) : List Byte × State :=
  match s.superseded a with
  | [] => (data, s)
  | vs =>
    let (n, s) := s.takeFresh
    ((data :: vs).getD (Config.pick n % (vs.length + 1)) data, s)

/-- A fibre does what can order another fibre's writes before its own accesses (R224 to R229, R237). -/
def State.hear (s : State) (c j : Nat) : State :=
  if (s.fib c j).st = .free then s else s.modFib c j fun f => { f with synced := s.nextId }

/-- The running fibre does so. -/
def State.hearMe (s : State) : State := s.modMe fun f => { f with synced := s.nextId }

/-- An access performed at its home: an acquire, one to a STRICT page, and one to a ONCE block can order others' writes before what its
fibre does next (R220, R228, R237). -/
def State.hearAcc (s : State) (a : Acc) : State :=
  if a.cls.acq || a.ty == .strict || a.ty == .once then
    match a.owner with
    | .fibre c j => s.hear c j
    | .port c sp _ => s.hear c ((s.core c).sp.get (Fin.ofNat 4 sp)).slot
    | .mma t => s.hear (tileCore t 2) (((s.tiles.getD t {}).fetch.map (·.slot)).getD 0)
    | _ => s
  else s

/-- A block's 512 bytes written whole with fresh metadata; the atoms or words named are written poisoned (R213). -/
def State.writeBlock (s : State) (blk : Nat) (c : CommitData) (m : BMeta) : State :=
  let s := (unitsOf blk 512).foldl (fun s u => s.setPoison u (decide ((u - blk) ∈ c.poison))) s
  ((s.dropVersions blk 512).setBytes blk c.data).setMeta blk m

/-- The home of a DONE block notifies the launch unit of its commit (R409). -/
def State.notifyLaunch (s : State) (blk : Nat) : State :=
  let mine (l : Launch) : Bool := s.sameBlk l.done blk && !l.notified
  if (s.launches.any fun e => mine e.2) || s.evicted.any fun e => mine e.2.2 then
    let mark (l : Launch) : Launch := if mine l then { l with notified := true } else l
    let s := { s with
      launches := s.launches.map fun (e : Nat × Launch) => (e.1, mark e.2)
      evicted := s.evicted.map fun (e : Nat × (Nat × Launch)) => (e.1, (e.2.1, mark e.2.2)) }
    (s.send (.launchDone blk)).1
  else s

/-- A commit performed at its home: the state and the answer, 0 performed, 1 the block is FULL, 2 it is RETIRED
(R191, R196, R204). -/
def State.performCommit (s : State) (blk : Nat) (c : CommitData) : State × Nat :=
  let s := (s.touchLines blk 512 true).meet blk 0
  let m := s.blkMeta blk
  if s.isRetired blk then (s, 2)
  else
    match m.pres with
    | .retired => (s, 2)
    | .full => (s, 1)
    | .empty | .deferred =>
      let s := if m.pres = .deferred then s.readQueue blk else s
      let q := if m.pres = .deferred then (s.queue blk).map (·.2) else []
      let gs := if m.pres = .deferred then s.groupsOf s.chainFuel blk else []
      let s := s.writeBlock blk c { m with dsc := true, bound := c.bound, maxe := c.maxe, pres := .full }
      let lost := s.metaLost blk
      -- one wake per record, in queue order; a stale generation and a poisoned range are flagged (R207, R213)
      let s := q.foldl (fun s r =>
        if r.gen ≠ m.gen then
          (s.sendWake blk r [] .gen).errRec 0x2D none
            [BitVec.ofNat 64 blk, r.gen.setWidth 64, m.gen.setWidth 64]
        else if lost || (s.firstPoison (blk + r.off.toNat) r.len.toNat).isSome then s.sendWake blk r [] .poison
        else s.sendWake blk r c.data .none) s
      let s := (s.freeGroups gs).notifyLaunch blk
      (if lost then s.retireBlock blk else s.fireAt blk, 0)

/-! ## Accesses at their home -/

/-- The register fields of a record for a destination. -/
def Aster.withDst (r : Aster) : Dst → Aster
  | .x xd size sgn fmt => { r with kind := 1, dreg := BitVec.ofNat 4 xd.val, size := BitVec.ofNat 2 size.code, sgn := sgn, fmt := fmt }
  | .v vd lanes fmt => { r with kind := 2, dreg := BitVec.ofNat 4 vd.val, lanes := lanes, fmt := fmt }
  | .row _ => { r with kind := 6 }
  | .fsw | .tpc | .none => { r with kind := 3 }

/-- The core and slot, and the kind, that an owner's records name (R199). -/
def Aster.withOwner (r : Aster) (tid : BitVec 48) : Owner → Aster
  | .fibre c k => { r with core := BitVec.ofNat 17 c, slot := BitVec.ofNat 8 k, tid := tid }
  | .port c _ _ => { r with core := BitVec.ofNat 17 c, tid := tid }
  | .channel t conv p =>
    { r with
      kind := if conv then 5 else 4
      slot := BitVec.ofNat 8 p
      core := BitVec.ofNat 17 (tileCore t (if conv then 1 else 0)) }
  | .mma t => { r with kind := 6, core := BitVec.ofNat 17 (tileCore t 2) }
  | _ => r

/-- The record of a queueing read (R199). -/
def State.recordOf (s : State) (a : Acc) (dst : Dst) (gen : BitVec 10) : Aster :=
  let base : Aster :=
    { ctx := BitVec.ofNat 10 a.ctx, inst := s.inst.getD a.ctx 0, pkg := BitVec.ofNat 10 s.myPkg,
      gen := gen, off := BitVec.ofNat 9 (a.pa % 512), len := BitVec.ofNat 7 a.len }
  let r := (base.withDst dst).withOwner a.tid a.owner
  match a.owner with
  | .port c sp _ => { r with slot := BitVec.ofNat 8 ((s.core c).sp.get (Fin.ofNat 4 sp)).slot }
  | .mma t => { r with slot := BitVec.ofNat 8 (((s.tiles.getD t {}).fetch.map (·.slot)).getD 0) }
  | _ => r

/-- Whether a destination is that of a vector load. -/
def Dst.isVector : Dst → Bool
  | .v .. => true
  | _ => false

/-- The fibre of an owner counts a record more, and one of a vector load apart (R186, R203). -/
def State.countRec (s : State) (dst : Dst) : Owner → State
  | .fibre c k => s.modFib c k fun f => { f with recs := f.recs + 1, vrecs := f.vrecs + dst.isVector.toNat }
  | _ => s

/-- The lowest lane that a set names. -/
def lowestLane (lanes : BitVec 4) : Nat :=
  if lanes.getLsbD 0 then 0 else if lanes.getLsbD 1 then 1 else if lanes.getLsbD 2 then 2 else 3

/-- The ranges of bytes that a read uses: the lanes named, or all. -/
def readRanges (dst : Dst) (pa len : Nat) : List (Nat × Nat) :=
  match dst with
  | .v _ lanes fmt =>
    ((List.range 4).filter lanes.getLsbD).map fun k => (pa + (k - lowestLane lanes) * fmtBytes fmt, fmtBytes fmt)
  | _ => [(pa, len)]

/-- A read at its home (R191, R198, R202, R212): the message's next form, or none when a record took its place. -/
def State.performRead (s : State) (a : Acc) (dst : Dst) : State × Option Msg :=
  let s := (s.touchLines a.pa a.len false).meet a.pa a.len
  let m := s.blkMeta a.pa
  if s.isRetired a.pa then (s, some (.reply a.owner dst [] .poison))
  else if a.gen.any (· ≠ m.gen) then (s, some (.reply a.owner dst [] .gen))
  else if a.ty = .once ∧ m.pres ≠ .full then
    let blk := blkOf a.pa
    match s.enqueue blk (s.recordOf a dst ((a.gen).getD m.gen)) with
    | some s => ((s.modMeta blk fun m => { m with pres := .deferred }).countRec dst a.owner, none)
    | none => (s, some (.reply a.owner dst [] .pool))
  else if (readRanges dst a.pa a.len).any fun r => (s.firstPoison r.1 r.2).isSome then
    (s, some (.reply a.owner dst [] .poison))
  else (s, some (.reply a.owner dst (s.bytes a.pa a.len) .none))

/-- A write at its home (R95, R97, R174): a RETIRED block refuses it. -/
def State.performWrite (s : State) (tid : BitVec 48) (pa : Nat) (data : List Byte) : State :=
  let s := (s.touchLines pa data.length true).meet pa data.length
  if s.isRetired pa then s
  else
    let s := ((s.dropVersions pa data.length).writeUnits tid (data.length + 1) pa data).noteWrite pa
    if s.isRetired pa then s.retireBlock pa else s

/-- Bytes written by a unit of the module that is no fibre, block by block from an address on; `fuel` bounds the blocks. -/
def State.writeSpan (s : State) : Nat → Nat → List Byte → State
  | 0, _, _ => s
  | fuel + 1, a, bs =>
    if bs.isEmpty then s
    else
      let n := 512 - a % 512
      (s.performWrite 0 a (bs.take n)).writeSpan fuel (a + n) (bs.drop n)

/-- The new value of an integer atomic at width n (R397). -/
def amoNew (n : Nat) (op : AmoOp) (a b : BitVec n) : BitVec n :=
  match op with
  | .add => a + b
  | .and => a &&& b
  | .or => a ||| b
  | .xor => a ^^^ b
  | .min => if a.toInt ≤ b.toInt then a else b
  | .max => if a.toInt ≤ b.toInt then b else a
  | .minu => if a.toNat ≤ b.toNat then a else b
  | .maxu => if a.toNat ≤ b.toNat then b else a
  | .swap => b

/-- The new value of an FP32 atomic: rounded to nearest, an exact zero sum of opposite signs +0 (R397). -/
def famoNew (op : FamoOp) (a b : Lane) : Lane :=
  match op with
  | .add => (fpAdd .rne a b).bits
  | .min => (fpMin a b).bits
  | .max => (fpMax a b).bits

/-- The new memory value of an atomic, none when nothing is written (R397). -/
def atomNew (op : AtomOp) (sz : Wd) (old operand : Nat) : Option Nat :=
  match sz with
  | .w =>
    let a := BitVec.ofNat 32 old
    let b := BitVec.ofNat 32 operand
    match op with
    | .amo o => some (amoNew 32 o a b).toNat
    | .famo o => some (famoNew o a b).toNat
    | .cas e => if a = e.setWidth 32 then some b.toNat else none
  | .d =>
    let a := BitVec.ofNat 64 old
    let b := BitVec.ofNat 64 operand
    match op with
    | .amo o => some (amoNew 64 o a b).toNat
    | .famo o => some (famoNew o (a.setWidth 32) (b.setWidth 32)).toNat
    | .cas e => if a = e then some b.toNat else none

/-- The bytes of a width. -/
def Wd.bytes : Wd → Nat
  | .w => 4
  | .d => 8

/-- A value of a width, sign-extended (R275). -/
def signExt (sz : Wd) (v : Nat) : Word :=
  match sz with
  | .w => (BitVec.ofNat 32 v).signExtend 64
  | .d => BitVec.ofNat 64 v

/-- The value that an atomic returns (R398). -/
def atomOld (op : AtomOp) (sz : Wd) (old : Nat) : Word :=
  match op with
  | .famo _ => BitVec.ofNat 64 old
  | _ => signExt sz old

/-- The `n` bytes that an atomic or a decrement writes at its home. -/
def State.writeAtom (s : State) (a : Acc) (n v : Nat) : State :=
  let old := s.versions a.pa
  (((s.dropVersions a.pa n).setBytes a.pa (bytesOfNat n v)).noteWrite a.pa).noteVersion old a (bytesOfNat n v)

/-- An atomic at its home (R235, R398): the old value, or poison, in which case the location is unchanged (R35). -/
def State.performAtomic (s : State) (a : Acc) (op : AtomOp) (sz : Wd) (operand : Word) : State × Option Word :=
  let n := Wd.bytes sz
  let s := (s.touchLines a.pa n true).meet a.pa n
  if s.isRetired a.pa || (s.firstPoison a.pa n).isSome then (s, none)
  else
    let old := s.nat a.pa n
    let s := match atomNew op sz old operand.toNat with
      | some v => s.writeAtom a n v
      | none => s
    (s, some (atomOld op sz old))

/-! ## Arrival at the owners -/

/-- The value that a scalar load writes of its bytes (R183, R205). -/
def loadValue (size : Size) (sgn : Bool) (fmt : FmtCode) (data : List Byte) : Word :=
  let raw := natOfBytes data
  let (v, n) := if fmt = 0 then (raw, 8 * 2 ^ size.code) else ((fmtToLane fmt raw).toNat, 32)
  if sgn then BitVec.ofInt 64 (BitVec.ofNat n v).toInt else BitVec.ofNat 64 (v % 2 ^ n)

/-- The value of a lane among the bytes of a vector read (R185, R199). -/
def laneValue (fmt : FmtCode) (lanes : BitVec 4) (data : List Byte) (k : Nat) : Lane :=
  let e := fmtBytes fmt
  fmtToLane fmt (natOfBytes ((data.drop ((k - lowestLane lanes) * e)).take e))

/-- The destination of a read filled in the registers of a fibre, with data or with a flag (R205, R212). -/
def State.fillDst (s : State) (c k : Nat) (dst : Dst) (data : List Byte) (fl : RFlag) : State :=
  match dst with
  | .x xd size sgn fmt =>
    if fl = .none then s.modFib c k (·.fill xd (loadValue size sgn fmt data))
    else s.modFib c k fun f => f.flagged xd fl (f.x.get xd).va
  | .v vd lanes fmt =>
    s.modCore c fun r => r.modV vd lanes fun i l =>
      if fl = .none then { val := laneValue fmt lanes data i.val } else { l with full := true, flag := fl }
  | .fsw => if fl = .none then s.modFib c k fun f => { f with fsw := fswWrite f.fsw (BitVec.ofNat 32 (natOfBytes data)) } else s
  | .tpc =>
    if fl = .none then
      s.modFib c k fun f => f.setBank f.lvl { f.bank f.lvl with pc := BitVec.ofNat 64 (natOfBytes data) &&& 0x0000FFFFFFFFFFF8#64 }
    else s
  | .row _ | .none => s

/-- The destination that a record names. -/
def Aster.dst (r : Aster) : Dst :=
  if r.kind = 1 then
    .x (Fin.ofNat 8 r.dreg.toNat) (Size.ofCode r.size.toNat) r.sgn r.fmt
  else if r.kind = 2 then .v (Fin.ofNat 16 r.dreg.toNat) r.lanes r.fmt
  else .none

end Sys2Proof.Machine
end

