-- ==== Sys2Proof/Machine/Plane.lean ====
section
/-!
DEFINITION. The core plane: the routers on a message's way (R345), its virtual channel (R346), the membership test (R348), the
tags that forwarding routers note (R360), the counters of links and cores (R374, R436).
-/

namespace Sys2Proof.Machine

/-! ## Paths (R345) -/

/-- The numbers from one to another, both included. -/
def stretch (a b : Nat) : List Nat :=
  if a ≤ b then (List.range (b - a + 1)).map (a + ·) else (List.range (a - b + 1)).map (a - ·)

/-- The routers that a message passes: along its row to the destination column, then along that column (R345). -/
def path (src dst : Nat) : List Nat :=
  (stretch (coreCol src) (coreCol dst)).map (fun x => coreRow src * 512 + x)
    ++ ((stretch (coreRow src) (coreRow dst)).drop 1).map fun y => y * 512 + coreCol dst

/-- The output of a router that leads to a neighbour: 0 north, 1 east, 2 south, 3 west (R22, R376). -/
def linkTo (a b : Nat) : Nat := if b + 512 = a then 0 else if b = a + 1 then 1 else if b = a + 512 then 2 else 3

/-! ## Membership (R348) -/

/-- The first router on a message's way that does not have its tenant in its membership bitmap (R348, R413). -/
def State.stopAt (s : State) (r : Route) : Option Nat := (path r.src r.dst).find? fun c => !s.partHas r.tenant c

/-- The way and the router at which a message is discarded. -/
def State.planeStop (s : State) (rs : List Route) : Option (Route × Nat) := rs.findSome? fun r => (s.stopAt r).map fun c => (r, c)

/-! ## Counters (R374, R436) -/

/-- The flits of one way: a header for each message, and its payload; a message whose format the spec does not give has a free
number of payload flits, at most four (R345, log 30). -/
def State.flitsOf (s : State) (r : Route) : Nat × State := match r.bytes with
  | some n => (r.msgs + (n + 15) / 16, s)
  | none =>
    let (n, s) := s.takeFresh
    (1 + (Config.freeWord n).toNat % 5, s)

/-- The counter of a router's output for a virtual channel, as the 4-byte word of a snapshot's body (R376). -/
def flitWord (router link vc : Nat) : Nat := 32 * router + 8 * link + 2 * vc

/-- A counter grown modulo 2^32 (R374). -/
def growLink (m : AMap (BitVec 32)) (i n : Nat) : AMap (BitVec 32) := m.setD i (m.getD i 0 + BitVec.ofNat 32 n) 0

/-- The flits of a way counted at the links between the routers that it has passed (R374). -/
def State.countHops (s : State) (r : Route) (hops : List Nat) : State :=
  let (n, s) := s.flitsOf r
  { s with links := (hops.zip (hops.drop 1)).foldl (fun m (h : Nat × Nat) => growLink m (flitWord h.1 (linkTo h.1 h.2) r.vc) n) s.links }

/-- What a message has done when it has arrived: every link on its way has sent its flits, its sender has sent it and its receiver
has received it (R374, R436). -/
def State.countRoute (s : State) (r : Route) : State :=
  let s := s.countHops r (path r.tap r.dst)
  (s.modCore r.src fun c => { c with sent := c.sent + r.msgs }).modCore r.dst fun c => { c with rcvd := c.rcvd + r.msgs }

/-- The ways that a message has completed, from what is left of it. -/
def doneRoutes (rs : List Route) (old : Msg) : Option Msg → List Route
  | some (.result c root cid seq t g blocks) =>
    if some old = some (.result c root cid seq t g blocks) then [] else rs.drop blocks.length
  | m => if m = some old then [] else rs

/-- The state in which the senders of messages that will never arrive have sent them (R436). -/
def State.countSent (s : State) (rs : List Route) : State :=
  rs.foldl (fun s r => s.modCore r.src fun c => { c with sent := c.sent + r.msgs }) s

/-- The state without the messages that a test names: what they were over the core plane has been sent. -/
def State.loseMsgs (s : State) (p : Msg → Bool) : State :=
  let rs := (s.net.filter fun m => p m.2).flatMap fun m => s.routesOf m.2
  { s with net := s.net.filter fun m => !p m.2 }.countSent rs

/-! ## Tags (R360) -/

/-- The state in which a core's router has forwarded an abort for a tag: it discards the partials that have it (R360). -/
def State.tagRouter (s : State) (tenant : Nat) (cid seq : BitVec 16) (group c : Nat) : State :=
  let mine (p : Partial) : Bool := p.tenant == tenant && p.cid == cid && p.seq == seq && p.group == group
  let r := s.routers.getD c {}
  let tag := (tenant, cid, seq, group)
  let l := if tag ∈ r.tags then r.tags else (r.tags ++ [tag]).drop (r.tags.length - 7)
  let r := { slots := r.slots.filter fun p => !mine p, tags := l : Router }
  ({ s with routers := s.routers.setD c r {} }).modTile (tileOf c) fun k => { k with
    spill := k.spill.filter fun q => !(q.1 == c && mine q.2) }

/-- The state in which the routers on an abort's or mismatch's way have forwarded it (R360). -/
def State.noteForward (s : State) : Msg → State
  | .abort src root cid seq t g .. => (path src root).foldl (State.tagRouter · t cid seq g ·) s
  | .aborted c root cid seq t g _ => (path root c).foldl (State.tagRouter · t cid seq g ·) s
  | _ => s

/-- The router on a partial's way that has forwarded an abort for its tag: it discards what it receives (R360). -/
def State.tagStop (s : State) : Msg → List Route → Option (Route × Nat)
  | .part p, rs => rs.findSome? fun r =>
      ((path r.src r.dst).find? fun c => decide ((p.tenant, p.cid, p.seq, p.group) ∈ (s.routers.getD c {}).tags)).map fun c => (r, c)
  | _, _ => none

/-- The state without a message that a router has discarded: the links before the router have sent it. -/
def State.stopMsg (s : State) (k : Nat) (rs : List Route) (r : Route) (router : Nat) : State :=
  let hops := path r.tap r.dst
  ((s.dropMsg k).countSent rs).countHops r (hops.take (hops.idxOf router + 1))

/-! ## Arrival -/

/-- The record of a message that a router has discarded (R348). -/
def State.discarded (s : State) (r : Route) (router : Nat) : State :=
  s.errRec 0x2E (some { ctx := (s.core r.src).ctxid.toNat, tenant := r.tenant })
    [BitVec.ofNat 64 r.tenant, BitVec.ofNat 64 r.src, BitVec.ofNat 64 router]

/-- A message over the core plane: a router outside its partition discards it with record 0x2E, one that has forwarded an abort for
its tag discards a partial, and otherwise it arrives, by `act`, and is counted when it has (R345, R348, R360, R374, R436). -/
def overPlane (k : Nat) (act : State → Out) (s : State) : Out :=
  match s.net.get? k with
  | none => act s
  | some m =>
    let rs := s.routesOf m
    match s.planeStop rs with
    | some (r, c) => .next ((s.stopMsg k rs r c).discarded r c)
    | none =>
      match s.tagStop m rs with
      | some (r, c) => .next (s.stopMsg k rs r c).settle
      | none =>
      match act (s.noteForward m) with
      | .next s' => .next ((doneRoutes rs m (s'.net.get? k)).foldl State.countRoute s')
      | o => o

end Sys2Proof.Machine
end

