-- ==== Sys2Proof/Machine/Xlate.lean ====
section
/-!
DEFINITION. Translation (R122 to R141): page-table entries, the physical page-type table, walks, TLBs, the checks
of R135 in their order, and watch filters.
-/

namespace Sys2Proof.Machine

/-! ## Page-table entries and the page-type table -/

/-- The bits below the page of a leaf at a level (R123). -/
def lvlShift (lvl : Nat) : Nat := if lvl = 0 then 42 else if lvl = 1 then 29 else 16

/-- A page-table entry (R125). -/
structure Pte where
  rsv : Nat
  pa  : Nat
  g   : Bool
  d   : Bool
  a   : Bool
  wa  : Bool
  m   : Bool
  ty  : PageType
  x   : Bool
  w   : Bool
  r   : Bool
  l   : Bool
  v   : Bool
  deriving DecidableEq, Repr

/-- The fields of an entry (R125). -/
def Pte.ofNat (e : Nat) : Pte :=
  { rsv := fld e 56 8 + fld e 12 4, pa := fld e 16 40 * 65536, g := fld e 11 1 == 1, d := fld e 10 1 == 1,
    a := fld e 9 1 == 1, wa := fld e 8 1 == 1, m := fld e 7 1 == 1, ty := PageType.ofCode (fld e 5 2),
    x := fld e 4 1 == 1, w := fld e 3 1 == 1, r := fld e 2 1 == 1, l := fld e 1 1 == 1, v := fld e 0 1 == 1 }

/-- Whether a valid entry of a package keeps R125 and R126 at a level: a table lies in that package's own HBM4 or LPDDR-6. -/
def pteOk (pkg lvl e : Nat) : Bool :=
  let p := Pte.ofNat e
  if fld e 56 8 != 0 then false
  else if p.l then p.rsv == 0 && p.pa % 2 ^ lvlShift lvl == 0
  else lvl != 2 && fld e 1 15 == 0 && pkgOf p.pa == pkg && isDram (localOf p.pa)

/-- The index of a local page in the physical page-type table (R129); none for a page without an entry. -/
def pptIndex (a : Nat) : Option Nat :=
  let raw := rawOf a
  match regionOf raw with
  | .hbmInter | .hbmLocal => some (raw / 65536)
  | .lpddr => some (12582912 + (raw - 0x040000000000) / 65536)
  | .vault => some (61341696 + (raw - vaultBase) / 65536)
  | .pooled => some (61603840 + (raw - 0x200000000000) / 65536)
  | _ => none

/-- The address of a page's type byte (R129). -/
def State.pptAddr (s : State) (a : Nat) : Option Nat := (pptIndex a).map (s.regF 0x1A0000 16 30 * 65536 + ·)

/-- The type byte of a page as it stands in the array (R130). -/
def State.ppt (s : State) (a : Nat) : Option Nat := (s.pptAddr a).map fun p => (s.byte p).toNat

/-- A page's type byte read by a fill, a check or a protocol at its home (R92, R130): a correctable error of its atom is
corrected, and of a poisoned atom the bits count as held (DEDUCED, log 139). -/
def State.meetPpt (s : State) (a : Nat) : State :=
  match s.pptAddr a with
  | none => s
  | some p => (s.touchLine p false).meet p 1

/-- The state with a page's type byte stored by Menath: its reserved bits are zero (R9, R129), and the array's block takes it as
any write (R89, R95, R97). -/
def State.setPpt (s : State) (a v : Nat) : State :=
  match s.pptAddr a with
  | none => s
  | some p => s.performWrite 0 p [BitVec.ofNat 8 (v % 16)]

/-- The type field of a type byte (R129). -/
def pptType (b : Nat) : PageType := PageType.ofCode (fld b 0 2)
/-- The bit M of a type byte. -/
def pptM (b : Nat) : Bool := fld b 2 1 == 1
/-- The bit RET of a type byte. -/
def pptRet (b : Nat) : Bool := fld b 3 1 == 1
/-- The type byte of a page as it stands, zero where there is none (R130). -/
def State.typeByte (s : State) (a : Nat) : Nat := (s.ppt a).getD 0
/-- Whether the type byte of a page has M set. -/
def State.isHeld (s : State) (a : Nat) : Bool := pptM (s.typeByte a)

/-! ## TLBs and walk caches -/

/-- The TLB of the engines of a tile, and of the I/O die. -/
def engineTlb (t : Nat) : Nat := 131072 + t
/-- The TLB of the I/O die. -/
def ioTlb : Nat := 200000

/-- Whether an entry matches an address in a context (R133). -/
def TlbEntry.hits (e : TlbEntry) (ctx va : Nat) : Bool :=
  fld va 0 55 / 2 ^ lvlShift e.lvl == e.vpn && (e.g || e.ctx == ctx)

/-- The TLB of a unit. -/
def State.tlb (s : State) (u : Nat) : List TlbEntry := s.tlbs.getD u []

/-- The state with the TLB of a unit set. -/
def State.setTlb (s : State) (u : Nat) (t : List TlbEntry) : State := { s with tlbs := s.tlbs.setD u t [] }

/-- A list with one of its elements left out. -/
def dropNth {α : Type} : Nat → List α → List α
  | _, [] => []
  | 0, _ :: xs => xs
  | n + 1, x :: xs => x :: dropNth n xs

/-- The state with a TLB entry filled; a full TLB gives up a free victim (log 6). -/
def State.fillTlb (s : State) (u : Nat) (e : TlbEntry) : State :=
  let t := (s.tlb u).filter fun o => !(o.lvl == e.lvl && o.vpn == e.vpn && o.ctx == e.ctx && o.g == e.g)
  if t.length < 32 then s.setTlb u (t ++ [e])
  else
    let (n, s) := s.takeFresh
    s.setTlb u (dropNth (Config.victim n % 32) t ++ [e])

/-- The walk cache of a sector. -/
def State.walkCache (s : State) (sec : Nat) : List WalkEntry := s.walks.getD sec []

/-- The state with a walk-cache entry filled (R134). -/
def State.fillWalk (s : State) (sec : Nat) (e : WalkEntry) : State :=
  let t := s.walkCache sec
  if e ∈ t then s
  else if t.length < 1024 then { s with walks := s.walks.setD sec (t ++ [e]) [] }
  else
    let (n, s) := s.takeFresh
    { s with walks := s.walks.setD sec (dropNth (Config.victim n % 1024) t ++ [e]) [] }

/-- The state with the TLB entries that fail a test dropped from every TLB of the package. -/
def State.dropTlbs (s : State) (drop : TlbEntry → Bool) : State :=
  { s with tlbs := (s.tlbs.map fun p => (p.1, p.2.filter fun e => !drop e)).filter fun p => !p.2.isEmpty }

/-- The state with the walk-cache entries that pass a test dropped from every sector. -/
def State.dropWalks (s : State) (drop : WalkEntry → Bool) : State :=
  { s with walks := (s.walks.map fun p => (p.1, p.2.filter fun e => !drop e)).filter fun p => !p.2.isEmpty }

/-- Whether a TLB entry maps a physical page of 64 KiB. -/
def TlbEntry.maps (e : TlbEntry) (page : Nat) : Bool :=
  let n := 2 ^ (lvlShift e.lvl - 16)
  let base := pageOf (rawOf (localOf e.pa))
  decide (base ≤ page) && decide (page < base + n)

/-! ## The walk -/

/-- What a walk finds. -/
inductive Walk where
  /-- a leaf: its level, the entry's address and its bits -/
  | leaf (lvl addr e : Nat)
  /-- translation not present -/
  | absent
  /-- an entry that is poisoned or lies in a RETIRED block (R93, R97) -/
  | poisoned
  deriving DecidableEq, Repr

/-- The address of an entry (R123). -/
def entryAddr (table lvl va : Nat) : Nat := table + fld va (lvlShift lvl) 13 * 8

/-- Whether translations of a context are on (R128). -/
def State.ctxOn (s : State) (ctx : Nat) : Bool := s.regF (0x1B0000 + 8 * ctx) 0 1 == 1

/-- The level-0 table of a context; none while CTX_ROOT.V or PPT_BASE.V is 0 (R128, R129). -/
def State.rootOf (s : State) (ctx : Nat) : Option Nat :=
  if s.ctxOn ctx && s.regF 0x1A0000 0 1 == 1 then some (s.regF (0x1B0000 + 8 * ctx) 16 30 * 65536) else none

/-- An entry read as a STRICT load at its home (R124): its bits, none where the load meets poison or a RETIRED block. -/
def State.readEntry (s : State) (addr : Nat) : Option Nat × State :=
  let s := (s.touchLines addr 8 false).meet addr 8
  if s.isRetired addr || (s.firstPoison addr 8).isSome then (none, s) else (some (s.nat addr 8), s)

/-- One level of a walk: the next table, or the end of the walk. -/
def State.walkStep (s : State) (sec ctx va lvl table : Nat) : (Nat ⊕ Walk) × State :=
  let pre := fld va 0 55 / 2 ^ lvlShift lvl
  match (s.walkCache sec).find? fun e => e.ctx == ctx && e.lvl == lvl && e.vpn == pre with
  | some e => (.inl e.table, s)
  | none =>
    let addr := entryAddr table lvl va
    -- a level-0 table may have been put where there is no memory (R28)
    if !s.exists_ addr then (.inr .absent, s)
    else
    match s.readEntry addr with
    | (none, s) => (.inr .poisoned, s)
    | (some e, s) =>
      if fld e 0 1 = 0 || !pteOk s.myPkg lvl e then (.inr .absent, s)
      else if fld e 1 1 = 1 then (.inr (.leaf lvl addr e), s)
      else
        let t := localOf (Pte.ofNat e).pa
        (.inl t, s.fillWalk sec { ctx := ctx, lvl := lvl, vpn := pre, table := t })

/-- A walk of the tables of a context, by a walker of a sector (R134, R135 check 1). -/
def State.walk (s : State) (sec ctx va : Nat) : Walk × State :=
  match s.rootOf ctx with
  | none => (.absent, s)
  | some root =>
    match s.walkStep sec ctx va 0 root with
    | (.inr w, s) => (w, s)
    | (.inl t1, s) =>
      match s.walkStep sec ctx va 1 t1 with
      | (.inr w, s) => (w, s)
      | (.inl t2, s) =>
        match s.walkStep sec ctx va 2 t2 with
        | (.inr w, s) => (w, s)
        | (.inl _, s) => (.absent, s)

/-- The state with an entry changed at its home by a compare-and-swap that succeeds (R127, R142): the walk's read and the swap
are one step here, so that the entry never changes between them. Its writer is no fibre (R95; DESIGN CHOICE, log 117). -/
def State.setEntry (s : State) (addr e : Nat) : State := s.performWrite 0 addr (bytesOfNat 8 e)

/-! ## An access and its checks -/

/-- What an access needs of a page's type (R138). -/
inductive XNeed where
  | plain | order | atomic | block | fetch | engine
  deriving DecidableEq, Repr

/-- Whether an operation is legal on a page type (R138). -/
def XNeed.legal : XNeed → PageType → Bool
  | .plain, _ => true
  | .order, t => t != .priv
  | .atomic, t => t == .strict || t == .release
  | .block, t => t == .once
  | .fetch, t => t == .strict || t == .release
  | .engine, t => t != .priv

/-- Who translates: a core (its TLB and its filters), the engines of a tile, or the I/O die. -/
inductive Who where
  | core (c : Nat)
  | engine (t : Nat)
  | io
  deriving DecidableEq, Repr

/-- The TLB of a unit that translates. -/
def Who.tlb : Who → Nat
  | .core c => c
  | .engine t => engineTlb t
  | .io => ioTlb

/-- The sector whose walkers serve a unit: the I/O die, which no rule gives walkers, uses those of sector 0 (R134; DESIGN CHOICE,
log 140). -/
def Who.sector : Who → Nat
  | .core c => sectorOf c
  | .engine t => tileSector t
  | .io => 0

/-- The kind of an access for translation. -/
structure XAcc where
  rd    : Bool := false
  wr    : Bool := false
  ex    : Bool := false
  need  : XNeed := .plain
  /-- by a fibre in user mode -/
  user  : Bool := false
  /-- no load or store, so that the system register space refuses it alike in either mode (R118, R342, R398) -/
  own   : Bool := false
  /-- one that watch filters see (R140) -/
  watch : Bool := true
  deriving DecidableEq, Repr

/-- A range of bytes that an access touches. -/
structure Touch where
  va  : Word
  len : Nat
  deriving DecidableEq, Repr

/-- A page that has been translated: the physical address of the page's first byte, span-global, and its type. -/
structure Frame where
  pa : Nat
  ty : PageType
  deriving DecidableEq, Repr

/-- The outcome of a translation: the frames by virtual page number, a fault, or a hold on a physical page. -/
inductive Xl where
  | ok (frames : AMap Frame)
  | fault (cause : Nat) (val : Word)
  | hold (page : Nat) (val : Word)
  deriving DecidableEq, Repr

/-- Whether an address has the form of R122. -/
def vaOk (va : Word) : Bool := fld va.toNat 54 10 == 0 || fld va.toNat 54 10 == 0x3FF

/-- The lowest byte of a page that a touch list and an enabled filter share (R141). -/
def watchHit (wfl : List Word) (x : XAcc) (touches : List Touch) : Option Word :=
  let bytes := touches.flatMap fun t => (List.range t.len).map fun i => t.va + BitVec.ofNat 64 i
  let hit (b : Word) : Bool := wfl.any fun f =>
    f.getLsbD 63 && ((x.rd && f.getLsbD 62) || (x.wr && f.getLsbD 61))
      && fld b.toNat 3 52 == fld f.toNat 9 52 && f.getLsbD (b.toNat % 8)
  (bytes.filter hit).foldl (fun acc b => match acc with
    | none => some b
    | some a => some (if b.toNat < a.toNat then b else a)) none

/-- The physical page of a leaf for an address, span-global. -/
def leafPage (lvl pa va : Nat) : Nat := (pa + va % 2 ^ lvlShift lvl) / 65536 * 65536

/-- The page number under which an access waits for a fabric port to package `n` (R456). -/
def fabricHold (n : Nat) : Nat := 2 ^ 40 + n

/-- Whether a port on the route to a package is up: the primary one, or a valid alternate one (R455, R456). -/
def State.routeUp (s : State) (n : Nat) : Bool :=
  let off := 0x214000 + 8 * n
  let up (i : Nat) : Bool := s.regF (0x213100 + 8 * i) 62 1 == 1
  up (s.regF off 0 4) || (s.regF off 8 1 == 1 && up (s.regF off 4 4))

/-- Whether a package number names a package of the span (R31, R455). -/
def State.pkgKnown (s : State) (n : Nat) : Bool := n == s.myPkg || s.regF (0x214000 + 8 * n) 9 1 == 1

/-- Whether a physical address belongs to another package (R31). -/
def State.isRemote (s : State) (pa : Nat) : Bool := pkgOf pa != s.myPkg

/-- Whether a physical address names nothing: no package of the span, no range, or an extent that is not there (R28, R31). -/
def State.nowhere (s : State) (pa : Nat) : Bool :=
  if s.isRemote pa then !s.pkgKnown (pkgOf pa) || !mapped pa else !s.exists_ (localOf pa)

/-- Whether a range refuses a fibre in user mode: the system register space to a load or store (R32), the system area to any
access (R169). -/
def XAcc.barred (x : XAcc) (pa : Nat) : Bool :=
  let raw := rawOf (localOf pa)
  x.user &&
    (match regionOf raw with
      | .sysreg => !x.own && !x.ex
      | .vault => vaultPart (vaultOff raw) == .system
      | _ => false)

/-- The number of a page for holds: that of the raw page in this package, one apart for each page of another (R143). -/
def State.holdKey (s : State) (pa : Nat) : Nat := (pkgOf pa ^^^ s.myPkg) * 2 ^ 30 + pageOf (rawOf (localOf pa))

/-- What the home of another package, whose tables are not modelled, does with an access or a walker's query: it holds it, refuses
it as an alias-type mismatch, or takes it (R136, log 8). -/
inductive FarAnswer where
  | take | hold | refuse
  deriving DecidableEq, Repr

/-- The answer of another package to an access: free. -/
def State.farAnswer (s : State) : FarAnswer × State :=
  let (n, s) := s.takeFresh
  (match (Config.freeWord n).toNat % 3 with
    | 0 => .take
    | 1 => .hold
    | _ => .refuse, s)

/-- What another package answers to an access or a query for a page: one whose route has no port that is up waits for one (R456),
and a page without a type byte is neither held nor refused there (R137). The answer is a hold or a fault, or none. -/
def State.farCheck (s : State) (lowest : Word) (pa : Nat) : Option Xl × State :=
  let key := fabricHold (pkgOf pa)
  if !s.isRemote pa then (none, s)
  else if !s.routeUp (pkgOf pa) then (some (.hold key lowest), s)
  else if (pptIndex (localOf pa)).isNone then (none, s)
  else
    match s.farAnswer with
    | (.hold, s) => (some (.hold key lowest), s)
    | (.refuse, s) => (some (.fault 0x06 lowest), s)
    | (.take, s) => (none, s)

/-- The checks of R135 from permission on, none when they pass; `touches` are the bytes that the access touches in the page. What
R138 refuses an engine is its command error, cause 0x0E (R249). A page
that user mode may not reach is refused as privileged before anything else is judged of it (R38). -/
def State.xlateFault (s : State) (who : Who) (x : XAcc) (lowest : Word) (touches : List Touch) (pa : Nat)
    (ty : PageType) (r w xx wa : Bool) : Option Xl :=
  let reg := regionOf (localOf pa)
  if s.nowhere pa then some (.fault 0x03 lowest)
  else if x.barred pa then some (.fault 0x02 lowest)
  else if (x.rd && !r) || (x.wr && !w) || (x.ex && !xx) then some (.fault 0x04 lowest)
  else if x.need == .engine && (ty == .priv || (reg == .sysreg && ty == .strict)) then some (.fault 0x0E lowest)
  else if !x.need.legal ty || (reg == .sysreg && (ty != .strict || x.ex)) then some (.fault 0x05 lowest)
  else
    match who with
    | .core c =>
      if wa && x.watch && !x.ex then (watchHit (s.core c).wfl.toList x touches).map (.fault 0x13 ·) else none
    | _ => none

/-- A page that has passed the checks: its frame, unless another package's home holds or refuses the access (R136). -/
def State.frameXlate (s : State) (lowest : Word) (pa : Nat) (ty : PageType) : Xl × State :=
  match s.farCheck lowest pa with
  | (some r, s) => (r, s)
  | (none, s) => (.ok [(lowest.toNat / 65536, { pa := pa, ty := ty })], s)

/-- The checks 2 and 3 of R135 of a leaf, none when they pass. The walker queries the home of another package's page (R136). -/
def State.leafCheck (s : State) (lowest : Word) (pa : Nat) (ty : PageType) (m : Bool) : Option Xl × State :=
  let loc := localOf pa
  if m then (some (.hold (s.holdKey pa) lowest), s)
  else if s.isRemote pa then s.farCheck lowest pa
  else
    let s := s.meetPpt loc
    match s.ppt loc with
    | none => (none, s)
    | some b =>
      if pptM b then (some (.hold (s.holdKey pa) lowest), s)
      else if pptType b != ty then (some (.fault 0x06 lowest), s)
      else (none, s)

/-- A walk and the checks 1 to 3 of R135, then the rest of them, the fill with the accessed and dirty bits, and the access at its
home. -/
def State.missXlate (s : State) (who : Who) (ctx : Nat) (x : XAcc) (lowest : Word) (touches : List Touch) :
    Xl × State :=
  let va := lowest.toNat
  match s.walk who.sector ctx va with
  | (.absent, s) => (.fault 0x03 lowest, s)
  | (.poisoned, s) => (.fault 0x09 lowest, s)
  | (.leaf lvl addr e, s) =>
    let p := Pte.ofNat e
    let pa := leafPage lvl p.pa va
    if s.nowhere pa || (regionOf (localOf pa) == .pooled && p.ty == .once) then (.fault 0x03 lowest, s)
    else if x.barred pa then (.fault 0x02 lowest, s)
    else
      match s.leafCheck lowest pa p.ty p.m with
      | (some r, s) => (r, s)
      | (none, s) =>
        match s.xlateFault who x lowest touches pa p.ty p.r p.w p.x p.wa with
        | some r => (r, s)
        | none =>
          let d := p.d || x.wr
          let e' := e + (if p.a then 0 else 2 ^ 9) + (if d && !p.d then 2 ^ 10 else 0)
          let s := if e' = e then s else s.setEntry addr e'
          let s := s.fillTlb who.tlb
            { lvl := lvl, vpn := fld va 0 55 / 2 ^ lvlShift lvl, ctx := ctx, pa := p.pa, r := p.r,
              w := p.w, x := p.x, ty := p.ty, d := d, g := p.g, wa := p.wa }
          s.frameXlate lowest pa p.ty

/-- The translation of the bytes of one page (R128, R132 to R141). -/
def State.xlatePage (s : State) (who : Who) (ctx : Nat) (x : XAcc) (lowest : Word) (touches : List Touch) : Xl × State :=
  if !vaOk lowest || !s.ctxOn ctx then (.fault 0x03 lowest, s)
  else
    match (s.tlb who.tlb).find? fun e => e.hits ctx lowest.toNat with
    | some e =>
      if x.wr && !e.d then s.missXlate who ctx x lowest touches
      else
        let pa := leafPage e.lvl e.pa lowest.toNat
        match s.xlateFault who x lowest touches pa e.ty e.r e.w e.x e.wa with
        | some r => (r, s)
        | none => s.frameXlate lowest pa e.ty
    | none => s.missXlate who ctx x lowest touches

/-- The parts of a range in each page it touches. -/
def Touch.split (t : Touch) : List Touch :=
  let room := 65536 - t.va.toNat % 65536
  if t.len = 0 then []
  else if t.len ≤ room then [t]
  else [{ va := t.va, len := room }, { va := t.va + BitVec.ofNat 64 room, len := t.len - room }]

/-- The lowest address of a touch list. -/
def lowestOf : List Touch → Word
  | [] => 0
  | [t] => t.va
  | t :: ts =>
    let l := lowestOf ts
    if t.va.toNat ≤ l.toNat then t.va else l

/-- Some numbers in ascending order, each once. -/
def risingOf (ps : List Nat) : List Nat := AMap.keys (ps.foldl (fun m p => AMap.insert m p ()) ([] : AMap Unit))

/-- The pages of a touch list in ascending order. -/
def pagesOf (ts : List Touch) : List Nat := risingOf (ts.map fun t => t.va.toNat / 65536)

/-- The translation of pages in ascending order; the first that fails decides (R132). -/
def State.xlatePages (s : State) (who : Who) (ctx : Nat) (x : XAcc) (ts : List Touch) : List Nat → AMap Frame → Xl × State
  | [], acc => (.ok acc, s)
  | p :: ps, acc =>
    let here := ts.filter fun t => t.va.toNat / 65536 == p
    match s.xlatePage who ctx x (lowestOf here) here with
    | (.ok f, s) => s.xlatePages who ctx x ts ps (f.foldl (fun m q => AMap.insert m q.1 q.2) acc)
    | r => r

/-- The translation of everything an access touches. -/
def State.xlate (s : State) (who : Who) (ctx : Nat) (x : XAcc) (touches : List Touch) : Xl × State :=
  let ts := touches.flatMap Touch.split
  s.xlatePages who ctx x ts (pagesOf ts) []

/-- The frame of an address among translated pages. -/
def frameOf (fs : AMap Frame) (va : Word) : Frame := fs.getD (va.toNat / 65536) { pa := 0, ty := .strict }

/-- The physical address of a virtual one among translated pages, span-global. -/
def physOf (fs : AMap Frame) (va : Word) : Nat := (frameOf fs va).pa + va.toNat % 65536

end Sys2Proof.Machine
end

