-- ==== Sys2Proof/Machine/Operands.lean ====
section
/-!
DEFINITION. The issue of a bundle: privilege, anchor and role checks (R38, R52), readiness of registers (R269),
flagged operands (R212), stream ports named by a bundle (R298, R299), the energy budget (R417), and which earlier
accesses an access waits for (R221 to R223, R232).
-/

namespace Sys2Proof

/-- The instructions marked privileged in R42 and R48. -/
def Instr.privileged : Instr → Bool
  | .rtt | .dload .. | .map .. | .unmap .. | .tlbiVa .. | .tlbiCtx .. | .tlbiAll | .retype .. | .watchOn ..
  | .watchOff .. | .zero .. => true
  | _ => false

/-- The access class of a system register number (R425): readable in user mode, writable in user mode. -/
def sysRegClass (n : Nat) : Bool × Bool :=
  if n = 4 then (true, false)
  else if n ≤ 5 then (true, true)
  else if 8 ≤ n ∧ n ≤ 15 then (true, true)
  else (false, false)

/-- Whether an instruction raises privileged, cause 0x02, in user mode (R52, R425). -/
def Instr.userFault (i : Instr) : Bool :=
  i.privileged || (match i with
    | .mfs _ reg => !(sysRegClass reg.toNat).1
    | .mts reg _ => !(sysRegClass reg.toNat).2
    | _ => false)

/-- The core of a tile that alone issues an instruction (R24, R245, R307, R339). -/
def Instr.role : Instr → Option Nat
  | .cpy .. | .cpyg .. | .cpys .. | .cpyt .. | .cpyc .. | .cpyk .. | .cpywWait .. | .cpywQuery .. => some 0
  | .cvq .. | .cvd .. | .cvr .. | .cvwWait .. | .cvwQuery .. => some 1
  | .mbegin .. | .mma .. | .mend .. | .mst .. | .mzero .. | .mrv .. | .mva .. | .mscl .. | .mstat .. | .bget .. | .bset ..
  | .bthr .. | .bblk .. | .bblkSet .. | .bmark .. => some 2
  | _ => none

/-- The instructions that use the vector file, the masks or the stream ports (R274). -/
def Instr.usesVector : Instr → Bool
  | .vadd .. | .vsub .. | .vmul .. | .vfma .. | .vdiv .. | .vsqrt .. | .vmin .. | .vmax .. | .vexp2 .. | .vlog2 ..
  | .vint .. | .vcmp .. | .vselm .. | .vred .. | .vperm .. | .vcvt .. | .vmask .. | .vmaskNot .. | .vmaskFromx ..
  | .vmaskTox .. | .vld .. | .vst .. | .vlds .. | .vsts .. | .vgath .. | .vscat .. | .sbind .. | .sfree .. | .sstat .. => true
  | _ => false

/-- Whether an instruction may issue on a core only from the fibre that holds its anchor (R24, R274). -/
def Instr.anchored (i : Instr) : Bool := i.usesVector || i.role.isSome

/-- The x registers that an instruction reads or writes. -/
def RegUse.xs (u : RegUse) : List XR := u.rx ++ u.wx
/-- The v registers that an instruction reads or writes. -/
def RegUse.vs (u : RegUse) : List VR := u.rv ++ u.wv

/-- The v registers that an instruction reads through an enabled lane: VSELM reads all lanes, and a vector
instruction whose mask enables none reads none (R274, R298). -/
def Instr.consumed (i : Instr) (en : BitVec 4) : List VR :=
  match i with
  | .vselm .. | .mva .. => i.regUse.rv
  | _ => if en = 0 then [] else i.regUse.rv

/-- The energy class of an instruction: its field ec, or `v` as 4. -/
def Instr.energyClass : Instr → Nat
  | .vadd .. | .vsub .. | .vmul .. | .vfma .. | .vdiv .. | .vsqrt .. | .vmin .. | .vmax .. | .vexp2 .. | .vlog2 ..
  | .vint .. | .vcmp .. | .vselm .. | .vred .. | .vcvt .. => 4
  | i =>
    match encode i with
    | some (.long w0 _) => if 0x20 ≤ fld w0 24 7 then fld w0 22 2 else 0
    | _ => 0

end Sys2Proof

namespace Sys2Proof.Machine

/-! ## Privilege, anchor and role -/

/-- Whether an instruction raises not anchored or wrong core, cause 0x0F with value 0 (R24, R274). -/
def State.anchorFault (s : State) (i : Instr) : Bool :=
  (i.anchored && !s.ops.f.anc) || (match i.role with
    | some r => coreInTile s.cur.core != r
    | none => false)

/-! ## Registers that are not ready, and flagged ones -/

/-- What an instruction may do now. -/
inductive Ready where
  | go
  /-- wait until registers are FULL; the fibre parks, or stays READY when only arithmetic results are missing -/
  | wait (need : Need) (parks : Bool)
  /-- a trap with its cause and value -/
  | trap (cause : Nat) (val : Word)
  deriving DecidableEq, Repr

/-- Whether a register that is EMPTY waits for an arithmetic result of its fibre (R269). -/
def State.arithX (s : State) (c k : Nat) (i : XR) : Bool :=
  s.net.any fun p => match p.2 with
    | .arithX c' k' xd _ _ => c' == c && k' == k && xd == i
    | _ => false
/-- Whether a v register waits for an arithmetic result. -/
def State.arithV (s : State) (c : Nat) (r : VR) : Bool :=
  s.net.any fun p => match p.2 with
    | .arithV c' _ vd _ _ _ => c' == c && vd == r
    | _ => false

/-- The registers of a bundle that are EMPTY: a wait, unless all are FULL (R269). -/
def State.waitFor (s : State) (xs : List XR) (vs : List VR) : Option Ready :=
  let l := s.ops
  let ex := xs.filter fun i => !(l.f.x.get i).full
  let ev := vs.filter fun r => !vAllFull l.v [r]
  if ex.isEmpty && ev.isEmpty then none
  else
    let c := s.cur.core
    let k := s.cur.slot
    let onlyArith := ex.all (s.arithX c k) && ev.all (s.arithV c)
    some (.wait (.regs ex ev) (!onlyArith))

/-- The cause of the fault that reading a flagged register raises (R212, R359). -/
def RFlag.cause : RFlag → Nat
  | .none => 0 | .poison => 0x09 | .gen => 0x08 | .abort => 0x10 | .mismatch => 0x11 | .pool => 0x12 | .absent => 0x03

/-- The first flagged register that an instruction reads: an x register, then a lane that it reads (R212, R274). -/
def State.flagFault (s : State) (u : RegUse) (en : BitVec 4) : Option Ready :=
  let l := s.ops
  let fx := (u.rx.map fun i => ((l.f.x.get i).flag, (l.f.x.get i).va)).find? fun p => p.1 != .none
  let fv := (u.rv.flatMap fun r => ((List.finRange 4).filter fun k => en.getLsbD k.val).map fun k =>
    (((l.v.get r).get k).flag, ((l.v.get r).get k).va)).find? fun p => p.1 != .none
  match fx, fv with
  | some p, _ => some (.trap p.1.cause p.2)
  | none, some p => some (.trap p.1.cause p.2)
  | none, none => none

/-! ## Stream ports named by a bundle -/

/-- The stream port that a v register belongs to. -/
def portOfV (r : VR) : Option (Fin 4) := if 12 ≤ r.val then some (Fin.ofNat 4 (r.val - 12)) else none

/-- The stream port of a v register of the running core. -/
def State.portV (s : State) (r : VR) : Option Port :=
  (portOfV r).map fun p => s.myCore.sp.get p

/-- The number of elements of a port (R297). -/
def Port.total (p : Port) : Nat := p.n0 * p.n1

/-- What reading or writing the register of a bound port raises (R298 to R300): cause 0x18. The first list holds
registers read, the second registers written. -/
def State.portFault (s : State) (rv wv : List VR) : Option Ready :=
  let read := (rv.filterMap s.portV).findSome? fun p =>
    if !p.bound then none
    else if p.out then some (Ready.trap 0x18 0)
    else if p.total ≤ p.pos then some (Ready.trap 0x18 0)
    else match p.failed with
      | some (k, va) => if k = p.pos then some (Ready.trap 0x18 va) else none
      | none => none
  let write := (wv.filterMap s.portV).findSome? fun p =>
    if !p.bound then none
    else if !p.out then some (Ready.trap 0x18 0)
    else if p.total ≤ p.pos then some (Ready.trap 0x18 0)
    else none
  match read with
  | some r => some r
  | none => write

/-- The lanes that an instruction's mask enables; all when it has none. -/
def State.enabledBy (s : State) (i : Instr) : BitVec 4 :=
  match i with
  | .vselm .. => 0xF
  | .vmask .. | .vmaskNot .. | .vmaskTox .. => 0xF
  | _ =>
    match i.regUse.rm with
    | m :: _ => s.rm m
    | [] => 0xF

/-- The source lane of VPERM (R294). -/
def permLane (op : PermOp) (k : Fin 4) : Fin 4 :=
  match op with
  | .bcast n => n
  | .rot n => k + n
  | .swap => Fin.ofNat 4 (if k.val % 2 = 0 then k.val + 1 else k.val - 1)
  | .rev => Fin.ofNat 4 (3 - k.val)

/-- The lanes of its v registers that an instruction reads, of those that its mask enables: VPERM reads the lanes that these take
their values from (R294). -/
def lanesRead (i : Instr) (en : BitVec 4) : BitVec 4 :=
  match i with
  | .vperm op .. => (List.finRange 4).foldl (fun l k => if en.getLsbD k.val then l ||| (1#4 <<< (permLane op k).val) else l) 0
  | _ => en

/-- What an instruction may do now, before its own entry's checks: privileged, then not anchored or wrong core,
then stream faults, waits and flagged operands (R38, R52, R212, R269, R298; DEDUCED: log 13 on the order of waits). -/
def State.ready (s : State) (i : Instr) : Ready :=
  let u := i.regUse
  let l := s.ops
  if i.userFault && !l.f.sys then .trap 0x02 (0 : Word)
  else if s.anchorFault i then .trap 0x0F 0
  else
    let en := s.enabledBy i
    let vs := if l.f.anc then u.vs else []
    match s.portFault (i.consumed en) (match i with
      | .sbind .. => []
      | _ => u.wv) with
    | some r => r
    | none =>
      match s.waitFor u.xs vs with
      | some r => r
      | none => (s.flagFault u (lanesRead i en)).getD .go

/-- The words of the running bundle: the trap value of an illegal or privileged instruction (R428). -/
def State.bundleWord (s : State) : Word := s.cur.word

/-- Whether a barrier that the running fibre is in is to fill an x register (R372). -/
def State.inBarrier (s : State) (i : XR) : Bool :=
  s.myCore.bars.any fun b => match b.run with
    | some r => r.slot == s.cur.slot && r.tid == s.me.tid && r.xd == i
    | none => false

/-- The WAIT code of a wait for registers: 6 for that of a barrier, and otherwise 1 (R379). -/
def State.waitCode (s : State) : Need → Nat
  | .regs xs _ => if xs.any s.inBarrier then 6 else 1
  | _ => 1

/-- The end of an A-slot instruction: its effect when it may act. -/
def slotA (i : Instr) (s : State) (act : State → Out) : Out :=
  match s.ready i with
  | .go => act s
  | .wait n parks => if parks then s.endPark (s.waitCode n) n else s.endStall
  | .trap c v => s.endTrap true c (if c = 0x02 then s.bundleWord else v)

/-- The end of a C-slot or long instruction: its effect when it may act. -/
def slotC (i : Instr) (s : State) (act : State → Out) : Out :=
  match s.ready i with
  | .go => act s
  | .wait n parks => if parks then s.endPark (s.waitCode n) n else s.endStall
  | .trap c v => s.endTrap false c (if c = 0x02 then s.bundleWord else v)

/-! ## The energy budget (R417) -/

/-- The cost of an energy class on a core (R417): as EBUD_COST stood at the last refill. -/
def State.energyCost (s : State) (c e : Nat) : Nat :=
  let w := (s.core c).cost.toNat
  match e with
  | 0 => 0
  | 1 => fld w 0 16
  | 2 => fld w 16 16
  | 3 => fld w 32 16
  | _ => fld w 48 16

/-! ## Order among a fibre's accesses (R220 to R223, R232) -/

/-- Whether an access is one of the fibre in a slot: its own, or the store of an element of one of its output ports (R301). -/
def State.ownsAcc (s : State) (c k : Nat) (a : Acc) : Bool :=
  match a.owner with
  | .fibre c' k' => c' == c && k' == k
  | .port c' sp _ => c' == c && a.cls.st && ((s.core c).sp.get (Fin.ofNat 4 sp)).slot == k
  | _ => false

/-- The requests of the fibre in a slot that have not been performed. -/
def State.openReqs (s : State) (c k : Nat) : List (Nat × Acc) :=
  s.net.filterMap fun p => match p.2 with
    | .req a => if s.ownsAcc c k a then some (p.1, a) else none
    | _ => none

/-- Whether an access is homed in another package (R31). -/
def Acc.far (a : Acc) : Bool := decide (2 ^ 56 ≤ a.pa)

/-- Whether the pair of an earlier and a later access is kept in program order by R221; `far` says that the earlier one is homed
in another package, for which a release of a scope below span does not wait (R225). -/
def kept (a b : Cls) (far : Bool) : Bool :=
  a.strict || a.acq || b.strict || (b.rel && !(b.near && far))

/-- Whether two ranges share a byte; on a ONCE page, a block (R216, R223). -/
def overlaps (a : Acc) (pa len : Nat) (once : Bool) : Bool :=
  (decide (a.pa < pa + len) && decide (pa < a.pa + a.len))
    || (once && a.ty == .once && blkOf a.pa == blkOf pa)

/-- The earlier accesses that an access must wait for (R221 to R223, R241). -/
def State.mustWait (s : State) (cls : Cls) (pa len : Nat) (once : Bool) : List Nat :=
  ((s.openReqs s.cur.core s.cur.slot).filter fun p =>
    kept p.2.cls cls p.2.far || overlaps p.2 pa len once || decide (p.1 < s.me.order)).map (·.1)

/-- The class of an access from its page type, its kind and its order (R220). -/
def clsOf (ty : PageType) (ld st acq rel : Bool) : Cls :=
  { strict := ty == .strict, acq := acq || (ld && ty == .once), rel := rel, ld := ld, st := st }

end Sys2Proof.Machine
end

