-- ==== Sys2Proof/Machine/RegMap.lean ====
section
/-!
DEFINITION. The map of the system register space (R99, R128, R201, R375, R387, R400, R413, R417, R420, R426, R435, R437,
R444), and each register's fields by access code (R8, R9).
-/

namespace Sys2Proof.Machine

/-- The registers of the system register space. -/
inductive RegName where
  | poolExt (i : Nat) | poolRel | poolRstat | spareAdd | fmcCtl (c : Nat) | fmcErr (c : Nat)
  | pptBase | pptSet | moveSrc | moveDst | moveCtl | moveStat | ctxRoot (c : Nat)
  | asterPool (c : Nat) | fibPool (c : Nat) | zinCtl | zinBase | zinStat
  | qBase (q : Nat) | qCfg (q : Nat) | qWr (q : Nat) | qRd (q : Nat) | qDone (q : Nat) | qStat (q : Nat)
  | qWdog (q : Nat) | part (t : Nat) | ebudCfg (x : Nat) | ebudCost (x : Nat) | csrPtr (c : Nat)
  | tvec (c lvl : Nat) | svbase (c : Nat) | ctxTrapRsv (c : Nat) | ctxImg (c : Nat) | larkCtl | larkBase | larkStat
  | apBase | hseal | hcbStat | mgmtStat | errBase | errCfg | errWr | errRd | resyncAddr | resyncCtl
  | fabId | fabPort (i : Nat) | route (n : Nat) | attNonce | attAddr | attCtl | meas | measExt (i : Nat)
  | tbp | tbpc | trcCtl | trcBase | msixAddr (v : Nat) | msixData (v : Nat) | msixPba
  deriving DecidableEq, Repr

/-- The index of an offset in an array of registers: base, step, count. -/
def inArray (off base step n : Nat) : Option Nat :=
  if base ≤ off ∧ (off - base) % step = 0 ∧ (off - base) / step < n then some ((off - base) / step) else none

/-- The registers of single offsets. -/
def singleReg (off : Nat) : Option RegName :=
  match off with
  | 0x180000 => some .poolRel
  | 0x180008 => some .poolRstat
  | 0x180010 => some .spareAdd
  | 0x1A0000 => some .pptBase
  | 0x1A0008 => some .pptSet
  | 0x1A0010 => some .moveSrc
  | 0x1A0018 => some .moveDst
  | 0x1A0020 => some .moveCtl
  | 0x1A0028 => some .moveStat
  | 0x1D0000 => some .zinCtl
  | 0x1D0008 => some .zinBase
  | 0x1D0010 => some .zinStat
  | 0x20A000 => some .larkCtl
  | 0x20A008 => some .larkBase
  | 0x20A010 => some .larkStat
  | 0x210000 => some .apBase
  | 0x210008 => some .hseal
  | 0x210010 => some .hcbStat
  | 0x210100 => some .mgmtStat
  | 0x211000 => some .errBase
  | 0x211008 => some .errCfg
  | 0x211010 => some .errWr
  | 0x211018 => some .errRd
  | 0x212000 => some .resyncAddr
  | 0x212008 => some .resyncCtl
  | 0x213000 => some .fabId
  | 0x216020 => some .attAddr
  | 0x216028 => some .attCtl
  | _ => none

/-- The arrays of registers: base, step, count, and the register of an index. -/
def regArrays : List (Nat × Nat × Nat × (Nat → RegName)) :=
  [(0x100000, 8, 65536, .poolExt), (0x190000, 0x40, 64, .fmcCtl), (0x190008, 0x40, 64, .fmcErr),
   (0x1B0000, 8, 1024, .ctxRoot), (0x1C0000, 8, 1024, .asterPool), (0x1C2000, 8, 1024, .fibPool),
   (0x1E0000, 0x40, 512, .qBase), (0x1E0008, 0x40, 512, .qCfg), (0x1E0010, 0x40, 512, .qWr),
   (0x1E0018, 0x40, 512, .qRd), (0x1E0020, 0x40, 512, .qDone), (0x1E0028, 0x40, 512, .qStat),
   (0x1E0030, 0x40, 512, .qWdog), (0x1F0000, 8, 64, .part), (0x1F1000, 16, 1024, .ebudCfg),
   (0x1F1008, 16, 1024, .ebudCost), (0x1F6000, 8, 1024, .csrPtr),
   (0x200000, 32, 1024, fun c => .tvec c 1), (0x200008, 32, 1024, fun c => .tvec c 2),
   (0x200010, 32, 1024, .svbase), (0x200018, 32, 1024, .ctxTrapRsv), (0x208000, 8, 1024, .ctxImg), (0x213100, 8, 16, .fabPort),
   (0x214000, 8, 1024, .route), (0x216000, 8, 4, fun _ => .attNonce), (0x216100, 8, 16, fun _ => .meas),
   (0x216200, 8, 4, .measExt), (0x218000, 8, 8192, fun _ => .tbp), (0x228000, 16, 1024, fun _ => .trcCtl),
   (0x228008, 16, 1024, fun _ => .trcBase), (0x230000, 8, 8192, fun _ => .tbpc),
   (0x300000, 16, 2048, .msixAddr), (0x300008, 16, 2048, .msixData), (0x308000, 8, 32, fun _ => .msixPba)]

/-- The register that an offset of the system register space names, if any. -/
def regName (off : Nat) : Option RegName :=
  match singleReg off with
  | some r => some r
  | none => regArrays.findSome? fun a => (inArray off a.1 a.2.1 a.2.2.1).map a.2.2.2

/-- The word with the bits `hi` to `lo` set. -/
def bitsOf (hi lo : Nat) : Word := BitVec.ofNat 64 (2 ^ (hi + 1) - 2 ^ lo)

/-- The bits of a register that a plain write replaces (RW). -/
def RegName.rw : RegName → Word
  | .poolExt _ => bitsOf 63 62 ||| bitsOf 51 29
  | .poolRel => bitsOf 15 0
  | .fmcCtl _ => bitsOf 15 0
  | .pptBase | .ctxRoot _ => bitsOf 45 16 ||| 1
  | .moveSrc | .moveDst | .zinBase => bitsOf 45 16
  | .moveCtl => bitsOf 1 0
  | .asterPool _ | .fibPool _ => bitsOf 45 4 ||| 1
  | .zinCtl => bitsOf 63 63 ||| bitsOf 51 32 ||| bitsOf 7 0
  | .qBase _ | .errBase | .resyncAddr | .attAddr => bitsOf 63 6
  | .qCfg _ => bitsOf 63 15
  | .qWr _ | .qRd _ | .errRd | .attNonce | .measExt _ | .ebudCost _ | .msixAddr _ => bitsOf 63 0
  | .qWdog _ => bitsOf 31 0
  | .ebudCfg _ => bitsOf 63 8
  | .csrPtr _ => bitsOf 45 6
  | .tvec .. => bitsOf 47 3 ||| 1
  | .svbase _ => bitsOf 63 10
  | .ctxImg _ => bitsOf 45 21 ||| 1
  | .larkCtl => bitsOf 7 0
  | .larkBase => bitsOf 45 22 ||| 1
  | .apBase => bitsOf 45 36
  | .hseal => bitsOf 45 9
  | .errCfg => bitsOf 63 45
  | .resyncCtl => bitsOf 31 0
  | .fabId => bitsOf 63 63 ||| bitsOf 9 0
  | .fabPort _ => bitsOf 63 63
  | .route _ => bitsOf 9 0
  | .tbp => bitsOf 63 62 ||| bitsOf 47 0
  | .tbpc => bitsOf 47 3
  | .trcCtl => bitsOf 47 32 ||| bitsOf 4 0
  | .trcBase => bitsOf 45 12
  | .msixData _ => bitsOf 32 0
  | .pptSet => bitsOf 45 16 ||| bitsOf 1 0
  | .poolRstat | .spareAdd | .fmcErr _ | .moveStat | .zinStat | .qDone _ | .qStat _ | .part _ | .larkStat | .hcbStat
  | .mgmtStat | .errWr | .attCtl | .meas | .msixPba | .ctxTrapRsv _ => 0

/-- The bits of a register that a write of 1 clears (W1C). -/
def RegName.w1c : RegName → Word
  | .poolExt _ => bitsOf 61 61
  | .poolRstat => bitsOf 62 61
  | .larkStat | .attCtl => bitsOf 62 62
  | .moveStat => bitsOf 0 0
  | .zinStat => bitsOf 31 31
  | .resyncCtl => bitsOf 62 61
  | _ => 0

/-- The bits of a register that a read clears (RC). -/
def RegName.rc : RegName → Word
  | .fmcErr _ => bitsOf 63 24
  | .hcbStat | .errCfg | .fabPort _ => bitsOf 31 0
  | _ => 0

/-- A register's value after a write under its field table (R8, R9). -/
def RegName.written (r : RegName) (old v : Word) : Word := (old &&& ~~~r.rw &&& ~~~(r.w1c &&& v)) ||| (v &&& r.rw)

/-- The flits that a trained fabric port has retried since its count was read, which saturates: a free number (R455, log 155). -/
def State.countRetries (s : State) (off : Nat) : State :=
  if 0x213100 ≤ off ∧ off < 0x213180 ∧ s.regF off 62 1 = 1 then
    let (n, s) := s.takeFresh
    s.setRegF off 0 32 (min (s.regF off 0 32 + (Config.freeWord n).toNat) (2 ^ 32 - 1))
  else s

/-- A read of a register: its value, and the state with its RC fields cleared (R8). The open entries of the host combining
buffer are counted where they are read (R448). -/
def State.readReg (s : State) (off : Nat) : Word × State :=
  let s := s.countRetries off
  let v := if off = 0x210010 then withField (s.reg off) 56 8 s.hcb.length else s.reg off
  match regName off with
  | none => (0, s)
  | some r => (v, if v &&& r.rc = 0 then s else s.setReg off (s.reg off &&& ~~~r.rc))

/-- The offset of a physical address in the system register space. -/
def sysOff (pa : Nat) : Nat := pa - sysBase

end Sys2Proof.Machine
end

