-- ==== Sys2Proof/Machine/Access.lean ====
section
/-!
DEFINITION. The shared operations of memory instructions: where an access lands (R179, R180, R182), the PRIVATE buffers
(R163, R233), the block-assembly buffer (R193, R336, R337), starting a read or a write, and waiting for earlier ones.
-/

namespace Sys2Proof.Machine

/-! ## Where an access lands -/

/-- What locating an access gives. -/
inductive Loc (α : Type) where
  | ok (x : α)
  | fault (cause : Nat) (val : Word)
  | hold (page : Nat) (val : Word)
  deriving DecidableEq, Repr

/-- What an access asks for: its translation, the bytes that its size names, whether it may name a system register,
whether it may convert elements (R180), whether it is no load or store and meets cause 0x05 in the system register space in
either mode (R118, R342, R398), and whether it is the matrix unit's, whose entries refuse regions themselves (R309, R324). -/
structure Want where
  acc  : XAcc
  n    : Nat
  reg  : Bool := false
  conv : Bool := true
  own  : Bool := false
  rows : Bool := false
  deriving DecidableEq, Repr

/-- Whether an access is one that the B region refuses (R169). -/
def Want.stores (w : Want) : Bool := w.acc.wr && !w.rows

/-- The format of the view that a physical address has for the running bundle: 0 outside a window (R30, R178, R179). -/
def State.viewFmt (s : State) (pa : Nat) : FmtCode :=
  match windowOf (localOf pa) with
  | some k => s.formats.get k
  | none => 0

/-- The refusal of a region of the address space and of a register (R32, R169) that translation has not made. -/
def regionFault (w : Want) (va : Word) (pa : Nat) : Option (Nat × Word) :=
  let raw := rawOf (localOf pa)
  match regionOf raw with
  | .sysreg =>
    if w.rows then none
    else if !(w.reg && w.n == 8 && va.toNat % 8 == 0) then some (0x05, va)
    else if (regName (sysOff raw)).isNone then some (0x03, va)
    else none
  | .vault =>
    match vaultPart (vaultOff raw) with
    | .bRegion => if w.stores then some (0x05, va) else none
    | .system | .scratch _ => none
  | _ => none

/-- The bytes of an element of a view: those of its format, or those that the size names (R179). -/
def elemLen (fmt : FmtCode) (n : Nat) : Nat := if fmt ≠ 0 ∧ n = 4 then fmtBytes fmt else n

/-- The physical address that a place reaches: raw in this package, and above every raw address in another one, where the views
of a vault byte meet too (R30). -/
def State.placed (s : State) (pa : Nat) : Nat :=
  if s.isRemote pa then 2 ^ 56 + pkgOf pa * 2 ^ 46 + rawOf (localOf pa) else rawOf (localOf pa)

/-- The physical address to which an address would translate, span-global: what it shows is its view, before the page is
translated; nothing changes and nothing is checked. -/
def State.peek (s : State) (wr : Bool) (va : Word) : Option Nat :=
  let c := s.cur.core
  let ctx := s.myCore.ctxid.toNat
  let walked := match (s.walk (sectorOf c) ctx va.toNat).1 with
    | .leaf lvl _ e => some (leafPage lvl (Pte.ofNat e).pa va.toNat)
    | _ => none
  match (s.tlb c).find? fun e => e.hits ctx va.toNat with
  | some e => if wr && !e.d then walked else some (leafPage e.lvl e.pa va.toNat)
  | none => walked

/-- The format of the view of an address (R179): 0 where no page maps it. -/
def State.viewOf (s : State) (wr : Bool) (va : Word) : FmtCode := ((s.peek wr va).map s.viewFmt).getD 0

/-- An access of the running fibre, in its mode. -/
def State.inMode (s : State) (acc : XAcc) : XAcc := { acc with user := !s.rfsw.getLsbD 21 }

/-- The bytes of a range translated by the running core. -/
def State.xlateMine (s : State) (acc : XAcc) (ts : List Touch) : Xl × State :=
  s.xlate (.core s.cur.core) s.myCore.ctxid.toNat (s.inMode acc) ts

/-- The translation of an address that is named and not accessed (R189, R368 to R370, R391, R394): no mode and no watch filter
refuses it (DEDUCED, log 134). -/
def State.xlateNamed (s : State) (a : Word) : Xl × State :=
  s.xlate (.core s.cur.core) s.myCore.ctxid.toNat { rd := true, watch := false } [{ va := a, len := 1 }]

/-- The refusal that names the lowest address. -/
def lowestFault : List (Nat × Word) → Option (Nat × Word)
  | [] => none
  | f :: l => match lowestFault l with
    | none => some f
    | some g => some (if f.2.toNat ≤ g.2.toNat then f else g)

/-- The refusal of a region that an access to some bytes meets: that of the first page in ascending order, with the lowest
address the access touches there (R132). -/
def touchFault (w : Want) (fs : AMap Frame) (ts : List Touch) : Option (Nat × Word) :=
  lowestFault ((ts.flatMap Touch.split).filterMap fun t => regionFault w t.va (physOf fs t.va))

/-- Everything that an access touches translated, and then admitted by its regions. -/
def State.reach (s : State) (w : Want) (touches : List Touch) : Xl × State :=
  match s.xlateMine { w.acc with own := w.own } touches with
  | (.ok fs, s) =>
    match touchFault w fs touches with
    | some (c, v) => (.fault c v, s)
    | none => (.ok fs, s)
  | r => r

/-- Where a scalar access lands (R182, steps 1 to 4): the view of its address gives the length of its element. -/
def State.locate (s : State) (w : Want) (a : Word) : Loc Site × State :=
  match s.reach w [{ va := a, len := elemLen (s.viewOf w.acc.wr a) w.n }] with
  | (.fault c v, s) => (.fault c v, s)
  | (.hold p v, s) => (.hold p v, s)
  | (.ok fs, s) =>
    let pa := physOf fs a
    let fmt := s.viewFmt pa
    let e := elemLen fmt w.n
    if fmt ≠ 0 ∧ (w.n ≠ 4 ∨ !w.conv) then (.fault 0x05 a, s)
    else if a.toNat % e ≠ 0 then (.fault 0x0A a, s)
    else
      (.ok { va := a, pa := s.placed pa, len := e, fmt := fmt, ty := (frameOf fs a).ty, remote := s.isRemote pa }, s)

/-- The lowest of some addresses. -/
def lowestVa : List Word → Option Word
  | [] => none
  | a :: as => match lowestVa as with
    | none => some a
    | some b => some (if a.toNat ≤ b.toNat then a else b)

/-- The sites of lanes whose pages have been translated: lane number and address. -/
def State.laneSites (s : State) (fs : AMap Frame) (lanes : List (Nat × Word)) : List (Nat × Site) :=
  lanes.map fun l =>
    let pa := physOf fs l.2
    let fmt := s.viewFmt pa
    (l.1, { va := l.2, pa := s.placed pa, len := elemLen fmt 4, fmt := fmt, ty := (frameOf fs l.2).ty, remote := s.isRemote pa })

/-- Where the lanes of VLDS, VSTS, VGATH and VSCAT land (R182, R187): each lane's own view gives its length. -/
def State.locateLanes (s : State) (w : Want) (lanes : List (Nat × Word)) : Loc (List (Nat × Site)) × State :=
  match s.reach w (lanes.map fun l => { va := l.2, len := elemLen (s.viewOf w.acc.wr l.2) 4 : Touch }) with
  | (.fault c v, s) => (.fault c v, s)
  | (.hold p v, s) => (.hold p v, s)
  | (.ok fs, s) =>
    let xs := s.laneSites fs lanes
    match lowestVa ((xs.filter fun x => x.2.va.toNat % x.2.len ≠ 0).map (·.2.va)) with
    | some a => (.fault 0x0A a, s)
    | none => (.ok xs, s)

/-- Where the enabled lanes of VLD and VST land (R182, R185): the view of the base gives the element size; only the pages that
enabled lanes touch are translated. -/
def State.locateQuad (s : State) (w : Want) (a : Word) (en : BitVec 4) : Loc (List (Nat × Site)) × State :=
  let e := elemLen (s.viewOf w.acc.wr a) 4
  let lanes := ((List.range 4).filter en.getLsbD).map fun k => (k, a + BitVec.ofNat 64 (k * e))
  match s.reach w (lanes.map fun l => { va := l.2, len := e : Touch }) with
  | (.fault c v, s) => (.fault c v, s)
  | (.hold p v, s) => (.hold p v, s)
  | (.ok fs, s) => if a.toNat % (4 * e) ≠ 0 then (.fault 0x0A a, s) else (.ok (s.laneSites fs lanes), s)

/-- What follows a location: a trap, a hold that parks the fibre (R143), or the rest. -/
def located {α : Type} (r : Loc α × State) (k : α → State → Out) : Out :=
  match r with
  | (.fault c v, s) => s.endTrap false c v
  | (.hold p v, s) => s.endHold p v
  | (.ok x, s) => k x s

/-! ## Waiting for earlier accesses -/

/-- The messages that carry bytes of the running core's PRIVATE write buffer home and touch a range (R163, R223). -/
def State.pushReqs (s : State) (c pa len : Nat) : List Nat :=
  s.net.filterMap fun p => match p.2 with
    | .req a =>
      if a.owner = .push c ∧ a.pa < pa + len ∧ pa < a.pa + a.len then some p.1 else none
    | _ => none

/-- The messages that an access to some sites waits for (R221 to R223): on a PRIVATE page, also those that carry bytes of the
lines it touches. -/
def State.earlier (s : State) (cls : Cls) (xs : List Site) : List Nat :=
  xs.flatMap fun x =>
    s.mustWait cls x.pa x.len (x.ty == .once) ++
      (if x.ty = .priv then s.pushReqs s.cur.core (x.pa / 64 * 64) ((x.pa + x.len + 63) / 64 * 64 - x.pa / 64 * 64) else [])

/-- What an access does once the earlier accesses that it waits for have been performed (R221 to R223), and no queued ONCE
read is outstanding (R232). -/
def State.afterMsgs (s : State) (ids : List Nat) (k : State → Out) : Out :=
  if s.me.recs ≠ 0 then s.endPark 2 .recs
  else if ids.isEmpty then k s else s.endPark 7 (.performed ids)

/-- What an access to some sites does once it may be performed. -/
def State.afterEarlier (s : State) (cls : Cls) (xs : List Site) (k : State → Out) : Out := s.afterMsgs (s.earlier cls xs) k

/-- A memory instruction. Its address is formed, translated and checked first (R182); a queued ONCE read that is outstanding
keeps back what it performs (R232), and a bundle that has begun. -/
def memSlot (i : Instr) (s : State) (act : State → Out) : Out :=
  slotC i s fun s => if s.me.recs ≠ 0 ∧ s.me.resume ≠ .none then s.endPark 2 .recs else act s

/-- The classes of some sites together: a pair takes the stronger entry (R220). -/
def clsAll (ld st acq rel : Bool) (xs : List Site) : Cls :=
  { strict := xs.any fun x => x.ty == .strict
    acq := acq || (ld && xs.any fun x => x.ty == .once)
    rel := rel, ld := ld, st := st }

/-- An access sent to its home, and its message's number. -/
def State.sendAcc (s : State) (owner : Owner) (tid : BitVec 48) (ctx : Nat) (va : Word) (pa len : Nat) (ty : PageType)
    (cls : Cls) (op : HomeOp) (gen : Option (BitVec 10) := none) : State × Nat :=
  s.send (.req { owner := owner, tid := tid, ctx := ctx, va := va, pa := pa, len := len, ty := ty, cls := cls, gen := gen, op := op })

/-- The owner of the running fibre's accesses. -/
def State.mine (s : State) : Owner := .fibre s.cur.core s.cur.slot

/-- An access of the running fibre to a site sent to its home. -/
def State.sendMine (s : State) (x : Site) (cls : Cls) (op : HomeOp) (gen : Option (BitVec 10) := none) : State × Nat :=
  s.sendAcc s.mine s.me.tid s.myCore.ctxid.toNat x.va x.pa x.len x.ty cls op gen

/-! ## PRIVATE buffers (R163, R233) -/

/-- Free bytes: what another package's memory holds (log 8). -/
def freeBytes (n k : Nat) : List Byte := (List.range k).map fun i => Config.freeByte (n + i)

/-- The state with free numbers taken. -/
def State.takeMany (s : State) (k : Nat) : Nat × State := (s.fresh, { s with fresh := s.fresh + k })

/-- The written bytes of a PRIVATE write-buffer line. -/
def Core.wline (c : Core) (line : Nat) : AMap Byte := ((c.wbuf.find? fun l => l.1 == line).map (·.2)).getD []

/-- The read-buffer line of an address. -/
def Core.rline (c : Core) (line : Nat) : Option (List Byte) := (c.rbuf.find? fun l => l.1 == line).map (·.2)

/-- Whether a PRIVATE byte must come from its home: neither buffer holds it. -/
def Core.misses (c : Core) (a : Nat) : Bool :=
  ((c.wline (a / 64 * 64)).get? (a % 64)).isNone && (c.rline (a / 64 * 64)).isNone

/-- Whether any of `n` PRIVATE bytes misses. -/
def Core.missesAny (c : Core) (a n : Nat) : Bool := (List.range n).any fun i => c.misses (a + i)

/-- A PRIVATE byte as a core sees it, over the bytes of its line. -/
def Core.privByte (c : Core) (line : List Byte) (a : Nat) : Byte :=
  match (c.wline (a / 64 * 64)).get? (a % 64) with
  | some b => b
  | none => line.getD (a % 64) 0

/-- The bytes of a line over which those that a core's write buffer has sent, and that are still on their way, are laid (R223). -/
def State.pushedOver (s : State) (c line : Nat) (data : List Byte) : List Byte :=
  s.net.foldl (fun data m => match m.2 with
    | .req a => match a.owner, a.op with
      | .push d, .write bs =>
        if d = c ∧ a.pa / 64 * 64 = line then data.take (a.pa % 64) ++ bs ++ data.drop (a.pa % 64 + bs.length) else data
      | _, _ => data
    | _ => data) data

/-- A read buffer with a line put in; a full one gives up its oldest (R163). -/
def putLine (b : List (Nat × List Byte)) (line : Nat) (data : List Byte) : List (Nat × List Byte) :=
  let b := b.filter fun l => l.1 != line
  (if b.length < 8 then b else b.drop 1) ++ [(line, data)]

/-- A PRIVATE read of bytes of one line (R163, R233): the bytes, and the state with the line filled on a miss. The core's own
stores that have not reached the home lie over the fill, so that no later load of it passes them (R223). A line that holds poison
is not kept, so that each load meets it. -/
def State.privRead (s : State) (c : Nat) (x : Site) : List Byte × State :=
  let line := x.pa / 64 * 64
  let r := s.core c
  let take (data : List Byte) : List Byte := (List.range x.len).map fun i => r.privByte data (x.pa + i)
  let laid (data : List Byte) : List Byte :=
    let data := s.pushedOver c line data
    (List.range 64).map fun i => r.privByte data (line + i)
  match r.rline line with
  | some data => (take data, s)
  | none =>
    if !r.missesAny x.pa x.len then (take [], s)
    else if x.remote then
      let (n, s) := s.takeMany 64
      let data := laid (freeBytes n 64)
      (take data, s.modCore c fun r => { r with rbuf := putLine r.rbuf line data })
    else
      let s := (s.touchLines line 64 false).meet line 64
      let data := laid (s.bytes line 64)
      let keep := !s.isRetired line && (s.firstPoison line 64).isNone
      (take data, if keep then s.modCore c fun r => { r with rbuf := putLine r.rbuf line data } else s)

/-- The runs of consecutive bytes in a line: first offset, bytes. -/
def runsOf : AMap Byte → List (Nat × List Byte)
  | [] => []
  | (i, b) :: m =>
    match runsOf m with
    | (j, bs) :: rs => if j = i + 1 then (i, b :: bs) :: rs else (i, [b]) :: (j, bs) :: rs
    | [] => [(i, [b])]

/-- Whether the home of a PRIVATE line holds it (R143, R243): one in another package does as it will, and while no port to it is up
(R136, R456, log 8). -/
def State.lineHeld (s : State) (line : Nat) : Bool × State :=
  if line < 2 ^ 56 then (s.isHeld line, s)
  else
    let pkg := (line - 2 ^ 56) / 2 ^ 46
    if !s.routeUp pkg then (true, s)
    else
      let (n, s) := s.takeFresh
      ((Config.freeWord n).getLsbD 0, s)

/-- A PRIVATE write-buffer line sent to its home (R163, R243), which keeps it back while its page is held. -/
def State.sendLine (s : State) (c : Nat) (l : Nat × AMap Byte) : State :=
  let (held, s) := s.lineHeld l.1
  (runsOf l.2).foldl (fun s r =>
    (s.send (.req
      { owner := .push c, tid := 0, ctx := (s.core c).ctxid.toNat, va := 0, pa := l.1 + r.1, len := r.2.length, ty := .priv,
        cls := { st := true }, op := .write r.2, late := held })).1) s

/-- A PRIVATE store merged into the write buffer and into any copy of its line in the read buffer (R163, R233). -/
def State.privStore (s : State) (c pa : Nat) (data : List Byte) : State :=
  let line := pa / 64 * 64
  let put (m : AMap Byte) : AMap Byte :=
    (data.zipIdx).foldl (fun m p => AMap.insert m (pa % 64 + p.2) p.1) m
  let r := s.core c
  let rbuf := r.rbuf.map fun l =>
    if l.1 = line then (l.1, (l.2.zipIdx).map fun p => ((put []).get? p.2).getD p.1) else l
  if r.wbuf.any fun l => l.1 == line then
    s.setCore c { r with
      rbuf := rbuf, wbuf := r.wbuf.map fun l => if l.1 = line then (l.1, put l.2) else l }
  else
    let s := if r.wbuf.length < 8 then s else (r.wbuf.head?.map (s.sendLine c)).getD s
    let old := if r.wbuf.length < 8 then r.wbuf else r.wbuf.drop 1
    s.setCore c { r with rbuf := rbuf, wbuf := old ++ [(line, put [])] }

/-- The messages on which an eviction from the write buffer would overtake itself: a store of a new line may send an
older one, of which an earlier message must have been performed (R223). -/
def State.evictWaits (s : State) (c : Nat) (xs : List Site) : List Nat :=
  let r := s.core c
  if xs.all fun x => r.wbuf.any fun l => l.1 == x.pa / 64 * 64 then []
  else if r.wbuf.length + xs.length ≤ 8 then []
  else r.wbuf.flatMap fun l => s.pushReqs c l.1 64

/-! ## The block-assembly buffer (R193) -/

/-- The entry of a block. -/
def Core.babOf (c : Core) (blk : Nat) : Option BabEntry := c.bab.find? fun e => e.blk == blk

/-- The blocks among some sites that have no entry, each once. -/
def Core.babNew (c : Core) (blks : List Nat) : List Nat := (blks.eraseDups).filter fun b => (c.babOf b).isNone

/-- An entry with bytes merged. -/
def BabEntry.merge (e : BabEntry) (off : Nat) (data : List Byte) : BabEntry :=
  { e with bytes := (data.zipIdx).foldl (fun m p => AMap.insert m (off + p.2) p.1) e.bytes }

/-- A core with bytes merged into the entry of their block (R193). -/
def Core.babStore (c : Core) (pa : Nat) (data : List Byte) : Core :=
  let blk := blkOf pa
  match c.babOf blk with
  | some _ => { c with bab := c.bab.map fun e => if e.blk = blk then e.merge (pa % 512) data else e }
  | none => { c with bab := c.bab ++ [({ blk := blk, bytes := [], mark := none } : BabEntry).merge (pa % 512) data] }

/-- Whether an entry holds all 512 bytes. -/
def BabEntry.isFull (e : BabEntry) : Bool := e.bytes.length == 512

/-- The 512 bytes of an entry, unwritten ones zero (R216). -/
def BabEntry.data (e : BabEntry) : List Byte := (List.range 512).map fun i => e.bytes.getD i 0

/-- The elements of a block's bytes in a format. -/
def elemsOf (fmt : FmtCode) : Nat → List Byte → List Fx
  | 0, _ => []
  | fuel + 1, bs =>
    if bs.isEmpty then []
    else fmtDecode fmt (natOfBytes (bs.take (fmtBytes fmt))) :: elemsOf fmt fuel (bs.drop (fmtBytes fmt))

/-- The exponent of the highest bit of a finite value that is not zero. -/
def Fx.expOf : Fx → Option Int
  | .fin _ m e => if m = 0 then none else some (e + (Nat.log2 m : Nat))
  | _ => none

/-- MAXE of some elements (R336): the exponent of the largest magnitude plus 127. -/
def maxeOf (xs : List Fx) : BitVec 8 :=
  if xs.any fun x => match x with
    | .fin .. => false
    | _ => true
  then 0xFF
  else
    let e := xs.foldl (fun (acc : Int) x => match x.expOf with
      | some k => if acc < k then k else acc
      | none => acc) (-127)
    if e < -126 then 0x00 else BitVec.ofInt 8 (e + 127)

/-- What the commit of an entry carries (R336, R337, R343). -/
def BabEntry.commit (e : BabEntry) : CommitData :=
  let d := e.data
  match e.mark with
  | some (fmt, bound) => { data := d, bound := bound, maxe := maxeOf (elemsOf fmt 512 d), poison := [] }
  | none =>
    if d.all (· == 0) then { data := d, bound := 0, maxe := 0, poison := [] }
    else { data := d, bound := 0xFFFF, maxe := 0xFF, poison := [] }

/-- Whether an access names a pooled extent that is no longer there (R108). -/
def State.extentGone (s : State) (a : Acc) : Bool := regionOf a.pa == .pooled && !s.pooledPresent a.pa

/-- What a home refuses of a write that is no commit, as the code of its answer: an extent that is gone (R108), or a block that has
become RETIRED on the way (R97). -/
def State.writeLost (s : State) (a : Acc) : Nat := if s.extentGone a then 3 else if s.isRetired a.pa then 2 else 0

/-- The answer of another package's home to a commit: free (log 8). -/
def State.farCommit (s : State) : State × Nat :=
  let (n, s) := s.takeFresh
  (s, (Config.freeWord n).toNat % 3)

/-- A commit sent to its home (R196): its message's number. -/
def State.sendCommit (s : State) (owner : Owner) (tid : BitVec 48) (ctx : Nat) (blk : Nat) (va : Word)
    (c : CommitData) : State × Nat :=
  s.sendAcc owner tid ctx va blk 512 .once { rel := true, st := true } (.commit c)

/-- The state with an entry's block removed from the running core's buffer. -/
def State.babDrop (s : State) (blk : Nat) : State :=
  s.modCore s.cur.core fun c => { c with bab := c.bab.filter fun e => e.blk != blk }

/-- The state with the running core's writes to ONCE pages merged into its block-assembly buffer (R193). -/
def State.babStores (s : State) (ws : List Put) : State :=
  if ws.isEmpty then s
  else s.modCore s.cur.core fun c => ws.foldl (fun (c : Core) w => c.babStore w.site.pa w.data) c

/-- The blocks that some writes would complete. -/
def Core.completed (c : Core) (ws : List Put) : List Nat :=
  let after := ws.foldl (fun (c : Core) w => c.babStore w.site.pa w.data) c
  ((ws.map fun w => blkOf w.site.pa).eraseDups).filter fun b => ((after.babOf b).map BabEntry.isFull).getD false

/-! ## Starting reads and writes -/

/-- The virtual address of the first byte of a site's block. -/
def Site.blkVa (x : Site) : Word := x.va - BitVec.ofNat 64 (x.pa % 512)

/-- The class of an access at a site (R220). -/
def Site.cls (x : Site) (ld st acq rel : Bool) : Cls := clsOf x.ty ld st acq rel

/-- Whether a site is a system register. -/
def Site.isReg (x : Site) : Bool := !x.remote && regionOf x.pa == .sysreg

/-- What the home of a site finds wrong with a read of some ranges (R93, R97, R191, R217), once its controller has read
them (R92): the fault with its value, and the state in which it has. A read that finds nothing wrong is judged
again where it is performed (log 12). -/
def State.readFault (s : State) (x : Site) (gen : Option (BitVec 10)) (ranges : List (Nat × Nat)) :
    Option (Nat × Word) × State :=
  if x.remote || x.isReg then (none, s)
  else
    let t := (s.touchLines x.pa x.len false).meet x.pa x.len
    let m := t.blkMeta x.pa
    if t.isRetired x.pa then (some (0x09, x.blkVa), t)
    else if gen.any (· ≠ m.gen) then (some (0x08, x.va), t)
    else if x.ty = .once ∧ m.pres ≠ .full then (none, t)
    else
      match ranges.findSome? fun r => t.firstPoison r.1 r.2 with
      | some u => (some (0x09, x.va + BitVec.ofNat 64 u - BitVec.ofNat 64 x.pa), t)
      | none => (none, t)

/-- What a PRIVATE read finds wrong: poison counts only in the bytes that come from their home (R163, R93). -/
def State.privFault (s : State) (c : Nat) (x : Site) (gen : Option (BitVec 10)) (ranges : List (Nat × Nat)) :
    Option (Nat × Word) × State :=
  let r := s.core c
  s.readFault x gen ((ranges.flatMap fun p => (List.range p.2).map fun i => (p.1 + i, 1)).filter fun p => r.misses p.1)

/-- What a read at a site finds wrong. -/
def State.siteFault (s : State) (x : Site) (gen : Option (BitVec 10)) (dst : Dst) : Option (Nat × Word) × State :=
  let ranges := readRanges dst x.pa x.len
  if x.ty = .priv then
    if (s.core s.cur.core).missesAny x.pa x.len then s.privFault s.cur.core x gen ranges else (none, s)
  else s.readFault x gen ranges

/-- A write refused: a RETIRED block of a STRICT or RELEASE page (R97). -/
def State.writeFault (s : State) (x : Site) : Option (Nat × Word) × State :=
  if x.remote || x.isReg || x.ty == .once || x.ty == .priv then (none, s)
  else
    let t := (s.touchLines x.pa x.len true).meet x.pa 0
    if t.isRetired x.pa then (some (0x09, x.blkVa), t) else (none, s)

/-- A read sent on its way, for the running fibre, and the number of its message. -/
def State.startRead (s : State) (x : Site) (cls : Cls) (gen : Option (BitVec 10)) (dst : Dst) : State × Nat :=
  if x.ty = .priv then
    let (data, s) := s.privRead s.cur.core x
    s.send (.reply s.mine dst data .none)
  else if x.remote then
    let s := if cls.acq || cls.strict then s.hearMe else s
    let (n, s) := s.takeMany x.len
    s.send (.reply s.mine dst (freeBytes n x.len) .none)
  else
    let op := if x.isReg then (match dst with
      | .x xd .. => .sysRead xd
      | d => .read d) else HomeOp.read dst
    s.sendMine x cls op gen

/-- A write to a STRICT, RELEASE or PRIVATE page sent on its way, and the number of its message, if it has one. -/
def State.startWrite (s : State) (w : Put) (cls : Cls) : State × List Nat :=
  if w.site.ty = .priv then (s.privStore s.cur.core w.site.pa w.data, [])
  else
    let op := if w.site.isReg then HomeOp.sysWrite (BitVec.ofNat 64 (natOfBytes w.data)) else .write w.data
    let (s, id) := s.sendMine w.site cls op
    (s, [id])

/-- Writes sent one after another. -/
def State.startWrites (s : State) (cls : Cls) : List Put → State
  | [] => s
  | w :: ws => (s.startWrite w cls).1.startWrites cls ws

/-- The running fibre parked for the answers of messages: what it does then stands in `resume`. -/
def State.awaitIds (s : State) (stage : Nat) (ids : List Nat) (fail : Option (Nat × Word)) : Out :=
  let n := match s.me.resume with
    | .stage 100 _ _ => 102
    | _ => stage
  (s.modMe fun f => { f with resume := .stage n ids fail }).endPark 7 (.gone ids)

/-- The bundle that issues again once its answers have come: it traps with the failure they brought, or retires (R196). -/
def State.answered (s : State) (fail : Option (Nat × Word)) : Out :=
  match fail with
  | some (c, v) => s.endTrap false c v
  | none => s.endC

/-- How far the C slot or long instruction of the running bundle has come. Stages from 100 on are those of a bundle whose A
slot commits: the A slot waits, and the C slot has not begun (100) or has been answered (101); both have (102). -/
def State.cResume (s : State) : Resume :=
  match s.me.resume with
  | .stage 100 _ _ => .none
  | .stage 101 _ _ => .stage 1 [] none
  | .stage 102 ids fail => .stage 1 ids fail
  | r => r

/-- The commits of completed entries sent for an owner, by block and virtual address, and the numbers of their messages. -/
def State.commitEntriesFor (s : State) (owner : Owner) : List (Nat × Word) → State × List Nat
  | [] => (s, [])
  | (blk, va) :: bs =>
    let e := (s.myCore.babOf blk).getD { blk := blk, bytes := [], mark := none }
    let s := s.babDrop blk
    let (s, id) := s.sendCommit owner s.me.tid s.myCore.ctxid.toNat blk va e.commit
    let (s, ids) := s.commitEntriesFor owner bs
    (s, id :: ids)

/-- The commits of completed entries of the running fibre. -/
def State.commitEntries (s : State) (bs : List (Nat × Word)) : State × List Nat := s.commitEntriesFor s.mine bs

/-- Some blocks with the virtual addresses that writes to them give. -/
def namedBlocks (ws : List Put) (blks : List Nat) : List (Nat × Word) :=
  blks.map fun b => (b, ((ws.find? fun w => blkOf w.site.pa == b).map fun w => w.site.blkVa).getD 0)

/-- The watched byte that the commit of a block would write (R140, R141): it writes all 512 bytes. -/
def State.commitHit (s : State) (va : Word) : Option Word :=
  match (s.tlb s.cur.core).find? fun e => e.hits s.myCore.ctxid.toNat va.toNat with
  | some e => if e.wa then watchHit s.myCore.wfl.toList { wr := true } [{ va := va, len := 512 }] else none
  | none => none

/-- What keeps some writes back: room in the block-assembly buffer (R193), or older lines of the PRIVATE write buffer (R223). -/
def State.putWait (s : State) (ws : List Put) : Option (Nat × Need) :=
  let once := ws.filter fun w => w.site.ty == .once
  let waits := s.evictWaits s.cur.core ((ws.map (·.site)).filter fun x => x.ty == .priv)
  if 8 - s.myCore.bab.length < (s.myCore.babNew (once.map fun w => blkOf w.site.pa)).length then some (4, .assembly)
  else if !waits.isEmpty then some (7, .performed waits)
  else none

/-- Writes made: those to ONCE pages merge into the block-assembly buffer, the others are sent to their homes. -/
def State.putAll (s : State) (cls : Cls) (ws : List Put) : State :=
  (s.startWrites cls (ws.filter fun w => w.site.ty != .once)).babStores (ws.filter fun w => w.site.ty == .once)

/-- The store that issues again once the commits of the blocks it completes have been answered (R196): a refusal traps, with nothing
else written (R36), and otherwise the writes that it owes are made. A block that another fibre has meanwhile brought so far that
they complete it commits too. -/
def State.storeAnswered (s : State) (fail : Option (Nat × Word)) : Out :=
  let ws := s.me.owed
  match fail with
  | some (c, v) => s.endTrap false c v
  | none =>
    if ws.isEmpty then s.endC
    else
      match s.putWait ws with
      | some (n, need) => s.endPark n need
      | none =>
        let once := ws.filter fun w => w.site.ty == .once
        let named := namedBlocks once (s.myCore.completed once)
        let s := s.putAll (clsAll false true false false (ws.map (·.site))) ws
        if named.isEmpty then s.endC
        else
          let (s, ids) := (s.modMe fun f => { f with owed := [] }).commitEntries named
          s.awaitIds 1 ids none

/-- What the home of a block answers to a commit that comes now: the cause of a refusal (R191, R196). -/
def State.commitFault (s : State) (blk : Nat) : Option Nat × State :=
  if 2 ^ 56 ≤ blk then (none, s)
  else
    let s := (s.touchLines blk 512 true).meet blk 0
    (if s.isRetired blk then some 0x09 else if (s.blkMeta blk).pres = .full then some 0x07 else none, s)

/-- The first of some blocks whose home refuses a commit: its entry is gone (R196). -/
def State.commitsFault (s : State) : List (Nat × Word) → Option (Nat × Word) × State
  | [] => (none, s)
  | b :: bs =>
    match s.commitFault b.1 with
    | (some c, s) => (some (c, b.2), s.babDrop b.1)
    | (none, s) => s.commitsFault bs

/-- The writes of an instruction to sites of any type (R184, R193): those to ONCE pages merge into the block-assembly
buffer, once it has room for all their blocks, and complete entries commit. While their homes have not answered, the instruction's
other writes are not made, so that a refusal leaves all of memory as it was (R36, R187); the homes of several blocks that one
instruction completes are asked together before any commit leaves (DEDUCED, log 145). `rel` is the scope of a release store. -/
def State.storeAll (s : State) (rel : Option Scope) (ws : List Put) : Out :=
  let xs := ws.map (·.site)
  let once := ws.filter fun w => w.site.ty == .once
  let rest := ws.filter fun w => w.site.ty != .once
  let r := s.myCore
  let done := r.completed once
  let named := namedBlocks once done
  match named.findSome? fun b => s.commitHit b.2 with
  | some b => s.endTrap false 0x13 b
  | none =>
    if s.me.recs ≠ 0 then s.endPark 2 .recs
    else if 8 - r.bab.length < (r.babNew (once.map fun w => blkOf w.site.pa)).length then s.endPark 4 .assembly
    else
      match rest.findSome? fun w => (s.writeFault w.site).1 with
      | some (c, v) => ((rest.foldl (fun s w => (s.writeFault w.site).2) s)).endHomeTrap c v
      | none =>
        let cls := { clsAll false true false (rel.isSome || !done.isEmpty) xs with
          near := done.isEmpty && rel.any (· != .span) }
        match s.putWait ws with
        | some (n, need) => s.endPark n need
        | none => s.afterEarlier cls xs fun s =>
          if done.isEmpty then (s.putAll cls ws).endC
          else
            match if 1 < named.length then s.commitsFault named else (none, s) with
            | (some (c, v), s) => s.endHomeTrap c v
            | (none, s) =>
              let (first, owed) := ws.partition fun w => w.site.ty == .once && decide (blkOf w.site.pa ∈ done)
              let (s, ids) := ((s.babStores first).modMe fun f => { f with owed := owed }).commitEntries named
              s.awaitIds 1 ids none

/-- A store that has not been answered yet (R184, R196). -/
def storeSlot (i : Instr) (s : State) (act : State → Out) : Out :=
  memSlot i s fun s => match s.cResume with
    | .stage _ _ fail => s.storeAnswered fail
    | .none => act s

end Sys2Proof.Machine
end

