-- ==== Sys2Proof/Machine/Memory.lean ====
section
/-!
DEFINITION. The memory instructions: LD, ST, LDL, STL, PREF (R183, R184, R189), LDG
(R217), SAVEM and LOADM (R433, R434), SEAL, CLR, PROBE and BWAIT (R216), FENCE (R242), PUSH and PULL (R243, R244).
-/

namespace Sys2Proof.Machine

/-! ## Scalar loads and stores -/

/-- The address of a scalar access: x[xa] + sext(off) modulo 2^64 (R182). -/
def State.addr {n : Nat} (s : State) (xa : XR) (off : BitVec n) : Word := s.rx xa + off.signExtend 64

/-- The state in which an x register waits for a read of the block at an address (R268, R212). -/
def State.pendX (s : State) (xd : XR) (va : Word) : State :=
  s.modMe fun f => { f with x := f.x.set xd { val := (f.x.get xd).val, va := va } }

/-- The bytes that a size names. -/
def Size.bytes (z : Size) : Nat := 2 ^ z.code

/-- A scalar load (R183): an access that is read into xd; a generation is expected by LDG alone (R217). -/
def loadAt (size : Size) (sgn : Bool) (need : XNeed) (acq : Bool) (gen : Option (BitVec 10)) (xd : XR) (a : Word)
    (s : State) : Out :=
  located (s.locate { acc := { rd := true, need := need }, n := Size.bytes size, reg := need != .block } a) fun x s =>
    let cls := x.cls true false acq false
    s.afterEarlier cls [x] fun s =>
      let dst := Dst.x xd size sgn x.fmt
      match s.siteFault x gen dst with
      | (some (c, v), s) => s.endHomeTrap c v
      | (none, s) => ((s.pendX xd x.blkVa).startRead x cls gen dst).1.endC

/-- The need of a load or store with an order suffix (R138). -/
def orderNeed (o : Option Scope) : XNeed := if o.isSome then .order else .plain

/-- LD (R183). -/
def execLd (size : Size) (sgn : Bool) (acq : Option Scope) (xd xa : XR) (off : BitVec 12) (s : State) : Out :=
  memSlot (.ld size sgn acq xd xa off) s fun s =>
    loadAt size sgn (orderNeed acq) acq.isSome none xd (s.addr xa off) s
/-- LDL (R183). -/
def execLdl (size : Size) (sgn : Bool) (acq : Option Scope) (xd xa : XR) (off : BitVec 32) (s : State) : Out :=
  memSlot (.ldl size sgn acq xd xa off) s fun s =>
    loadAt size sgn (orderNeed acq) acq.isSome none xd (s.addr xa off) s
/-- LDG (R217). -/
def execLdg (size : Size) (sgn : Bool) (xd xa xg : XR) (off : BitVec 12) (s : State) : Out :=
  memSlot (.ldg size sgn xd xa xg off) s fun s =>
    loadAt size sgn .block true (some ((s.rx xg).setWidth 10)) xd (s.addr xa off) s

/-- The bytes that a store of a value writes at a site: encoded by the window's format (R179, R184). -/
def putAt (x : Site) (v : Word) : Put :=
  { site := x
    data := bytesOfNat x.len (if x.fmt = 0 then v.toNat else laneToFmt x.fmt (v.setWidth 32)) }

/-- A scalar store (R184). -/
def storeAt (size : Size) (rel : Option Scope) (v : Word) (a : Word) (s : State) : Out :=
  located (s.locate { acc := { wr := true, need := orderNeed rel }, n := Size.bytes size, reg := true } a) fun x s =>
    s.storeAll rel [putAt x v]

/-- ST (R184). -/
def execSt (size : Size) (rel : Option Scope) (xd xa : XR) (off : BitVec 12) (s : State) : Out :=
  storeSlot (.st size rel xd xa off) s fun s => storeAt size rel (s.rx xd) (s.addr xa off) s
/-- STL (R184). -/
def execStl (size : Size) (rel : Option Scope) (xs xa : XR) (off : BitVec 32) (s : State) : Out :=
  storeSlot (.stl size rel xs xa off) s fun s => storeAt size rel (s.rx xs) (s.addr xa off) s

/-! ## What vector accesses share (R185 to R188) -/

/-- The state in which lanes of a v register wait for reads: each lane names its block (R212). -/
def State.pendV (s : State) (vd : VR) (xs : List (Nat × Site)) : State :=
  xs.foldl (fun s x => s.modCore s.cur.core fun c =>
    c.modV vd (BitVec.ofNat 4 (2 ^ x.1)) fun _ l => { val := l.val, full := false, va := x.2.blkVa }) s

/-- The first thing that the homes of some reads find wrong, in lane order. -/
def State.lanesFault (s : State) (vd : VR) : List (Nat × Site) → Option (Nat × Word) × State
  | [] => (none, s)
  | x :: xs =>
    match s.siteFault x.2 none (.v vd (BitVec.ofNat 4 (2 ^ x.1)) x.2.fmt) with
    | (some f, s) => (some f, s)
    | (none, s) => s.lanesFault vd xs

/-- One read for each lane. -/
def State.startLanes (s : State) (cls : Cls) (vd : VR) : List (Nat × Site) → State
  | [] => s
  | x :: xs => (s.startRead x.2 cls none (.v vd (BitVec.ofNat 4 (2 ^ x.1)) x.2.fmt)).1.startLanes cls vd xs

/-- The sites of lanes. -/
def sitesOf (xs : List (Nat × Site)) : List Site := xs.map (·.2)

/-- The site from the first of some lanes of one block to the last (R198). -/
def spanSite : List (Nat × Site) → Option Site
  | [] => none
  | x :: xs =>
    match xs.getLast? with
    | none => some x.2
    | some y => some { x.2 with len := y.2.pa + y.2.len - x.2.pa }

/-- The writes of lanes (R179). -/
def State.lanePuts (s : State) (vd : VR) (xs : List (Nat × Site)) : List Put :=
  xs.map fun x => putAt x.2 ((s.rv vd (Fin.ofNat 4 x.1)).setWidth 64)

/-- The enabled lanes with their addresses. -/
def lanesAt (en : BitVec 4) (f : Nat → Word) : List (Nat × Word) :=
  ((List.range 4).filter en.getLsbD).map fun k => (k, f k)

/-- The lanes of a store without those whose address a higher lane names too (R188). -/
def lastWriters : List (Nat × Site) → List (Nat × Site)
  | [] => []
  | x :: xs => if xs.any fun y => y.2.pa == x.2.pa then lastWriters xs else x :: lastWriters xs

/-! ## PREF (R189) -/

/-- PREF (R189): it never faults, holds, defers or consumes. -/
def execPref (tlbOnly : Bool) (xa : XR) (off : BitVec 12) (s : State) : Out :=
  slotC (.pref tlbOnly xa off) s fun s =>
    let a := s.addr xa off
    match s.xlateNamed a with
    | (.ok fs, s) =>
      let pa := physOf fs a
      if tlbOnly || s.isRemote pa then s.endC else (s.touchLine (rawOf (localOf pa)) false).endC
    | (_, s) => s.endC

/-! ## SAVEM and LOADM (R433, R434) -/

/-- The words that a list names, rising, from a word on. -/
def listWords (list : BitVec 10) (start : Nat) : List Nat :=
  (List.range 10).filter fun w => decide (start ≤ w) && list.getLsbD w

/-- The value of a word of SAVEM (R433). -/
def Fibre.saveWord (f : Fibre) (w : Nat) : Word :=
  if w < 8 then (f.x.get (Fin.ofNat 8 w)).val
  else if w = 8 then f.fsw.setWidth 64
  else (f.bank f.lvl).pc &&& 0x0000FFFFFFFFFFFF#64

/-- The running fibre parked between two words: it goes on at a stage. -/
def State.awaitWord (s : State) (wait : Nat) (stage : Nat) (ids : List Nat) (need : Need) : Out :=
  (s.modMe fun f => { f with resume := .stage stage ids none }).endPark wait need

/-- The address of a word. -/
def wordVa (a : Word) (w : Nat) : Word := a + BitVec.ofNat 64 (8 * w)

/-- SAVEM from some word on (R433): the home of each word has answered before the next is written. -/
def savemFrom (a : Word) : List Nat → State → Out
  | [], s => s.endC
  | w :: ws, s =>
    let va := wordVa a w
    match s.locate { acc := { wr := true }, n := 8 } va with
    | (.fault c _, s) => s.endTrap false c va
    | (.hold p _, s) => (s.modMe fun f => { f with resume := .stage w [] none }).endHold p va
    | (.ok x, s) =>
      if x.ty = .once then s.endTrap false 0x05 va
      else
        let cls := x.cls false true false false
        let ids := s.earlier cls [x] ++ (if x.ty = .priv then s.evictWaits s.cur.core [x] else [])
        if s.me.recs ≠ 0 then s.awaitWord 2 w [] .recs
        else if !ids.isEmpty then s.awaitWord 7 w [] (.performed ids)
        else
          match s.writeFault x with
          | (some (c, _), s) => s.endTrap false c va
          | (none, s) =>
            let (s, sent) := s.startWrite { site := x, data := wordBytes (s.me.saveWord w) } cls
            if sent.isEmpty then savemFrom a ws s else s.awaitWord 7 (w + 1) sent (.gone sent)

/-- The word at which SAVEM or LOADM goes on, and the failure of the one before. -/
def Resume.word : Resume → Nat × Option (Nat × Word)
  | .none => (0, Option.none)
  | .stage w _ fail => (w, fail)

/-- The state once the arithmetic results of the fibre are written, when FSW is listed (R271, R433). -/
def State.drainFor (s : State) (list : BitVec 10) : State :=
  if list.getLsbD 8 then s.drainArith s.cur.core s.cur.slot else s

/-- SAVEM (R433, R434). -/
def execSavem (xa : XR) (list : BitVec 10) (off : BitVec 12) (s : State) : Out :=
  memSlot (.savem xa list off) s fun s =>
    let a := s.addr xa off
    let r := s.me.resume.word
    if list.getLsbD 9 && s.me.lvl == 0 then s.endTrap false 0x01 s.bundleWord
    else if a.toNat % 8 ≠ 0 then s.endTrap false 0x0A a
    else match r.2 with
      | some (c, _) => s.endTrap false c (wordVa a (r.1 - 1))
      | none => savemFrom a (listWords list r.1) (s.drainFor list)

/-- The destination of a word of LOADM (R433). -/
def loadWordDst (w : Nat) : Dst :=
  if w < 8 then .x (Fin.ofNat 8 w) .d false 0 else if w = 8 then .fsw else .tpc

/-- LOADM from some word on (R433): each word is read before the next. -/
def loadmFrom (a : Word) (ws : List Nat) (s : State) : Out :=
  match ws with
  | [] => s.endC
  | w :: _ =>
    let va := wordVa a w
    match s.locate { acc := { rd := true }, n := 8 } va with
    | (.fault c _, s) => s.endTrap false c va
    | (.hold p _, s) => (s.modMe fun f => { f with resume := .stage w [] none }).endHold p va
    | (.ok x, s) =>
      if x.ty = .once then s.endTrap false 0x05 va
      else
        let cls := x.cls true false false false
        let ids := s.earlier cls [x]
        if s.me.recs ≠ 0 then s.awaitWord 2 w [] .recs
        else if !ids.isEmpty then s.awaitWord 7 w [] (.performed ids)
        else
          let dst := loadWordDst w
          match s.siteFault x none dst with
          | (some (c, _), s) => s.endTrap false c va
          | (none, s) =>
            let (s, id) := s.startRead x cls none dst
            s.awaitWord 1 (w + 1) [id] (.gone [id])

/-- LOADM (R433, R434). -/
def execLoadm (xa : XR) (list : BitVec 10) (off : BitVec 12) (s : State) : Out :=
  memSlot (.loadm xa list off) s fun s =>
    let a := s.addr xa off
    let r := s.me.resume.word
    if list.getLsbD 9 && s.me.lvl == 0 then s.endTrap false 0x01 s.bundleWord
    else if a.toNat % 8 ≠ 0 then s.endTrap false 0x0A a
    else match r.2 with
      | some (c, _) => s.endTrap false c (wordVa a (r.1 - 1))
      | none => loadmFrom a (listWords list r.1) (s.drainFor list)

/-! ## SEAL, CLR, PROBE and BWAIT (R216) -/

/-- Where a block instruction lands: the site of the byte it names, whatever its offset (R216). Its block is translated
through that byte, and a watch filter meets any byte of the block (R140, R141). -/
def State.locateByte (s : State) (acc : XAcc) (a : Word) : Loc Site × State :=
  let w : Want := { acc := { acc with own := true }, n := 1, own := true }
  match s.xlatePage (.core s.cur.core) s.myCore.ctxid.toNat (s.inMode w.acc) a [{ va := a &&& ~~~511#64, len := 512 }] with
  | (.fault c v, s) => (.fault c v, s)
  | (.hold p v, s) => (.hold p v, s)
  | (.ok fs, s) =>
    let pa := physOf fs a
    match regionFault w a pa with
    | some (c, v) => (.fault c v, s)
    | none => (.ok { va := a, pa := s.placed pa, len := 1, fmt := 0, ty := (frameOf fs a).ty, remote := s.isRemote pa }, s)

/-- The site of the whole block of a site. -/
def Site.block (x : Site) : Site := { x with va := x.blkVa, pa := blkOf x.pa, len := 512 }

/-- An access to a block at its home, which holds every access while a wake of it waits for a group (R208): the bundle waits. -/
def State.atHome (s : State) (blk : Nat) (k : State → Out) : Out := if s.wakeStuck blk then s.endStall else k s

/-- SEAL (R196, R216): the issuing core's entry for the block commits, or 512 zero bytes do. -/
def execSealb (xa : XR) (off : BitVec 12) (s : State) : Out :=
  memSlot (.sealb xa off) s fun s =>
    match s.cResume with
    | .stage _ _ fail => s.answered fail
    | .none =>
      located (s.locateByte { wr := true, need := .block } (s.addr xa off)) fun x s =>
        let b := x.block
        s.afterEarlier (b.cls false true false true) [b] fun s =>
          let (s, ids) := s.commitEntries [(b.pa, b.va)]
          s.awaitIds 1 ids none

/-- Whether an entry guards a block: it is live and covers it (R362). -/
def Coll.guards (e : Coll) (blk : Nat) : Bool := e.live && e.covers blk

/-- The fibres that guard a block: those of open groups that re-issue and have read it (R321), and those that armed a
live entry over it (R362). -/
def State.guardsOf (s : State) (blk : Nat) (full : Bool) : List (BitVec 48) :=
  if isVault blk then
    let t := s.tile (vaultTile blk)
    (t.acc.toList.filterMap fun a => if a.isOpen && a.act == .reissue && decide (blk ∈ a.aRead) then some a.tid else none) ++
      (if full then t.coll.filterMap fun e => if e.guards blk then some e.tid else none else [])
  else []

/-- What a guard does to an instruction that would change its block: the owner's raises cause 0x05, another's waits
(R321, R362). -/
def State.guarded (s : State) (x : Site) (full : Bool) (k : State → Out) : Out :=
  let g := s.guardsOf (blkOf x.pa) full
  if s.me.tid ∈ g then s.endTrap false 0x05 x.va
  else if g.isEmpty then k s
  else s.endPark 3 (.guard (blkOf x.pa))

/-- A block cleared (R209): data zero with fresh check bits, the next generation, EMPTY. -/
def State.clearBlock (s : State) (blk : Nat) : State :=
  let m := s.blkMeta blk
  s.writeBlock blk { data := List.replicate 512 0, bound := m.bound, maxe := m.maxe, poison := [] }
    { m with dsc := true, gen := m.gen + 1, pres := .empty }

/-- CLR (R209, R216, R321, R362). -/
def execClr (xa : XR) (off : BitVec 12) (s : State) : Out :=
  memSlot (.clr xa off) s fun s =>
    located (s.locateByte { wr := true, need := .block } (s.addr xa off)) fun x s =>
      let b := x.block
      s.afterEarlier (b.cls false true false false) [b] fun s =>
        if x.remote then s.endC
        else s.atHome b.pa fun s =>
          let s := (s.touchLines b.pa 512 true).meet b.pa 0
          let p := (s.blkMeta b.pa).pres
          if s.reserved b.pa then s.endStall
          else if s.isRetired b.pa then s.endHomeTrap 0x09 b.va
          else if p = .deferred then s.endHomeTrap 0x05 x.va
          else s.guarded x (p == .full) fun s => (s.clearBlock b.pa).endC

/-- What PROBE reads of a block (R216). -/
def State.probeWord (s : State) (blk : Nat) : Word :=
  let m := s.blkMeta blk
  let n := if m.pres = .deferred then (s.queue blk).length else 0
  let own := (s.myCore.babOf blk).isSome
  BitVec.ofNat 64 (m.toNat + min n 255 * 2 ^ 40 + own.toNat * 2 ^ 63)

/-- PROBE (R216): it never queues and never waits for a commit. Another package's block is free (log 8). -/
def execProbe (xd xa : XR) (off : BitVec 12) (s : State) : Out :=
  memSlot (.probe xd xa off) s fun s =>
    located (s.locateByte { rd := true, need := .block } (s.addr xa off)) fun x s =>
      let b := x.block
      s.afterEarlier { ld := true } [b] fun s =>
        if x.remote then
          let (n, s) := s.takeFresh
          (s.setX xd (Config.freeWord n)).endC
        else s.atHome b.pa fun s =>
          let s := (s.touchLines x.pa 1 false).meet b.pa 0
          let s := if (s.blkMeta b.pa).pres = .deferred then s.readQueue b.pa else s
          if s.isRetired b.pa then s.endHomeTrap 0x09 b.va
          else (s.setX xd (s.probeWord b.pa)).endC

/-- The record of a reader without data at a block (R199, KIND 011). -/
def State.waitRecord (s : State) (x : Site) (gen : BitVec 10) : Aster :=
  { kind := 3, tid := s.me.tid, ctx := s.myCore.ctxid, inst := s.inst.getD s.myCore.ctxid.toNat 0,
    pkg := BitVec.ofNat 10 s.myPkg, gen := gen, core := BitVec.ofNat 17 s.cur.core,
    slot := BitVec.ofNat 8 s.cur.slot, off := BitVec.ofNat 9 (if x.len = 1 then 0 else x.pa % 512) }

/-- A record without data queued on a block for the running fibre, which parks until its wake (R198, R205); no free
group traps (R202). What the bundle does when it issues again stands in `resume`. -/
def State.queueMe (s : State) (x : Site) (r : Resume) : Out :=
  let blk := blkOf x.pa
  match s.enqueue blk (s.waitRecord x (s.blkMeta blk).gen) with
  | none => s.endHomeTrap 0x12 x.va
  | some s =>
    let s := s.modMeta blk fun m => { m with pres := .deferred }
    (s.modMe fun f => { f with recs := f.recs + 1, resume := r }).endPark 2 .block

/-- BWAIT (R216): it retires as an acquire of the block. -/
def execBwait (xa : XR) (off : BitVec 12) (s : State) : Out :=
  memSlot (.bwait xa off) s fun s =>
    match s.cResume with
    | .stage 1 _ _ => s.hearMe.endC
    | _ =>
      located (s.locateByte { rd := true, need := .block, watch := false } (s.addr xa off)) fun x s =>
        let b := x.block
        s.afterEarlier (b.cls true false true false) [b] fun s =>
          if x.remote then s.hearMe.endC
          else s.atHome b.pa fun s =>
            let s := (s.touchLines x.pa 1 false).meet b.pa 0
            if s.isRetired b.pa then s.endHomeTrap 0x09 b.va
            else if (s.blkMeta b.pa).pres = .full then s.hearMe.endC
            else s.queueMe x (.stage 0 [] none)

/-! ## FENCE, PUSH and PULL -/

/-- The earlier accesses of the kinds that a FENCE names which have not been performed (R242): one of a scope below span waits
for none homed in another package. -/
def State.fenceWaits (s : State) (kinds : BitVec 4) (sc : Scope) : List (Nat × Acc) :=
  let lds := kinds.getLsbD 0 || kinds.getLsbD 1
  let sts := kinds.getLsbD 2 || kinds.getLsbD 3
  (s.openReqs s.cur.core s.cur.slot).filter fun p =>
    ((lds && p.2.cls.ld) || (sts && p.2.cls.st)) && (sc == .span || !p.2.far)

/-- FENCE (R242): one that orders more than stores can order others' writes before what follows (R226, R227). A store that another package's home holds parks it on that hold; whether it does is free (R136, log 8). -/
def execFence (kinds : BitVec 4) (sc : Scope) (s : State) : Out :=
  slotC (.fence kinds sc) s fun s =>
    if (kinds.getLsbD 0 || kinds.getLsbD 1) && s.me.recs != 0 then s.endPark 2 .recs
    else
      let ws := s.fenceWaits kinds sc
      if ws.isEmpty then (if kinds &&& 7#4 = 0 then s else s.hearMe).endC
      else
        let wait (s : State) : Out := s.endPark 7 (.performed (ws.map (·.1)))
        match ws.find? fun w => w.2.far && w.2.cls.st with
        | none => wait s
        | some w =>
          match s.farAnswer with
          | (.hold, s) => s.endPark 3 (.hold (fabricHold ((w.2.pa - 2 ^ 56) / 2 ^ 46)) w.2.va)
          | (_, s) => wait s

/-- The messages of a core's PRIVATE write buffer that have not been acknowledged (R243). -/
def State.pushIds (s : State) (c : Nat) : List Nat :=
  s.net.filterMap fun p => match p.2 with
    | .req a => if a.owner = .push c then some p.1 else none
    | .ack o | .answer o _ _ => if o = .push c then some p.1 else none
    | _ => none

/-- Some lines of a core's PRIVATE write buffer sent, but for those that a home holds, which are what it gives (R243). -/
def State.sendFree (s : State) (c : Nat) : List (Nat × AMap Byte) → List (Nat × AMap Byte) × State
  | [] => ([], s)
  | l :: ls =>
    match s.lineHeld l.1 with
    | (true, s) =>
      let (held, s) := s.sendFree c ls
      (l :: held, s)
    | (false, s) => (s.sendLine c l).sendFree c ls

/-- The lines of a core's PRIVATE write buffer that no home holds sent; the others stay (R243). -/
def State.pushFree (s : State) (c : Nat) : State :=
  let (held, s) := s.sendFree c (s.core c).wbuf
  s.modCore c fun r => { r with wbuf := held }

/-- The number under which a PUSH waits for a held line. -/
def lineHold (line : Nat) : Nat := if line < 2 ^ 56 then pageOf line else fabricHold ((line - 2 ^ 56) / 2 ^ 46)

/-- The PRIVATE write buffer of a core sent home (R243). -/
def State.pushAll (s : State) (c : Nat) : State :=
  ((s.core c).wbuf.foldl (fun s l => s.sendLine c l) s).modCore c fun r => { r with wbuf := [] }

/-- The messages that a PUSH waits for before it sends a line again (R223, R220). -/
def State.pushWaits (s : State) : List Nat :=
  let c := s.cur.core
  s.mustWait { st := true } 0 0 false ++ s.myCore.wbuf.flatMap fun l => s.pushReqs c l.1 64

/-- The lines of the core's PRIVATE write buffer sent, and those that left it earlier awaited (R243). A line whose home holds
it parks the PUSH, with the line's physical address. -/
def State.pushLines (s : State) : Out :=
  let s := s.pushFree s.cur.core
  match s.myCore.wbuf with
  | l :: _ => s.endHold (lineHold l.1) (BitVec.ofNat 64 (l.1 % 2 ^ 56))
  | [] =>
    let sent := s.pushIds s.cur.core
    if sent.isEmpty then s.endC else s.awaitIds 1 sent none

/-- PUSH (R243): a Store to each byte it sends. One that finds the write buffer empty sends none, and accesses no memory
(R232). -/
def execPush (s : State) : Out :=
  slotC .push s fun s =>
    match s.cResume with
    | .stage _ _ fail => s.answered fail
    | .none => if s.myCore.wbuf.isEmpty then s.pushLines else s.afterMsgs s.pushWaits State.pushLines

/-- A core's PRIVATE read buffer and its bundles fetched ahead discarded (R244). -/
def State.pullAll (s : State) (c : Nat) : State := s.modCore c fun r => { r with rbuf := [], ahead := [] }

/-- PULL (R244). -/
def execPull (s : State) : Out :=
  slotC .pull s fun s =>
    if s.me.recs ≠ 0 then s.endPark 2 .recs
    else
      let ids := (s.openReqs s.cur.core s.cur.slot).map (·.1)
      if ids.isEmpty then (s.pullAll s.cur.core).endC else s.endPark 7 (.performed ids)

end Sys2Proof.Machine
end

