-- ==== Sys2Proof/Machine/Stream.lean ====
section
/-!
DEFINITION. Stream ports (R297 to R304): elements and their addresses, reading ahead, the arrival of an element, an
element written by a bundle, freeing a port, and cancels (R215).
-/

namespace Sys2Proof.Machine

/-! ## Elements -/

/-- The address of an element (R297). -/
def Port.elemAddr (p : Port) (k : Nat) : Word :=
  p.base + BitVec.ofNat 64 (k % p.n0) * p.s0.signExtend 64 + BitVec.ofNat 64 (k / p.n0) * p.s1.signExtend 64

/-- A port of a core. -/
def State.port (s : State) (c : Nat) (sp : Fin 4) : Port := (s.core c).sp.get sp
/-- The state with a port set. -/
def State.setPort (s : State) (c : Nat) (sp : Fin 4) (p : Port) : State :=
  s.modCore c fun r => { r with sp := r.sp.set sp p }
/-- The state with a port changed. -/
def State.modPort (s : State) (c : Nat) (sp : Fin 4) (g : Port → Port) : State := s.setPort c sp (g (s.port c sp))
/-- The v register of a port. -/
def portReg (sp : Fin 4) : VR := Fin.ofNat 16 (12 + sp.val)

/-- What an operation of the running bundle does with the window formats that a port has captured (R178, R297). -/
def State.underWf {α : Type} (s : State) (wf : Vector FmtCode 8) (g : State → α × State) : α × State :=
  let old := s.cur.wf
  let r := g { s with cur := { s.cur with wf := some wf } }
  (r.1, { r.2 with cur := { r.2.cur with wf := old } })

/-- What an operation for the fibre in a slot does, whichever bundle runs. -/
def State.onSlot {α : Type} (s : State) (c k : Nat) (g : State → α × State) : α × State :=
  let old := s.cur
  let r := g { s with cur := { core := c, slot := k } }
  (r.1, { r.2 with cur := old })

/-- Where the lanes of an element of the running core's port land, read or written (R182, R297). -/
def State.locateElem (s : State) (p : Port) (wr : Bool) (k : Nat) (en : BitVec 4) : Loc (List (Nat × Site)) × State :=
  s.underWf p.wf fun s => s.locateQuad { acc := { rd := !wr, wr := wr }, n := 4 } (p.elemAddr k) en

/-! ## Input ports -/

/-- A port whose reading has failed at an element (R300); the fibre that waits for the register goes on to its fault. -/
def State.failPort (s : State) (c : Nat) (sp : Fin 4) (k : Nat) (va : Word) (cause : Nat) : State :=
  let p := s.port c sp
  let first := match p.failed with
    | some (j, _) => decide (k < j)
    | none => true
  let s := if first then s.setPort c sp { p with failed := some (k, va), cause := cause } else s
  s.wakeWhere fun c' _ f => c' == c && (match f.need with
    | .regs _ vs => decide (portReg sp ∈ vs) && decide (k = p.pos)
    | _ => false)

/-- The start of the read of an element for the running core: none when a hold keeps it back, which the port notes (R143). -/
def State.startElem (s : State) (sp : Fin 4) (k : Nat) : Option State × State :=
  let c := s.cur.core
  let p := s.port c sp
  match s.locateElem p false k 0xF with
  | (.fault cause _, s) => (some (s.failPort c sp k (p.elemAddr k) cause), s)
  | (.hold q _, s) => (none, s.setPort c sp { p with held := some (q, p.elemAddr k) })
  | (.ok xs, s) =>
    match spanSite xs with
    | none => (some s, s)
    | some x =>
      let dst := Dst.v (portReg sp) 0xF x.fmt
      let owner := Owner.port c sp.val k
      if x.ty = .priv then
        match s.siteFault x none dst with
        | (some (cause, _), s) => (some (s.failPort c sp k x.va cause), s)
        | (none, s) =>
          let (data, s) := s.privRead c x
          (some (s.send (.reply owner dst data .none)).1, s)
      else if x.remote then
        let (n, s) := s.takeMany x.len
        (some (s.send (.reply owner dst (freeBytes n x.len) .none)).1, s)
      else
        let cls := clsAll true false false false (sitesOf xs)
        (some (s.sendAcc owner s.me.tid p.ctx x.va x.pa x.len x.ty cls (.read dst)).1, s)

/-- Reading ahead on a port of the running core: at most 4 elements ahead of the one consumed next (R298). `fuel` bounds
the reads. -/
def State.pump (s : State) (sp : Fin 4) : Nat → State
  | 0 => s
  | fuel + 1 =>
    let s := if (s.port s.cur.core sp).held.isNone then s else s.modPort s.cur.core sp fun p => { p with held := none }
    let p := s.port s.cur.core sp
    if p.bound && !p.out && p.failed.isNone && decide (p.asked < min p.total (p.pos + 4)) then
      match s.startElem sp p.asked with
      | (none, s) => s
      | (some s, _) =>
        (s.modPort s.cur.core sp fun q => if q.failed.isSome then q else { q with asked := p.asked + 1 }).pump sp fuel
    else s

/-- Reading ahead on a port of any core. -/
def State.pumpPort (s : State) (c : Nat) (sp : Fin 4) : State :=
  ((s.onSlot c (s.port c sp).slot fun s => ((), s.pump sp 4))).2

/-- Reading ahead on every port, as after the end of a hold. -/
def State.pumpAll (s : State) : State :=
  s.cores.foldl (fun s e => (List.finRange 4).foldl (fun s sp => s.pumpPort e.1 sp) s) s

/-- A v register of a core filled whole. -/
def State.fillV (s : State) (c : Nat) (r : VR) (v : Vector Lane 4) : State :=
  s.modCore c fun k => k.modV r 0xF fun i _ => { val := v.get i }

/-- The arrival of an element (R298, R300): it fills the register when it is next in order. A port that no longer
reads it discards it (R215). -/
def State.elemArrives (s : State) (c sp k : Nat) (dst : Dst) (data : List Byte) (fl : RFlag) : State :=
  let sp : Fin 4 := Fin.ofNat 4 sp
  let p := s.port c sp
  if !p.bound || p.out || decide (k < p.pos) || decide (p.asked ≤ k) then s
  else
    let s := s.modPort c sp fun p => { p with queued := p.queued.erase k }
    if fl ≠ .none then s.failPort c sp k (p.elemAddr k) fl.cause
    else
      let fmt := match dst with
        | .v _ _ fmt => fmt
        | _ => 0
      let v : Vector Lane 4 := Vector.ofFn fun i : Fin 4 => laneValue fmt 0xF data i.val
      if k = p.pos then (s.fillV c (portReg sp) v).settle
      else s.modPort c sp fun p => { p with got := p.got.insert k v }

/-- INPUT_ELEMENT_ARRIVAL (R298, R300): the element of the lowest number whose data is on its way to a port arrives. -/
def execInputElementArrival (core port : Nat) (s : State) : Out :=
  let here := s.net.filterMap fun p => match p.2 with
    | .reply (.port c sp k) dst data fl => if c = core ∧ sp = port then some (p.1, k, dst, data, fl) else none
    | _ => none
  let first := here.foldl (fun (acc : Option (Nat × Nat × Dst × List Byte × RFlag)) m => match acc with
    | none => some m
    | some a => if m.2.1 < a.2.1 then some m else some a) none
  match first with
  | none => .fault .noSuchEvent
  | some (id, k, dst, data, fl) => .next ((s.dropMsg id).elemArrives core port k dst data fl)

/-- The wake of a port's queued read: the element whose block and offset the record names (R205, R298). -/
def State.elemWoken (s : State) (blk : Nat) (r : Aster) (data : List Byte) (fl : RFlag) : State :=
  let c := r.core.toNat
  let sp : Fin 4 := Fin.ofNat 4 r.dreg.toNat
  let p := s.port c sp
  match p.queued.find? fun q => s.redirected q.2 == s.redirected blk + r.off.toNat with
  | none => s
  | some q => s.elemArrives c sp.val q.1 (.v (portReg sp) 0xF r.fmt) data fl

/-! ## Output ports -/

/-- What an element written by the running bundle does. -/
inductive ElemOut where
  /-- the end of the bundle: a trap, a park or a stall -/
  | stop (o : Out)
  /-- the element is on its way -/
  | done (s : State)

/-- The failure of an output element: a stream fault with the element's address; SSTAT reports the cause (R299, R304). -/
def State.elemFault (s : State) (aslot : Bool) (sp : Fin 4) (cause : Nat) : ElemOut :=
  let p := s.port s.cur.core sp
  .stop ((s.setPort s.cur.core sp { p with cause := cause }).endTrap aslot 0x18 (p.elemAddr p.pos))

/-- The messages that an element's store waits for: earlier accesses of the fibre, those of its own bundle aside. -/
def State.elemWaits (s : State) (cls : Cls) (xs : List Site) : List Nat :=
  (s.earlier cls xs ++ s.evictWaits s.cur.core (xs.filter fun x => x.ty == .priv)).filter fun i => decide (i < s.ops.next)

/-- The stage of a bundle whose A slot waits for the answer of a commit. -/
def State.elemStage (s : State) : Nat :=
  match s.me.resume with
  | .stage 1 _ _ => 101
  | _ => 100

/-- The state in which an output port has taken an element. -/
def State.advancePort (s : State) (sp : Fin 4) : State := s.modPort s.cur.core sp fun p => { p with pos := p.pos + 1 }

/-- The stores of an element's lanes (R299): they are translated and checked at issue; a hold or a full block-assembly
buffer parks the bundle; a commit waits for its answer (R196), and a refusal fails the element. -/
def State.storeElem (s : State) (aslot : Bool) (sp : Fin 4) (en : BitVec 4) (vals : Fin 4 → Lane) : ElemOut :=
  let p := s.port s.cur.core sp
  let again (fail : Option (Nat × Word)) : ElemOut := match fail with
    | some (c, _) => s.elemFault aslot sp c
    | none => .done (s.advancePort sp)
  match s.ops.f.resume with
  | .stage 100 _ fail => again fail
  | .stage 101 _ fail => again fail
  | .stage 102 _ _ => again none
  | _ =>
    if en = 0 then .done (s.advancePort sp)
    else
      match s.locateElem p true p.pos en with
      | (.fault c _, s) => s.elemFault aslot sp c
      | (.hold q _, s) => .stop (s.endPark 3 (.hold q (p.elemAddr p.pos)))
      | (.ok xs, s) =>
        match (xs.findSome? fun x => (s.writeFault x.2).1) with
        | some (c, _) => s.elemFault aslot sp c
        | none =>
          let ws := xs.map fun x => putAt x.2 ((vals (Fin.ofNat 4 x.1)).setWidth 64)
          let once := ws.filter fun w => w.site.ty == .once
          let r := s.myCore
          let done := r.completed once
          let named := namedBlocks once done
          let cls := clsAll false true false (!done.isEmpty) (sitesOf xs)
          if (named.findSome? fun b => s.commitHit b.2).isSome then s.elemFault aslot sp 0x13
          else if s.me.recs ≠ 0 then .stop (s.endPark 2 .recs)
          else if 8 - r.bab.length < (r.babNew (once.map fun w => blkOf w.site.pa)).length then .stop (s.endPark 4 .assembly)
          else if !(s.elemWaits cls (sitesOf xs)).isEmpty then
            .stop (s.endPark 7 (.performed (s.elemWaits cls (sitesOf xs))))
          else
            let s := s.startWrites cls (ws.filter fun w => w.site.ty != .once)
            let s := s.babStores once
            if done.isEmpty then .done (s.advancePort sp)
            else
              let stage := s.elemStage
              let (s, ids) := s.commitEntries named
              .stop ((s.modMe fun f => { f with resume := .stage stage ids none }).endPark 7 (.gone ids))

/-- A v register written by the running bundle: the register itself, or an element of the output port bound to it. -/
def State.writeV (s : State) (aslot : Bool) (vd : VR) (en : BitVec 4) (vals : Fin 4 → Lane) : ElemOut :=
  match portOfV vd with
  | some sp =>
    if (s.port s.cur.core sp).bound && (s.port s.cur.core sp).out then s.storeElem aslot sp en vals
    else .done (s.setV vd en vals)
  | none => .done (s.setV vd en vals)

/-- Whether a v register is that of a bound output port. -/
def State.isOutV (s : State) (vd : VR) : Bool :=
  match s.portV vd with
  | some p => p.bound && p.out
  | none => false

/-! ## A load into the register of an output port -/

/-- The place among the fibre's accesses of an element that a load is to fill: one store for each lane, which waits at its home
for the lane's data (R301). -/
def State.sendAwaits (s : State) (sp : Fin 4) (k : Nat) : List (Nat × Site) → State × List PortLane
  | [] => (s, [])
  | x :: xs =>
    let y := x.2
    let (s, id) := s.sendAcc (.port s.cur.core sp.val k) s.me.tid s.myCore.ctxid.toNat y.va y.pa y.len y.ty
      (y.cls false true false false) .await
    let (s, ls) := s.sendAwaits sp k xs
    (s, { id := id, lane := x.1, va := y.va, pa := y.pa, fmt := y.fmt, ty := y.ty, remote := y.remote } :: ls)

/-- The lanes of an element that a load is to fill, noted at the load's issue (R299, R301). -/
def State.noteElem (s : State) (sp : Fin 4) (en : BitVec 4) : ElemOut :=
  let p := s.port s.cur.core sp
  match s.locateElem p true p.pos en with
  | (.fault c _, s) => s.elemFault false sp c
  | (.hold q _, s) => .stop (s.endPark 3 (.hold q (p.elemAddr p.pos)))
  | (.ok xs, s) =>
    match (xs.findSome? fun x => (s.writeFault x.2).1) with
    | some (c, _) => s.elemFault false sp c
    | none =>
      let new := s.myCore.babNew ((xs.filter fun x => x.2.ty == .once).map fun x => blkOf x.2.pa)
      let ids := s.elemWaits (clsAll false true false false (sitesOf xs)) (sitesOf xs)
      if 8 - s.myCore.bab.length < new.length then .stop (s.endPark 4 .assembly)
      else if !ids.isEmpty then .stop (s.endPark 7 (.performed ids))
      else
        let (s, ls) := s.sendAwaits sp p.pos xs
        .done (s.modPort s.cur.core sp fun p => { p with pos := p.pos + 1, lanes := ls })

/-- The store of a lane, once its data has come. -/
def PortLane.put (l : PortLane) (v : Lane) : Put :=
  putAt { va := l.va, pa := l.pa, len := elemLen l.fmt 4, fmt := l.fmt, ty := l.ty, remote := l.remote } (v.setWidth 64)

/-- The stores of the element that an output port of a core waits for, as its register holds the lanes. -/
def State.portPuts (s : State) (c : Nat) (sp : Fin 4) : List (Nat × Put) :=
  (s.port c sp).lanes.map fun l => (l.id, l.put (((s.core c).v.get (portReg sp)).get (Fin.ofNat 4 l.lane)).val)

/-- Whether the element that a load has filled must wait: for room in the block-assembly buffer (R193), for older lines of the
PRIVATE write buffer (R223), and, when it completes a block, for the earlier accesses of its fibre (R231). -/
def State.elemBlocked (s : State) (c : Nat) (sp : Fin 4) : Bool :=
  let ws := s.portPuts c sp
  let once := (ws.map (·.2)).filter fun w => w.site.ty == .once
  let priv := ((ws.map (·.2)).filter fun w => w.site.ty == .priv).map (·.site)
  let r := s.core c
  let first := (ws.map (·.1)).foldl min s.nextId
  decide (8 - r.bab.length < (r.babNew (once.map fun w => blkOf w.site.pa)).length)
    || !(s.evictWaits c priv).isEmpty
    || (!(r.completed once).isEmpty && (s.openReqs c (s.port c sp).slot).any fun q => decide (q.1 < first))

/-- Whether every lane of the element that an output port waits for is FULL once some lanes are. -/
def State.elemWhole (s : State) (c : Nat) (sp : Fin 4) (lanes : BitVec 4) : Bool :=
  (s.port c sp).lanes.all fun l =>
    lanes.getLsbD l.lane || (((s.core c).v.get (portReg sp)).get (Fin.ofNat 4 l.lane)).full

/-- The output port of a core whose element a load into a v register fills. -/
def State.fillsElem (s : State) (c : Nat) (vd : VR) : Option (Fin 4) :=
  match portOfV vd with
  | none => none
  | some sp =>
    let p := s.port c sp
    if p.bound && p.out && !p.lanes.isEmpty then some sp else none

/-- Whether the data of a load must wait before it completes an output port's element. -/
def State.loadWaits (s : State) (c : Nat) (vd : VR) (lanes : BitVec 4) : Bool :=
  match s.fillsElem c vd with
  | none => false
  | some sp => s.elemWhole c sp lanes && s.elemBlocked c sp

/-- A waiting store of an element goes on its way with its data (R301): a PRIVATE one into the core's buffer, and one to a ONCE
page into its assembly buffer. -/
def State.sendLane (s : State) (c : Nat) (q : Nat × Put) : State :=
  let w := q.2
  if w.site.ty = .priv then (s.dropMsg q.1).privStore c w.site.pa w.data
  else if w.site.ty = .once then (s.dropMsg q.1).modCore c fun r => r.babStore w.site.pa w.data
  else
    match s.net.get? q.1 with
    | some (.req a) => s.putMsg q.1 (.req { a with op := .write w.data })
    | _ => s

/-- What the arrival of loaded lanes does for an output port: once every lane of its element has come, the element is stored. A
block that it completes commits, and the answer comes to the port (R196, R304). A watch filter that sees the commit refuses the
element, and the port reports it (R140, R299). -/
def State.portLoaded (s : State) (c : Nat) (vd : VR) : State :=
  match s.fillsElem c vd with
  | none => s
  | some sp =>
    if !s.elemWhole c sp 0 then s
    else
      let p := s.port c sp
      let ws := s.portPuts c sp
      let once := (ws.map (·.2)).filter fun w => w.site.ty == .once
      let named := namedBlocks once ((s.core c).completed once)
      let hit := (s.onSlot c p.slot fun s => (named.any fun b => (s.commitHit b.2).isSome, s)).1
      if hit then (ws.foldl (fun s q => s.dropMsg q.1) s).modPort c sp fun p => { p with lanes := [], cause := 0x13 }
      else
        let s := ws.foldl (fun s q => s.sendLane c q) s
        let (_, s) := s.onSlot c p.slot fun s => ((), (s.commitEntriesFor (.port c sp.val p.pos) named).1)
        s.modPort c sp fun p => { p with lanes := [] }

/-- The lanes of an output port's element that a flagged load cannot bring: they are not stored, and the port reports the
flag's cause (R304; log 24). -/
def State.portLost (s : State) (c : Nat) (vd : VR) (lanes : BitVec 4) (fl : RFlag) : State :=
  match s.fillsElem c vd with
  | none => s
  | some sp =>
    let (lost, left) := (s.port c sp).lanes.partition fun l => lanes.getLsbD l.lane
    if lost.isEmpty then s
    else (lost.foldl (fun s l => s.dropMsg l.id) s).modPort c sp fun p => { p with lanes := left, cause := fl.cause }

/-- The lanes of a v register filled by a load, and what an output port does with them. -/
def State.lanesArrive (s : State) (c : Nat) (vd : VR) (lanes : BitVec 4) (fl : RFlag) : State :=
  (if fl = .none then s else s.portLost c vd lanes fl).portLoaded c vd

/-! ## Freeing a port (R303) -/

/-- The state in which a port is unbound and its register holds zero, FULL (R303). -/
def State.unbind (s : State) (c : Nat) (sp : Fin 4) : State :=
  ((s.setPort c sp {}).fillV c (portReg sp) (Vector.replicate 4 0)).settle

/-- The messages of a port's reads. -/
def Msg.ofPort (c sp : Nat) : Msg → Bool
  | .req a => match a.owner with
    | .port c' sp' _ => c' == c && sp' == sp
    | _ => false
  | .reply (.port c' sp' _) .. => c' == c && sp' == sp
  | _ => false

/-- An input port stops: what it has read ahead is discarded, and a cancel goes to each block on which one of its reads is
queued (R215, R303). -/
def State.stopInput (s : State) (c : Nat) (sp : Fin 4) (owner : Owner) : State × List Nat :=
  let p := s.port c sp
  let s := { s with net := s.net.filter fun m => !m.2.ofPort c sp.val }
  let s := s.setPort c sp { p with asked := p.total, got := [], queued := [], held := none }
  (((p.queued.map fun q => blkOf q.2).eraseDups)).foldl
    (fun (acc : State × List Nat) blk =>
      let (s, id) := acc.1.sendAcc owner (s.fib c p.slot).tid p.ctx 0 blk 512 .once {} (.cancel c sp.val)
      (s, acc.2 ++ [id])) (s, [])

/-- What the freeing of ports by the running fibre waits for: the homes' answers to the cancels, and the stores of output
elements (R303). -/
def State.stopPorts (s : State) (sps : List (Fin 4)) : State × List Nat :=
  sps.foldl
    (fun (acc : State × List Nat) sp =>
      let p := acc.1.port s.cur.core sp
      if p.bound && !p.out then
        let (s, ids) := acc.1.stopInput s.cur.core sp s.mine
        (s, acc.2 ++ ids)
      else acc) (s, [])

/-- The stores of output elements that have not been performed (R303). -/
def State.outWaits (s : State) (sps : List (Fin 4)) : List Nat :=
  if sps.any fun sp => (s.port s.cur.core sp).bound && (s.port s.cur.core sp).out then
    ((s.openReqs s.cur.core s.cur.slot).filter fun p => p.2.cls.st).map (·.1)
  else []

/-- Ports unbound. -/
def State.unbindAll (s : State) (sps : List (Fin 4)) : State :=
  sps.foldl (fun s sp => if (s.port s.cur.core sp).bound then s.unbind s.cur.core sp else s) s

/-- The freeing of some ports of the running core, and what follows it (R303, R392, R395). Stage 50 waits for answers. -/
def State.freePorts (s : State) (sps : List (Fin 4)) (k : State → Out) : Out :=
  match s.cResume with
  | .stage 50 _ _ => k (s.unbindAll sps)
  | _ =>
    let w := s.outWaits sps
    if !w.isEmpty then s.endPark 7 (.performed w)
    else
      let (s, ids) := s.stopPorts sps
      if ids.isEmpty then k (s.unbindAll sps) else s.awaitIds 50 ids none

/-- SFREE (R303). -/
def execSfree (sp : Fin 4) (s : State) : Out :=
  slotC (.sfree sp) s fun s => s.freePorts [sp] fun s => s.endC

/-- The elements that an input port has read and not consumed (R304). -/
def State.portAhead (s : State) (c : Nat) (sp : Fin 4) : Nat :=
  let p := s.port c sp
  if p.out then 0
  else p.got.length + (if decide (p.pos < p.total) && vAllFull (s.core c).v [portReg sp] then 1 else 0)

/-- The status word of a port (R304). -/
def State.portStatus (s : State) (c : Nat) (sp : Fin 4) : Word :=
  let p := s.port c sp
  if !p.bound then 0
  else BitVec.ofNat 64 (2 ^ 63 + p.failed.isSome.toNat * 2 ^ 62 + p.cause % 64 * 2 ^ 56 + p.out.toNat * 2 ^ 55
    + s.portAhead c sp * 2 ^ 52 + p.pos)

/-- SSTAT (R304). -/
def execSstat (xd : XR) (sp : Fin 4) (s : State) : Out :=
  slotC (.sstat xd sp) s fun s => (s.setX xd (s.portStatus s.cur.core sp)).endC

/-! ## SBIND (R302) -/

/-- What a synchronous read of bytes by an instruction gives: the bytes, or the end of the instruction. -/
inductive SyncRead where
  | stop (o : Out)
  | data (bs : List Byte) (s : State)

/-- A read of `n` bytes by the running bundle that has its effect only with the data (R12): a ONCE block that is not FULL
parks the fibre and the bundle re-executes whole (R205). -/
def State.syncRead (s : State) (need : XNeed) (a : Word) (n : Nat) : SyncRead :=
  match s.locate { acc := { rd := true, need := need }, n := n, conv := false } a with
  | (.fault c v, s) => .stop (s.endTrap false c v)
  | (.hold p v, s) => .stop (s.endHold p v)
  | (.ok x, s) =>
    let ids := s.earlier (x.cls true false false false) [x]
    if s.me.recs ≠ 0 then .stop (s.endPark 2 .recs)
    else if !ids.isEmpty then .stop (s.endPark 7 (.performed ids))
    else if x.remote then
      let (k, s) := s.takeMany n
      .data (freeBytes k n) s.hearMe
    else
      match s.siteFault x none .none with
      | (some (c, v), s) => .stop (s.endTrap false c v)
      | (none, s) =>
        if x.ty = .priv then
          let (bs, s) := s.privRead s.cur.core x
          .data bs s
        else if s.wakeStuck (blkOf x.pa) then .stop s.endStall
        else if x.ty = .once ∧ (s.blkMeta x.pa).pres ≠ .full then .stop (s.queueMe x .none)
        else .data (s.bytes x.pa n) s.hearMe

/-- Whether a descriptor's words keep R297. -/
def descOk (w1 w2 w3 : Nat) : Bool :=
  fld w1 56 7 == 0 && fld w1 0 16 == 0 && fld w1 40 16 != 0 && fld w1 16 24 != 0 && fld w2 48 16 == 0 && fld w3 48 16 == 0

/-- The port that a descriptor binds (R297, R302). -/
def State.boundPort (s : State) (bs : List Byte) : Port :=
  let w (i : Nat) : Nat := natOfBytes ((bs.drop (8 * i)).take 8)
  { bound := true, out := fld (w 1) 63 1 == 1, n1 := fld (w 1) 40 16, n0 := fld (w 1) 16 24, base := BitVec.ofNat 64 (w 0),
    s0 := BitVec.ofNat 48 (w 2), s1 := BitVec.ofNat 48 (w 3), wf := s.myCore.wf, ctx := s.myCore.ctxid.toNat,
    slot := s.cur.slot }

/-- SBIND (R302): it waits for every earlier access of the fibre (R301). -/
def execSbind (sp : Fin 4) (xa : XR) (s : State) : Out :=
  memSlot (.sbind sp xa) s fun s =>
    let d := s.rx xa
    if (s.port s.cur.core sp).bound then s.endTrap false 0x18 0
    else if d.toNat % 32 ≠ 0 then s.endTrap false 0x0A d
    else
      let ids := (s.openReqs s.cur.core s.cur.slot).map (·.1)
      if !ids.isEmpty then s.endPark 7 (.performed ids)
      else
        match s.syncRead .plain d 32 with
        | .stop o => o
        | .data bs s =>
          let w (i : Nat) : Nat := natOfBytes ((bs.drop (8 * i)).take 8)
          if !descOk (w 1) (w 2) (w 3) then s.endTrap false 0x18 d
          else
            let p := s.boundPort bs
            let s := s.setPort s.cur.core sp p
            if p.out then (s.fillV s.cur.core (portReg sp) (Vector.replicate 4 0)).endC
            else ((s.emptyV (portReg sp) 0xF).pump sp 4).endC

/-! ## Cancels at the home (R215) -/

/-- Whether a record is that of a port's read. -/
def Aster.ofPort (r : Aster) (c sp slot : Nat) : Bool :=
  r.kind == 2 && r.core.toNat == c && r.slot.toNat == slot && r.dreg.toNat == 12 + sp

/-- A cancel performed at the home of a block (R215). A wake of the record that is still on its way reaches a port that no
longer reads it. -/
def State.performCancel (s : State) (blk c sp slot : Nat) : State :=
  let s := { s with net := s.net.filter fun m => match m.2 with
    | .wake b r _ _ => !(s.sameBlk b blk && r.ofPort c sp slot)
    | _ => true }
  let m := s.blkMeta blk
  if m.pres ≠ .deferred then s
  else
    let s := s.readQueue blk
    let mine := (s.queue blk).filter fun q => q.2.ofPort c sp slot
    if mine.isEmpty then s
    else
      let s := mine.foldl (fun s q => s.setAster q.1.1 q.1.2 {}) s
      if (s.queue blk).isEmpty then
        let gs := s.groupsOf s.chainFuel blk
        ((s.freeGroups gs).writeWhole blk (List.replicate 512 0)).setMeta blk { m with dsc := true, pres := .empty }
      else s

/-- CANCEL (R215): a cancel reaches the home of its block, which answers it. -/
def execCancel (k : Nat) (s : State) : Out :=
  match s.net.get? k with
  | some (.req a) =>
    match a.op with
    | .cancel c sp =>
      if s.wakeStuck (blkOf a.pa) then .next s
      else .next ((s.performCancel a.pa c sp ((s.port c (Fin.ofNat 4 sp)).slot)).putMsg k (.ack a.owner))
    | _ => .fault .noSuchEvent
  | _ => .fault .noSuchEvent

end Sys2Proof.Machine
end

