-- ==== Sys2Proof/Machine/Fibres.lean ====
section
/-!
DEFINITION. Fibres: SPAWN and SPAWNR (R389 to R391), EXIT, YIELD, MIGRATE, ANCHOR and SELF (R392 to R396), reservations
and arrivals (R387, R388, R394).
-/

namespace Sys2Proof.Machine

/-! ## What ends with the anchor (R308, R395) -/

/-- A tile with the group on an accumulator closed: the pair flag that it set clears; cells, bound and scales stay. -/
def Tile.closeAcc (t : Tile) (p : Fin 8) : Tile :=
  let a := t.acc.get p
  let acc := t.acc.set p { a with isOpen := false, claim := false, aRead := [], bRead := [] }
  let q : Fin 8 := p + 1
  { t with acc := if a.claim then acc.set q { acc.get q with pair := false } else acc }

/-- A tile with every group of a fibre closed. -/
def Tile.closeGroups (t : Tile) (tid : BitVec 48) : Tile :=
  (List.finRange 8).foldl (fun t p => if (t.acc.get p).isOpen && (t.acc.get p).tid == tid then t.closeAcc p else t) t

/-- Fibres that wait for a guarded block go on when nothing guards it any more (R321, R362). -/
def State.wakeGuards (s : State) : State :=
  s.wakeWhere fun _ _ f => match f.need with
    | .guard b => (s.guardsOf b true).isEmpty
    | _ => false

/-- The running fibre's groups closed without a test (R308). -/
def State.closeMyGroups (s : State) : State :=
  if coreInTile s.cur.core = 2 then
    (s.modTile (tileOf s.cur.core) fun t => t.closeGroups s.me.tid).wakeGuards
  else s

/-- The ports of a core. -/
def allPorts : List (Fin 4) := List.finRange 4

/-- The anchor released: stream ports freed, groups closed, and then what follows (R303, R308, R395). -/
def State.releaseAnchor (s : State) (k : State → Out) : Out :=
  s.freePorts allPorts fun s =>
    let s := s.closeMyGroups
    let s := s.modCore s.cur.core fun r => { r with anchor := none }
    k (s.modMe fun f => { f with anc := false })

/-- ANCHOR.claim (R395). -/
def execAnchorClaim (xd : XR) (s : State) : Out :=
  slotC (.anchorClaim xd) s fun s =>
    if s.me.anc then (s.setX xd 0).endC
    else if s.myCore.anchor.isSome then (s.setX xd 1).endC
    else
      let s := s.modCore s.cur.core fun r => { r with anchor := some s.cur.slot }
      ((s.modMe fun f => { f with anc := true }).setX xd 0).endC

/-- ANCHOR.free (R395). -/
def execAnchorFree (xd : XR) (s : State) : Out :=
  slotC (.anchorFree xd) s fun s =>
    if s.me.anc then s.releaseAnchor fun s => (s.setX xd 0).endC else (s.setX xd 1).endC

/-- SELF (R396). -/
def execSelf (kind : SelfKind) (xd : XR) (s : State) : Out :=
  slotC (.self kind xd) s fun s =>
    let v : Word := match kind with
      | .tid => s.me.tid.setWidth 64
      | .core => BitVec.ofNat 64 s.cur.core
      | .slot => BitVec.ofNat 64 s.cur.slot
      | .save => s.me.save.setWidth 64
    (s.setX xd v).endC

/-- YIELD (R393): the bundle retires, and the fibre is READY. -/
def execYield (s : State) : Out :=
  slotC .yield s fun s =>
    let t := s.retire
    .next ((t.modMe fun f => { f with st := .ready }).leaveHot t.cur.core t.cur.slot)

/-! ## EXIT -/

/-- The messages that belong to a fibre's slot: accesses on their way to or from their homes. -/
def Msg.ofFibre (c k : Nat) : Msg → Bool
  | .req a => a.owner == .fibre c k
  | .reply o .. => o == .fibre c k
  | .ack o => o == .fibre c k
  | .answer o .. => o == .fibre c k
  | .fill c' k' .. => c' == c && k' == k
  | _ => false

/-- Whether a message is the request of a SHIP of a fibre, which awaits no reply (R118). -/
def Msg.shipOf (c k : Nat) : Msg → Bool
  | .req a => a.owner == .fibre c k && (match a.op with
    | .dimus _ _ _ _ none => true
    | _ => false)
  | _ => false

/-- The numbers of a fibre's messages. -/
def State.ownIds (s : State) (c k : Nat) : List Nat :=
  s.net.filterMap fun p => if p.2.ofFibre c k then some p.1 else none

/-- The numbers of the messages that EXIT or MIGRATE waits for: EXIT performs no wait for SHIP runs (R392), and MIGRATE keeps
every earlier access before every later one (R234). -/
def State.leaveIds (s : State) (ships : Bool) : List Nat :=
  (s.ownIds s.cur.core s.cur.slot).filter fun i => ships || !((s.net.get? i).map (Msg.shipOf s.cur.core s.cur.slot)).getD false

/-- What EXIT and MIGRATE wait for first (R392): FP results and records. -/
def State.waitRecs (s : State) (k : State → Out) : Out :=
  let s := s.drainArith s.cur.core s.cur.slot
  if s.me.recs ≠ 0 then s.endPark 2 .recs else k s

/-- The PUSH that EXIT and MIGRATE perform, once the fibre's own messages have been answered (R234): it is awaited at stage 40, traps
where a home has refused a line (R97), and one that finds the write buffer empty sends none and waits for no earlier access. Stage 43 stands for a place granted in another
package. -/
def State.pushOut (s : State) (ships : Bool) (k : State → Out) : Out :=
  let own := s.leaveIds ships
  if !own.isEmpty then s.endPark 7 (.gone own)
  else
    let push (s : State) : Out :=
      let ids := if s.myCore.wbuf.isEmpty then [] else s.pushWaits
      if !ids.isEmpty then s.endPark 7 (.performed ids)
      else
        let s := s.pushAll s.cur.core
        let sent := s.pushIds s.cur.core
        if sent.isEmpty then k s else s.awaitIds 40 sent none
    match s.me.resume with
    | .none | .stage 43 _ _ => push s
    | .stage 40 _ (some (c, v)) => s.endTrap false c v
    | .stage .. => k s

/-- What EXIT and a MIGRATE to the fibre's own core wait for first, and the PUSH that they perform (R234, R392, R394). -/
def State.settled (s : State) (ships : Bool) (k : State → Out) : Out := s.waitRecs fun s => s.pushOut ships k

/-- The state in which the SHIP requests of the running fibre belong to its core alone. -/
def State.leaveShips (s : State) : State :=
  { s with net := s.net.map fun m => match m.2 with
    | .req a => if m.2.shipOf s.cur.core s.cur.slot then (m.1, .req { a with owner := .ended s.cur.core }) else m
    | _ => m }

/-- The slot of the running fibre freed. -/
def State.freeMe (s : State) : State :=
  ((s.leaveShips.setMe {}).leaveHot s.cur.core s.cur.slot).withDisp .gone

/-- EXIT (R392). -/
def execExit (s : State) : Out :=
  slotC .exit s fun s =>
    s.settled false fun s =>
      if s.me.anc then s.releaseAnchor fun s => .next s.freeMe else .next s.freeMe

/-! ## Reservations (R387, R388) -/

/-- The FREE slots of a core. -/
def State.freeSlots (s : State) (c : Nat) : List Nat := (List.range 256).filter fun k => (s.fib c k).st == .free

/-- One of some numbers: a free value picks (log 16). -/
def State.pickOne (s : State) : List Nat → Option Nat × State
  | [] => (none, s)
  | [k] => (some k, s)
  | ks =>
    let (n, s) := s.takeFresh
    (ks[Config.pick n % ks.length]?, s)

/-- Whether a context's overflow pool has an entry left (R387). -/
def State.poolRoom (s : State) (ctx : Nat) : Bool :=
  let off := 0x1C2000 + 8 * ctx
  s.regF off 0 1 == 1 &&
    decide ((s.pool.filter fun t => t.ctx == ctx).length + s.poolResv.getD ctx 0 < s.regF off 4 12 * 512)

/-- A slot or pool entry reserved for a fibre; none when neither answers (R388). -/
def State.reserveOne (s : State) (t : Travel) : Option (State × Travel) :=
  match s.pickOne (s.freeSlots t.core) with
  | (some k, s) => some (s.setFib t.core k { tid := t.f.tid, st := .transit }, { t with slot := some k })
  | (none, s) =>
    if s.poolRoom t.ctx then
      some ({ s with poolResv := s.poolResv.insert t.ctx (s.poolResv.getD t.ctx 0 + 1) }, { t with slot := none })
    else none

/-- Reservations for all of some fibres, or none (R391). -/
def State.reserveAll (s : State) : List Travel → Option (State × List Travel)
  | [] => some (s, [])
  | t :: ts =>
    match s.reserveOne t with
    | none => none
    | some (s, t) =>
      match s.reserveAll ts with
      | none => none
      | some (s, ts) => some (s, t :: ts)

/-- A request at its destinations. -/
def State.reserveAt (s : State) (k : Nat) (r : SpawnReq) : State :=
  match s.reserveAll r.kids with
  | some (s, kids) => s.putMsg k (.reserved r (some kids))
  | none => s.putMsg k (.reserved r none)

/-- RESERVATION_REQUEST (R388, R391): a request reaches its destinations, which answer. -/
def execReservationRequest (k : Nat) (s : State) : Out :=
  match s.net.get? k with
  | some (.reserve r) => overPlane k (fun s => .next (s.reserveAt k r)) s
  | _ => .fault .noSuchEvent

/-- Records sent to the places reserved for them (R391, R394). -/
def State.sendAll (s : State) (c : Nat) : List Travel → State
  | [] => s
  | t :: ts => ((s.send (.travel { t with src := some c })).1).sendAll c ts

/-- The status of a spawn whose reservations have been answered (R391). -/
def spawnStatus : Option (List Travel) → Word
  | none => 2
  | some ts => if ts.all fun t => t.slot.isSome then 0 else 1

/-- The state with what an answer brings noted for the bundle that waits for it: a stage, or a failure. -/
def State.noteAnswer (s : State) (c k : Nat) (stage : Nat) (fail : Option (Nat × Word)) : State :=
  (s.modFib c k fun f => match f.resume with
    | .stage _ ids old => { f with resume := .stage stage ids (if old.isSome then old else fail) }
    | .none => f).settle

/-- The fibre in a slot as it leaves its core: its record with the PC that it issues next. -/
def Fibre.leaving (f : Fibre) (pc : Pc) : Fibre :=
  { f with
    pc := pc, st := .transit, wait := 0, need := .none, resume := .none, anc := false, afterRtt := false, wf := none,
    paid := false, owed := [] }

/-- A trace record of a fibre that leaves for a core (R463). -/
def State.traceMigrate (s : State) (c : Nat) (tid : BitVec 48) (dest : Nat) : State :=
  s.traceRec c (s.core c).ctxid.toNat 3 tid (BitVec.ofNat 32 dest)

/-- The fibre of a slot sent to a reserved place: its slot becomes FREE (R394). -/
def State.depart (s : State) (c k : Nat) (t : Travel) (pc : Pc) : State :=
  let f := s.fib c k
  let s := s.traceMigrate c f.tid t.core
  (((s.setFib c k {}).leaveHot c k).send (.travel { t with f := f.leaving pc, src := some c })).1

/-- What a fibre that is to leave its core has still to do (R203, R234, R394): its own messages but for one are answered, and its
core's PRIVATE write buffer goes home. None once that is done. -/
def State.beforeLeave (s : State) (c j k : Nat) : Option State :=
  if (s.ownIds c j).any (· ≠ k) || !(s.pushIds c).isEmpty then some s
  else if !(s.core c).wbuf.isEmpty then some (s.pushAll c)
  else none

/-- The answers to a request at its sender (R391, R394, R398). -/
def State.reservedAt (s : State) (r : SpawnReq) (kids : Option (List Travel)) : State :=
  match r.mode with
  | .spawn =>
    let s := match kids with
      | some ts => s.sendAll r.core ts
      | none => s
    match r.res with
    | some xd => (s.send (.done r.core r.slot r.tid xd (spawnStatus kids))).1
    | none => s
  | .spawnT =>
    match kids with
    | some ts => (s.sendAll r.core ts).noteAnswer r.core r.slot (2 + (spawnStatus kids).toNat) none
    | none => s.noteAnswer r.core r.slot 2 (some (0x12, 0))
  | .migrate =>
    match kids with
    | some (t :: _) => s.depart r.core r.slot t ((s.fib r.core r.slot).pc + 8)
    | _ => s.noteAnswer r.core r.slot 41 (some (0x12, 0))
  | .atomic =>
    match kids with
    | some (t :: _) => s.depart r.core r.slot t (s.fib r.core r.slot).pc
    | _ => s.settle

/-- RESERVATION_ANSWER (R388, R391, R394, R398). -/
def execReservationAnswer (k : Nat) (s : State) : Out :=
  match s.net.get? k with
  | some (.reserved r kids) =>
    -- a MIGRATE that has its place pushes before it leaves (R394)
    let wait := if r.mode = .migrate ∧ kids.isSome then s.beforeLeave r.core r.slot k else none
    match wait with
    | some s => .next s
    | none => overPlane k (fun s => .next ((s.dropMsg k).reservedAt r kids)) s
  | _ => .fault .noSuchEvent

/-- A fibre placed in a slot: the core's read buffer and fetched bundles are discarded (R234), and it is READY. -/
def State.seat (s : State) (c k : Nat) (f : Fibre) : State :=
  ((s.pullAll c).setFib c k { f with st := .ready, wait := 0, need := .none }).rearm c

/-- A fibre at its core: in the slot reserved for it, or in the pool (R387), where its record shows TRANSIT with WAIT 8 (DESIGN
CHOICE, log 147). -/
def State.fibreAt (s : State) (t : Travel) : State :=
  match t.slot with
  | some j => s.seat t.core j t.f
  | none =>
    { s with
      pool := s.pool ++ [{ t with f := { t.f with st := .transit, wait := 8 } }]
      poolResv := s.poolResv.setD t.ctx (s.poolResv.getD t.ctx 0 - 1) 0 }

/-- FIBRE_ARRIVAL (R387, R390, R394). -/
def execFibreArrival (k : Nat) (s : State) : Out :=
  match s.net.get? k with
  | some (.travel t) => overPlane k (fun s => .next ((s.dropMsg k).fibreAt t)) s
  | _ => .fault .noSuchEvent

/-- The fibres of the resident context that wait in its pool for a core, by their places in the list; none while the
context is being evicted (R415). -/
def State.poolFor (s : State) (c : Nat) : List Nat :=
  match s.partOf c with
  | none => (s.pool.zipIdx).filterMap fun p => if p.1.core = c then some p.2 else none
  | some t =>
    if s.partState t ≠ 1 then []
    else (s.pool.zipIdx).filterMap fun p => if p.1.core = c ∧ s.resident t = some p.1.ctx then some p.2 else none

/-- POOL_PLACEMENT (R387): a fibre that waits in the pool for a core moves into a FREE slot of it. Which one is not
promised (R386). -/
def execPoolPlacement (core : Nat) (s : State) : Out :=
  match s.pickOne (s.poolFor core) with
  | (none, s) => .next s
  | (some i, s) =>
    match s.pickOne (s.freeSlots core) with
    | (none, s) => .next s
    | (some j, s) =>
      match s.pool[i]? with
      | none => .next s
      | some t => .next ({ s with pool := dropNth i s.pool }.seat core j t.f)

/-! ## SPAWN and SPAWNR -/

/-- The bits of FSW that a child takes from its parent (R390). -/
def spawnFsw : BitVec 32 := 0x00211F60#32

/-- The record of a child (R390): x0 to x3 of the parent, the entry PC, the TID. It follows all that the parent follows (R234). -/
def State.child (s : State) (pc : Word) (tid : BitVec 48) : Fibre :=
  let one (i : Fin 8) : XReg := { val := if i.val < 4 then s.rx i else 0, full := true }
  { x := Vector.ofFn one, pc := pc.setWidth 48, save := tid.setWidth 16, tid := tid, fsw := s.rfsw &&& spawnFsw,
    synced := s.nextId }

/-- A child on its way to a core. -/
def State.childFor (s : State) (core : Nat) (pc : Word) (tid : BitVec 48) : Travel :=
  { ctx := s.myCore.ctxid.toNat, core := core, slot := none, f := s.child pc tid }

/-- A spawn of children (R391), once its targets are known: a release of every earlier access (R234). With .t the fibre's WAIT is 7
until the answers have come (DESIGN CHOICE, log 146). -/
def spawnKids (t : Bool) (res : Option XR) (kids : List Travel) (s : State) : Out :=
  s.afterMsgs (s.mustWait { rel := true } 0 0 false) fun s =>
    let r : SpawnReq :=
      { mode := if t then .spawnT else .spawn, core := s.cur.core, slot := s.cur.slot, tid := s.me.tid, res := res,
        kids := kids }
    if t then
      let (s, id) := s.send (.reserve r)
      s.awaitIds 1 [id] none
    else
      let s := match res with
        | some xd => s.emptyX xd
        | none => s
      (s.send (.reserve r)).1.endC

/-- What the target of SPAWN with .v is: a core of this package, or a place in another one. -/
inductive VTarget where
  | core (c : Nat)
  | remote (c : Nat)
  deriving DecidableEq, Repr

/-- The core whose scratchpad a virtual address names (R391). -/
def State.scratchTarget (s : State) (a : Word) : Loc VTarget × State :=
  match s.xlateNamed a with
  | (.fault c v, s) => (.fault c v, s)
  | (.hold p v, s) => (.hold p v, s)
  | (.ok fs, s) =>
    let pa := physOf fs a
    let raw := rawOf (localOf pa)
    if !isVault raw then (.fault 0x05 a, s)
    else match vaultPart (vaultOff raw) with
      | .scratch i =>
        let c := tileCore (vaultTile raw) i
        (.ok (if s.isRemote pa then .remote c else .core c), s)
      | _ => (.fault 0x05 a, s)

/-- The answer of another package to a spawn: its status is free (log 8). -/
def remoteSpawn (t : Bool) (res : Option XR) (a : Word) (s : State) : Out :=
  s.afterMsgs (s.mustWait { rel := true } 0 0 false) fun s =>
    let (n, s) := s.takeFresh
    let st := (Config.freeWord n).toNat % 3
    if t && st == 2 then s.endTrap false 0x12 a
    else (s.setXo res (BitVec.ofNat 64 st)).endC

/-- The end of a SPAWN or SPAWNR with .t whose reservations have been answered (R391). -/
def spawnAnswered (res : Option XR) (a : Word) (stage : Nat) (fail : Option (Nat × Word)) (s : State) : Out :=
  match fail with
  | some (c, _) => s.endTrap false c a
  | none => (s.setXo res (BitVec.ofNat 64 (stage - 2))).endC

/-- SPAWN (R391). -/
def execSpawn (v t : Bool) (xa xb xc : XR) (res : Option XR) (s : State) : Out :=
  memSlot (.spawn v t xa xb xc res) s fun s =>
    let a := s.rx xa
    let pc := s.rx xb
    let kid (c : Nat) : Travel := s.childFor c pc ((s.rx xc).setWidth 48)
    match s.me.resume with
    | .stage n _ fail => spawnAnswered res a n fail s
    | .none =>
      if fld pc.toNat 48 16 ≠ 0 then s.endTrap false 0x03 pc
      else if fld pc.toNat 0 3 ≠ 0 then s.endTrap false 0x0A pc
      else if v then
        located (s.scratchTarget a) fun tgt s =>
          match tgt with
          | .remote _ => remoteSpawn t res a s
          | .core c =>
            if s.samePart s.cur.core c then spawnKids t res [kid c] s
            else s.endTrap false 0x15 (BitVec.ofNat 64 c)
      else if s.samePart s.cur.core a.toNat then spawnKids t res [kid a.toNat] s
      else s.endTrap false 0x15 a

/-- The cells of a rectangle in row-major order from its corner: row and column (R391). -/
def rectCells (corner w h : Nat) : List (Nat × Nat) :=
  (List.range h).flatMap fun y => (List.range w).map fun x => (corner / 512 + y, corner % 512 + x)

/-- Whether a cell lies in the grid and in the partition of the running core. -/
def State.cellOk (s : State) (p : Nat × Nat) : Bool :=
  decide (p.1 ≤ 255) && decide (p.2 ≤ 511) && s.samePart s.cur.core (p.1 * 512 + p.2)

/-- SPAWNR (R391): ranks in row-major order. -/
def execSpawnr (t : Bool) (xa xb xc : XR) (w h : BitVec 10) (res : Option XR) (s : State) : Out :=
  memSlot (.spawnr t xa xb xc w h res) s fun s =>
    let a := s.rx xa
    let pc := s.rx xb
    match s.me.resume with
    | .stage n _ fail => spawnAnswered res a n fail s
    | .none =>
      if fld pc.toNat 48 16 ≠ 0 then s.endTrap false 0x03 pc
      else if fld pc.toNat 0 3 ≠ 0 then s.endTrap false 0x0A pc
      else if 131072 ≤ a.toNat then s.endTrap false 0x15 a
      else
        let cells := rectCells a.toNat w.toNat h.toNat
        match cells.find? fun p => !s.cellOk p with
        | some p => s.endTrap false 0x15 (BitVec.ofNat 64 (p.1 * 512 + p.2))
        | none =>
          let kids := (cells.zipIdx).map fun q =>
            s.childFor (q.1.1 * 512 + q.1.2) pc ((s.rx xc).setWidth 48 + BitVec.ofNat 48 q.2)
          spawnKids t res kids s

/-! ## MIGRATE -/

/-- Where MIGRATE.v goes: the home core of an address (R394, R398). -/
def State.homeTarget (s : State) (a : Word) : Loc VTarget × State :=
  match s.xlateNamed a with
  | (.fault c v, s) => (.fault c v, s)
  | (.hold p v, s) => (.hold p v, s)
  | (.ok fs, s) =>
    let pa := physOf fs a
    match homeCore (localOf pa) with
    | none => (.fault 0x05 a, s)
    | some c => (.ok (if s.isRemote pa then .remote c else .core c), s)

/-- MIGRATE to a core once its faults are excluded (R394): a place is reserved first, and the fibre pushes and leaves when it has
one. -/
def migrateTo (dest : Nat) (s : State) : Out :=
  if dest = s.cur.core then s.settled true fun s => (s.pullAll s.cur.core).endC
  else
    s.waitRecs fun s =>
      match s.me.resume with
      | .stage 41 _ (some (c, _)) => s.endTrap false c (BitVec.ofNat 64 dest)
      | _ =>
        let kid : Travel := { ctx := s.myCore.ctxid.toNat, core := dest, slot := none, f := s.me }
        let r : SpawnReq :=
          { mode := .migrate, core := s.cur.core, slot := s.cur.slot, tid := s.me.tid, res := none, kids := [kid] }
        let (s, id) := s.send (.reserve r)
        (s.modMe fun f => { f with resume := .stage 41 [id] none }).endPark 8 (.gone [id])

/-- MIGRATE to a core of another package (R394): whether it has a place is free, and the fibre goes out of sight (log 8). -/
def migrateFar (dest : Nat) (s : State) : Out :=
  s.waitRecs fun s =>
    let leave (s : State) : Out :=
      s.pushOut true fun s => .next (s.traceMigrate s.cur.core s.me.tid dest).freeMe
    match s.me.resume with
    | .stage .. => leave s
    | .none =>
      let (n, s) := s.takeFresh
      if (Config.freeWord n).getLsbD 0 then s.endTrap false 0x12 (BitVec.ofNat 64 dest)
      else leave (s.modMe fun f => { f with resume := .stage 43 [] none })

/-- MIGRATE (R394). -/
def execMigrate (v : Bool) (xa : XR) (s : State) : Out :=
  slotC (.migrate v xa) s fun s =>
    let a := s.rx xa
    if s.me.anc then s.endTrap false 0x0F 0
    else if s.me.lvl ≠ 0 then s.endTrap false 0x0F 1
    else if v then
      located (s.homeTarget a) fun tgt s =>
        match tgt with
        | .remote c => migrateFar c s
        | .core c => if s.samePart s.cur.core c then migrateTo c s else s.endTrap false 0x15 (BitVec.ofNat 64 c)
    else if s.samePart s.cur.core a.toNat then migrateTo a.toNat s
    else s.endTrap false 0x15 a

end Sys2Proof.Machine
end

