-- ==== Sys2Proof/Machine/Atomic.lean ====
section
/-!
DEFINITION. The atomics AMO, AMOL, FAMO and CAS (R397, R398) and DECJ (R399), and what a reply does to a register (R398).
-/

namespace Sys2Proof.Machine

/-- The two-bit order's acquire part (R220). -/
def Ord2.acq : Ord2 → Bool
  | .acq | .ar => true
  | _ => false
/-- The two-bit order's release part (R220). -/
def Ord2.rel : Ord2 → Bool
  | .rel | .ar => true
  | _ => false

/-- What is wrong at the home of an atomic, once its controller has read the atom (R398). -/
def State.atomFault (s : State) (x : Site) : Bool × State :=
  if x.remote then (false, s)
  else
    let t := (s.touchLines x.pa x.len true).meet x.pa x.len
    if t.isRetired x.pa || (t.firstPoison x.pa x.len).isSome then (true, t) else (false, s)

/-- Where an atomic lands (R398): on a STRICT or RELEASE page, aligned, in no register and in no window but one of
FP32. -/
def State.locateAtom (s : State) (sz : Wd) (a : Word) : Loc Site × State :=
  s.locate { acc := { rd := true, wr := true, need := .atomic }, n := Wd.bytes sz, conv := false, own := true } a

/-- The message of an atomic to another package answered: its old value is free (log 8). -/
def State.remoteAtom (s : State) (xd : XR) (sz : Wd) (zeroExt : Bool) : State :=
  let (n, s) := s.takeFresh
  let v := (Config.freeWord n).toNat
  (s.send (.fill s.cur.core s.cur.slot xd (if zeroExt then BitVec.ofNat 64 (v % 2 ^ 32) else signExt sz v) .none none)).1

/-- An atomic (R398): x[xd] is EMPTY until the reply. With .m the fibre waits for it and then moves. -/
def atomic (op : AtomOp) (sz : Wd) (ord : Ord2) (sc : Scope) (mg : Bool) (xd : XR) (operand : Word) (a : Word) (s : State) :
    Out :=
  -- a fibre at level 1 or 2 stays (R422)
  let mg := mg && s.me.lvl == 0
  located (s.locateAtom sz a) fun x s =>
    if mg && s.me.anc then s.endTrap false 0x0F 0
    else
      let cls := { x.cls true true (Ord2.acq ord) (Ord2.rel ord) with near := Ord2.rel ord && sc != .span }
      s.afterEarlier cls [x] fun s =>
        match s.atomFault x with
        | (true, s) => s.endHomeTrap 0x09 a
        | (false, s) =>
          let s := s.pendX xd a
          if x.remote then ((if cls.acq || cls.strict then s.hearMe else s).remoteAtom xd sz (match op with
            | .famo _ => true
            | _ => false)).endC
          else
            let (s, id) := s.sendMine x cls (.atomic op sz operand xd mg)
            if mg then .next ((s.retire.parkMe 1 (.gone [id])).withDisp .retired) else s.endC

/-- AMO (R397, R398). -/
def execAmo (op : AmoOp) (sz : Wd) (ord : Ord2) (sc : Scope) (mg : Bool) (xd xs xa : XR) (s : State) : Out :=
  memSlot (.amo op sz ord sc mg xd xs xa) s fun s => atomic (.amo op) sz ord sc mg xd (s.rx xs) (s.rx xa) s
/-- AMOL (R397, R398). -/
def execAmol (op : AmoOp) (sz : Wd) (ord : Ord2) (sc : Scope) (mg : Bool) (xd xs xa : XR) (off : BitVec 32)
    (s : State) : Out :=
  memSlot (.amol op sz ord sc mg xd xs xa off) s fun s => atomic (.amo op) sz ord sc mg xd (s.rx xs) (s.addr xa off) s
/-- FAMO (R397, R398). -/
def execFamo (op : FamoOp) (ord : Ord2) (sc : Scope) (mg : Bool) (xd xs xa : XR) (s : State) : Out :=
  memSlot (.famo op ord sc mg xd xs xa) s fun s => atomic (.famo op) .w ord sc mg xd (s.rx xs) (s.rx xa) s
/-- CAS (R397, R398). -/
def execCas (sz : Wd) (ord : Ord2) (sc : Scope) (mg : Bool) (xd xs xa : XR) (off : BitVec 32) (s : State) : Out :=
  memSlot (.cas sz ord sc mg xd xs xa off) s fun s =>
    atomic (.cas (match sz with
      | .w => (s.rx xd) &&& 0xFFFFFFFF#64
      | .d => s.rx xd)) sz ord sc mg xd (s.rx xs) (s.addr xa off) s

/-- An atomic performed at its home: its reply on its way, or the poison flag (R212, R398). -/
def State.homeAtomic (s : State) (k : Nat) (a : Acc) (op : AtomOp) (sz : Wd) (operand : Word) (xd : XR) (mg : Bool) : State :=
  match a.owner with
  | .fibre c j =>
    match s.performAtomic a op sz operand with
    | (s, some v) => s.putMsg k (.fill c j xd v .none (if mg then homeCore a.pa else none))
    | (s, none) => s.putMsg k (.fill c j xd 0 .poison none)
  | _ => s.dropMsg k

/-- The reply of an atomic with .m at its fibre, once the register is written: the fibre asks for a place at the home core
when that lies in the partition and the fibre may leave, and otherwise stays (R398, R422). It waits first as MIGRATE
does; when its own core is the home core, it pushes and pulls there (R203, R234, R394). -/
def State.tryMove (s : State) (k c j dest : Nat) : State :=
  let f := s.fib c j
  if !s.samePart c dest ∨ f.lvl ≠ 0 then (s.dropMsg k).settle
  else if f.recs ≠ 0 then s
  else match s.beforeLeave c j k with
  | some s => s
  | none =>
  if dest = c then ((s.dropMsg k).pullAll c).settle
  else
    let s := s.drainArith c j
    let f := s.fib c j
    s.putMsg k (.reserve
      { mode := .atomic, core := c, slot := j, tid := f.tid, res := none,
        kids := [{ ctx := (s.core c).ctxid.toNat, core := dest, slot := none, f := f }] })

/-! ## DECJ (R399) -/

/-- The class of a DECJ: its decrement is a relaxed Store, on a STRICT page too (R220, R236, R471; DEDUCED, log 150). -/
def decjCls : Cls := { st := true }

/-- The commit of a DECJ on its way to the block's home (R399). -/
def Acc.joining (a : Acc) (blk : Nat) (sz : Wd) (xd : XR) (old : Word) : Msg :=
  .req { a with va := old, pa := blk, len := 512, ty := .once, op := .decj sz xd 0 }

/-- A DECJ whose counter lies in another package: the old value is free (log 8), and 1 commits (R399). -/
def State.remoteDecj (s : State) (x : Site) (sz : Wd) (xd : XR) (blk : Nat) : State :=
  let (n, s) := s.takeFresh
  let old := (Config.freeWord n).toNat % 2 ^ (8 * Wd.bytes sz)
  if old = 1 then
    let a : Acc :=
      { owner := s.mine, tid := s.me.tid, ctx := s.myCore.ctxid.toNat, va := x.va, pa := x.pa, len := x.len, ty := x.ty,
        cls := decjCls, op := .decj sz xd blk }
    (s.send (a.joining blk sz xd (signExt sz old))).1
  else (s.send (.fill s.cur.core s.cur.slot xd (signExt sz old) .none none)).1

/-- DECJ (R399): the counter as AMO's location, the block as a commit's. -/
def execDecj (sz : Wd) (span : Bool) (xd xa xs : XR) (s : State) : Out :=
  memSlot (.decj sz span xd xa xs) s fun s =>
    let a := s.rx xa
    let b := s.rx xs &&& ~~~511#64
    located (s.locateAtom sz a) fun x s =>
      match s.reach { acc := { wr := true, need := .block }, n := 512, own := true } [{ va := b, len := 512 }] with
      | (.fault c v, s) => s.endTrap false c (if c = 0x05 then s.rx xs else v)
      | (.hold p v, s) => s.endHold p v
      | (.ok fs, s) =>
        let pb := physOf fs b
        if !span && (x.remote || s.isRemote pb) then s.endTrap false 0x05 a
        else
          s.afterEarlier decjCls [x] fun s =>
            match s.atomFault x with
            | (true, s) => s.endHomeTrap 0x09 a
            | (false, s) =>
              let s := s.pendX xd a
              if x.remote then (s.remoteDecj x sz xd (s.placed pb)).endC
              else (s.sendMine x decjCls (.decj sz xd (s.placed pb))).1.endC

/-- A decrement performed at the counter's home (R399): the old value on its way, after the commit of 512 zero bytes when
the counter has come from 1 to 0. -/
def State.homeDecj (s : State) (k : Nat) (a : Acc) (sz : Wd) (xd : XR) (blk : Nat) : State :=
  match a.owner with
  | .fibre c j =>
    let n := Wd.bytes sz
    let s := (s.touchLines a.pa n true).meet a.pa n
    if s.isRetired a.pa || (s.firstPoison a.pa n).isSome then s.putMsg k (.fill c j xd 0 .poison none)
    else
      let old := s.nat a.pa n
      let s := s.writeAtom a n ((old + 2 ^ (8 * n) - 1) % 2 ^ (8 * n))
      let reply := Msg.fill c j xd (signExt sz old) .none none
      -- the commit travels on under the same number; its answer brings the old value
      s.putMsg k (if old = 1 then a.joining blk sz xd (signExt sz old) else reply)
  | _ => s.dropMsg k

/-- Whether the commit of a DECJ waits: it is a release, and earlier accesses of its fibre have not been performed (R231,
R236). -/
def State.joinWaits (s : State) (k : Nat) (a : Acc) : Bool :=
  match a.owner with
  | .fibre c j => (s.openReqs c j).any fun q => decide (q.1 < k)
  | _ => false

/-- The commit of a DECJ performed at the block's home (R399): one that finds the block FULL or RETIRED is discarded with
record 0x2F. What another package's home finds is free (log 8). -/
def State.homeJoin (s : State) (k : Nat) (a : Acc) (xd : XR) : State :=
  match a.owner with
  | .fibre c j =>
    let (s, code) := if a.far then s.farCommit
      else s.performCommit a.pa { data := List.replicate 512 0, bound := 0, maxe := 0, poison := [] }
    let s := if code = 0 then s
      else s.errRec 0x2F (s.recCtx c) [a.tid.setWidth 64, BitVec.ofNat 64 (a.pa % 2 ^ 56)]
    s.putMsg k (.fill c j xd a.va .none none)
  | _ => s.dropMsg k

end Sys2Proof.Machine
end

