-- ==== Sys2Proof/Machine/Hold.lean ====
section
/-!
DEFINITION. Host accesses through BAR2 (R446) and the host combining buffer (R447, R448), what the end of a hold sets
going again (R143), and the drain of a page (R145).
-/

namespace Sys2Proof.Machine

/-! ## Messages to the host -/

/-- The state with a message to the host. -/
def State.tellHost (s : State) (m : HostMsg) : State := { s with toHost := m :: s.toHost }

/-- MSI-X vector `v` sent, or held pending while it is masked (R445). -/
def State.msix (s : State) (v : Nat) : State :=
  let a := 0x300000 + 16 * v
  if s.regF (a + 8) 32 1 = 1 then s.setRegF (0x308000 + v / 64 * 8) (v % 64) 1 1
  else s.tellHost (.msix v (s.reg a) ((s.reg (a + 8)).setWidth 32))

/-! ## The host combining buffer -/

/-- A commit from the host (R197, R447). One that meets a reservation of MST finds the block FULL (R324). -/
def State.hostCommit (s : State) (blk : Nat) (data : List Byte) : State :=
  if s.reserved blk then s.errRec 0x2C none [BitVec.ofNat 64 blk]
  else
  match s.performCommit blk { data := data, bound := 0xFFFF, maxe := 0xFF, poison := [] } with
  | (s, 0) => s
  | (s, 1) => s.errRec 0x2C none [BitVec.ofNat 64 blk]
  | (s, _) => s.errRec 0x22 none [BitVec.ofNat 64 blk]

/-- The state without the combining entry of a block. -/
def State.hcbDrop (s : State) (blk : Nat) : State := { s with hcb := s.hcb.filter fun e => e.blk != blk }

/-- The offset of HCB_STAT (R444). -/
def hcbStatOff : Nat := 0x210010

/-- The oldest combining entry discarded for want of room: record 0x40, and DISC counts (R448). -/
def State.hcbEvict (s : State) : State :=
  match s.hcb with
  | [] => s
  | e :: es =>
    let s := { s with hcb := es }
    let s := s.setRegF hcbStatOff 0 32 (min (s.regF hcbStatOff 0 32 + 1) (2 ^ 32 - 1))
    s.errRec 0x40 none [BitVec.ofNat 64 e.blk]

/-- A write of bytes merged into the combining buffer (R447): an entry that it completes commits. -/
def State.hcbWrite (s : State) (a : Nat) (data : List Byte) : State :=
  let blk := blkOf a
  if data.length = 512 then (s.hcbDrop blk).hostCommit blk data
  else
    let old := s.hcb.find? fun e => e.blk == blk
    let s := if old.isNone && decide (128 ≤ s.hcb.length) then s.hcbEvict else s
    let e := (old.getD { blk := blk, bytes := [], mark := none }).merge (a % 512) data
    if e.isFull then (s.hcbDrop blk).hostCommit blk e.data
    else if old.isSome then { s with hcb := s.hcb.map fun o => if o.blk = blk then e else o }
    else { s with hcb := s.hcb ++ [e] }

/-- The seal of a block by the host (R447): the entry commits with its unwritten bytes zero, or 512 zero bytes do; a
block that lies on no ONCE page is refused with record 0x45. -/
def State.hcbSeal (s : State) (blk : Nat) : State :=
  let ok := s.exists_ blk && regionOf blk != .sysreg && (windowOf blk).isNone && pptType (s.typeByte blk) == .once
    && (pptIndex blk).isSome
  if !ok then s.errRec 0x45 none [BitVec.ofNat 64 blk]
  else
    let e := (s.hcb.find? fun e => e.blk == blk).getD { blk := blk, bytes := [], mark := none }
    (s.hcbDrop blk).hostCommit blk e.data

/-! ## Host accesses -/

/-- Whether a host access names a target that it may reach (R446): one block of 1 to 512 bytes in memory that exists. -/
def State.hostTarget (s : State) (pa n : Nat) (write : Bool) : Bool :=
  decide (1 ≤ n) && decide (n ≤ 512) && blkOf pa == blkOf (pa + n - 1) && s.exists_ pa &&
    (match regionOf pa with
      | .sysreg | .window _ => false
      | .vault => !(write && vaultPart (vaultOff pa) == .bRegion)
      | _ => true)

/-- A host read performed (R214, R446): poison completes with EP set (R93). -/
def State.hostRead (s : State) (k pa n : Nat) : State :=
  let s := ((s.touchLines pa n false).meet pa n).meetPpt pa
  let once := pptType (s.typeByte pa) == .once
  if s.isRetired pa then s.tellHost (.read k (s.bytes pa n) true)
  else if once && (s.blkMeta pa).pres != .full then s.tellHost (.read k (List.replicate n 0) false)
  else s.tellHost (.read k (s.bytes pa n) (s.firstPoison pa n).isSome)

/-- A host write performed (R446, R447): into a RETIRED block it changes nothing and sends record 0x22. -/
def State.hostWrite (s : State) (pa : Nat) (data : List Byte) : State :=
  if pptType (s.typeByte pa) = .once then s.hcbWrite pa data
  else
    let s := (s.touchLines pa data.length true).meet pa data.length
    if s.isRetired pa then s.errRec 0x22 none [BitVec.ofNat 64 (blkOf pa)]
    else s.performWrite 0 pa data

/-- What a host access that is tried comes to. -/
inductive Tried where
  /-- it is done -/
  | done
  /-- it goes on as a message, and later ones wait behind it -/
  | sent
  /-- it waits -/
  | waits
  deriving DecidableEq, Repr

/-- A register access that has waited behind a posted write goes on as a message. -/
def State.sendHostReg (s : State) (w : HostWait) : State :=
  let op : HomeOp := match w.data with
    | some d => .sysWrite (BitVec.ofNat 64 (natOfBytes d))
    | none => .sysRead 0
  (s.sendAcc (.host w.k) 0 0 0 w.pa w.n .strict {} op).1

/-- A host access tried: it is performed, or it waits on a held page (R446). -/
def State.hostTry (s : State) (w : HostWait) : State × Tried :=
  if w.reg then if w.data.isSome && s.summary.isSome then (s, .waits) else (s.sendHostReg w, .sent)
  else if !s.hostTarget w.pa w.n w.data.isSome then (s.tellHost (.unsupported w.k), .done)
  else if s.isHeld w.pa || s.wakeStuck (blkOf w.pa) || (w.data.isSome && s.reserved (blkOf w.pa)) then (s, .waits)
  else
    match w.data with
    | none => (s.hostRead w.k w.pa w.n, .done)
    | some d => (s.hostWrite w.pa d, .done)

/-- The host accesses that wait tried again, in their order; each waits behind a posted write or a register access that
has not been performed. -/
def State.pumpHostFrom (s : State) : List HostWait → Bool → State × List HostWait
  | [], _ => (s, [])
  | w :: ws, behind =>
    if behind then (s, w :: ws)
    else
      match s.hostTry w with
      | (s, .done) => s.pumpHostFrom ws false
      | (s, .sent) => s.pumpHostFrom ws true
      | (s, .waits) =>
        let (s, rest) := s.pumpHostFrom ws w.data.isSome
        (s, w :: rest)

/-- Whether a host register access is under way as a message. -/
def State.hostRegBusy (s : State) : Bool :=
  s.net.any fun m => match m.2 with
    | .req a => (match a.owner with
      | .host _ => true
      | _ => false)
    | _ => false

/-- The host accesses that wait tried again. -/
def State.pumpHost (s : State) : State :=
  let ws := s.hostHeld
  let (s, rest) := s.pumpHostFrom ws s.hostRegBusy
  { s with hostHeld := rest }

/-- A host access that arrives. -/
def State.hostArrives (s : State) (pa n : Nat) (data : Option (List Byte)) (reg : Bool) : State :=
  let w : HostWait := { k := s.hostReqs, pa := pa, n := n, data := data, reg := reg }
  let s := { s with hostReqs := s.hostReqs + 1, hostHeld := s.hostHeld ++ [w] }
  s.pumpHost

/-! ## Registers through BAR0 (R445, R465) -/

/-- Whether the management controller has reported READY. -/
def State.isReady (s : State) : Bool := s.regF 0x210100 63 1 == 1

/-- Whether a host request waits behind a posted write (R446). -/
def State.hostBehind (s : State) : Bool := s.hostRegBusy || s.hostHeld.any fun w => w.data.isSome

/-- A write of a register through BAR0: ignored until READY (R465); behind a posted write that is held, and while a state
summary runs (R454), it waits. -/
def barWrite (off : Nat) (val : Word) (k : State → Out) (s : State) : Out :=
  if !s.isReady then .next s
  else if s.hostBehind || s.summary.isSome then .next (s.hostArrives (sysBase + off) 8 (some (wordBytes val)) true)
  else k s

/-- The bytes of a register that an access of 8 bytes, or of one aligned half, reads (R445). -/
def halfOf (off n : Nat) (v : Word) : Word := if n = 4 then BitVec.ofNat 64 (fld v.toNat (off % 8 * 8) 32) else v

/-- A read of a register through BAR0: zero until READY, but of MGMT_STAT (R465). -/
def barRead (off : Nat) (s : State) (n : Nat := 8) : Out :=
  if !s.isReady && off != 0x210100 then .next (s.tellHost (.bar0 off 0))
  else if s.hostBehind then .next (s.hostArrives (sysBase + off) n none true)
  else
    let (v, s) := s.readReg (off / 8 * 8)
    .next (s.tellHost (.bar0 off (halfOf off n v)))

/-- The offset of AP_BASE. -/
def apBaseOff : Nat := 0x210000

/-- What a message writes to AP_BASE for the host. -/
def Msg.apWrite : Msg → Option Word
  | .req a => match a.owner, a.op with
    | .host _, .sysWrite v => if a.pa = sysBase + apBaseOff then some v else none
    | _, _ => none
  | _ => none

/-- The base of the aperture for a request that arrives now: a write of AP_BASE that arrived before it applies, also while that
write still waits (R446). -/
def State.apBase (s : State) : Nat :=
  let waiting := s.hostHeld.filterMap fun w => if w.reg && w.pa == sysBase + apBaseOff then w.data else none
  let vals := (s.net.filterMap fun m => m.2.apWrite).map BitVec.toNat ++ waiting.map natOfBytes
  match vals.getLast? with
  | some v => fld v 36 10
  | none => s.regF apBaseOff 36 10

/-- The local physical address of a BAR2 offset (R446). -/
def State.apAddr (s : State) (off : Nat) : Nat := s.apBase * 2 ^ 36 + off

/-- BAR2_READ (R446). An access beyond the aperture's 64 GiB is none of this function's. -/
def execBar2Read (off n : Nat) (s : State) : Out :=
  if 2 ^ 36 < off + n then .fault .noSuchEvent else .next (s.hostArrives (s.apAddr off) n none false)

/-- BAR2_WRITE (R446, R447). -/
def execBar2Write (off : Nat) (data : List Byte) (s : State) : Out :=
  if 2 ^ 36 < off + data.length then .fault .noSuchEvent
  else .next (s.hostArrives (s.apAddr off) data.length (some data) false)

/-- HOST_WRITE_DROP (R144, R446): a posted write that has been held too long is dropped with record 0x44, and the requests
behind it proceed. -/
def execHostWriteDrop (k : Nat) (s : State) : Out :=
  match s.hostHeld.find? fun w => w.k == k && w.data.isSome && !w.reg && s.isHeld w.pa with
  | none => .fault .noSuchEvent
  | some w =>
    let s := { s with hostHeld := s.hostHeld.filter fun o => o.k != k }
    .next (s.errRec 0x44 none [BitVec.ofNat 64 w.pa]).pumpHost

/-! ## Channels set going -/

/-- Whether a message of an operation of a channel is under way. -/
def Msg.ofChan (t : Nat) (conv : Bool) (p : Nat) (op : HomeOp) : Msg → Bool
  | .req a => a.owner == .channel t conv p && a.op == op
  | _ => false

/-- A message on which a channel takes its next step; it names no byte of memory. -/
def State.chanSend (s : State) (t : Nat) (conv : Bool) (p : Nat) (op : HomeOp) : State :=
  if s.net.any fun m => m.2.ofChan t conv p op then s
  else (s.sendAcc (.channel t conv p) 0 0 0 (2 ^ 57) 0 .strict {} op).1

/-- A channel of a tile. -/
def Tile.chan (t : Tile) (conv : Bool) (p : Nat) : Chan :=
  if conv then t.conv.get (Fin.ofNat 4 p) else t.copy.get (Fin.ofNat 8 p)
/-- A tile with a channel set. -/
def Tile.setChan (t : Tile) (conv : Bool) (p : Nat) (c : Chan) : Tile :=
  if conv then { t with conv := t.conv.set (Fin.ofNat 4 p) c } else { t with copy := t.copy.set (Fin.ofNat 8 p) c }

/-- A channel that goes on after it has waited: it is BUSY, and takes its next steps. -/
def State.chanGo (s : State) (t : Nat) (conv : Bool) (p : Nat) : State :=
  let s := s.modTile t fun k => k.setChan conv p { k.chan conv p with st := .busy, wait := .none }
  (s.chanSend t conv p .chanRead).chanSend t conv p .chanWrite

/-- The channels of a tile that wait for something. -/
def Tile.waiting (k : Tile) (g : ChWait → Bool) : List (Bool × Nat) :=
  ((List.range 8).filterMap fun p => if g (k.chan false p).wait then some (false, p) else none) ++
    ((List.range 4).filterMap fun p => if g (k.chan true p).wait then some (true, p) else none)

/-- The channels of the package that wait for something go on. -/
def State.chansGo (s : State) (g : ChWait → Bool) : State :=
  s.tiles.foldl (fun s e => (e.2.waiting g).foldl (fun s q => s.chanGo e.1 q.1 q.2) s) s

/-! ## The end of a hold -/

/-- The state in which holds on some pages have ended: the accesses they held replay (R143). -/
def State.releaseHolds (s : State) (pages : Nat → Bool) : State :=
  let s := s.wakeWhere fun _ _ f => match f.need with
    | .hold p _ => pages p
    | _ => false
  let s := s.chansGo fun w => match w with
    | .hold p _ => pages p
    | _ => false
  s.pumpAll.pumpHost

/-! ## The drain of a page (R145) -/

/-- The accesses of a kind that have not been performed. -/
def State.openWhere (s : State) (g : Acc → Bool) : List Nat :=
  s.net.filterMap fun p => match p.2 with
    | .req a => if g a then some p.1 else none
    | _ => none

/-- Whether an access touches a page: the block that a DECJ is to fill is touched from its translation on (R399). -/
def Acc.inPage (a : Acc) (page : Nat) : Bool :=
  pageOf a.pa == page ||
    (match a.op with
      | .decj _ _ blk => a.ty != .once && pageOf blk == page
      | _ => false)

/-- The accesses to a page that have not been performed, but for those that the page's hold keeps back. -/
def State.pageOpen (s : State) (page : Nat) : List Nat := s.openWhere fun a => a.inPage page && !a.late

/-- Whether a RETYPE of a page is under way (R147). -/
def State.retyping (s : State) (page : Nat) : Bool :=
  s.net.any fun m => match m.2 with
    | .retype _ _ _ _ _ _ _ p => p == page
    | _ => false

/-- The first byte of a physical page. -/
def pageAddr (page : Nat) : Nat := page * 65536

/-- The state with the bit M of a page's type byte set or cleared; setting it drops the page's translations (R145). -/
def State.setHeld (s : State) (page : Nat) (on : Bool) : State :=
  let s := s.meetPpt (pageAddr page)
  let b := s.typeByte (pageAddr page)
  let b' := b - fld b 2 1 * 4 + on.toNat * 4
  let s := s.setPpt (pageAddr page) b'
  if on then s.dropTlbs fun e => e.maps page else s

/-- The state with the type in a page's type byte changed. -/
def State.setPageType (s : State) (page : Nat) (ty : PageType) : State :=
  let s := s.meetPpt (pageAddr page)
  let b := s.typeByte (pageAddr page)
  s.setPpt (pageAddr page) (b - fld b 0 2 + PageType.code ty)

end Sys2Proof.Machine
end

