-- ==== Sys2Proof/Machine/System.lean ====
section
/-!
DEFINITION. TRAP, BRK and RTT (R429, R430), the system registers MFS and MTS name (R425 to R427, R432), and IDR (R412).
-/

namespace Sys2Proof.Machine

/-- TRAP (R429): it retires, and trap entry follows at the next bundle with cause 0x16. -/
def execTrap (code : BitVec 16) (s : State) : Out :=
  slotC (.trap code) s fun s =>
    let s := s.modMe fun f => { f with pc := f.pc + 8 }
    s.endTrap false 0x16 (code.setWidth 64)

/-- BRK (R429): trap entry at its own address with cause 0x14. -/
def execBrk (code : BitVec 16) (s : State) : Out :=
  slotC (.brk code) s fun s => s.endTrap false 0x14 (code.setWidth 64)

/-- RTT (R430): privileged; at level 0 it is an illegal encoding. -/
def execRtt (s : State) : Out :=
  slotC .rtt s fun s => if s.me.lvl = 0 then s.endTrap false 0x01 s.bundleWord else .next s.trapReturn

/-- IDR (R412). -/
def execIdr (xd : XR) (index : Fin 9) (s : State) : Out :=
  slotC (.idr xd index) s fun s => (s.setX xd (s.myCore.ident.get index)).endC

/-! ## System registers -/

/-- The address of the current level's save-area half (R432). -/
def State.sahalf (s : State) : Word :=
  (s.reg (ctxTrapOff s.myCore.ctxid.toNat + 16) &&& ~~~1023#64)
    + BitVec.ofNat 64 (s.me.save.toNat * 1024 + (Nat.max s.me.lvl 1 - 1) * 512)

/-- The value of a register of a trap bank (R425): 1 tcause, 2 tpc, 3 tval, 4 tkeep. -/
def TrapBank.read (b : TrapBank) (j : Nat) : Word :=
  match j with
  | 1 => b.cause
  | 2 => b.pc &&& 0x0000FFFFFFFFFFFF#64
  | 3 => b.val
  | _ => b.keep

/-- A trap bank with a register written under its field table (R425). -/
def TrapBank.write (b : TrapBank) (j : Nat) (v : Word) : TrapBank :=
  match j with
  | 1 => { b with cause := v &&& 0x1BF#64 }
  | 2 => { b with pc := v &&& 0x0000FFFFFFFFFFF8#64 }
  | 3 => { b with val := v }
  | _ => { b with keep := v }

/-- The value that MFS reads of a system register (R425), and the state after the read. -/
def State.readSys (s : State) (n : Nat) : Word × State :=
  let r := s.myCore
  let ctx := r.ctxid.toNat
  if n = 0x00 then (s.me.fsw.setWidth 64, s)
  else if n = 0x01 then (s.me.tid.setWidth 64, s)
  else if n = 0x02 then (r.ctxid.setWidth 64, s)
  else if n = 0x03 then (BitVec.ofInt 64 r.ebud, s)
  else if n = 0x04 then (BitVec.ofNat 64 r.qtm, s)
  else if n = 0x05 then
    let (t, s) := s.now
    (BitVec.ofNat 64 (t / 2), s)
  else if n = 0x06 then (s.sahalf, s)
  else if n < 0x10 then ((r.wf.get (Fin.ofNat 8 (n - 0x08))).setWidth 64, s)
  else if n < 0x18 then (r.wfl.get (Fin.ofNat 8 (n - 0x10)), s)
  else if n = 0x20 then (s.tvec ctx 1, s)
  else if n = 0x28 then (s.tvec ctx 2, s)
  else if n < 0x25 then (s.me.bank1.read (n - 0x20), s)
  else if n < 0x2D then (s.me.bank2.read (n - 0x28), s)
  else (s.reg (ctxTrapOff ctx + 16), s)

/-- MFS (R427): fsw waits for the fibre's FP results (R271). Its result comes later than the bundle (R268). -/
def execMfs (xd : XR) (reg : BitVec 12) (s : State) : Out :=
  slotC (.mfs xd reg) s fun s =>
    let s := if reg = 0 then s.drainArith s.cur.core s.cur.slot else s
    let (v, s) := s.readSys reg.toNat
    ((s.emptyX xd).send (.fill s.cur.core s.cur.slot xd v .none none)).1.endC

/-- What MTS refuses of a value: a quantum out of range (R383), a reserved format (R177). -/
def mtsRefuses (n : Nat) (v : Word) : Bool :=
  (n == 0x04 && (decide (v.toNat < 256) || decide (65536 < v.toNat))) ||
    (decide (0x08 ≤ n) && decide (n < 0x10) && !fmtOk (v.setWidth 6))

/-- A register written under its field table in the system register space (R426). -/
def State.writeField (s : State) (off : Nat) (v : Word) : State :=
  match regName off with
  | some r => s.setReg off (r.written (s.reg off) v)
  | none => s

/-- A system register written by MTS (R425, R427): a register marked RO keeps its value (R8). -/
def State.writeSys (s : State) (n : Nat) (v : Word) : State :=
  let ctx := s.myCore.ctxid.toNat
  if n = 0x00 then s.modMe fun f => { f with fsw := fswWrite f.fsw (v.setWidth 32) }
  else if n = 0x04 then s.modCore s.cur.core fun r => { r with qtm := v.toNat }
  else if n < 0x08 then s
  else if n < 0x10 then s.modCore s.cur.core fun r => { r with wf := r.wf.set (Fin.ofNat 8 (n - 0x08)) (v.setWidth 6) }
  else if n < 0x18 then
    s.modCore s.cur.core fun r => { r with wfl := r.wfl.set (Fin.ofNat 8 (n - 0x10)) (v &&& ~~~0x100#64) }
  else if n = 0x20 then s.writeField (ctxTrapOff ctx) v
  else if n = 0x28 then s.writeField (ctxTrapOff ctx + 8) v
  else if n < 0x25 then s.modMe fun f => { f with bank1 := f.bank1.write (n - 0x20) v }
  else if n < 0x2D then s.modMe fun f => { f with bank2 := f.bank2.write (n - 0x28) v }
  else s.writeField (ctxTrapOff ctx + 16) v

/-- MTS (R427). -/
def execMts (reg : BitVec 12) (xa : XR) (s : State) : Out :=
  slotC (.mts reg xa) s fun s =>
    let v := s.rx xa
    if mtsRefuses reg.toNat v then s.endTrap false 0x01 v
    else
      let s := if reg = 0 then s.drainArith s.cur.core s.cur.slot else s
      (s.writeSys reg.toNat v).endC

end Sys2Proof.Machine
end

