-- ==== Sys2Proof/Machine/Tables.lean ====
section
/-!
DEFINITION. The instructions and registers of translation: MAP and UNMAP (R155, R156), TLBI (R157), RETYPE (R146 to R149),
WATCH (R142), ZERO (R154), PPT_SET and PPT_BASE (R130, R131), and the move of a page (R150 to R152).
-/

namespace Sys2Proof.Machine

/-! ## Entries of the running context's tables -/

/-- The running context. -/
def State.myCtx (s : State) : Nat := s.myCore.ctxid.toNat

/-- The address of the entry of a level for an address (R155): every entry above it must be a valid non-leaf, read as a walk
reads it (R124); where there is no memory there is no entry (R28). -/
def State.entryFrom (s : State) (va : Word) (table k : Nat) : Nat → Loc Nat × State
  | 0 => (if s.exists_ (entryAddr table k va.toNat) then .ok (entryAddr table k va.toNat) else .fault 0x03 va, s)
  | n + 1 =>
    if !s.exists_ (entryAddr table k va.toNat) then (.fault 0x03 va, s)
    else
    match s.readEntry (entryAddr table k va.toNat) with
    | (none, s) => (.fault 0x09 va, s)
    | (some e, s) =>
      if fld e 0 1 = 1 ∧ fld e 1 1 = 0 ∧ pteOk s.myPkg k e = true then s.entryFrom va (localOf (Pte.ofNat e).pa) (k + 1) n
      else (.fault 0x03 va, s)

/-- The address of the entry of a level for an address in the running context (R122, R128, R155). -/
def State.entryOf (s : State) (lvl : Nat) (va : Word) : Loc Nat × State :=
  if !vaOk va || !s.ctxOn s.myCtx then (.fault 0x03 va, s)
  else s.entryFrom va (s.regF (0x1B0000 + 8 * s.myCtx) 16 30 * 65536) 0 lvl

/-- The local range that a leaf of a level maps: its first byte and its size. -/
def leafRange (lvl e : Nat) : Nat × Nat := (localOf (Pte.ofNat e).pa, 2 ^ lvlShift lvl)

/-- Whether two ranges of bytes share a byte. -/
def rangesMeet (a n b m : Nat) : Bool := decide (a < b + m) && decide (b < a + n)

/-- Whether some page of a leaf's range has a type byte of another type (R137, R155). -/
def State.leafMismatch (s : State) (lvl e : Nat) : Bool :=
  let (a, n) := leafRange lvl e
  (List.range (n / 65536)).any fun i => ((s.ppt (a + i * 65536)).map fun b => pptType b != (Pte.ofNat e).ty).getD false

/-- What MAP finds wrong with an entry (R155). -/
def State.mapFault (s : State) (lvl e : Nat) : Option Nat :=
  let p := Pte.ofNat e
  let (a, n) := leafRange lvl e
  if fld e 0 1 = 0 then none
  else if !pteOk s.myPkg lvl e then some 0x05
  else if !p.l then none
  else if p.ty = .once ∧ rangesMeet a n 0x200000000000 0x200000000000 then some 0x05
  else if rangesMeet a n sysBase 0x1000000 ∧ p.ty ≠ .strict then some 0x05
  else if p.x ∧ (p.ty = .once ∨ p.ty = .priv) then some 0x05
  else if ¬ s.isRemote p.pa ∧ s.leafMismatch lvl e then some 0x06
  else none

/-- The holds that an entry with M set has caused end (R143, R155, R156). -/
def State.endEntryHolds (s : State) (lvl old : Nat) : State :=
  let n := (leafRange lvl old).2
  let first := s.holdKey (Pte.ofNat old).pa
  s.releaseHolds fun q => decide (first ≤ q) && decide (q < first + n / 65536)

/-- The store of an entry at its home, ordered as a STRICT store (R155): what its home refuses traps (R97). -/
def storeEntry (addr e lvl : Nat) (va : Word) (k : State → Out) (s : State) : Out :=
  s.afterMsgs (s.mustWait { strict := true, st := true } addr 8 false) fun s =>
    let s := (s.touchLines addr 8 true).meet addr 8
    if s.isRetired addr then s.endTrap false 0x09 va
    else
      let old := s.nat addr 8
      let s := s.hearMe.performWrite s.me.tid addr (bytesOfNat 8 e)
      k (if fld old 7 1 = 1 ∧ fld e 7 1 = 0 then s.endEntryHolds lvl old else s)

/-- MAP (R155). -/
def execMap (lvl : Fin 3) (xa xb : XR) (s : State) : Out :=
  slotC (.map lvl xa xb) s fun s =>
    let a := s.rx xa
    let e := (s.rx xb).toNat
    located (s.entryOf lvl.val a) fun addr s =>
      match s.mapFault lvl.val e with
      | some c => s.endTrap false c a
      | none => storeEntry addr e lvl.val a (fun s => s.endC) s

/-! ## UNMAP and TLBI -/

/-- The accesses translated through entries that a drop removes which have not been performed (R145): those of a page of
the context, and those to a page that a dropped entry maps. -/
def State.drainOf (s : State) (drop : TlbEntry → Bool) (g : Acc → Bool) : List Nat :=
  let gone := s.tlbs.flatMap fun p => p.2.filter drop
  s.openWhere fun a => g a || gone.any fun e => e.maps (pageOf a.pa)

/-- Translations dropped, and the wait for the drain after which the bundle retires (R156, R157). -/
def dropAndDrain (drop : TlbEntry → Bool) (walk : WalkEntry → Bool) (g : Acc → Bool) (s : State) : Out :=
  let ids := s.drainOf drop g
  let s := (s.dropTlbs drop).dropWalks walk
  if ids.isEmpty then s.endC
  else (s.modMe fun f => { f with resume := .stage 1 [] none }).endPark 7 (.performed ids)

/-- The page of a virtual address dropped for a context, global entries included (R156, R157). -/
def dropPage (ctx : Nat) (va : Word) (s : State) : Out :=
  let a := va.toNat
  dropAndDrain (fun e => e.hits ctx a)
    (fun w => w.ctx == ctx && fld a 0 55 / 2 ^ lvlShift w.lvl == w.vpn)
    (fun acc => acc.ctx == ctx && acc.va.toNat / 65536 == a / 65536 && acc.len != 0) s

/-- UNMAP (R156). -/
def execUnmap (lvl : Fin 3) (xa : XR) (s : State) : Out :=
  slotC (.unmap lvl xa) s fun s =>
    match s.me.resume with
    | .stage .. => s.endC
    | .none =>
      let a := s.rx xa
      located (s.entryOf lvl.val a) fun addr s => storeEntry addr 0 lvl.val a (dropPage s.myCtx a) s

/-- A TLBI's drop, once; its bundle retires when it issues again after the drain. -/
def tlbiOnce (k : State → Out) (s : State) : Out :=
  match s.me.resume with
  | .stage .. => s.endC
  | .none => k s

/-- TLBI.va (R157). -/
def execTlbiVa (xa : XR) (s : State) : Out :=
  slotC (.tlbiVa xa) s fun s => tlbiOnce (dropPage s.myCtx (s.rx xa)) s
/-- TLBI.ctx (R157). -/
def execTlbiCtx (xb : XR) (s : State) : Out :=
  slotC (.tlbiCtx xb) s fun s =>
    let ctx := (s.rx xb).toNat % 1024
    tlbiOnce (dropAndDrain (fun e => !e.g && e.ctx == ctx) (fun w => w.ctx == ctx) fun a => a.ctx == ctx && a.len != 0) s
/-- TLBI.all (R157). -/
def execTlbiAll (s : State) : Out :=
  slotC .tlbiAll s fun s =>
    tlbiOnce (dropAndDrain (fun _ => true) (fun _ => true) fun a => a.len != 0) s

/-! ## Leaves -/

/-- A leaf that a walk has found: its level, its entry's address and its bits. -/
structure Leaf where
  lvl  : Nat
  addr : Nat
  e    : Nat
  deriving DecidableEq, Repr

/-- The fields of a leaf. -/
def Leaf.pte (l : Leaf) : Pte := Pte.ofNat l.e
/-- The physical page, span-global, that a leaf maps for an address. -/
def Leaf.page (l : Leaf) (va : Word) : Nat := leafPage l.lvl l.pte.pa va.toNat

/-- A walk for an address with the checks 1 to 3 of R135. RETYPE makes no check 2, and another package answers it later (R147). -/
def State.leafOf (s : State) (hold : Bool) (va : Word) : Loc Leaf × State :=
  if !vaOk va then (.fault 0x03 va, s)
  else
    match s.walk (sectorOf s.cur.core) s.myCtx va.toNat with
    | (.absent, s) => (.fault 0x03 va, s)
    | (.poisoned, s) => (.fault 0x09 va, s)
    | (.leaf lvl addr e, s) =>
      let l : Leaf := { lvl := lvl, addr := addr, e := e }
      let pa := l.page va
      if s.nowhere pa || (regionOf (localOf pa) == .pooled && l.pte.ty == .once) then (.fault 0x03 va, s)
      else
        let check := if hold then s.leafCheck va pa l.pte.ty l.pte.m
          else if s.isRemote pa then (none, s)
          else
            let s := s.meetPpt (localOf pa)
            (if ((s.ppt (localOf pa)).map fun b => pptType b != l.pte.ty).getD false then some (.fault 0x06 va) else none, s)
        match check with
        | (some (.hold p v), s) => (.hold p v, s)
        | (some (.fault c v), s) => (.fault c v, s)
        | (_, s) => (.ok l, s)

/-- The state with a leaf changed at its home for the fibre of a TID, by a compare-and-swap that succeeds (R142). -/
def State.setLeaf (s : State) (tid : BitVec 48) (addr e : Nat) : State := s.performWrite tid addr (bytesOfNat 8 e)

/-- An entry with one of its bits set or cleared. -/
def withBit (e i : Nat) (on : Bool) : Nat := e - fld e i 1 * 2 ^ i + on.toNat * 2 ^ i

/-! ## WATCH (R142) -/

/-- The state with a page's translations dropped for a context. -/
def State.dropPageTlb (s : State) (ctx : Nat) (va : Word) : State := s.dropTlbs fun e => e.hits ctx va.toNat

/-- The state with a watch filter's enable bit written. -/
def State.setFilter (s : State) (f : Fin 8) (on : Bool) : State :=
  s.modCore s.cur.core fun c => { c with wfl := c.wfl.set f (withField (c.wfl.get f) 63 1 on.toNat) }

/-- Whether an enabled filter of the running core names a word in an address's page of 64 KiB, also where a large leaf maps it
(R142; DESIGN CHOICE, log 119). -/
def State.pageWatched (s : State) (va : Word) : Bool :=
  s.myCore.wfl.toList.any fun w => w.getLsbD 63 && fld w.toNat 22 39 == fld va.toNat 16 39

/-- WATCH.on (R142). -/
def execWatchOn (filter : Fin 8) (xa : XR) (s : State) : Out :=
  slotC (.watchOn filter xa) s fun s =>
    let a := s.rx xa
    located (s.leafOf true a) fun l s =>
      let s := s.setLeaf s.me.tid l.addr (withBit l.e 8 true)
      ((s.dropPageTlb s.myCtx a).setFilter filter true).endC

/-- WATCH.off (R142). -/
def execWatchOff (filter : Fin 8) (xa : XR) (s : State) : Out :=
  slotC (.watchOff filter xa) s fun s =>
    let a := s.rx xa
    located (s.leafOf true a) fun l s =>
      let s := s.setFilter filter false
      if s.pageWatched a then s.endC
      else ((s.setLeaf s.me.tid l.addr (withBit l.e 8 false)).dropPageTlb s.myCtx a).endC

/-! ## RETYPE (R146 to R149) -/

/-- The blocks of a page, by their first bytes. -/
def blocksOf (page : Nat) : List Nat := (List.range 128).map fun i => pageAddr page + 512 * i

/-- A block's data set to zero with fresh check bits, its metadata as given. -/
def State.zeroData (s : State) (blk : Nat) (m : BMeta) : State :=
  s.writeBlock blk { data := List.replicate 512 0, bound := 0, maxe := 0, poison := [] } m

/-- What a conversion does to one block (R146); between a type and itself it is made with .empty only. A block that it changes is dirty since the last copy (R89; DEDUCED, log 120). -/
def State.retypeBlock (s : State) (src dst : PageType) (empty : Bool) (blk : Nat) : State :=
  let m := { s.blkMeta blk with dsc := true }
  if !hasMeta blk || s.isRetired blk || (src == dst && !empty) then s
  else if dst = .once then
    if src = .once || empty then s.zeroData blk { m with pres := .empty, gen := m.gen + 1 }
    else s.setMeta blk { m with pres := .full, gen := m.gen + 1 }
  else if src = .once then
    if m.pres = .full then s.setMeta blk { m with pres := .empty } else s.zeroData blk { m with pres := .empty }
  else s

/-- Whether a block of a page is DEFERRED. -/
def State.anyDeferred (s : State) (page : Nat) : Bool :=
  (blocksOf page).any fun b => hasMeta b && (s.blkMeta b).pres == .deferred

/-- The status of a RETYPE that converts nothing (R147); none when it is to convert. -/
def State.retypeStatus (s : State) (l : Leaf) (va : Word) (ty : PageType) (empty : Bool) : Option Nat :=
  let pa := localOf (l.page va)
  let b := s.typeByte pa
  if l.lvl ≠ 2 then some 4
  else if pptRet b then some 5
  else if pptM b || l.pte.m then some 6
  else if ty = .once ∧ regionOf pa = .pooled then some 3
  else if ty = l.pte.ty ∧ !empty then some 1
  else none

/-- A status returned (R148): into the register that done= names, or as a trap. -/
def retypeEnd (done : Option XR) (st : Nat) (s : State) : Out :=
  match done with
  | some xd => ((s.emptyX xd).send (.done s.cur.core s.cur.slot s.me.tid xd (BitVec.ofNat 64 st))).1.endC
  | none => if 2 ≤ st then s.endTrap false 0x05 (BitVec.ofNat 64 st) else s.endC

/-- Every core of the package pushes what its PRIVATE write buffer holds of a page (R146). -/
def State.pushPage (s : State) (page : Nat) : State :=
  s.cores.foldl
    (fun s e =>
      let mine := (s.core e.1).wbuf.filter fun l => pageOf l.1 == page
      (mine.foldl (fun s l => s.sendLine e.1 l) s).modCore e.1 fun r =>
        { r with wbuf := r.wbuf.filter fun l => pageOf l.1 != page }) s

/-- RETYPE of a page of another package (R147): what that package's tables say is free (log 8), a type mismatch, whether the page is
retired or held, and whether a block is DEFERRED. A conversion there is done when the bundle issues, and the leaf has the new type. -/
def retypeFar (ty : PageType) (empty : Bool) (va : Word) (done : Option XR) (l : Leaf) (s : State) : Out :=
  let pa := l.page va
  if !s.routeUp (pkgOf pa) then s.endHold (fabricHold (pkgOf pa)) va
  else
    let (n, s) := s.takeFresh
    let far := Config.freeWord n
    if far.getLsbD 0 then s.endTrap false 0x06 va
    else
      let refused : Option Nat :=
        if l.lvl ≠ 2 then some 4
        else if far.getLsbD 1 then some 5
        else if far.getLsbD 2 || l.pte.m then some 6
        else if ty = .once ∧ regionOf (localOf pa) = .pooled then some 3
        else if ty = l.pte.ty ∧ !empty then some 1
        else none
      match refused with
      | some st => retypeEnd done st s
      | none =>
        let s := if l.pte.ty = .priv then s.pushPage (pageOf (s.placed pa)) else s
        let s := s.dropTlbs fun e => e.maps (pageOf (rawOf (localOf pa)))
        if l.pte.ty = .once ∧ far.getLsbD 3 = true then retypeEnd done 2 s
        else retypeEnd done 0 (s.setLeaf s.me.tid l.addr (l.e - fld l.e 5 2 * 32 + PageType.code ty * 32))

/-- RETYPE (R147, R148). -/
def execRetype (ty : PageType) (empty : Bool) (xa : XR) (done : Option XR) (s : State) : Out :=
  slotC (.retype ty empty xa done) s fun s =>
    match s.me.resume with
    | .stage _ _ fail => s.answered fail
    | .none =>
      let a := s.rx xa
      located (s.leafOf false a) fun l s =>
        if s.isRemote (l.page a) then retypeFar ty empty a done l s
        else
          match s.retypeStatus l a ty empty with
          | some st => retypeEnd done st s
          | none =>
            let page := pageOf (rawOf (localOf (l.page a)))
            let s := if l.pte.ty = .priv then s.pushPage page else s
            let s := (s.setLeaf s.me.tid l.addr (withBit l.e 7 true)).setHeld page true
            let m := Msg.retype s.cur.core s.cur.slot s.me.tid done ty empty l.addr page
            match done with
            | some xd => ((s.emptyX xd).send m).1.endC
            | none =>
              let (s, id) := s.send m
              s.awaitIds 1 [id] none

/-- A result filled, or a bundle that waits for it told the status (R148, R154): a status from 2 on is a page-type
operation. -/
def State.finishOp (s : State) (id c k : Nat) (tid : BitVec 48) (done : Option XR) (v : Nat) (fail : Bool) : State :=
  match done with
  | some xd => s.putMsg id (.done c k tid xd (BitVec.ofNat 64 v))
  | none => (s.dropMsg id).noteAnswer c k 1 (if fail then some (0x05, BitVec.ofNat 64 v) else none)

/-- RETYPE_COMPLETE (R145 to R148): once the page has drained, its blocks are converted, or a DEFERRED one refuses; M is
cleared and the accesses it held replay. It waits while a home of the page does (R208). -/
def execRetypeComplete (k : Nat) (s : State) : Out :=
  match s.net.get? k with
  | some (.retype c j tid done ty empty leaf page) =>
    if !(s.pageOpen page).isEmpty || s.pageStuck page then .next s
    else
      let s := (s.touchLines leaf 8 false).meet leaf 8
      let e := s.nat leaf 8
      let src := (Pte.ofNat e).ty
      let refused := src == .once && s.anyDeferred page
      let s :=
        if refused then s.setLeaf tid leaf (withBit e 7 false)
        else
          let s := (blocksOf page).foldl (fun s b => s.retypeBlock src ty empty b) s
          let e := withBit e 7 false
          (s.setLeaf tid leaf (e - fld e 5 2 * 32 + PageType.code ty * 32)).setPageType page ty
      let s := (s.setHeld page false).releaseHolds fun q => q == page
      .next (s.finishOp k c j tid done (if refused then 2 else 0) refused)
  | _ => .fault .noSuchEvent

/-! ## ZERO (R154) -/

/-- A block zeroed on an owner change (R89, R97, R154, R191): the rewrite of a RETIRED block always reads back clean here, so that
the block is back in service (DESIGN CHOICE, log 130). -/
def State.zeroBlock (s : State) (blk : Nat) : State :=
  let gs := if (s.blkMeta blk).pres = .deferred then s.groupsOf s.chainFuel blk else []
  let s := (s.touchLines blk 512 true).freeGroups gs
  let s := { s with badMeta := s.badMeta.erase (blockOf (s.placeOf blk)) }
  s.zeroData blk {}

/-- The pages of a ZERO, by their raw first bytes. -/
def zeroPages (a n : Nat) : List Nat := (List.range n).map fun i => a + i * 65536

/-- Whether a page may be zeroed (R154). -/
def State.zeroable (s : State) (pg : Nat) : Bool :=
  (pptIndex pg).isSome && (regionOf pg != .pooled || s.pooledPresent pg)

/-- The state with a page zeroed, and the host's entries in it discarded (R447). -/
def State.zeroPage (s : State) (pg : Nat) : State :=
  let page := pageOf (rawOf pg)
  let s := (blocksOf page).foldl State.zeroBlock s
  { s with hcb := s.hcb.filter fun e => pageOf e.blk != page }

/-- ZERO (R154). Its wait for a page whose type byte has M set is a hold of that page, which a timeout ends with the physical
page as trap value (R144; DESIGN CHOICE, log 121). While a home of the pages waits with a wake, it does not issue (R208). -/
def execZero (xa : XR) (pages : BitVec 16) (done : Option XR) (s : State) : Out :=
  slotC (.zero xa pages done) s fun s =>
    match s.me.resume with
    | .stage .. => s.endC
    | .none =>
      let a := s.rx xa
      let pgs := zeroPages a.toNat pages.toNat
      if a.toNat % 65536 ≠ 0 then s.endTrap false 0x0A a
      else
        match pgs.find? fun p => !s.zeroable p with
        | some p => s.endTrap false 0x03 (BitVec.ofNat 64 p)
        | none =>
          match pgs.find? s.isHeld with
          | some p => s.endPark 3 (.hold (pageOf (rawOf p)) (BitVec.ofNat 64 p))
          | none =>
            s.afterMsgs (s.mustWait { st := true } (rawOf a.toNat) (65536 * pages.toNat) false) fun s =>
              if pgs.any fun p => s.pageStuck (pageOf (rawOf p)) then s.endStall
              else
              let s := pgs.foldl State.zeroPage s
              let m := Msg.zero s.cur.core s.cur.slot s.me.tid done a.toNat pages.toNat
              match done with
              | some xd => ((s.emptyX xd).send m).1.endC
              | none =>
                let (s, id) := s.send m
                s.awaitIds 1 [id] none

/-- ZERO_COMPLETE (R154). -/
def execZeroComplete (k : Nat) (s : State) : Out :=
  match s.net.get? k with
  | some (.zero c j tid done _ n) => .next (s.finishOp k c j tid done n false)
  | _ => .fault .noSuchEvent

/-! ## PPT_SET and PPT_BASE -/

/-- The type byte that a region of a vault must have (R169). -/
def vaultTypeOk (pa : Nat) (ty : PageType) : Bool :=
  let raw := rawOf pa
  if isVault raw then
    match vaultPart (vaultOff raw) with
    | .system => ty == .strict
    | .bRegion => ty == .release
    | .scratch _ => true
  else true

/-- A write to PPT_SET (R131, R169): one that is ignored leaves the register too. -/
def State.writePptSet (s : State) (val : Word) : State :=
  let pa := fld val.toNat 16 30 * 65536
  let ty := PageType.ofCode (fld val.toNat 0 2)
  match s.ppt pa with
  | none => s
  | some b =>
    if pptM b || pptRet b || (ty == .once && regionOf pa == .pooled) || !vaultTypeOk pa ty then s
    else
      let page := pageOf (rawOf pa)
      ((s.writeField 0x1A0008 val).setPageType page ty).dropTlbs fun e => e.maps page

/-- PPT_SET (R131). -/
def execPptSet (val : Word) (s : State) : Out := barWrite 0x1A0008 val (fun s => .next (s.writePptSet val)) s

/-- A write to PPT_BASE (R130): BASE keeps its value while V is 1. -/
def State.writePptBase (s : State) (val : Word) : State :=
  let old := s.reg 0x1A0000
  if old.getLsbD 0 then s.setReg 0x1A0000 (withField old 0 1 (fld val.toNat 0 1)) else s.writeField 0x1A0000 val

/-- PPT_BASE (R130). -/
def execPptBase (val : Word) (s : State) : Out := barWrite 0x1A0000 val (fun s => .next (s.writePptBase val)) s

/-! ## The move of a page (R150 to R152) -/

/-- The offset of MOVE_STAT. -/
def moveStatOff : Nat := 0x1A0028

/-- The state with a field of MOVE_STAT set. -/
def State.moveStat (s : State) (lo n v : Nat) : State := s.setRegF moveStatOff lo n v

/-- A block copied with its metadata; the source's DSC is cleared, and poison travels with the data (R94, R151). A block whose home
waits with a wake is left to a later pass (R208), and a RETIRED destination keeps what it holds (R97; DEDUCED, log 141). -/
def State.copyBlock (s : State) (src dst : Nat) : State :=
  let s := (s.touchLines src 512 false).meet src 512
  let s := (s.touchLines dst 512 true).meet dst 0
  if s.wakeStuck src || s.wakeStuck dst then s.modMeta src fun m => { m with dsc := true }
  else if s.isRetired dst then s.modMeta src fun m => { m with dsc := false }
  else
  let bad := (unitsOf dst 512).filter fun u => (s.firstPoison (src + (u - dst)) (eccUnit dst)).isSome
  let m := s.blkMeta src
  let c : CommitData := { data := s.bytes src 512, bound := m.bound, maxe := m.maxe, poison := bad.map (· - dst) }
  (s.writeBlock dst c { m with dsc := true }).modMeta src fun m => { m with dsc := false }

/-- The blocks of a page, by their numbers within it, that a test of the source block names. A pooled block has no metadata:
its DSC reads 0, so only the first pass copies it (R89, R151; DESIGN CHOICE, log 122). -/
def State.blocksTo (s : State) (src : Nat) (g : BMeta → Bool) : List Nat :=
  (List.range 128).filter fun i => g (s.blkMeta (pageAddr src + 512 * i))

/-- Some blocks of a page copied to another. -/
def State.copyBlocks (s : State) (src dst : Nat) (is : List Nat) : State :=
  is.foldl (fun s i => s.copyBlock (pageAddr src + 512 * i) (pageAddr dst + 512 * i)) s

/-- Whether a page exists for a move: memory with a type byte. -/
def State.movable (s : State) (pa : Nat) : Bool := (pptIndex pa).isSome && s.exists_ pa

/-- What a start finds wrong with the pages of a move (R150). -/
def State.moveFault (s : State) (src dst : Nat) : Option Nat :=
  let b := s.typeByte src
  let d := s.typeByte dst
  if !s.movable src || pptRet b then some 2
  else if pptM b then some 3
  else if !s.movable dst || pptM d || pptRet d then some 4
  else if pptType b = .once ∧ regionOf dst = .pooled then some 5
  else none

/-- The state in which a move has ended with an error code, which replaces ERR 1 of a start that came while it ran (DESIGN CHOICE,
log 142). -/
def State.endMove (s : State) (err : Nat) : State :=
  { (((s.moveStat 63 1 0).moveStat 60 3 0).moveStat 56 4 err).moveStat 0 1 1 with move := none }

/-- Command 1 of MOVE_CTL (R151): the checks, then the first copy pass. The TLB entries of the destination stay until the cut,
though its type byte changes (DESIGN CHOICE, log 123). -/
def State.moveStart (s : State) : State :=
  let s := s.setRegF 0x1A0020 0 2 1
  if s.move.isSome then s.moveStat 56 4 1
  else
    let src := s.regF 0x1A0010 16 30 * 65536
    let dst := s.regF 0x1A0018 16 30 * 65536
    match s.moveFault src dst with
    | some e => (s.moveStat 56 4 e).moveStat 0 1 1
    | none =>
      let src := pageOf (rawOf src)
      let dst := pageOf (rawOf dst)
      let s := s.setPageType dst (pptType (s.typeByte (pageAddr src)))
      let s := ((((s.moveStat 63 1 1).moveStat 60 3 1).moveStat 56 4 0).moveStat 48 8 1).moveStat 32 16 0
      let s := s.copyBlocks src dst (List.range 128)
      { s with move := some { src := src, dst := dst, copied := 128 } }

/-- MOVE_START (R151). -/
def execMoveStart (s : State) : Out := barWrite 0x1A0020 1 (fun s => .next s.moveStart) s

/-- Whether the copy passes have ended (R151): the last one copied at most 8 blocks, or there have been 16. -/
def State.passesEnded (s : State) (m : Move) : Bool := decide (m.copied ≤ 8) || decide (16 ≤ s.regF moveStatOff 48 8)

/-- MOVE_CUT (R151): another pass while passes have not ended; then M is set on both pages, the cut of R145. The cut waits for a RETYPE
that holds either page (R147; DEDUCED, log 143). -/
def execMoveCut (s : State) : Out :=
  match s.move with
  | some m =>
    if s.regF moveStatOff 60 3 ≠ 1 then .fault .noSuchEvent
    else if s.passesEnded m then
      if s.retyping m.src || s.retyping m.dst then .next s
      else .next (((s.setHeld m.src true).setHeld m.dst true).moveStat 60 3 2)
    else
      let is := s.blocksTo m.src fun b => b.dsc
      let s := (s.copyBlocks m.src m.dst is).moveStat 48 8 (s.regF moveStatOff 48 8 + 1)
      .next { s with move := some { m with copied := is.length } }
  | none => .fault .noSuchEvent

/-- The state in which what names a block of a moved page names the block's new place: the queued reads of stream ports,
channels and the matrix arrays, also those of saved contexts, the wakes on their way, and the DONE blocks and counters of launches
(R151). -/
def State.followMove (s : State) (src dst : Nat) : State :=
  let at_ (a : Nat) : Nat := if pageOf a = src then pageAddr dst + a % 65536 else a
  let port (p : Port) : Port := { p with queued := p.queued.map fun q => (q.1, at_ q.2) }
  let chan (c : Chan) : Chan := match c.wait with
    | .block b va => { c with wait := .block (at_ b) va }
    | _ => c
  let tile (k : Tile) : Tile := { k with
    copy := k.copy.map chan
    conv := k.conv.map chan
    fetch := k.fetch.map fun f => { f with rows := f.rows.map fun r => { r with pa := at_ r.pa } } }
  let launch (l : Launch) : Launch := { l with done := at_ l.done }
  let cores (m : AMap Core) : AMap Core := m.map fun e => (e.1, { e.2 with sp := e.2.sp.map port })
  let tiles (m : AMap Tile) : AMap Tile := m.map fun e => (e.1, tile e.2)
  { s with
    cores := cores s.cores
    tiles := tiles s.tiles
    saved := s.saved.map fun e => (e.1, { e.2 with cores := cores e.2.cores, tiles := tiles e.2.tiles })
    net := s.net.map fun e => match e.2 with
      | .wake b r d fl => (e.1, .wake (at_ b) r d fl)
      | _ => e
    heldWakes := s.heldWakes.map fun w => { w with blk := at_ w.blk }
    launches := s.launches.map fun e => (e.1, launch e.2)
    evicted := s.evicted.map fun e => (e.1, (e.2.1, launch e.2.2))
    incoming := s.incoming.map fun e => match e.2 with
      | .fresh q n pk ctx c d => (e.1, .fresh q n pk ctx (at_ c) (at_ d))
      | _ => e }

/-- MOVE_FINAL_PASS (R151): once both pages have drained, and no home of them waits (R208), every block whose DSC is 1 is copied, and the pages stay held. -/
def execMoveFinalPass (s : State) : Out :=
  match s.move with
  | some m =>
    if s.regF moveStatOff 60 3 ≠ 2 then .fault .noSuchEvent
    else if !(s.pageOpen m.src ++ s.pageOpen m.dst).isEmpty || s.pageStuck m.src || s.pageStuck m.dst then .next s
    else
      let is := s.blocksTo m.src fun b => b.dsc
      let s := (((s.copyBlocks m.src m.dst is).followMove m.src m.dst).moveStat 32 16 is.length).moveStat 60 3 3
      .next { s with move := some { m with copied := is.length } }
  | none => .fault .noSuchEvent

/-- Command 2 of MOVE_CTL (R151): both M bits are cleared, the held accesses replay, and DONE is set. Outside the hold the
command has no effect. -/
def State.moveRelease (s : State) : State :=
  let s := s.setRegF 0x1A0020 0 2 2
  match s.move with
  | some m =>
    if s.regF moveStatOff 60 3 ≠ 3 then s
    else
      let s := (s.setHeld m.src false).setHeld m.dst false
      (s.endMove 0).releaseHolds fun q => q == m.src || q == m.dst
  | none => s

/-- MOVE_RELEASE (R151). -/
def execMoveRelease (s : State) : Out := barWrite 0x1A0020 2 (fun s => .next s.moveRelease) s

/-- Command 3 of MOVE_CTL (R150): honoured while the passes run. -/
def State.moveAbort (s : State) : State :=
  let s := s.setRegF 0x1A0020 0 2 3
  if s.move.isSome && s.regF moveStatOff 60 3 == 1 then s.endMove 6 else s

/-- MOVE_ABORT (R150). -/
def execMoveAbort (s : State) : Out := barWrite 0x1A0020 3 (fun s => .next s.moveAbort) s

/-- A write to MOVE_CTL (R150). -/
def State.writeMoveCtl (s : State) (val : Word) : State :=
  match fld val.toNat 0 2 with
  | 1 => s.moveStart
  | 2 => s.moveRelease
  | 3 => s.moveAbort
  | _ => s.setRegF 0x1A0020 0 2 0

end Sys2Proof.Machine
end

