-- ==== Sys2Proof/Machine/Far.lean ====
section
/-!
DEFINITION. Far memory: the patrol (R98, R175), row sparing and page retirement (R100 to R103), the far-memory registers
(R99, R103, R106), pooled extents (R106 to R108), and the context status record (R420).
-/

namespace Sys2Proof.Machine

/-! ## The context status record (R420) -/

/-- What an event writes into a status record. -/
structure StatusNote where
  bits   : Nat := 0
  reason : Option (Nat × Nat) := none
  tid    : BitVec 48 := 0
  pc     : Word := 0
  deriving DecidableEq, Repr

/-- The status record of a context written for an event (R420); none while CSR_PTR holds zero. The store covers the fields that the
event changes, with their reserved bits zero (R9): the reserved bytes 48 to 63, and without a kill those from 8 to 31, stay as they
stand (DESIGN CHOICE, log 144). -/
def State.noteStatus (s : State) (ctx : Nat) (n : StatusNote) : State :=
  let a := s.regF (0x1F6000 + 8 * ctx) 6 40 * 64
  if a = 0 then s
  else
    let (t, s) := s.now
    let s := (s.touchLines a 64 true).meet a 64
    let w0 := s.nat a 8 % 64 ||| n.bits
    let ev := (s.nat (a + 32) 8 + 1) % 2 ^ 64
    let s := s.performWrite 0 a (bytesOfNat 8 w0)
    let s := match n.reason with
      | some (r, c) =>
        (s.performWrite 0 (a + 8) (bytesOfNat 8 (r * 256 + c))).performWrite 0 (a + 16)
          (bytesOfNat 8 n.tid.toNat ++ bytesOfNat 8 n.pc.toNat)
      | none => s
    s.performWrite 0 (a + 32) (bytesOfNat 8 ev ++ bytesOfNat 8 t)

/-! ## The patrols -/

/-- What a controller does with its own atoms at a raw address, also where accesses to the page are redirected (R98, R102). -/
def State.atOwn (s : State) (a : Nat) (g : State → State) : State :=
  let r := s.redir
  let s := g { s with redir := r.erase (pageOf a) }
  { s with redir := r }

/-- A block whose metadata its controller finds lost (R96). That of a retired page, whose queue its replacement has, wakes no
reader (R151). -/
def State.ownRetired (s : State) (blk : Nat) : State :=
  if (s.redir.get? (pageOf blk)).isNone then s.findRetired blk
  else
    let own := { s with redir := s.redir.erase (pageOf blk) }
    let m := own.blkMeta blk
    if own.isRetired blk && m.pres != .retired then
      (s.atOwn blk fun s => s.setMeta blk { m with dsc := true, pres := .retired }).errRec 0x22 none [BitVec.ofNat 64 blk]
    else s

/-- PATROL_READ (R98): the next block is read; after the last one a new pass begins. -/
def execPatrolRead (c : Nat) (s : State) : Out :=
  if 64 ≤ c then .fault .noSuchEvent
  else if s.regF (0x190000 + 0x40 * c) 0 8 = 0 then .next s
  else
    let blk := fmcBlock c (s.patrol.getD c 0)
    .next (((s.atOwn blk fun s => s.readUnits blk 512).ownRetired blk).patrolNext c)

/-- VAULT_PATROL (R175): the next word of a vault is read. -/
def execVaultPatrol (tile : Nat) (s : State) : Out :=
  if 16384 ≤ tile then .fault .noSuchEvent
  else
    let n := s.vpatrol.getD tile 0
    let s := s.readUnit (vaultBase + tile * 0x100000 + n * 8)
    .next { s with vpatrol := s.vpatrol.setD tile ((n + 1) % 131072) 0 }

/-! ## Rows and pages -/

/-- Whether a failing row can be repaired (R101): its bank has a spare row, and its channel a remap entry. -/
def State.repairable (s : State) (r : Nat × Nat × Nat × Nat) : Bool :=
  decide (s.rowsUsed.getD (rowKey r.1 r.2.1 r.2.2.1 0) 0 < 4) && decide (s.remapUsed.getD (rowKey r.1 r.2.1 0 0) 0 < 16)

/-- Whether the byte at a raw address lies in a row. -/
def inRow (a : Nat) (r : Nat × Nat × Nat × Nat) : Bool :=
  controllerOf a == some r.1 && rowOf a == (r.2.1, r.2.2.1, r.2.2.2)

/-- The state without a row among those that count or fail. -/
def State.forgetRow (s : State) (r : Nat × Nat × Nat × Nat) : State :=
  { s with rowFail := s.rowFail.filter (· != r), rowCnt := s.rowCnt.erase (rowKey r.1 r.2.1 r.2.2.1 r.2.2.2) }

/-- ROW_SPARE_DONE (R101): the row has been copied, correctable atoms corrected and uncorrectable ones poisoned; the remap
entry is installed. -/
def execRowSpareDone (c ch bank row : Nat) (s : State) : Out :=
  let r := (c, ch, bank, row)
  if r ∈ s.rowFail ∧ s.repairable r then
    let bad := (s.synd.map fun e => e.1 * 32).filter fun a => inRow a r
    let s := (bad.foldl (fun s a => (s.atOwn a fun s => s.readUnit a).ownRetired (blkOf a)) s).forgetRow r
    let kb := rowKey c ch bank 0
    let kc := rowKey c ch 0 0
    let off := 0x190008 + 0x40 * c
    let s := { s with
      rowsUsed := s.rowsUsed.insert kb (s.rowsUsed.getD kb 0 + 1)
      remapUsed := s.remapUsed.insert kc (s.remapUsed.getD kc 0 + 1) }
    let s := s.setRegF off 0 10 (s.regF off 0 10 - 1)
    .next (s.errRec 0x23 none
      [BitVec.ofNat 64 c, BitVec.ofNat 64 ch, BitVec.ofNat 64 bank, BitVec.ofNat 64 row])
  else .fault .noSuchEvent

/-- Whether a page holds part of a failing row that cannot be repaired (R102). -/
def State.mustRetire (s : State) (page : Nat) : Bool :=
  s.rowFail.any fun r =>
    !s.repairable r && (List.range 2048).any fun i => inRow (pageAddr page + 32 * i) r

/-- The spare page that replaces a page: the first listed of its tier (R102). -/
def State.spareFor (s : State) (page : Nat) : Option Nat :=
  s.spares.find? fun p => isHbm (pageAddr p) == isHbm (pageAddr page)

/-- The offset of SPARE_ADD. -/
def spareOff : Nat := 0x180010

/-- A page retired to a spare (R102): its blocks are copied, the spare takes its type, it is marked retired, and every access
to it is redirected; what waits on its blocks follows (R151). -/
def State.retirePage (s : State) (page new : Nat) : State :=
  let s := s.setHeld page true
  let s := s.copyBlocks page new (List.range 128)
  let ty := pptType (s.typeByte (pageAddr page))
  let s := (s.setPageType new ty).setHeld page false
  let s := s.setPpt (pageAddr page) (s.typeByte (pageAddr page) ||| 8)
  let s := { s with
    redir := AMap.insert (s.redir.map fun (e : Nat × Nat) => if e.2 = page then (e.1, new) else e) page new
    spares := s.spares.erase new
    retirePend := s.retirePend.filter (· != page) }
  let s := s.followMove page new
  let s := s.setRegF spareOff 56 8 (s.regF spareOff 56 8 - 1)
  s.errRec 0x24 none [BitVec.ofNat 64 (pageAddr page), BitVec.ofNat 64 (pageAddr new)]

/-- A retirement noted as pending, with record 0x25 once (R103). -/
def State.pendRetire (s : State) (page : Nat) : State :=
  if page ∈ s.retirePend then s
  else { s with retirePend := s.retirePend ++ [page] }.errRec 0x25 none [BitVec.ofNat 64 (pageAddr page)]

/-- PAGE_RETIREMENT (R102, R103): a page that must be retired is, once its accesses have drained, no move runs and no RETYPE holds
it (R145); while no spare of its tier is listed or the table is full, its retirement is pending. -/
def execPageRetirement (page : Nat) (s : State) : Out :=
  if s.mustRetire page || decide (page ∈ s.retirePend) then
    if (s.redir.get? page).isSome then .fault .noSuchEvent
    else if s.move.isSome || s.isHeld (pageAddr page) || !(s.pageOpen page).isEmpty || s.pageStuck page then .next s
    else
      match s.spareFor page with
      | some new => if 256 ≤ s.redir.length then .next (s.pendRetire page) else .next (s.retirePage page new)
      | none => .next (s.pendRetire page)
  else .fault .noSuchEvent

/-! ## Far-memory registers -/

/-- A write to SPARE_ADD (R103). -/
def State.writeSpareAdd (s : State) (val : Word) : State :=
  let p := fld val.toNat 16 30
  let n := s.regF spareOff 56 8
  if 64 ≤ n || !isDram (pageAddr p) then s
  else
    let s := (s.setRegF spareOff 16 30 p).setRegF spareOff 56 8 (n + 1)
    { s with spares := s.spares ++ [p] }

/-- SPARE_ADD (R103). -/
def execSpareAdd (val : Word) (s : State) : Out := barWrite spareOff val (fun s => .next (s.writeSpareAdd val)) s

/-- FMC_ERR (R99): a read returns the counts and clears them. -/
def execFmcErr (c : Nat) (s : State) : Out :=
  if c < 64 then barRead (0x190008 + 0x40 * c) s else .fault .noSuchEvent

/-! ## Pooled extents -/

/-- The offset of POOL_EXT[i]. -/
def extOff (i : Nat) : Nat := 0x100000 + 8 * i
/-- The offset of POOL_RSTAT. -/
def rstatOff : Nat := 0x180008

/-- A write to POOL_EXT[i] (R106). -/
def State.writePoolExt (s : State) (i : Nat) (val : Word) : State :=
  let s := s.writeField (extOff i) val
  if val.getLsbD 63 then s.setRegF (extOff i) 0 24 0 else s

/-- POOL_EXT (R106). -/
def execPoolExt (i : Nat) (val : Word) (s : State) : Out :=
  if i < 65536 then barWrite (extOff i) val (fun s => .next (s.writePoolExt i val)) s else .fault .noSuchEvent

/-- A write to POOL_REL (R107): the release of an extent begins, unless one is running. -/
def State.writePoolRel (s : State) (val : Word) : State :=
  if s.regF rstatOff 63 1 = 1 then s.setRegF rstatOff 61 1 1
  else
    let s := s.writeField 0x180000 val
    let i := fld val.toNat 0 16
    ((s.setRegF (extOff i) 63 1 0).setRegF rstatOff 63 1 1).setRegF rstatOff 0 16 i

/-- POOL_REL (R107). -/
def execPoolRel (val : Word) (s : State) : Out := barWrite 0x180000 val (fun s => .next (s.writePoolRel val)) s

/-- The lines of an extent that the L2 slices hold, by their keys. -/
def State.extLines (s : State) (i : Nat) : List (Nat × L2Line) :=
  let first := (0x200000000000 + i * 0x20000000) / 64
  s.l2.filter fun l => decide (first ≤ l.1) && decide (l.1 < first + 0x800000)

/-- The state without some lines in the slices. -/
def State.dropLines (s : State) (ls : List (Nat × L2Line)) : State :=
  { s with l2 := ls.foldl (fun m l => AMap.erase m l.1) s.l2 }

/-- The extent of a raw pooled address. -/
def extentOf (a : Nat) : Option Nat :=
  if regionOf a = .pooled then some ((a - 0x200000000000) / 0x20000000) else none

/-- POOL_RELEASE_DONE (R107): once the accesses to the extent have completed, its lines are written back. -/
def execPoolReleaseDone (s : State) : Out :=
  if s.regF rstatOff 63 1 = 0 then .fault .noSuchEvent
  else
    let i := s.regF rstatOff 0 16
    if (s.openWhere fun a => extentOf a.pa == some i).isEmpty then
      .next ((((s.extLines i).foldl (fun s l => s.writeBack l.1) s).setRegF rstatOff 63 1 0).setRegF rstatOff 62 1 1)
    else .next s

/-- A line dropped without being written: what the device holds there is free. -/
def State.loseLine (s : State) (k : Nat) : State :=
  let (n, s) := s.takeMany 64
  { s with mem := (List.range 64).foldl (fun m j => AMap.setD m (s.placeOf (k * 64) + j) (Config.freeByte (n + j)) 0) s.mem }

/-- FORCED_REMOVAL (R108). -/
def execForcedRemoval (i : Nat) (s : State) : Out :=
  if 65536 ≤ i then .fault .noSuchEvent
  else
    let ls := s.extLines i
    let dirty := ls.filter fun l => l.2.dirty
    let s := ((s.dropLines ls).setRegF (extOff i) 63 1 0).setRegF (extOff i) 61 1 1
    let s := dirty.foldl (fun s l => s.loseLine l.1) s
    let s := s.setRegF (extOff i) 0 24 (min (s.regF (extOff i) 0 24 + dirty.length) (2 ^ 24 - 1))
    let s := s.errRec 0x26 none [BitVec.ofNat 64 i, BitVec.ofNat 64 dirty.length]
    -- a release of the extent that is running ends with DONE
    if s.regF rstatOff 63 1 = 1 ∧ s.regF rstatOff 0 16 = i then
      .next ((s.setRegF rstatOff 63 1 0).setRegF rstatOff 62 1 1)
    else .next s

end Sys2Proof.Machine
end

