-- ==== Sys2Proof/Machine/Bound.lean ====
section
/-!
DEFINITION. Certified bounds (R80, R81, R330 to R334, R338): codes, rounding upward, the terms of a MMA, the test of MEND and
the bound of MST; and the arithmetic of the array (R311, R312).
-/

namespace Sys2Proof.Machine

/-! ## Bounds as exact values -/

/-- A value of zero or more, m × 2^e, or unlimited. -/
abbrev Mag := Option (Nat × Int)

/-- The value of a bound code (R80). -/
def boundVal (b : BitVec 16) : Mag :=
  let e := b.toNat / 256
  let f := b.toNat % 256
  if 0xFF00 ≤ b.toNat then none
  else if e = 0 then some (f, -134)
  else some (256 + f, (e : Int) - 135)

/-- A bound code as it is stored (R80). -/
def cleanBound (b : BitVec 16) : BitVec 16 := if 0xFF00 ≤ b.toNat then 0xFFFF else b

/-- round_up_bound (R81). -/
def roundUpBound : Mag → BitVec 16
  | none => 0xFFFF
  | some (m, e) =>
    if m = 0 then 0
    else
      let q := max (-134) (e + (bitLen m : Int) - 9)
      let (n, place) := toUnits m e q
      let c := (q + 134).toNat * 256 + n + (if place = 0 then 0 else 1)
      if 0xFF00 ≤ c then 0xFFFF else BitVec.ofNat 16 c

/-- The sum of two values: unlimited absorbs (R81). -/
def Mag.add : Mag → Mag → Mag
  | some (m, e), some (n, f) =>
    let q := min e f
    some (m * 2 ^ (e - q).toNat + n * 2 ^ (f - q).toNat, q)
  | _, _ => none

/-- The product of two values: unlimited absorbs all but an exact zero (R81). -/
def Mag.mul : Mag → Mag → Mag
  | some (m, e), some (n, f) => some (m * n, e + f)
  | some (0, _), none => some (0, 0)
  | none, some (0, _) => some (0, 0)
  | _, _ => none

/-- Whether a value is greater than another. -/
def Mag.above : Mag → Mag → Bool
  | some (m, e), some (n, f) => decide (cmpFin false m e false n f = 1)
  | none, some _ => true
  | _, none => false

/-- 2^k. -/
def pow2 (k : Int) : Mag := some (1, k)

/-- A bound grown by a term, with one rounding. -/
def growBound (b : BitVec 16) (t : Mag) : BitVec 16 := roundUpBound ((boundVal b).add t)

/-- The magnitude M of a MAXE (R330). -/
def maxeVal (x : BitVec 8) : Mag :=
  if x = 0xFF then none else if x = 0 then pow2 (-126) else pow2 ((x.toNat : Int) - 126)

/-- The larger of two codes. -/
def maxCode {n : Nat} (a b : BitVec n) : BitVec n := if a.toNat ≤ b.toNat then b else a

/-- The term that the inputs of a MMA propagate (R332). -/
def propTerm (ea eb : BitVec 16) (ma mb : BitVec 8) : Mag :=
  let a := boundVal ea
  let b := boundVal eb
  Mag.mul (some (32, 0)) (((a.mul (maxeVal mb)).add (b.mul (maxeVal ma))).add (a.mul b))

/-- The term of rounding at an exponent: max(2^(e − d), 2^−150); an empty maximum gives the latter (R331, R333). -/
def roundTerm (e : Option Int) (d : Int) : Mag :=
  match e with
  | some e => pow2 (max (e - d) (-150))
  | none => pow2 (-150)

/-- The larger of two exponents. -/
def maxExp : Option Int → Option Int → Option Int
  | some a, some b => some (max a b)
  | some a, none => some a
  | none, b => b

/-! ## The array's arithmetic (R311, R312) -/

/-- Whether an exact value is a number. -/
def Fx.finite : Fx → Bool
  | .fin .. => true
  | _ => false

/-- Whether an exact value is a zero. -/
def Fx.isZero : Fx → Bool
  | .fin _ m _ => m == 0
  | _ => false

/-- An FP32 cell plus an exact value, rounded to nearest even. -/
def cellPlus (c : Lane) (x : Fx) : Lane := (round32 .rne (Fx.add .rne (Fx.ofLane c) x).1).bits

/-- The values of a cell and of its low word after an addition in wide mode, and the value s (R312). -/
def wideAdd (hi lo : Lane) (x : Fx) : Lane × Lane × Lane :=
  let sum := (Fx.add .rne (Fx.ofLane hi) x).1
  let s := (round32 .rne sum).bits
  if !(Fx.ofLane s).finite then (s, 0, s)
  else
    let t := (Fx.add .rne sum (Fx.ofLane s).negate).1
    let u := cellPlus lo t
    let su := (Fx.add .rne (Fx.ofLane s) (Fx.ofLane u)).1
    let h2 := (round32 .rne su).bits
    if !(Fx.ofLane h2).finite then (h2, 0, s)
    else (h2, (Fx.add .rne su (Fx.ofLane h2).negate).1.toLane, s)

/-- One cell's part of a step: its new value and low word, and what the bound unit sees: whether the result is an infinity
or a NaN, whether the cell counts, and its exponent (R331). -/
structure CellStep where
  hi   : Lane
  lo   : Lane
  bad  : Bool
  live : Bool
  emax : Option Int

/-- A cell after one product. -/
def cellStep (wide : Bool) (hi lo : Lane) (x : Fx) : CellStep :=
  if wide then
    let (h, l, s) := wideAdd hi lo x
    { hi := h, lo := l, bad := !(Fx.ofLane h).finite, live := !x.isZero,
      emax := maxExp (Fx.ofLane hi).expOf (Fx.ofLane s).expOf }
  else
    let r := cellPlus hi x
    { hi := r, lo := lo, bad := !(Fx.ofLane r).finite, live := !x.isZero && !(Fx.ofLane r).isZero,
      emax := (Fx.ofLane r).expOf }

/-- The bound after a step (R331). -/
def boundStep (wide : Bool) (b : BitVec 16) (cs : List CellStep) : BitVec 16 :=
  let live := cs.filter (·.live)
  if cs.any (·.bad) then 0xFFFF
  else if live.isEmpty then b
  else growBound b (roundTerm (live.foldl (fun e c => maxExp e c.emax) none) (if wide then 48 else 24))

/-- The cells of a pair and the bound through the steps of a MMA: columns of A and rows of B in increasing k (R311). -/
def mmaSteps (wide : Bool) : List (List Fx × List Fx) → List (Lane × Lane) → BitVec 16 → List (Lane × Lane) × BitVec 16
  | [], cs, b => (cs, b)
  | (a, r) :: ks, cs, b =>
    let xs := a.flatMap fun x => r.map fun y => (Fx.mul x y).1
    let st := (cs.zip xs).map fun c => cellStep wide c.1.1 c.1.2 c.2
    mmaSteps wide ks (st.map fun c => (c.hi, c.lo)) (boundStep wide b st)

/-- All 1,024 cells of an accumulator in row-major order. -/
def Accum.all (a : Accum) : List Lane := (List.range 1024).map fun i => a.cells.getD i 0

/-- The map of cells that are not +0. -/
def cellMap (ls : List Lane) : AMap Lane := (ls.zipIdx).filterMap fun p => if p.1 = 0 then none else some (p.2, p.1)

/-- The largest exponent among some cells; none when all are zero. -/
def topExp (ls : List Lane) : Option Int := ls.foldl (fun e c => maxExp e (Fx.ofLane c).expOf) none

/-- exceeds (R322, R334). -/
def exceeds (cc : List Lane) (bb : BitVec 16) (k : Nat) : Bool :=
  cc.any (fun c => !(Fx.ofLane c).finite) || (boundVal bb).above (pow2 ((topExp cc).getD (-150) - k))

/-! ## The bound of MST (R338) -/

/-- The scaled cells of an accumulator (R324): exact, a NaN where a scale is one. -/
def scaledCells (a : Accum) (rs cs : BitVec 256) : List Fx :=
  (a.all.zipIdx).map fun p =>
    let y := Fx.ofLane p.1
    if !a.scl then y
    else
      let ca := fld rs.toNat (8 * (p.2 / 32)) 8
      let cb := fld cs.toNat (8 * (p.2 % 32)) 8
      if ca = 0xFF ∨ cb = 0xFF then .nan false else y.scale ((ca + cb : Nat) - 254 : Int)

/-- The largest code of a scale slot. -/
def topScale (v : BitVec 256) : Nat := (List.range 32).foldl (fun m i => max m (fld v.toNat (8 * i) 8)) 0

/-- Whether an encoding lies beyond its format's range (R338): an infinity, a saturation, a clamp of a value below zero. -/
def beyond (fmt : FmtCode) (y : Fx) : Bool :=
  match y with
  | .fin neg m _ =>
    let n := fmt.toNat
    if 32 ≤ n then
      let v := B8.ofCode (n % 32)
      let (mm, me) := v.mag v.maxCode
      let c := v.encode y
      (v.uns && neg && m != 0) || !(v.decode c).finite || (v.fin && decide (cmpFin false m (match y with
        | .fin _ _ e => e
        | _ => 0) false mm me = 1))
    else if n = 4 ∨ n = 5 ∨ n = 6 ∨ n = 7 then
      let wide (lo hi : Int) : Bool := (toIntRange .rne lo hi y).1 != (toIntRange .rne (-2 ^ 400) (2 ^ 400) y).1
      if n = 4 then wide (-128) 127 else if n = 5 then wide 0 255 else if n = 6 then wide (-32768) 32767 else wide 0 65535
    else !(fmtDecode fmt (fmtEncode fmt y)).finite
  | _ => true

/-- Whether a value encodes exactly. -/
def exactly (fmt : FmtCode) (y : Fx) : Bool :=
  match y, fmtDecode fmt (fmtEncode fmt y) with
  | .fin n m e, .fin n' m' e' => decide (cmpFin n m e n' m' e' = 0)
  | _, _ => false

/-- The least normal exponent and the trailing bits of a floating format. -/
def fmtShape (fmt : FmtCode) : Int × Int :=
  match fmt.toNat with
  | 1 => (-14, 10)
  | 2 => (-126, 7)
  | n =>
    let v := B8.ofCode (n % 32)
    (1 - (v.bias : Int), v.mb)

/-- half_ulp (R338). -/
def halfUlp (ys : List Fx) (fmt : FmtCode) : Mag :=
  let n := fmt.toNat
  if n = 0 then if ys.all (exactly fmt) then some (0, 0) else pow2 (-150)
  else if n = 4 ∨ n = 5 ∨ n = 6 ∨ n = 7 then if ys.all (exactly fmt) then some (0, 0) else pow2 (-1)
  else
    let e := ys.foldl (fun a y => maxExp a y.expOf) none
    let (emin, m) := fmtShape fmt
    match e with
    | none => some (0, 0)
    | some e => pow2 (max e emin - m - 1)

/-- mst_bound (R338): the bound of an accumulator, the scale S, and the scaled cells. -/
def mstBound (b : BitVec 16) (scl : Bool) (rs cs : BitVec 256) (ys : List Fx) (fmt : FmtCode) : BitVec 16 :=
  if ys.any (beyond fmt) then 0xFFFF
  else if scl && (topScale rs == 0xFF || topScale cs == 0xFF) then 0xFFFF
  else
    let s : Mag := if scl then pow2 ((topScale rs + topScale cs : Nat) - 254 : Int) else pow2 0
    roundUpBound (((boundVal b).mul s).add (halfUlp ys fmt))

end Sys2Proof.Machine
end

