-- ==== Sys2Proof/Machine/Matrix.lean ====
section
/-!
DEFINITION. The matrix unit (R305 to R328) and the bound instructions (R339 to R344): groups, the fetch and the
accumulation of MMA, MEND, MST, and the moves between accumulators and registers.
-/

namespace Sys2Proof.Machine

/-! ## Accumulators -/

/-- The tile of the running core. -/
def State.myTile (s : State) : Nat := tileOf s.cur.core
/-- An accumulator of a tile. -/
def State.acc (s : State) (t : Nat) (p : Fin 8) : Accum := (s.tile t).acc.get p
/-- The state with an accumulator of a tile set. -/
def State.setAcc (s : State) (t : Nat) (p : Fin 8) (a : Accum) : State :=
  s.modTile t fun k => { k with acc := k.acc.set p a }
/-- The state with an accumulator of a tile changed. -/
def State.modAcc (s : State) (t : Nat) (p : Fin 8) (g : Accum → Accum) : State := s.setAcc t p (g (s.acc t p))

/-- Whether two accumulators are the same or the halves of a claimed pair. -/
def Tile.related (k : Tile) (p q : Fin 8) : Bool :=
  p == q || ((k.acc.get p).claim && q == p + 1) || ((k.acc.get q).claim && p == q + 1)

/-- Whether an earlier MMA on an accumulator or its partner has not finished accumulating (R315). -/
def Tile.busy (k : Tile) (q : Fin 8) : Bool := k.mmas.any fun j => k.related j.p q || (j.wide && j.p + 1 == q)

/-- Whether an accumulator is not the running fibre's to change (R308). -/
def State.foreign (s : State) (p : Fin 8) : Bool :=
  let a := s.acc s.myTile p
  a.pair || (a.isOpen && a.tid != s.me.tid)

/-- Engine command, cause 0x0E, with an accumulator's number as trap value. -/
def State.endAcc (s : State) (p : Fin 8) : Out := s.endTrap false 0x0E (BitVec.ofNat 64 p.val)

/-- A matrix instruction that waits for the MMAs on its accumulator; the wait is no blocking point (R315). -/
def State.whenIdle (s : State) (p : Fin 8) (k : State → Out) : Out :=
  if (s.tile s.myTile).busy p then s.endStall else k s

/-- MBEGIN (R319). -/
def execMbegin (act : Act) (wide : Bool) (p : Fin 8) (k : BitVec 8) (s : State) : Out :=
  slotC (.mbegin act wide p k) s fun s =>
    let t := s.myTile
    let q : Fin 8 := p + 1
    let a := s.acc t p
    let b := s.acc t q
    let claim := wide || act == .reissue
    if a.isOpen || a.pair || (claim && (b.isOpen || b.pair)) then s.endAcc p
    else if (s.tile t).busy p || (claim && (s.tile t).busy q) then s.endStall
    else
      let s := s.setAcc t p { a with
        cells := [], bound := 0, isOpen := true, tid := s.me.tid, start := s.me.pc + 8, act := act, wide := wide,
        k := k, reis := false, count := 0, claim := claim, aRead := [], bRead := [] }
      let s := if claim then s.modAcc t q fun b => { b with pair := true, cells := if wide then [] else b.cells } else s
      s.endC

/-- MZERO (R325). -/
def execMzero (p : Fin 8) (s : State) : Out :=
  slotC (.mzero p) s fun s =>
    if s.foreign p || (s.acc s.myTile p).isOpen then s.endAcc p
    else s.whenIdle p fun s =>
      (s.modAcc s.myTile p fun a => { a with cells := [], bound := 0, scl := false, count := 0 }).endC

/-- MSCL (R323). -/
def execMscl (p : Fin 8) (rs cs : Fin 16) (s : State) : Out :=
  slotC (.mscl p rs cs) s fun s =>
    if s.foreign p then s.endAcc p
    else s.whenIdle p fun s => (s.modAcc s.myTile p fun a => { a with scl := true, rs := rs, cs := cs }).endC

/-- The number of a cell that a lane of MRV and MVA names (R326). -/
def cellAt (row : Fin 32) (grp : Fin 8) (lane : Nat) : Nat := 32 * row.val + 4 * grp.val + lane

/-- MRV (R326). -/
def execMrv (vd : VR) (p : Fin 8) (row : Fin 32) (grp : Fin 8) (s : State) : Out :=
  slotC (.mrv vd p row grp) s fun s =>
    s.whenIdle p fun s =>
      let a := s.acc s.myTile p
      match s.writeV false vd 0xF fun l => a.cells.getD (cellAt row grp l.val) 0 with
      | .stop o => o
      | .done s => s.endC

/-- MVA (R326). -/
def execMva (p : Fin 8) (vs : VR) (row : Fin 32) (grp : Fin 8) (s : State) : Out :=
  slotC (.mva p vs row grp) s fun s =>
    if s.foreign p || (s.acc s.myTile p).isOpen then s.endAcc p
    else s.whenIdle p fun s =>
      let put (m : AMap Lane) (l : Fin 4) : AMap Lane := m.setD (cellAt row grp l.val) (s.rv vs l) 0
      (s.modAcc s.myTile p fun a => { a with
        cells := (List.finRange 4).foldl put a.cells, bound := 0xFFFF }).endC

/-- The code of an action (R48, R319). -/
def actCode : Act → Nat
  | .none => 0
  | .reissue => 1
  | .trap => 2

/-- EMAX of MSTAT (R327): the largest exponent field of the cells. -/
def emaxField (cs : AMap Lane) : Nat := cs.foldl (fun m c => max m (fld c.2.toNat 23 8)) 0

/-- The status word of an accumulator (R327). -/
def Accum.status (a : Accum) : Word :=
  BitVec.ofNat 64 (a.isOpen.toNat * 2 ^ 63 + (a.isOpen && a.wide).toNat * 2 ^ 62 + a.pair.toNat * 2 ^ 61
    + a.scl.toNat * 2 ^ 60 + actCode a.act * 2 ^ 58 + (a.isOpen && a.reis).toNat * 2 ^ 57 + a.k.toNat * 2 ^ 48
    + a.rs.val * 2 ^ 44 + a.cs.val * 2 ^ 40 + emaxField a.cells * 2 ^ 32 + a.count * 2 ^ 16 + a.bound.toNat)

/-- MSTAT (R327). -/
def execMstat (xr : XR) (p : Fin 8) (s : State) : Out :=
  slotC (.mstat xr p) s fun s => s.whenIdle p fun s => (s.setX xr (s.acc s.myTile p).status).endC

/-! ## The fetch of a MMA (R313, R314) -/

/-- Whether a format is allowed for A and B (R309). -/
def mmaFmt (c : FmtCode) : Bool := c == 1 || c == 2 || (decide (32 ≤ c.toNat) && fmtOk c)

/-- The state with the fetch of a tile changed. -/
def State.modFetch (s : State) (t : Nat) (g : MmaFetch → MmaFetch) : State :=
  s.modTile t fun k => { k with fetch := k.fetch.map g }

/-- Whether a page's address lies in a window of a tile's scratchpads. -/
def inWindow (k : Fin 8) (pa : Nat) : Bool :=
  windowOf (localOf pa) == some k && (match vaultPart (vaultOff (rawOf (localOf pa))) with
    | .scratch _ => true
    | _ => false)

/-- Whether a row of A lies where R309 and R321 forbid it. -/
def State.rowBad (s : State) (k : Option (Fin 8)) (fmt : FmtCode) (reis : Bool) (pa : Nat) (ty : PageType) : Bool :=
  !(mmaFmt fmt && (k.map fun k => inWindow k pa).getD false)
    || (reis && (ty != .once || s.isRemote pa || vaultTile (rawOf (localOf pa)) != s.myTile))

/-- The addresses of 32 rows (R310). -/
def rowVas (a : Word) (stride : BitVec 20) : List Word :=
  (List.range 32).map fun i => a + BitVec.ofNat 64 (i * stride.toNat)

/-- The format of the window that an address lies in. -/
def State.windowFmt (s : State) (k : Option (Fin 8)) : FmtCode := (k.map fun k => s.formats.get k).getD 3

/-- The sites of 32 rows through the window of the first: its number, its format, and the sites; `bad` names rows that are
refused with cause 0x05, each with the value that its entry gives. -/
def State.locateRows (s : State) (acc : XAcc) (a : Word) (stride : BitVec 20) (okFmt : FmtCode → Bool)
    (bad : State → Option (Fin 8) → FmtCode → Nat → PageType → Bool) (val : Word → Word) :
    Loc (FmtCode × List Site) × State :=
  let vas := rowVas a stride
  let k := (s.peek acc.wr a).bind fun pa => windowOf (localOf pa)
  let fmt := s.windowFmt k
  let r := if okFmt fmt then 32 * fmtBytes fmt else 1
  match s.reach { acc := acc, n := 1, rows := true } (vas.map fun v => { va := v, len := r : Touch }) with
  | (.fault c v, s) => (.fault c v, s)
  | (.hold p v, s) => (.hold p v, s)
  | (.ok fs, s) =>
    match vas.find? fun v => bad s k fmt (physOf fs v) (frameOf fs v).ty with
    | some v => (.fault 0x05 (val v), s)
    | none =>
      (.ok (fmt, vas.map fun v =>
        { va := v, pa := s.placed (physOf fs v), len := r, fmt := fmt, ty := (frameOf fs v).ty,
          remote := s.isRemote (physOf fs v) }), s)

/-- The rows that come by messages and have not been read asked for, each by a read (R198, R316). -/
def State.sendRows (s : State) (t : Nat) : State :=
  match (s.tile t).fetch with
  | none => s
  | some f =>
    let fib := s.fib f.core f.slot
    let ctx := (s.core f.core).ctxid.toNat
    (f.rows.zipIdx).foldl (fun s r =>
      if r.1.msg && (f.got.get? r.2).isNone then
        (s.sendAcc (.mma t) fib.tid ctx r.1.va r.1.pa f.len r.1.ty (clsOf r.1.ty true false false false)
          (.read (.row r.2))).1
      else s) s

/-- Whether a message is one of a tile's array. -/
def Msg.ofMma (t : Nat) : Msg → Bool
  | .req a => a.owner == .mma t
  | .reply o .. => o == .mma t
  | _ => false

/-- Whether rows of a tile's MMA are on their way. -/
def State.rowsOpen (s : State) (t : Nat) : Bool := s.net.any fun p => p.2.ofMma t

/-- What a fetch does once none of its rows is on its way: it ends, or it waits for queued rows, or it reads the rows
again (R314). -/
def State.mmaTry (s : State) (t : Nat) : State :=
  match (s.tile t).fetch with
  | none => s
  | some f =>
    if s.rowsOpen t then s
    else
      let up := s.wakeWhere fun _ _ g => g.need == .mma t
      if f.fail.isSome then up
      else if !f.queued.isEmpty then s
      else if (f.rows.zipIdx).any fun r => r.1.msg && (f.got.get? r.2).isNone then
        (s.modFetch t fun f => { f with got := f.got.filter fun g => !((f.rows[g.1]?).map (·.msg)).getD true }).sendRows t
      else up

/-- A row read at its home: its bytes with the bound and magnitude of its block, or its record queued (R314). A block that a
re-issuable group has read is guarded from then on (R321). -/
def State.homeRow (s : State) (k : Nat) (a : Acc) (t i : Nat) : State :=
  match s.performRead a (.row i) with
  | (s, some (.reply o d data .none)) =>
    let m := s.blkMeta a.pa
    let s := s.modFetch t fun f => { f with got := f.got.insert i (data, m.bound, m.maxe) }
    let s := match (s.tile t).fetch with
      | some f => s.modAcc t f.p fun c => if c.isOpen then { c with aRead := (blkOf a.pa :: c.aRead).eraseDups } else c
      | none => s
    s.putMsg k (.reply o d [] .none)
  | (s, some m) => s.putMsg k m
  | (s, none) => ((s.modFetch t fun f => { f with queued := f.queued ++ [i] }).dropMsg k).mmaTry t

/-- The failure of a row noted: the first counts (R314). -/
def MmaFetch.failAt (f : MmaFetch) (i : Nat) (fl : RFlag) : MmaFetch :=
  if fl = .none ∨ f.fail.isSome then f
  else { f with fail := some (fl.cause, ((f.rows[i]?).map (·.va)).getD 0) }

/-- The answer of a row's read at the array. -/
def State.rowReply (s : State) (k t i : Nat) (fl : RFlag) : State :=
  ((s.dropMsg k).modFetch t fun f => f.failAt i fl).mmaTry t

/-- A wake of KIND 110 at the array (R205, R314). -/
def State.rowWoken (s : State) (t blk : Nat) (r : Aster) (fl : RFlag) : State :=
  match (s.tile t).fetch with
  | none => s
  | some f =>
    match f.queued.find? fun i => ((f.rows[i]?).map fun x => s.redirected x.pa) == some (s.redirected blk + r.off.toNat) with
    | none => s
    | some i => (s.modFetch t fun f => { f with queued := f.queued.erase i }.failAt i fl).mmaTry t

/-- The vault address of a run of B (R310). -/
def runAddr (t j o : Nat) : Nat := vaultBase + t * 0x100000 + 0xC0000 + j * 0x2000 + o

/-- A run of bytes cut at the ends of blocks: it touches two at most. -/
def runParts (a r : Nat) : List (Nat × Nat) :=
  let n := 512 - a % 512
  if r ≤ n then [(a, r)] else [(a, n), (a + n, r - n)]

/-- The runs of B read, by their parts in each block: the first word that poison or a RETIRED block stops, and the state
(R313). -/
def State.readRuns (s : State) : List (Nat × Nat) → Option Word × State
  | [] => (none, s)
  | (a, n) :: ps =>
    let s := s.meet a n
    if s.isRetired a then (some (BitVec.ofNat 64 a), s)
    else match s.firstPoison a n with
      | some u => (some (BitVec.ofNat 64 u), s)
      | none => s.readRuns ps

/-- The largest bound and magnitude among some blocks. -/
def largest (ms : List (BitVec 16 × BitVec 8)) : BitVec 16 × BitVec 8 :=
  ms.foldl (fun m x => (maxCode m.1 x.1, maxCode m.2 x.2)) (0, 0)

/-- The state in which the running fibre's fetch has ended. -/
def State.endFetch (s : State) : State := s.modTile s.myTile fun k => { k with fetch := none }

/-- A MMA whose rows have all been read: it reads B, and retires into an operand buffer (R313, R320). -/
def mmaRetire (f : MmaFetch) (o : Nat) (s : State) : Out :=
  let t := s.myTile
  let as := (List.range 32).map fun j => runAddr t j o
  match s.readRuns (as.flatMap fun a => runParts a f.len) with
  | (some v, s) => s.endFetch.endTrap false 0x09 v
  | (none, s) =>
    let (ea, ma) := largest (f.got.map fun g => (g.2.2.1, g.2.2.2))
    let blks := (as.flatMap fun a => [blkOf a, blkOf (a + f.len - 1)]).eraseDups
    let (eb, mb) := largest (blks.map fun b => ((s.blkMeta b).bound, (s.blkMeta b).maxe))
    let a := s.acc t f.p
    let j : MmaJob :=
      { p := f.p, wide := a.isOpen && a.wide, fmt := f.fmt, a := f.got.flatMap fun g => g.2.1,
        b := as.flatMap fun x => s.bytes x f.len, ea := ea, eb := eb, ma := ma, mb := mb }
    let s := s.setAcc t f.p { a with
      count := min (a.count + 1) 65535, bRead := if a.isOpen then (blks ++ a.bRead).eraseDups else a.bRead }
    ((s.modTile t fun k => { k with fetch := none, mmas := k.mmas ++ [j] })).endC

/-- A MMA whose rows are being read: it traps with a failure that one met, waits for queued rows, waits for rows on their
way, or retires (R313, R314). -/
def mmaGo (xb : XR) (s : State) : Out :=
  let t := s.myTile
  match (s.tile t).fetch with
  | none => s.endStall
  | some f =>
    if s.rowsOpen t then s.endStall
    else match f.fail with
      | some (c, v) => s.endFetch.endTrap false c v
      | none =>
        if !f.queued.isEmpty then s.endPark 2 (.mma t)
        else mmaRetire f (s.rx xb).toNat s

/-- The rows of PRIVATE pages, as the core's buffers have them (R163), and those of another package, which are free
(log 8); none where poison was met: its row's address. -/
def State.ownRows (s : State) : List (Site × Nat) → AMap (List Byte × BitVec 16 × BitVec 8) →
    (Word ⊕ AMap (List Byte × BitVec 16 × BitVec 8)) × State
  | [], m => (.inr m, s)
  | (x, i) :: xs, m =>
    if x.remote then
      let (n, s) := s.takeMany (x.len + 2)
      let w := (Config.freeWord (n + x.len)).toNat
      s.ownRows xs (m.insert i (freeBytes n x.len, BitVec.ofNat 16 w, BitVec.ofNat 8 (w / 65536)))
    else if x.ty = .priv then
      match (if (s.core s.cur.core).missesAny x.pa x.len then s.privFault s.cur.core x none [(x.pa, x.len)] else (none, s)) with
      | (some _, s) => (.inl x.va, s)
      | (none, s) =>
        let b := s.blkMeta x.pa
        let (data, s) := s.privRead s.cur.core x
        s.ownRows xs (m.insert i (data, b.bound, b.maxe))
    else s.ownRows xs m

/-- MMA (R309, R310, R313, R314, R320). -/
def execMma (p : Fin 8) (xa xb : XR) (stride : BitVec 20) (s : State) : Out :=
  memSlot (.mma p xa xb stride) s fun s =>
    match s.me.resume with
    | .stage 50 _ _ => mmaGo xb s
    | _ =>
      let t := s.myTile
      let a := s.acc t p
      let x := s.rx xa
      let o := (s.rx xb).toNat
      if s.foreign p then s.endAcc p
      else
        let reis := a.isOpen && a.act == .reissue
        located (s.locateRows { rd := true } x stride mmaFmt (fun s k f pa ty => s.rowBad k f reis pa ty) id) fun q s =>
          let r := 32 * fmtBytes q.1
          if x.toNat % r ≠ 0 ∨ stride.toNat % r ≠ 0 then s.endTrap false 0x0A x
          else if o % 32 ≠ 0 ∨ 8192 < o + r then s.endTrap false 0x0E (s.rx xb)
          else if 2 ≤ (s.tile t).mmas.length then s.endStall
          else
            s.afterEarlier (clsAll true false false false q.2) q.2 fun s =>
              match s.ownRows (q.2.zipIdx) [] with
              | (.inl v, s) => s.endTrap false 0x09 v
              | (.inr got, s) =>
                let f : MmaFetch :=
                  { core := s.cur.core, slot := s.cur.slot, p := p, fmt := q.1, len := r, got := got,
                    rows := q.2.map fun x => { va := x.va, pa := x.pa, ty := x.ty, msg := !x.remote && x.ty != .priv } }
                let s := (s.modTile t fun k => { k with fetch := some f }).sendRows t
                (s.modMe fun g => { g with resume := .stage 50 [] none }).endStall

/-- The elements of a list of bytes by number. -/
def elemAt (xs : List Fx) (i : Nat) : Fx := xs.getD i (.fin false 0 0)

/-- MMA_ACCUMULATION (R311, R312, R331, R332): the oldest retired MMA of a tile adds its products in the fixed order. -/
def execMmaAccumulation (tile : Nat) (s : State) : Out :=
  match (s.tile tile).mmas with
  | [] => .fault .noSuchEvent
  | j :: js =>
    let s := s.modTile tile fun k => { k with mmas := js }
    let a := s.acc tile j.p
    let q : Fin 8 := j.p + 1
    let as := elemsOf j.fmt 1024 j.a
    let bs := elemsOf j.fmt 1024 j.b
    let steps := (List.range 32).map fun k =>
      ((List.range 32).map fun i => elemAt as (32 * i + k), (List.range 32).map fun i => elemAt bs (32 * i + k))
    let lo := if j.wide then (s.acc tile q).all else List.replicate 1024 0
    let (cs, b) := mmaSteps j.wide steps (a.all.zip lo) (growBound a.bound (propTerm j.ea j.eb j.ma j.mb))
    let s := s.setAcc tile j.p { a with cells := cellMap (cs.map (·.1)), bound := b }
    .next (if j.wide then s.modAcc tile q fun c => { c with cells := cellMap (cs.map (·.2)) } else s)

/-! ## MEND -/

/-- The cells that MEND would leave, and their bound: a wide pair is folded (R322, R333). -/
def foldPair (a lo : Accum) : List Lane × BitVec 16 :=
  if !a.wide then (a.all, a.bound)
  else
    let cc := (a.all.zip lo.all).map fun c => cellPlus c.1 (Fx.ofLane c.2)
    let exact := lo.all.all fun l => (Fx.ofLane l).isZero
    (cc, if exact then a.bound else growBound a.bound (roundTerm (topExp cc) 24))

/-- MEND (R322, R333, R334). -/
def execMend (p : Fin 8) (s : State) : Out :=
  slotC (.mend p) s fun s =>
    let t := s.myTile
    let q : Fin 8 := p + 1
    if s.foreign p || !(s.acc t p).isOpen then s.endAcc p
    else s.whenIdle p fun s =>
      let a := s.acc t p
      let (cc, bb) := foldPair a (s.acc t q)
      let ex := a.act != .none && exceeds cc bb a.k.toNat
      if ex && (a.act == .trap || a.wide) then
        s.endTrap false 0x0D (BitVec.ofNat 64 (bb.toNat + p.val * 2 ^ 16 + a.wide.toNat * 2 ^ 19))
      else
        let s := s.traceRec s.cur.core s.myCore.ctxid.toNat 6 s.me.tid (bb.setWidth 32)
        if ex then
          let s := s.setAcc t p { a with cells := [], bound := 0, wide := true, reis := true, count := 0 }
          (s.modAcc t q fun b => { b with cells := [] }).endJump a.start
        else
          let s := s.setAcc t p { a with cells := cellMap cc, bound := bb }
          let s := if a.wide then s.modAcc t q fun b => { b with cells := [] } else s
          ((s.modTile t fun k => k.closeAcc p).wakeGuards).endC

/-! ## MST (R324, R338) -/

/-- The rows of MST by the blocks that they fall in: block, virtual address, rows by offset. -/
def rowsByBlock (ws : List Put) : AMap (Word × List (Nat × List Byte)) :=
  ws.foldl (fun m w =>
    let b := blkOf w.site.pa
    let old := ((m.get? b).map (·.2)).getD []
    m.insert b (w.site.blkVa, old ++ [(w.site.pa % 512, w.data)])) []

/-- The bytes of rows laid into a block. -/
def layRows (rows : List (Nat × List Byte)) : AMap Byte :=
  rows.foldl (fun m r => (r.2.zipIdx).foldl (fun m b => m.insert (r.1 + b.2) b.1) m) []

/-- MAXE of the rows that fall in a block, in the format in which they are written (R336). -/
def rowsMaxe (fmt : FmtCode) (rows : List (Nat × List Byte)) : BitVec 8 :=
  maxeOf (rows.flatMap fun r => elemsOf fmt 512 r.2)

/-- What is wrong with a block of a ONCE page that MST would reserve: the cause, or that it must wait for another's
reservation (R324). -/
def State.onceRefusal (s : State) (blk : Nat) : Option Nat × State :=
  let s := (s.touchLines blk 512 true).meet blk 0
  (if s.isRetired blk then some 0x09 else if (s.blkMeta blk).pres = .full then some 0x07 else none, s)

/-- The blocks of ONCE pages tried in ascending order: the first refusal with its address. -/
def State.reserveBlocks (s : State) : AMap (Word × List (Nat × List Byte)) → Option (Nat × Word) × State
  | [] => (none, s)
  | (b, va, _) :: bs =>
    match s.onceRefusal b with
    | (some c, s) => (some (c, va), s)
    | (none, s) => s.reserveBlocks bs

/-- The commits of MST sent in ascending address (R324). -/
def State.sendMstCommits (s : State) (fmt : FmtCode) (bound : BitVec 16) :
    AMap (Word × List (Nat × List Byte)) → State × List Nat
  | [] => (s, [])
  | (b, va, rows) :: bs =>
    let m := layRows rows
    let c : CommitData :=
      { data := (List.range 512).map fun i => m.getD i 0, bound := bound, maxe := rowsMaxe fmt rows, poison := [] }
    let (s, id) := s.sendAcc s.mine s.me.tid s.myCore.ctxid.toNat va b 512 .once { rel := true, st := true } (.mstCommit c true)
    let (s, ids) := s.sendMstCommits fmt bound bs
    (s, id :: ids)

/-- The writes of MST to other pages sent, one message for each block. -/
def State.sendMstWrites (s : State) (fmt : FmtCode) (bound : BitVec 16) (cls : Cls) (ty : PageType) :
    AMap (Word × List (Nat × List Byte)) → State × List Nat
  | [] => (s, [])
  | (b, va, rows) :: bs =>
    let (s, id) := s.sendAcc s.mine s.me.tid s.myCore.ctxid.toNat va b 512 ty cls
      (.mstWrite rows bound (rowsMaxe fmt rows) ((layRows rows).length == 512))
    let (s, ids) := s.sendMstWrites fmt bound cls ty bs
    (s, id :: ids)

/-- The rows of an accumulator encoded in a format (R324): FP32 cells without scales as their values encode. -/
def rowData (fmt : FmtCode) (ys : List Fx) (i : Nat) : List Byte :=
  ((ys.drop (32 * i)).take 32).flatMap fun y => bytesOfNat (fmtBytes fmt) (fmtEncode fmt y)

/-- The bytes that MST writes to a PRIVATE page leave the core's write buffer, where it holds older ones: MST writes them at
their homes before it retires (R316, R324). -/
def State.privClear (s : State) (c pa n : Nat) : State :=
  s.modCore c fun r => { r with
    wbuf := (r.wbuf.map fun l => (l.1, l.2.filter fun b => !(decide (pa ≤ l.1 + b.1) && decide (l.1 + b.1 < pa + n)))).filter
      fun l => !l.2.isEmpty }

/-- The bytes that MST has written to a PRIVATE page in the copies of its core's read buffer (R163). -/
def State.privPatch (s : State) (c pa : Nat) (data : List Byte) : State :=
  s.modCore c fun r => { r with
    rbuf := r.rbuf.map fun l => (l.1, (l.2.zipIdx).map fun b =>
      if pa ≤ l.1 + b.2 ∧ l.1 + b.2 < pa + data.length then data.getD (l.1 + b.2 - pa) b.1 else b.1) }

/-- What the home of a row of MST refuses: a RETIRED block (R97). -/
def State.rowRefusal (s : State) (x : Site) : Option (Nat × Word) × State :=
  s.writeFault { x with ty := if x.ty = .priv then .release else x.ty }

/-- The writes of MST once everything has been checked. -/
def mstWrites (fmt : FmtCode) (bound : BitVec 16) (ws : List Put) (s : State) : Out :=
  let here := ws.filter fun w => !w.site.remote
  let of (ty : PageType) := rowsByBlock (ws.filter fun w => w.site.ty == ty)
  let once := rowsByBlock (here.filter fun w => w.site.ty == .once)
  let cls := clsAll false true false (!(of .once).isEmpty) (ws.map (·.site))
  if once.any fun b => s.reserved b.1 || s.wakeStuck b.1 then s.endStall
  else s.afterEarlier cls (ws.map (·.site)) fun s =>
    match s.reserveBlocks once with
    | (some (c, v), s) => s.endTrap false c v
    | (none, s) =>
      match here.findSome? fun w => (s.rowRefusal w.site).1 with
      | some (c, v) => (here.foldl (fun s w => (s.rowRefusal w.site).2) s).endTrap false c v
      | none =>
        let s := (here.filter fun w => w.site.ty == .priv).foldl (fun s w => s.privClear s.cur.core w.site.pa w.site.len) s
        let (s, i0) := s.sendMstWrites fmt bound cls .priv (of .priv)
        let (s, i1) := s.sendMstWrites fmt bound cls .strict (of .strict)
        let (s, i2) := s.sendMstWrites fmt bound cls .release (of .release)
        let (s, i3) := s.sendMstCommits fmt bound (of .once)
        let ids := i0 ++ i1 ++ i2 ++ i3
        if ids.isEmpty then s.endC else s.awaitIds 51 ids none

/-- MST (R324). -/
def execMst (p : Fin 8) (xa : XR) (stride : BitVec 20) (s : State) : Out :=
  memSlot (.mst p xa stride) s fun s =>
    match s.me.resume with
    | .stage 51 _ fail => s.answered fail
    | _ =>
      let t := s.myTile
      let d := s.rx xa
      if s.foreign p || (s.acc t p).isOpen then s.endAcc p
      else s.whenIdle p fun s =>
        located (s.locateRows { wr := true } d stride fmtOk
            (fun _ k f pa _ => !(fmtOk f && (k.map fun k => inWindow k pa).getD false)) fun _ => d) fun q s =>
          let r := 32 * fmtBytes q.1
          let once := q.2.any fun x => x.ty == .once
          if d.toNat % r ≠ 0 ∨ stride.toNat % r ≠ 0 ∨ stride = 0 then s.endTrap false 0x0A d
          else if once && (stride.toNat != r || d.toNat % 512 != 0) then s.endTrap false 0x0A d
          else
            let k := s.tile t
            let a := k.acc.get p
            let rs := k.scale.get a.rs
            let cs := k.scale.get a.cs
            let ys := scaledCells a rs cs
            let ws := (q.2.zipIdx).map fun x => { site := x.1, data := rowData q.1 ys x.2 : Put }
            mstWrites q.1 (mstBound a.bound a.scl rs cs ys q.1) ws s

/-- A reserved commit performed at its home: those of MST in ascending address, so that one waits for those of lower ones
(R324, R371). -/
def State.homeMst (s : State) (k : Nat) (a : Acc) (c : CommitData) (inOrder : Bool) : State :=
  let lower := s.net.any fun m => match m.2 with
    | .req b => b.owner == a.owner && decide (b.pa < a.pa) && (match b.op with
      | .mstCommit _ true => true
      | _ => false)
    | _ => false
  if inOrder && lower then s
  else
    let (s, code) := if a.far then s.farCommit else s.performCommit a.pa c
    s.putMsg k (.answer a.owner code a.va)

/-- Rows of MST written at the home of a block that is not ONCE, with the block's bound and magnitude (R324, R338). A home that
refuses them answers so to the bundle, which waits (R97, R108). -/
def State.homeMstWrite (s : State) (k : Nat) (a : Acc) (rows : List (Nat × List Byte)) (bound : BitVec 16)
    (maxe : BitVec 8) (whole : Bool) : State :=
  if a.far then s.putMsg k (.ack a.owner)
  else
  let s := if s.extentGone a then s else (s.touchLines a.pa 512 true).meet a.pa 0
  if s.writeLost a ≠ 0 then s.putMsg k (.answer a.owner (s.writeLost a) a.va)
  else
  let old := s.blkMeta a.pa
  let s := rows.foldl (fun s r => s.performWrite a.tid (a.pa + r.1) r.2) s
  let s := match a.ty, a.owner with
    | .priv, .fibre c _ => rows.foldl (fun (s : State) (r : Nat × List Byte) => s.privPatch c (a.pa + r.1) r.2) s
    | _, _ => s
  let s := if s.isRetired a.pa then s
    else s.modMeta a.pa fun m => { m with
      bound := if whole then bound else maxCode old.bound bound, maxe := if whole then maxe else maxCode old.maxe maxe }
  s.putMsg k (.ack a.owner)

/-! ## The bound instructions (R339 to R344) -/

/-- BGET (R340). -/
def execBget (xr : XR) (p : Fin 8) (s : State) : Out :=
  slotC (.bget xr p) s fun s => s.whenIdle p fun s => (s.setX xr ((s.acc s.myTile p).bound.setWidth 64)).endC

/-- BSET (R340). -/
def execBset (p : Fin 8) (xa : XR) (s : State) : Out :=
  slotC (.bset p xa) s fun s =>
    let a := s.acc s.myTile p
    if a.isOpen || a.pair then s.endAcc p
    else s.whenIdle p fun s => (s.modAcc s.myTile p fun a => { a with bound := cleanBound ((s.rx xa).setWidth 16) }).endC

/-- BTHR (R341). -/
def execBthr (act : Act) (p : Fin 8) (k : BitVec 8) (s : State) : Out :=
  slotC (.bthr act p k) s fun s =>
    let a := s.acc s.myTile p
    if s.foreign p || (act == .reissue && (p.val % 2 == 1 || (a.isOpen && !a.claim))) then s.endAcc p
    else s.whenIdle p fun s => (s.modAcc s.myTile p fun a => { a with act := act, k := k }).endC

/-- Where BBLK, BBLK.set and BMARK land (R342): no register, no PRIVATE page. -/
def State.locateBound (s : State) (write : Bool) (a : Word) : Loc Site × State :=
  match s.locateByte { rd := !write, wr := write } a with
  | (.ok x, s) => if x.ty = .priv then (.fault 0x05 a, s) else (.ok x, s)
  | r => r

/-- What BBLK reads of a block (R342). -/
def State.boundWord (s : State) (blk : Nat) : Word :=
  let m := s.blkMeta blk
  BitVec.ofNat 64 (m.bound.toNat + m.maxe.toNat * 2 ^ 16)

/-- BBLK (R342, R344). Another package's metadata is free (log 8). -/
def execBblk (xr xa : XR) (s : State) : Out :=
  memSlot (.bblk xr xa) s fun s =>
    located (s.locateBound false (s.rx xa)) fun x s =>
      let b := x.block
      s.afterEarlier { strict := x.ty == .strict, ld := true } [b] fun s =>
        let s := if x.ty = .strict then s.hearMe else s
        if x.remote then
          let (n, s) := s.takeFresh
          (s.setX xr (Config.freeWord n &&& 0xFFFFFF#64)).endC
        else
          s.atHome b.pa fun s =>
            let s := (s.touchLines x.pa 1 false).meet b.pa 0
            if s.isRetired b.pa then s.endTrap false 0x09 b.va else (s.setX xr (s.boundWord b.pa)).endC

/-- BBLK.set (R342). -/
def execBblkSet (xa xb : XR) (s : State) : Out :=
  memSlot (.bblkSet xa xb) s fun s =>
    let n := cleanBound ((s.rx xb).setWidth 16)
    let e : BitVec 8 := (s.rx xb >>> 16).setWidth 8
    located (s.locateBound true (s.rx xa)) fun x s =>
      let b := x.block
      s.afterEarlier (b.cls false true false false) [b] fun s =>
        let s := if x.ty = .strict then s.hearMe else s
        if x.remote then s.endC
        else s.atHome b.pa fun s =>
          let s := (s.touchLines x.pa 1 true).meet b.pa 0
          let m := s.blkMeta b.pa
          if s.isRetired b.pa then s.endTrap false 0x09 b.va
          else if x.ty = .once ∧ m.pres ≠ .full then s.endTrap false 0x05 x.va
          else s.guarded x true fun s =>
            (s.setMeta b.pa (if x.ty = .once then { m with dsc := true, bound := maxCode m.bound n, maxe := maxCode m.maxe e }
              else { m with dsc := true, bound := n, maxe := e })).endC

/-- BMARK (R343). -/
def execBmark (xa xb : XR) (s : State) : Out :=
  memSlot (.bmark xa xb) s fun s =>
    let v := s.rx xb
    let n := cleanBound (v.setWidth 16)
    let f : FmtCode := (v >>> 16).setWidth 6
    if !fmtOk f then s.endTrap false 0x01 v
    else
      located (s.locateBound true (s.rx xa)) fun x s =>
        let b := x.block
        if x.ty = .once then
          if (s.myCore.babOf b.pa).isNone then s.endTrap false 0x05 x.va
          else
            (s.modCore s.cur.core fun c => { c with
              bab := c.bab.map fun e => if e.blk = b.pa then { e with mark := some (f, n) } else e }).endC
        else
          s.afterEarlier (b.cls false true false false) [b] fun s =>
            let s := if x.ty = .strict then s.hearMe else s
            if x.remote then s.endC
            else s.atHome b.pa fun s =>
              let s := (s.touchLines x.pa 1 true).meet b.pa 0
              if s.isRetired b.pa then s.endTrap false 0x09 b.va
              else s.guarded x true fun s =>
                (s.modMeta b.pa fun m => { m with
                  dsc := true, bound := n, maxe := maxeOf (elemsOf f 512 (s.bytes b.pa 512)) }).endC

end Sys2Proof.Machine
end

