-- ==== Sys2Proof/Machine/Collectives.lean ====
section
/-!
DEFINITION. The core plane's own work: collectives and their fixed tree (R349 to R370), MCAST (R371), BARRIER (R372, R373),
messages outside their partition (R348), and the Zinnia snapshots (R374 to R376).
-/

namespace Sys2Proof.Machine

/-! ## Descriptors (R351 to R353) -/

/-- One bit of a CRC-32C in the reflected form (R352). -/
def crcBit (c : BitVec 32) : BitVec 32 := if c.getLsbD 0 then (c >>> 1) ^^^ 0x82F63B78#32 else c >>> 1
/-- One byte of a CRC-32C. -/
def crcByte (c : BitVec 32) (b : Byte) : BitVec 32 := (List.range 8).foldl (fun c _ => crcBit c) (c ^^^ b.setWidth 32)
/-- The CRC-32C of some bytes (R352). -/
def crc32c (bs : List Byte) : BitVec 32 := ~~~(bs.foldl crcByte 0xFFFFFFFF#32)

/-- A geometry record's word as R351 lays it out. -/
structure Geometry where
  width  : Nat
  height : Nat
  col0   : Nat
  row0   : Nat
  deriving DecidableEq, Repr

/-- The geometry in bits 41:6 of a word (R351, R372). -/
def Geometry.ofNat (w : Nat) : Geometry :=
  { width := fld w 32 10, height := fld w 23 9, col0 := fld w 14 9, row0 := fld w 6 8 }

/-- Whether a geometry lies in the grid, and its word's bits 5:0 are zero (R351). -/
def geometryOk (w : Nat) : Bool :=
  let g := Geometry.ofNat w
  fld w 0 6 == 0 && decide (1 ≤ g.width) && decide (g.width ≤ 512) && decide (1 ≤ g.height) && decide (g.height ≤ 256)
    && decide (g.col0 + g.width ≤ 512) && decide (g.row0 + g.height ≤ 256)

/-- Whether a core lies in a rectangle. -/
def Geometry.has (g : Geometry) (c : Nat) : Bool :=
  decide (g.col0 ≤ coreCol c) && decide (coreCol c < g.col0 + g.width)
    && decide (g.row0 ≤ coreRow c) && decide (coreRow c < g.row0 + g.height)

/-- Word `i` of a record. -/
def recWord (bs : List Byte) (i : Nat) : Nat := natOfBytes ((bs.drop (8 * i)).take 8)

/-- Whether a descriptor's words keep R351. -/
def collDescOk (bs : List Byte) : Bool :=
  let w := recWord bs
  let nb := fld (w 0) 24 8
  let kind := fld (w 0) 12 2
  fld (w 0) 0 12 == 0 && decide (1 ≤ nb) && decide (nb ≤ 64) && decide (fld (w 0) 18 6 ≤ 2) && fld (w 0) 16 2 != 3
    && decide (fld (w 0) 14 2 ≤ 1) &&
    (if kind = 2 then decide (1 ≤ w 1) && decide (w 1 ≤ 1024) && w 3 % 2 == 0
     else kind != 3 && fld (w 1) 42 22 == 0 && geometryOk (w 1) && w 3 == 0)

/-- The entry that a descriptor gives a core: without its blocks, and with the packages of its list (R351 to R353). -/
def State.collEntryOf (s : State) (bs : List Byte) (list : List Nat) : Coll :=
  let w := recWord bs
  let c := s.cur.core
  let g := Geometry.ofNat (w 1)
  let kind := fld (w 0) 12 2
  let (group, root, step, n, rank) : Nat × Nat × Nat × Nat × Nat :=
    if kind = 0 then (coreRow c, coreRow c * 512 + g.col0, 1, g.width, coreCol c - g.col0)
    else if kind = 1 then (256 + coreCol c, g.row0 * 512 + coreCol c, 512, g.height, coreRow c - g.row0)
    else (1024, c, 0, list.length, list.findIdx (· == s.myPkg))
  { st := .armed, core := c, slot := s.cur.slot, tid := s.me.tid, ctx := s.myCore.ctxid.toNat, blk := 0, nb := fld (w 0) 24 8,
    cid := BitVec.ofNat 16 (fld (w 0) 48 16), seq := BitVec.ofNat 16 (fld (w 0) 32 16),
    hash := crc32c (bs.take 4 ++ [0, 0] ++ (bs.drop 6).take 10 ++ list.flatMap (bytesOfNat 2)),
    op := fld (w 0) 16 2, etype := BitVec.ofNat 6 (fld (w 0) 18 6), allred := fld (w 0) 14 2 == 1, pkind := kind,
    group := group, root := root, step := step, n := n, rank := rank, dest := [] }

/-- Whether the entries of a package list are ones that R351 and R353 allow: package numbers, none twice. -/
def listOk (list : List Nat) : Bool := list.all (fun p => decide (p < 1024)) && list.eraseDups.length == list.length

/-- The package list read entry by entry. -/
def readList (a : Word) : Nat → List Nat → (List Nat → State → Out) → State → Out
  | 0, got, k, s => k got s
  | n + 1, got, k, s =>
    match s.syncRead .plain a 2 with
    | .stop o => o
    | .data bs s => readList (a + 2) n (got ++ [natOfBytes bs]) k s

/-! ## The end of an entry (R359, R368) -/

/-- The state in which an entry has ended: the fibres that wait for it, and those that its guard held, go on. -/
def State.endColl (s : State) (t blk : Nat) (st : CollState) : State :=
  let stamp := (s.tile t).coll.foldl (fun m e => max m e.ended) 0 + 1
  let s := s.modColl t blk fun e => { e with st := st, ended := stamp, held := [] }
  (s.wakeWhere fun _ _ f => f.need == .coll t blk).wakeGuards

/-- The DEST blocks of an entry that became ABORTED or MISMATCH (R359): the records queued on those EMPTY or DEFERRED are
woken with the flag, and the blocks are EMPTY and zero. -/
def State.flushDest (s : State) (blks : List Nat) (fl : RFlag) : State :=
  blks.foldl (fun s b =>
    let m := s.blkMeta b
    if m.pres = .deferred && !s.isRetired b then
      let q := s.queue b
      let gs := s.groupsOf s.chainFuel b
      let s := s.writeBlock b { data := List.replicate 512 0, bound := m.bound, maxe := m.maxe, poison := [] }
        { m with dsc := true, pres := .empty }
      (q.foldl (fun s e => s.sendWake b e.2 [] fl) s).freeGroups gs
    else s) s

/-- An entry that an abort or a mismatch ends (R359). -/
def State.failColl (s : State) (t : Nat) (e : Coll) (mismatch : Bool) : State :=
  (s.flushDest e.dest (if mismatch then .mismatch else .abort)).endColl t e.blk (if mismatch then .mismatch else .aborted)

/-- The state in which a tile has noted a pair on its abort list (R360). -/
def State.noteAbort (s : State) (t : Nat) (cid seq : BitVec 16) : State :=
  s.modTile t fun k =>
    let l := k.aborts ++ [(cid, seq)]
    { k with aborts := l.drop (l.length - 8) }

/-- An abort or mismatch broadcast by the root to the other ranks of its group (R359). -/
def State.broadcast (s : State) (root step n tenant group : Nat) (cid seq : BitVec 16) (mismatch : Bool) : State :=
  (List.range (n - 1)).foldl (fun s i => (s.send (.aborted (root + (i + 1) * step) root cid seq tenant group mismatch)).1) s

/-! ## CARM (R367) -/

/-- The blocks from an address on, translated together as blocks that CARM names (R138); a page type that is not legal names the
first block (R367). Watch filters do not see them (R140). -/
def State.locateBlocks (s : State) (acc : XAcc) (a : Word) (n : Nat) : Loc (List Site) × State :=
  match s.reach { acc := { acc with need := .block, watch := false }, n := 1 } [{ va := a, len := 512 * n }] with
  | (.fault c v, s) => (.fault c (if c = 0x05 then a else v), s)
  | (.hold p v, s) => (.hold p v, s)
  | (.ok fs, s) =>
    let vas := (List.range n).map fun i => a + BitVec.ofNat 64 (512 * i)
    (.ok (vas.map fun v =>
      { va := v, pa := s.placed (physOf fs v), len := 512, fmt := 0, ty := (frameOf fs v).ty,
        remote := s.isRemote (physOf fs v) }), s)

/-- Whether a site lies in a scratchpad of the issuing tile. -/
def State.inMyScratch (s : State) (x : Site) : Bool :=
  !x.remote && isVault x.pa && vaultTile x.pa == s.myTile && (match vaultPart (vaultOff x.pa) with
    | .scratch _ => true
    | _ => false)

/-- The table of a tile with the place for a new entry free (R367): the entry of the same first block goes, else a free one
is taken, else the one that ended longest ago goes; none while all are live. -/
def freeEntry (l : List Coll) (blk : Nat) : Option (List Coll) :=
  if l.any fun e => e.blk == blk then some (l.filter fun e => e.blk != blk)
  else if l.length < 32 then some l
  else
    match l.foldl (fun (m : Option Coll) e =>
        if e.live then m else match m with
          | some o => if o.ended ≤ e.ended then some o else some e
          | none => some e) none with
    | none => none
    | some o => some (l.filter fun e => e.blk != o.blk)

/-- The entry written, once every check has passed (R367). One that is ABORTED at once waits while a home of its DEST does (R208). -/
def carmWrite (e : Coll) (va : Word) (s : State) : Out :=
  let t := s.myTile
  let l := (s.tile t).coll
  if l.any fun o => o.live && e.inputs.any o.covers then s.endTrap false 0x0E va
  else
    match freeEntry l e.blk with
    | none => s.endTrap false 0x0E va
    | some l =>
      let s := s.modTile t fun k => { k with coll := l ++ [e] }
      if (e.cid, e.seq) ∈ (s.tile t).aborts then
        if e.dest.any s.wakeStuck then s.endStall else (s.failColl t e false).endC
      else (s.fireAt e.blk).endC

/-- The DEST of an entry checked (R367). -/
def carmDest (e : Coll) (va dest : Word) (s : State) : Out :=
  if !(e.allred || e.rank == 0) then carmWrite e va s
  else if dest.toNat % 512 ≠ 0 then s.endTrap false 0x0A dest
  else
    located (s.locateBlocks { wr := true } dest e.nb) fun xs s =>
      if xs.any (·.remote) then s.endTrap false 0x05 dest
      else if xs.any fun x => e.covers x.pa then s.endTrap false 0x0E dest
      else carmWrite { e with dest := xs.map (·.pa) } va s

/-- CARM once its descriptor has been read and keeps R351 and R353. -/
def carmEntry (e : Coll) (inSet : Bool) (a d dest : Word) (s : State) : Out :=
  let va := a &&& ~~~511#64
  located (s.locateBlocks { rd := true } va e.nb) fun xs s =>
    if (xs.any fun x => !s.inMyScratch x) || va.toNat % 65536 + 512 * e.nb > 65536 then
      s.endTrap false 0x05 va
    else if !inSet then s.endTrap false 0x0E d
    else
      match (List.range (if e.pkind = 2 then 0 else e.n)).find? fun i => !s.samePart s.cur.core (e.root + i * e.step) with
      | some i => s.endTrap false 0x15 (BitVec.ofNat 64 (e.root + i * e.step))
      | none => carmDest { e with blk := ((xs.head?).map (·.pa)).getD 0 } va dest s

/-- CARM (R367). -/
def execCarm (xa xb : XR) (s : State) : Out :=
  memSlot (.carm xa xb) s fun s =>
    let d := s.rx xb
    let a := s.rx xa
    if d.toNat % 32 ≠ 0 then s.endTrap false 0x0A d
    else
      match s.syncRead .plain d 32 with
      | .stop o => o
      | .data bs s =>
        if !collDescOk bs then s.endTrap false 0x0E d
        else
          let dest := BitVec.ofNat 64 (recWord bs 2)
          if fld (recWord bs 0) 12 2 = 2 then
            readList (BitVec.ofNat 64 (recWord bs 3)) (recWord bs 1) [] (fun list s =>
              if !listOk list then s.endTrap false 0x0E d
              else carmEntry (s.collEntryOf bs list) (decide (s.myPkg ∈ list)) a d dest s) s
          else carmEntry (s.collEntryOf bs []) ((Geometry.ofNat (recWord bs 1)).has s.cur.core) a d dest s

/-! ## CDIS, CABT, CSTAT (R350, R368 to R370) -/

/-- The entry of a block among those of a tile (R350). -/
def entryAt (l : List Coll) (blk : Nat) : Option Coll :=
  match l.find? fun e => e.live && e.covers blk with
  | some e => some e
  | none =>
    match l.find? fun e => e.blk == blk with
    | some e => some e
    | none =>
      l.foldl (fun (m : Option Coll) e =>
        if !e.covers blk then m else match m with
          | some o => if e.ended ≤ o.ended then some o else some e
          | none => some e) none

/-- The block that an address names, translated for read and not accessed (R140, R370); none in another package. -/
def State.locateEntry (s : State) (a : Word) : Loc (Option Nat) × State :=
  match s.xlateNamed a with
  | (.fault c v, s) => (.fault c v, s)
  | (.hold p v, s) => (.hold p v, s)
  | (.ok fs, s) =>
    let pa := physOf fs a
    (.ok (if s.isRemote pa then none else some (blkOf (rawOf (localOf pa)))), s)

/-- The entry of the block that an address names in the issuing tile's table. -/
def State.entryFor (s : State) (b : Option Nat) : Option Coll := b.bind (entryAt (s.tile s.myTile).coll)

/-- CDIS (R368). -/
def execCdis (xa : XR) (s : State) : Out :=
  slotC (.cdis xa) s fun s =>
    located (s.locateEntry (s.rx xa)) fun b s =>
      match s.entryFor b with
      | none => s.endC
      | some e =>
        if e.st = .firing ∨ e.st = .preempted then s.endPark 6 (.coll s.myTile e.blk)
        else
          let s := s.modTile s.myTile fun k => { k with coll := k.coll.filter fun o => o.blk != e.blk }
          s.wakeGuards.endC

/-- CABT (R369). The root of a span collective lies in another package unless this one has rank 0: whether its abort comes
back is free (log 8). -/
def execCabt (xa : XR) (seq : BitVec 16) (s : State) : Out :=
  slotC (.cabt xa seq) s fun s =>
    located (s.locateEntry (s.rx xa)) fun b s =>
      match s.entryFor b with
      | none => s.endTrap false 0x0E (s.rx xa)
      | some e =>
        let tenant := s.tenantOf s.cur.core
        if e.pkind = 2 ∧ e.rank ≠ 0 then
          let (n, s) := s.takeFresh
          if Config.freeBool n then ((s.send (.aborted e.core e.core e.cid seq tenant e.group false)).1).endC else s.endC
        else
          ((s.send (.abort s.cur.core e.root e.cid seq tenant e.group (if e.pkind = 2 then 1 else e.n) e.step false)).1).endC

/-- The code of a state (R370). -/
def CollState.code : CollState → Nat
  | .armed => 1 | .firing => 2 | .done => 3 | .aborted => 4 | .mismatch => 5 | .preempted => 6

/-- The status word of an entry (R370). -/
def State.collStatus (s : State) (e : Coll) : Word :=
  BitVec.ofNat 64 (CollState.code e.st * 2 ^ 61 + s.fullIn e * 2 ^ 48 + e.seq.toNat * 2 ^ 32 + e.cid.toNat * 2 ^ 16
    + e.rank % 1024 * 2 ^ 6)

/-- CSTAT (R370). -/
def execCstat (xr xa : XR) (s : State) : Out :=
  slotC (.cstat xr xa) s fun s =>
    located (s.locateEntry (s.rx xa)) fun b s =>
      (s.setX xr (((s.entryFor b).map s.collStatus).getD 0)).endC

/-! ## Partials (R349, R354, R355, R358) -/

/-- comb of R354 for one element: the value, whether an add was inexact. -/
def comb (op : Nat) (u v : Lane) : Lane × Bool :=
  if op = 0 then
    let r := fpAdd .rne u v
    (r.bits, r.flags.getLsbD 0)
  else if op = 1 then ((fpMax u v).bits, false)
  else ((fpMin u v).bits, false)

/-- Two partials combined, the lower rank's on the left (R354, R355), with what R363 needs. -/
def Partial.plus (a b : Partial) : Partial :=
  let zs := (a.vals.zip b.vals).map fun q => comb a.op q.1 q.2
  let top := if a.op = 0 then topExp (zs.map (·.1)) else none
  { a with
    level := a.level + 1, right := false, vals := zs.map (·.1), eps := a.eps ++ b.eps,
    bad := a.bad || b.bad || zs.any fun z => laneBad z.1, inex := a.inex || b.inex || zs.any (·.2),
    emax := maxExp (maxExp a.emax b.emax) top }

/-- Whether two partials belong to one group of one collective instance. -/
def Partial.sameTag (a b : Partial) : Bool :=
  a.tenant == b.tenant && a.cid == b.cid && a.seq == b.seq && a.group == b.group

/-- Whether two partials are partners: equal but for their sides. -/
def Partial.partner (a b : Partial) : Bool :=
  a.sameTag b && a.hash == b.hash && a.level == b.level && a.chunk == b.chunk && a.rank == b.rank && a.right != b.right

/-- A mismatch sent from a router to the root of a group (R358): where the two descriptors name different roots, to that of the
partial that the router holds (DESIGN CHOICE, log 152). -/
def State.sendMismatch (s : State) (c : Nat) (p : Partial) : State :=
  (s.send (.abort c p.root p.cid p.seq p.tenant p.group p.n p.step true)).1

/-- The partials that a core's router or its tile's overflow storage holds for it. -/
def State.heldAt (s : State) (c : Nat) : List Partial :=
  (s.routers.getD c {}).slots ++ ((s.tile (tileOf c)).spill.filter fun q => q.1 == c).map (·.2)

/-- The state with a held partial taken out. -/
def State.unhold (s : State) (c : Nat) (p : Partial) : State :=
  let r := s.routers.getD c {}
  if p ∈ r.slots then { s with routers := s.routers.setD c { r with slots := r.slots.erase p } {} }
  else s.modTile (tileOf c) fun k => { k with spill := k.spill.erase (c, p) }

/-- A partial at the router where it combines: none while it finds no room (R349). -/
def State.atRouter (s : State) (c : Nat) (p : Partial) : Option State :=
  let r := s.routers.getD c {}
  if (p.tenant, p.cid, p.seq, p.group) ∈ r.tags then some s
  else
    let held := s.heldAt c
    match held.find? fun q => q.sameTag p && q.hash != p.hash with
    | some q => some (s.sendMismatch c q)
    | none =>
      match held.find? fun q => q.partner p with
      | some q =>
        let z := if q.right then p.plus q else q.plus p
        some (((s.unhold c q).send (.part (z.placed 11))).1)
      | none =>
        if r.slots.length < 16 then some { s with routers := s.routers.setD c { r with slots := r.slots ++ [p] } {} }
        else if (s.tile (tileOf c)).spill.length < 64 then
          some (s.modTile (tileOf c) fun k => { k with spill := k.spill ++ [(c, p)] })
        else none

/-! ## The decision (R355, R363) -/

/-- The bound of a result block (R363). An element that ETYPE encodes as an infinity gives 0xFFFF (DEDUCED: log 33). -/
def collBound (e : Coll) (ps : List Partial) (ys : List Fx) : BitVec 16 :=
  let eps := ((ps.head?).map (·.eps)).getD []
  let bad := ps.any (·.bad) || ys.any fun y => !(fmtDecode e.etype (fmtEncode e.etype y)).finite
  if bad || eps.any fun b => (boundVal b).isNone then 0xFFFF
  else
    let h : Mag := if e.etype = 0 || ys.all (exactly e.etype) then some (0, 0) else halfUlp ys e.etype
    if e.op = 0 then
      let a : Mag := if ps.any (·.inex) then
          Mag.mul (some (e.n - 1, 0)) (roundTerm (ps.foldl (fun m p => maxExp m p.emax) none) 24)
        else some (0, 0)
      roundUpBound (((eps.foldl (fun m b => Mag.add m (boundVal b)) (some (0, 0))).add a).add h)
    else roundUpBound ((boundVal (eps.foldl maxCode 0)).add h)

/-- A result block with its bound and magnitude. -/
def collBlock (e : Coll) (ps : List Partial) : List Byte × BitVec 16 × BitVec 8 :=
  let ys := (ps.flatMap (·.vals)).map Fx.ofLane
  let data := ys.flatMap fun y => bytesOfNat (fmtBytes e.etype) (fmtEncode e.etype y)
  (data, collBound e ps ys, maxeOf (elemsOf e.etype 512 data))

/-- The result blocks that a root computes of the chunks it holds. -/
def collBlocks (e : Coll) (held : AMap Partial) : List (List Byte × BitVec 16 × BitVec 8) :=
  let per := 32 / fmtBytes e.etype
  (List.range e.nb).map fun t => collBlock e ((List.range per).filterMap fun i => held.get? (per * t + i))

/-- The decision of a root that holds every chunk (R355): the result goes to every rank, or the decision alone. -/
def State.rootDecides (s : State) (t : Nat) (e : Coll) (tenant : Nat) : State :=
  let blocks := collBlocks e e.held
  let s := s.modColl t e.blk fun e => { e with decided := true, held := [] }
  let s := s.traceRec e.core e.ctx 7 0 (e.cid.setWidth 32)
  (List.range e.n).foldl (fun s i =>
    (s.send (.result (e.root + i * e.step) e.root e.cid e.seq tenant e.group (if i = 0 || e.allred then blocks else []))).1) s

/-- A partial of the last level at the root (R355, R358). -/
def State.atRoot (s : State) (p : Partial) : State :=
  let t := tileOf p.root
  match (s.tile t).coll.find? fun e =>
      e.core == p.root && e.cid == p.cid && e.seq == p.seq && e.group == p.group && e.st == .firing && !e.decided with
  | none => s
  | some e =>
    if e.hash ≠ p.hash then s.sendMismatch p.root p
    else
      let e := { e with held := e.held.insert p.chunk p }
      let s := s.modColl t e.blk fun _ => e
      if e.held.length = e.chunks then s.rootDecides t e p.tenant else s

/-- PARTIAL_ARRIVAL (R349, R354, R355, R358): a partial that finds no room waits. -/
def execPartialArrival (k : Nat) (s : State) : Out :=
  match s.net.get? k with
  | some (.part p) =>
    overPlane k (fun s =>
      if p.n ≤ 2 ^ p.level then .next ((s.dropMsg k).atRoot p)
      else match (s.dropMsg k).atRouter (p.root + p.rank * p.step) p with
        | some s => .next s
        | none => .next s) s
  | _ => .fault .noSuchEvent

/-! ## Results, aborts and mismatches at the ranks -/

/-- The next block of a result committed at a rank (R355): none while MST or MCAST has reserved it, and while its home waits (R208).
A refused one sends record 0x36. -/
def State.commitResult (s : State) (e : Coll) (blk : Nat) (r : List Byte × BitVec 16 × BitVec 8) : Option State :=
  if s.reserved blk || s.wakeStuck blk then none
  else
    match s.performCommit blk { data := r.1, bound := r.2.1, maxe := r.2.2, poison := [] } with
    | (s, 0) => some s
    | (s, _) => some (s.errRec 0x36 (s.recCtx e.core) [e.cid.setWidth 64, e.seq.setWidth 64, BitVec.ofNat 64 blk])

/-- The entry of a group on a core (R353, R358). -/
def State.groupEntries (s : State) (c : Nat) (cid seq : BitVec 16) (group : Nat) : List Coll :=
  (s.tile (tileOf c)).coll.filter fun e => e.core == c && e.cid == cid && e.seq == seq && e.group == group

/-- A result or a decision at a rank: one block of it committed; after the last, or on a decision alone, the entry is DONE. -/
def State.resultAt (s : State) (k c root : Nat) (cid seq : BitVec 16) (tenant group : Nat)
    (blocks : List (List Byte × BitVec 16 × BitVec 8)) : State :=
  let t := tileOf c
  match (s.groupEntries c cid seq group).find? fun e => e.st == .firing with
  | none => s.dropMsg k
  | some e =>
    match blocks with
    | [] => (s.dropMsg k).endColl t e.blk .done
    | r :: rest =>
      match s.commitResult e (e.dest.getD (e.nb - blocks.length) 0) r with
      | none => s
      | some s =>
        if rest.isEmpty then (s.dropMsg k).endColl t e.blk .done else s.putMsg k (.result c root cid seq tenant group rest)

/-- RESULT_ARRIVAL (R355): each event commits one block, in ascending address. -/
def execResultArrival (k : Nat) (s : State) : Out :=
  match s.net.get? k with
  | some (.result c root cid seq tenant group blocks) =>
    overPlane k (fun s => .next (s.resultAt k c root cid seq tenant group blocks)) s
  | _ => .fault .noSuchEvent

/-- Whether a home of the DEST of an entry of a group waits with a wake (R208): an abort or a mismatch waits with it. -/
def State.destStuck (s : State) (c : Nat) (cid seq : BitVec 16) (group : Nat) : Bool :=
  (s.groupEntries c cid seq group).any fun e => e.live && e.dest.any s.wakeStuck

/-- An abort or a mismatch at a root (R359, R360, R369): an entry there is broadcast to the ranks of its own descriptor (R358). -/
def State.abortAt (s : State) (root : Nat) (cid seq : BitVec 16) (tenant group n step : Nat) (mismatch : Bool) : State :=
  let t := tileOf root
  let mine := s.groupEntries root cid seq group
  match mine.find? fun e => e.live && !e.decided with
  | some e =>
    (s.failColl t e mismatch).broadcast root e.step (if e.pkind = 2 then 1 else e.n) tenant group cid seq mismatch
  | none => if mine.isEmpty then (s.noteAbort t cid seq).broadcast root step n tenant group cid seq mismatch else s

/-- ABORT_REQUEST (R359, R360, R369). -/
def execAbortRequest (k : Nat) (s : State) : Out :=
  match s.net.get? k with
  | some (.abort _ root cid seq tenant group n step mismatch) =>
    overPlane k (fun s => .next (if s.destStuck root cid seq group then s
      else (s.dropMsg k).abortAt root cid seq tenant group n step mismatch)) s
  | _ => .fault .noSuchEvent

/-- The root's abort or mismatch at a rank (R359, R360). -/
def State.abortedAt (s : State) (c : Nat) (cid seq : BitVec 16) (group : Nat) (mismatch : Bool) : State :=
  let mine := s.groupEntries c cid seq group
  match mine.find? (·.live) with
  | some e => s.failColl (tileOf c) e mismatch
  | none => if mine.isEmpty then s.noteAbort (tileOf c) cid seq else s

/-- ABORT_BROADCAST_ARRIVAL (R359, R360). -/
def execAbortBroadcastArrival (k : Nat) (s : State) : Out :=
  match s.net.get? k with
  | some (.aborted c _ cid seq _ group mismatch) =>
    overPlane k (fun s => .next (if s.destStuck c cid seq group then s
      else (s.dropMsg k).abortedAt c cid seq group mismatch)) s
  | _ => .fault .noSuchEvent

/-! ## MCAST (R371) -/

/-- The cores that MCAST names, ascending, its own left out. -/
def mcastTargets (me : Nat) (col : Bool) (first last : Nat) : List Nat :=
  let at_ (i : Nat) : Nat := if col then i * 512 + coreCol me else coreRow me * 512 + i
  ((List.range (last + 1 - first)).map fun i => at_ (first + i)).filter (· != me)

/-- The block of a core's scratchpad at an offset. -/
def scratchBlk (c off : Nat) : Nat := vaultBase + tileOf c * 0x100000 + coreInTile c * 0x10000 + off

/-- What the homes of the targets refuse: ONCE blocks that are FULL, and RETIRED ones; in ascending core number. -/
def State.mcastRefusal (s : State) (once : Bool) : List Nat → Option (Nat × Word) × State
  | [] => (none, s)
  | b :: bs =>
    let s := (s.touchLines b 512 true).meet b 0
    if s.isRetired b then (some (0x09, BitVec.ofNat 64 b), s)
    else if once && (s.blkMeta b).pres == .full then (some (0x07, BitVec.ofNat 64 b), s)
    else s.mcastRefusal once bs

/-- The core at whose router the copy of MCAST for a target leaves the one that goes on: the nearest target on the way to it, or
the sender. -/
def mcastTap (me : Nat) (cs : List Nat) (c : Nat) : Nat :=
  ((cs.filter fun d => d != c && decide (d ∈ path me c)).foldl (fun (b : Nat) d =>
    if (path me b).length < (path me d).length then d else b) me)

/-- The copies of MCAST sent, and the numbers of their messages. -/
def State.mcastSend (s : State) (x : Site) (cls : Cls) (c : CommitData) (all : List Nat) : List Nat → State × List Nat
  | [] => (s, [])
  | b :: bs =>
    let op : HomeOp := if x.ty = .once then .mstCommit c false else .mstWrite [(0, c.data)] c.bound c.maxe true
    let (s, id) := s.send (.req
      { owner := s.mine, tid := s.me.tid, ctx := s.myCore.ctxid.toNat, va := BitVec.ofNat 64 b, pa := b, len := 512, ty := x.ty,
        cls := cls, op := op, tap := some (mcastTap s.cur.core (all.map scratchCore) (scratchCore b)) })
    let (s, ids) := s.mcastSend x cls c all bs
    (s, id :: ids)

/-- MCAST once its source and targets have been found; it waits while a home of them does (R208). -/
def mcastGo (x : Site) (dsts : List Nat) (s : State) : Out :=
  let b := x.block
  let once := x.ty == .once
  let cls : Cls := { strict := x.ty == .strict, acq := once, rel := once, ld := true, st := true }
  let sites := b :: dsts.map fun d => { b with pa := d }
  s.afterEarlier cls sites fun s =>
    match s.readFault b none [(b.pa, 512)] with
    | (some (c, v), s) => s.endTrap false c v
    | (none, s) =>
      if s.wakeStuck b.pa || dsts.any s.wakeStuck then s.endStall
      else if once && (s.blkMeta b.pa).pres != .full then s.queueMe x .none
      else if dsts.any s.reserved then s.endStall
      else
        match s.mcastRefusal once dsts with
        | (some (c, v), s) => s.endTrap false c v
        | (none, s) =>
          let m := s.blkMeta b.pa
          let (s, ids) := s.mcastSend x cls { data := s.bytes b.pa 512, bound := m.bound, maxe := m.maxe, poison := [] } dsts dsts
          if ids.isEmpty then s.endC else s.awaitIds 52 ids none

/-- MCAST (R371). -/
def execMcast (col : Bool) (xa : XR) (first last : BitVec 9) (s : State) : Out :=
  memSlot (.mcast col xa first last) s fun s =>
    match s.me.resume with
    | .stage 52 _ fail => s.answered fail
    | _ =>
      let a := s.rx xa
      located (s.locateByte { rd := true } a) fun x s =>
        if !s.inMyScratch x || x.ty == .priv then s.endTrap false 0x05 a
        else
          let cs := mcastTargets s.cur.core col first.toNat last.toNat
          match cs.find? fun c => !s.samePart s.cur.core c with
          | some c => s.endTrap false 0x15 (BitVec.ofNat 64 c)
          | none =>
            let dsts := cs.map fun c => scratchBlk c (blkOf x.pa % 0x10000)
            if dsts.any fun d => pptType (s.typeByte d) != x.ty then s.endTrap false 0x05 a
            else mcastGo x dsts s

/-! ## BARRIER (R372, R373) -/

/-- The core of a rank of a barrier's set. -/
def BarRun.coreOf (r : BarRun) (i : Nat) : Nat :=
  let (w, _, col0, row0) := r.set
  (row0 + i / w) * 512 + col0 + i % w

/-- The state with a barrier entry of a core set. -/
def State.setBar (s : State) (c : Nat) (b : Barrier) : State :=
  s.modCore c fun k => { k with bars := k.bars.map fun o => if o.bid = b.bid then b else o }

/-- The signal of a round sent. -/
def State.sendSignal (s : State) (c : Nat) (b : Barrier) (r : BarRun) : State :=
  (s.send (.signal (r.coreOf ((r.rank + 2 ^ r.rnd) % r.n)) c b.bid b.epoch r.rnd (s.tenantOf c))).1

/-- The rounds of a core's barrier as far as the signals received carry them (R372). `fuel` bounds the rounds. -/
def State.barAdvance (s : State) (c bid : Nat) : Nat → State
  | 0 => s
  | fuel + 1 =>
    match (s.core c).bars.find? fun b => b.bid == bid with
    | none => s
    | some b =>
      match b.run with
      | none => s
      | some r =>
        if r.n ≤ 2 ^ r.rnd then
          let s := s.setBar c { b with epoch := !b.epoch, run := none }
          (s.send (.done c r.slot r.tid r.xd (BitVec.ofNat 64 r.rnd))).1
        else if (b.epoch, r.rnd) ∈ b.got then
          let r := { r with rnd := r.rnd + 1 }
          let b := { b with got := b.got.erase (b.epoch, r.rnd - 1), run := some r }
          let s := s.setBar c b
          (if r.n ≤ 2 ^ r.rnd then s else s.sendSignal c b r).barAdvance c bid fuel
        else s

/-- BARRIER once its record has been read and checked (R372). -/
def barrierGo (xr : XR) (bid : Nat) (g : Geometry) (s : State) : Out :=
  let c := s.cur.core
  s.afterMsgs (s.mustWait { rel := true } 0 0 false) fun s =>
    let bars := s.myCore.bars
    let s := if bars.any fun b => b.bid == bid then s else s.modCore c fun k => { k with bars := k.bars ++ [{ bid := bid }] }
    let b := (s.myCore.bars.find? fun b => b.bid == bid).getD { bid := bid }
    let n := g.width * g.height
    if n = 1 then ((s.setBar c { b with epoch := !b.epoch }).setX xr 0).endC
    else
      let r : BarRun :=
        { slot := s.cur.slot, tid := s.me.tid, xd := xr, set := (g.width, g.height, g.col0, g.row0),
          rank := (coreRow c - g.row0) * g.width + (coreCol c - g.col0), n := n, rnd := 0 }
      let b := { b with run := some r }
      ((((s.emptyX xr).setBar c b).sendSignal c b r).barAdvance c bid 32).endC

/-- BARRIER (R372, R373). -/
def execBarrier (xa xr : XR) (s : State) : Out :=
  memSlot (.barrier xa xr) s fun s =>
    let a := s.rx xa
    if a.toNat % 8 ≠ 0 then s.endTrap false 0x0A a
    else
      match s.syncRead .plain a 8 with
      | .stop o => o
      | .data bs s =>
        let w := natOfBytes bs
        let g := Geometry.ofNat w
        let bid := fld w 48 16
        let cores := (List.range (g.width * g.height)).map fun i => (g.row0 + i / g.width) * 512 + g.col0 + i % g.width
        if !geometryOk w || fld w 42 6 != 0 || !g.has s.cur.core then s.endTrap false 0x0E a
        else
          match cores.find? fun c => !s.samePart s.cur.core c with
          | some c => s.endTrap false 0x15 (BitVec.ofNat 64 c)
          | none =>
            let bars := s.myCore.bars
            if (bars.any fun b => b.bid == bid && b.run.isSome) || (16 ≤ bars.length && bars.all fun b => b.bid != bid) then
              s.endTrap false 0x0E a
            else barrierGo xr bid g s

/-- A barrier signal at a core (R372, R373): one that finds the core's table full waits. -/
def State.signalAt (s : State) (k c bid : Nat) (epoch : Bool) (rnd : Nat) : State :=
  let bars := (s.core c).bars
  let known := bars.any fun b => b.bid == bid
  if !known && 16 ≤ bars.length then s
  else
    let s := if known then s else s.modCore c fun k => { k with bars := k.bars ++ [{ bid := bid }] }
    let b := ((s.core c).bars.find? fun b => b.bid == bid).getD { bid := bid }
    ((s.dropMsg k).setBar c { b with got := b.got ++ [(epoch, rnd)] }).barAdvance c bid 32

/-- BARRIER_SIGNAL (R372, R373). -/
def execBarrierSignal (k : Nat) (s : State) : Out :=
  match s.net.get? k with
  | some (.signal c _ bid epoch rnd _) => overPlane k (fun s => .next (s.signalAt k c bid epoch rnd)) s
  | _ => .fault .noSuchEvent

/-! ## Messages outside their partition (R348) -/

/-- CORE_PLANE_DISCARD (R348): a message that a router on its way discards: one whose tenant is not in its membership bitmap. One
that every router lets through is not touched. -/
def execCorePlaneDiscard (k : Nat) (s : State) : Out :=
  match s.net.get? k with
  | none => .fault .noSuchEvent
  | some m =>
    if (s.routesOf m).isEmpty then .fault .noSuchEvent
    else if (s.planeStop (s.routesOf m)).isNone then .next s
    else overPlane k .next s

/-! ## The Zinnia engine (R374 to R376) -/

/-- The offset of ZIN_CTL. -/
def zinOff : Nat := 0x1D0000

/-- A write of ZIN_CTL (R375): EN stays 0 when INTERVAL is below 100 or SLOTS is 0. -/
def State.writeZinCtl (s : State) (v : Word) : State :=
  let w := RegName.zinCtl.written (s.reg zinOff) v
  let bad := fld w.toNat 63 1 == 1 && (decide (fld w.toNat 32 20 < 100) || fld w.toNat 0 8 == 0)
  s.setReg zinOff (if bad then withField w 63 1 0 else w)

/-- ZIN_CTL (R375). -/
def execZinCtl (val : Word) (s : State) : Out := barWrite zinOff val (fun s => .next (s.writeZinCtl val)) s

/-- The counters of a snapshot: 32 for each core's router, 16 for each sector's (R376). -/
def zinCounters : Nat := 32 * 131072 + 16 * 256

/-- Whether a counter counts what the machine sees: the flits that a core-plane router has sent on a channel whose messages enter
at a core. The stalled cycles, the flits of the Response channel and those of the memory plane are free (log 30). -/
def counted (i : Nat) : Bool := decide (i < 32 * 131072) && i % 2 == 0 && i % 8 != 2

/-- The state in which the other counters have grown, modulo 2^32, by what has come about since they were last latched, which is
free (R374, log 30), and nothing when no message was on its way then and none has been sent since. -/
def State.countLinks (s : State) (n : Nat) : State :=
  let quiet := if s.net.isEmpty then some s.nextId else none
  if s.quietAt = some s.nextId then s
  else
    { s with
      links := ((List.range zinCounters).filter (!counted ·)).foldl (fun m i =>
        growLink m i (Config.freeWord (n + i)).toNat) s.links
      quietAt := quiet }

/-- The bytes of a snapshot (R376). -/
def State.zinImage (s : State) (seq cycle : Nat) : List Byte :=
  bytesOfNat 8 seq ++ bytesOfNat 8 cycle ++ List.replicate 0x30 0
    ++ (List.range zinCounters).flatMap fun i => bytesOfNat 4 (s.links.getD i 0).toNat

/-- ZINNIA_SNAPSHOT (R375, R376): a tick stores a snapshot in the next slot, or is skipped when the one before has not
finished, which is free (log 30). -/
def execZinniaSnapshot (s : State) : Out :=
  if s.regF zinOff 63 1 = 0 then .next s
  else
    let (n, s) := s.takeFresh
    let st := zinOff + 0x10
    if Config.freeBool n then .next (s.setRegF st 31 1 1)
    else
      let seq := s.regF st 32 32
      let slot := s.regF st 0 8
      let (cycle, s) := s.now
      let (n, s) := s.takeMany zinCounters
      let s := s.countLinks n
      let bs := s.zinImage seq cycle
      let a := s.regF (zinOff + 8) 16 30 * 65536 + slot * 0x1010000
      -- the header's SEQ is written last
      let s := (s.writeSpan bs.length (a + 8) (bs.drop 8)).writeSpan 9 a (bs.take 8)
      let s := s.setRegF st 32 32 (seq + 1)
      .next (s.setRegF st 0 8 ((slot + 1) % s.regF zinOff 0 8))

end Sys2Proof.Machine
end

