-- ==== Sys2Proof/Machine/EngUnits.lean ====
section
/-!
DEFINITION. What an engine command reads and writes (R258 to R266): its units in the order of production, each with its
reads and the writes that their data gives, the destination ranges, the layout records, the conversions.
-/

namespace Sys2Proof.Machine

/-- A read of a unit: its bytes, whether it consumes poison, whether the command's generation applies. -/
structure EngRead where
  va      : Word
  len     : Nat
  consume : Bool
  gen     : Bool
  deriving DecidableEq, Repr

/-- An address moved by a number of bytes, modulo 2^64. -/
def plus (a : Word) (n : Nat) : Word := a + BitVec.ofNat 64 n

/-! ## Tables -/

/-- The bytes of an index list or a record that a command reads first. -/
def EngOp.tableLen : EngOp → Nat
  | .cpyg rows _ | .cpys rows _ => 4 * rows
  | .cpyt _ | .cpyk _ => 128
  | _ => 0

/-- An entry of an index list (R259). -/
def indexAt (tbl : List Byte) (i : Nat) : Nat := natOfBytes ((tbl.drop (4 * i)).take 4)

/-- A field of a record. -/
def recF (tbl : List Byte) (off lo n : Nat) : Nat := fld (natOfBytes ((tbl.drop off).take 16)) lo n

/-- A dimension of a tensor map (R260). -/
structure Dim where
  s   : Int
  n   : Nat
  win : Nat
  t   : Nat
  pad : Nat
  deriving DecidableEq, Repr

/-- The dimensions of a tensor map (R260). -/
def dimsOf (tbl : List Byte) : List Dim :=
  (List.range (recF tbl 0 4 3)).map fun d =>
    let o := 16 + 16 * d
    { s := (BitVec.ofNat 48 (recF tbl o 0 48)).toInt, n := recF tbl o 64 24, win := recF tbl o 88 8,
      t := recF tbl o 96 8, pad := recF tbl o 104 8 }

/-- The element size of a tensor map. -/
def elemSize (tbl : List Byte) : Nat := 2 ^ recF tbl 0 8 2
/-- The destination row stride of a tensor map. -/
def rowStride (tbl : List Byte) : Nat := recF tbl 0 32 20
/-- The elements of a row of a tensor map. -/
def rowElems (ds : List Dim) : Nat := (ds.map (·.win)).foldl (· * ·) 1

/-- Whether a dimension keeps the limits of R260. -/
def Dim.ok (d : Dim) : Bool :=
  decide (1 ≤ d.n) && decide (1 ≤ d.win) && decide (d.win ≤ d.n + 2 * d.pad) && decide (1 ≤ d.t) && decide (d.pad < d.win)

/-- Whether a layout record is accepted (R260). -/
def mapOk (tbl : List Byte) : Bool :=
  let dims := recF tbl 0 4 3
  recF tbl 0 0 4 == 0 && decide (1 ≤ dims) && decide (dims ≤ 5) && recF tbl 0 7 1 == 0 && recF tbl 0 8 2 != 3
    && recF tbl 0 10 6 == 0 && decide (1 ≤ recF tbl 0 16 16) && rowStride tbl % 32 == 0 && recF tbl 0 52 76 == 0
    && ((List.range 5).all fun d =>
      let o := 16 + 16 * d
      if d < dims then recF tbl o 48 16 == 0 && recF tbl o 112 16 == 0 else recF tbl o 0 128 == 0)
    && (dimsOf tbl).all Dim.ok && (tbl.drop 96).all (· == 0)
    && decide (rowElems (dimsOf tbl) * elemSize tbl ≤ rowStride tbl)

/-- Whether a scale record is accepted (R263). -/
def scaleRecOk (tbl : List Byte) : Bool :=
  let h := natOfBytes (tbl.take 16)
  fld h 0 4 == 1 && fld h 4 12 == 0 && decide (1 ≤ fld h 16 6) && decide (fld h 16 6 ≤ 32) && fld h 22 106 == 0
    && recF tbl 16 48 16 == 0 && (tbl.drop 24).all (· == 0)

/-- Whether a command accepts its table. -/
def EngOp.tableOk : EngOp → List Byte → Bool
  | .cpyt _, tbl => mapOk tbl
  | .cpyk _, tbl => scaleRecOk tbl
  | _, _ => true

/-- The window positions of a dimension (R261). -/
def Dim.count (d : Dim) : Nat := (d.n + 2 * d.pad - d.win) / d.t + 1

/-- The offset of an element of a window from the base, none in the padding (R261): the position `w` and the element `k`
are split into digits with the innermost fastest. -/
def elemOff : List Dim → Nat → Nat → Option Int
  | [], _, _ => some 0
  | d :: ds, w, k =>
    let c : Int := (w % d.count * d.t : Nat) - (d.pad : Int) + (k % d.win : Nat)
    if c < 0 ∨ (d.n : Int) ≤ c then none
    else (elemOff ds (w / d.count) (k / d.win)).map fun o => c * d.s + o

/-- The element of a window at an address, none where zero is filled (R261). -/
def windowElem (base : Word) (ds : List Dim) (w k : Nat) : Option Word :=
  if (ds.map Dim.count).foldl (· * ·) 1 ≤ w ∨ rowElems ds ≤ k then none
  else (elemOff ds w k).map fun o => base + BitVec.ofInt 64 o

/-! ## Units -/

/-- The bytes of a row of the source and of the destination of a conversion (R265). -/
def EngOp.rowBytes : EngOp → Nat × Nat
  | .cvq .. => (128, 32)
  | .cvd .. => (32, 128)
  | _ => (32, 32)

/-- The units of a command: atoms of a copy, rows of a conversion, entries of a scale slot. -/
def EngCmd.total (c : EngCmd) (tbl : List Byte) : Nat :=
  match c.op with
  | .cpy len | .cpyc len => len / 32
  | .cpyg rows rb | .cpys rows rb => rows * (rb / 32)
  | .cpyt _ => recF tbl 0 16 16 * (rowStride tbl / 32)
  | .cpyk _ => 32
  | .cvq _ rows | .cvd _ rows | .cvr _ _ rows => rows

/-- Where an atom of a gather or scatter lies in the table (R259). -/
def rowAtom (tbl : List Byte) (rb i : Nat) : Nat := indexAt tbl (i / (rb / 32)) * rb + i % (rb / 32) * 32

/-- The numbers of the elements of a unit of CPYT: its window, and the first element. -/
def mapUnit (tbl : List Byte) (first i : Nat) : Nat × Nat :=
  let per := rowStride tbl / 32
  (first + i / per, i % per * 32 / elemSize tbl)

/-- The elements of a unit of CPYT: their addresses (R261). -/
def mapElems (c : EngCmd) (tbl : List Byte) (first i : Nat) : List (Option Word) :=
  let (w, k) := mapUnit tbl first i
  (List.range (32 / elemSize tbl)).map fun e => windowElem c.src (dimsOf tbl) w (k + e)

/-- An atom read whole, whose poison is carried (R94). -/
def atomRead (va : Word) : EngRead := { va := va, len := 32, consume := false, gen := true }

/-- The reads of a unit. -/
def EngCmd.reads (c : EngCmd) (tbl : List Byte) (i : Nat) : List EngRead :=
  let rows (n : Nat) : List EngRead := (List.range (n / 32)).map fun j =>
    { va := plus c.src (i * n + 32 * j), len := 32, consume := true, gen := true }
  let scale : EngRead := { va := plus c.aux i, len := 1, consume := true, gen := false }
  match c.op with
  | .cpy _ | .cpyc _ => [atomRead (plus c.src (32 * i))]
  | .cpyg _ rb => [atomRead (plus c.src (rowAtom tbl rb i))]
  | .cpys _ _ => [atomRead (plus c.src (32 * i))]
  | .cpyt first => (mapElems c tbl first i).filterMap fun a => a.map fun a =>
      { va := a, len := elemSize tbl, consume := true, gen := true }
  | .cpyk _ =>
    if i < recF tbl 0 16 6 then
      [{ va := c.src + BitVec.ofInt 64 ((i : Int) * (BitVec.ofNat 48 (recF tbl 16 0 48)).toInt), len := 1, consume := true,
         gen := true }]
    else []
  | .cvq .. => rows 128
  | .cvd .. | .cvr .. => rows 32 ++ [scale]

/-- The largest of some reads' bounds and magnitudes (R254). -/
def topOf (got : List EngData) : BitVec 16 × BitVec 8 :=
  got.foldl (fun m g => (maxCode m.1 g.bound, maxCode m.2 g.maxe)) (0, 0)

/-- The bytes of a unit of CPYT: elements read, and zeros (R261). -/
def fillElems (size : Nat) : List (Option Word) → List EngData → List Byte
  | [], _ => []
  | none :: es, got => List.replicate size 0 ++ fillElems size es got
  | some _ :: es, got => ((got.head?.map (·.data)).getD []) ++ fillElems size es (got.drop 1)

/-! ## Conversions (R265, R266) -/

/-- The largest finite magnitude of a row. -/
def rowMag (ys : List Fx) : Nat × Int :=
  ys.foldl (fun m y => match y with
    | .fin _ a e => if cmpFin false m.1 m.2 false a e < 0 then (a, e) else m
    | _ => m) (0, 0)

/-- new_scale (R265). -/
def newScale (ys : List Fx) (v : B8) : Int :=
  let mag := rowMag ys
  if mag.1 = 0 then 0
  else
    let mx := v.mag v.maxCode
    let e := (mag.2 + (bitLen mag.1 : Int)) - (mx.2 + (bitLen mx.1 : Int))
    let e := if cmpFin false mag.1 (mag.2 - e) false mx.1 mx.2 = 1 then e + 1 else e
    min (max e (-127)) 127

/-- The rows of a conversion's output: the bytes, the scale written, the bound of the row's term, the magnitude code. -/
structure ConvRow where
  data  : List Byte
  scale : Nat
  bound : BitVec 16
  maxe  : BitVec 8

/-- The format code of a binary8 variant (R59). -/
def B8.fmt (v : B8) : FmtCode := BitVec.ofNat 6 (32 + v.uns.toNat * 16 + v.fin.toNat * 8 + v.p.val)

/-- A row narrowed to a binary8 variant with a new scale: from exact values whose source scale is `cin` (R265, R266). -/
def narrowRow (ys : List Fx) (v : B8) (eps : BitVec 16) (cin : Nat) : ConvRow :=
  let nan := cin = 0xFF
  let e := if nan then 0 else newScale ys v
  let cout : Int := e + 127
  let qs := ys.map fun y => v.encode (y.scale (-e))
  let mag := rowMag ys
  let y : Fx := .fin false mag.1 (mag.2 - e)
  let mx := v.mag v.maxCode
  let bad := ys.any (fun y => !y.finite) || decide (cmpFin false mag.1 (mag.2 - e) false mx.1 mx.2 = 1)
  let term : Mag := if bad then none
    else ((boundVal eps).mul (pow2 ((cin : Int) - cout))).add (halfUlp [y] (B8.fmt v))
  { data := qs.map (BitVec.ofNat 8), scale := if nan then 0xFF else cout.toNat, bound := roundUpBound term,
    maxe := maxeOf (qs.map v.decode) }

/-- The exact values of a binary8 row under its scale (R265). -/
def scaledRow (v : B8) (data : List Byte) (c : Nat) : List Fx :=
  data.map fun b => if c = 0xFF then .nan false else (v.decode b.toNat).scale ((c : Int) - 127)

/-- A row widened to FP32 (R265, R266). -/
def widenRow (v : B8) (data : List Byte) (c : Nat) (eps : BitVec 16) : ConvRow :=
  let ys := scaledRow v data c
  let rs := ys.map (round32 .rne)
  let burst := rs.any fun r => r.flags.getLsbD 2
  let inexact := rs.any fun r => r.flags.getLsbD 0
  let bad := ys.any (fun y => !y.finite) || burst
  let term : Mag := if bad then none
    else ((boundVal eps).mul (pow2 ((c : Int) - 127))).add (if inexact then pow2 (-150) else some (0, 0))
  { data := rs.flatMap fun r => bytesOfNat 4 r.bits.toNat, scale := c, bound := roundUpBound term,
    maxe := maxeOf (rs.map fun r => Fx.ofLane r.bits) }

/-- The converted row of a unit. -/
def EngOp.convert (op : EngOp) (got : List EngData) : ConvRow :=
  let row := (got.map (·.data)).flatten
  let eps := ((got.head?).map (·.bound)).getD 0
  let c := ((row.drop 32).headD 0).toNat
  match op with
  | .cvq v _ => narrowRow (elemsOf 0 32 row) v eps 127
  | .cvd v _ => widenRow v (row.take 32) c eps
  | .cvr src dst _ => narrowRow (scaledRow src (row.take 32) c) dst eps c
  | _ => { data := [], scale := 0, bound := 0, maxe := 0 }

/-- The write of a scale byte (R266). -/
def scaleWrite (va : Word) (c : Nat) : EngWrite :=
  { va := va, data := [BitVec.ofNat 8 c], poison := [], bound := 0, maxe := maxeOf [Fx.ofInt (c : Int)] }

/-- The writes of a unit, from what its reads have brought. -/
def EngCmd.writes (c : EngCmd) (tbl : List Byte) (i : Nat) (got : List EngData) : List EngWrite :=
  let m := topOf got
  let data := (got.map (·.data)).flatten
  let poison := (got.map (·.poison)).flatten
  let atom (va : Word) : EngWrite := { va := va, data := data, poison := poison, bound := m.1, maxe := m.2 }
  let r := c.op.convert got
  let row (n : Nat) : EngWrite := { va := plus c.dst (i * n), data := r.data, poison := [], bound := r.bound, maxe := r.maxe }
  match c.op with
  | .cpy _ | .cpyg .. => [atom (plus c.dst (32 * i))]
  | .cpyc len => [atom (plus c.dst (32 * i % (len / 32)))]
  | .cpys _ rb => [atom (plus c.dst (rowAtom tbl rb i))]
  | .cpyt first =>
    [{ va := plus c.dst (32 * i), data := fillElems (elemSize tbl) (mapElems c tbl first i) got, poison := [], bound := m.1,
       maxe := m.2 }]
  | .cpyk _ => [{ va := 0, data := if data.isEmpty then [0x7F] else data, poison := [], bound := 0, maxe := 0 }]
  | .cvq .. => [row 32, scaleWrite (plus c.aux i) r.scale]
  | .cvd .. => [row 128]
  | .cvr .. => [row 32, scaleWrite (plus c.aux i) r.scale]

/-- The ranges that a command writes, each with whether it holds CVR's scales (R249, R250, R265). -/
def EngCmd.ranges (c : EngCmd) (tbl : List Byte) : List (Touch × Bool) :=
  let one (va : Word) (n : Nat) : Touch × Bool := ({ va := va, len := n }, false)
  match c.op with
  | .cpy len => [one c.dst len]
  | .cpyg rows rb => [one c.dst (rows * rb)]
  | .cpys rows rb => (List.range rows).map fun i => one (plus c.dst (indexAt tbl i * rb)) rb
  | .cpyt _ => [one c.dst (recF tbl 0 16 16 * rowStride tbl)]
  | .cpyc _ => [one c.dst 32]
  | .cpyk _ => []
  | .cvq _ rows => [one c.dst (32 * rows), one c.aux rows]
  | .cvd _ rows => [one c.dst (128 * rows)]
  | .cvr _ _ rows => [one c.dst (32 * rows), ({ va := c.aux, len := rows }, true)]

end Sys2Proof.Machine
end

