-- ==== Sys2Proof/Machine/Engines.lean ====
section
/-!
DEFINITION. The copy and conversion engines (R245 to R266): issue, the steps of a channel, its failures and its completion.
-/

namespace Sys2Proof.Machine

/-! ## Channels -/

/-- A channel of a tile. -/
def State.chan (s : State) (t : Nat) (conv : Bool) (p : Nat) : Chan := (s.tile t).chan conv p
/-- The state with a channel changed. -/
def State.modChan (s : State) (t : Nat) (conv : Bool) (p : Nat) (g : Chan → Chan) : State :=
  s.modTile t fun k => k.setChan conv p (g (k.chan conv p))

/-- The status word of a channel (R247). While it is BUSY or PARKED the word counts the bytes written so far. -/
def Chan.word (c : Chan) : Word :=
  if c.st == .busy || c.st == .parked then BitVec.ofNat 64 (2 ^ 63 + c.bytes) else c.status

/-- Whether a message is a step of a channel. -/
def Msg.stepOf (t : Nat) (conv : Bool) (p : Nat) : Msg → Bool
  | .req a => a.owner == .channel t conv p
  | _ => false

/-- A command that has ended: the channel's state and status word, its completion register (R253), the fibres that wait for
the channel (R246). -/
def State.chanOver (s : State) (t : Nat) (conv : Bool) (p : Nat) (st : ChState) (w : Word) : State :=
  let c := s.chan t conv p
  let s := { s with net := s.net.filter fun m => !m.2.stepOf t conv p }
  let s := s.modChan t conv p fun _ => { st := st, status := w, bytes := c.bytes }
  let s := match c.cmd with
    | some m => (match m.done with
      | some xd => (s.send (.done m.core m.slot m.tid xd w)).1
      | none => s)
    | none => s
  s.wakeWhere fun _ _ f => f.need == .channel t conv p

/-- A command that has failed (R249). -/
def State.chanFail (s : State) (t : Nat) (conv : Bool) (p : Nat) (cause : Nat) (va : Word) : State :=
  s.chanOver t conv p .error (BitVec.ofNat 64 (2 ^ 62 + cause * 2 ^ 56 + fld va.toNat 0 55))

/-- A channel that waits: the step that met the reason is over; PARKED but for the wait of R255. A step of a channel that
waits for something else already is taken again later. -/
def State.chanPark (s : State) (k t : Nat) (conv : Bool) (p : Nat) (w : ChWait) : State :=
  if (s.chan t conv p).wait ≠ .none then s
  else (s.dropMsg k).modChan t conv p fun c => { c with wait := w, st := if w = .group then .busy else .parked }

/-! ## What an engine may name -/

/-- Whether an address is one that an engine command may not name (R169, R180); the page types and the system register space are
judged in translation (R138). -/
def engineBad (pa : Nat) : Bool :=
  let loc := localOf pa
  (windowOf loc).isSome ||
    (isVault loc && (match vaultPart (vaultOff loc) with
      | .scratch _ => false
      | _ => true))

/-! ## Reads -/

/-- What a read of a channel comes to. -/
inductive EngGot where
  | ok (d : List EngData) (s : State)
  /-- the channel has failed or waits -/
  | stop (s : State)

/-- The offsets of the poisoned 8-byte words of a range. -/
def State.poisonWords (s : State) (pa len : Nat) : List Nat :=
  ((List.range (len / 8)).map (8 * ·)).filter fun o => s.unitPoisoned (pa + o)

/-- A read of a channel at its home (R93, R94, R198, R249, R251). Another package's bytes are free (log 8). -/
def State.engRead (s : State) (k t : Nat) (conv : Bool) (p : Nat) (cmd : EngCmd) (r : EngRead) : EngGot :=
  match s.xlate (.engine t) cmd.ctx { rd := true, need := .engine } [{ va := r.va, len := r.len }] with
  | (.fault c v, s) => .stop (s.chanFail t conv p c v)
  | (.hold pg v, s) => .stop (s.chanPark k t conv p (.hold pg v))
  | (.ok fs, s) =>
    let pa := physOf fs r.va
    let ty := (frameOf fs r.va).ty
    if engineBad pa then .stop (s.chanFail t conv p 0x0E r.va)
    else if s.isRemote pa then
      let (n, s) := s.takeMany (r.len + 1)
      let w := (Config.freeWord (n + r.len)).toNat
      .ok [{ data := freeBytes n r.len, bound := BitVec.ofNat 16 w, maxe := BitVec.ofNat 8 (w / 65536) }] s
    else
      let raw := rawOf (localOf pa)
      let a : Acc :=
        { owner := .channel t conv p, tid := 0, ctx := cmd.ctx, va := r.va, pa := raw, len := r.len, ty := ty,
          cls := clsOf ty true false false false, gen := if r.gen ∧ ty = .once then cmd.gen else none, op := .chanRead }
      if s.wakeStuck (blkOf raw) then .stop s
      else match s.performRead a .none with
      | (s, none) => .stop (s.chanPark k t conv p (.block (blkOf raw) r.va))
      | (s, some (.reply _ _ data fl)) =>
        let m := s.blkMeta raw
        if fl = .none then .ok [{ data := data, bound := m.bound, maxe := m.maxe }] s
        else if fl = .poison ∧ !r.consume ∧ !s.isRetired raw then
          .ok [{ data := s.bytes raw r.len, poison := s.poisonWords raw r.len, bound := m.bound, maxe := m.maxe }] s
        else .stop (s.chanFail t conv p fl.cause r.va)
      | (s, some _) => .stop s

/-- The reads of a unit one after another: those that have been done stay done when a later one parks the channel (R251). The
order among a command's reads is one of those that R252 leaves open (DESIGN CHOICE, log 125). -/
def State.engReads (s : State) (k t : Nat) (conv : Bool) (p : Nat) (cmd : EngCmd) : List EngRead → EngGot
  | [] => .ok (s.chan t conv p).part s
  | r :: rs =>
    -- a source element that is not aligned (R261)
    if (match cmd.op with
      | .cpyt _ => r.va.toNat % r.len != 0
      | _ => false) then .stop (s.chanFail t conv p 0x0A r.va)
    else match s.engRead k t conv p cmd r with
      | .stop s => .stop s
      | .ok d s => (s.modChan t conv p fun c => { c with part := c.part ++ d }).engReads k t conv p cmd rs

/-- The next piece of a command's index list or record. -/
def tablePiece (cmd : EngCmd) (have_ : Nat) : EngRead :=
  let va := plus cmd.aux have_
  { va := va, len := min (cmd.op.tableLen - have_) (32 - va.toNat % 32), consume := true, gen := false }

/-- The bytes that a channel has read and not yet written. -/
def Chan.held (c : Chan) : Nat := ((c.buf.flatten).map fun w => w.data.length).sum

/-- The next read of a channel (R250, R251): a piece of its table, or the reads of its next unit, at most 16 blocks ahead of
its writes. A record that is rejected is reported with its address, `x[xc]`: R247 does not say whether it is an access that fails
(DESIGN CHOICE, log 153). -/
def State.chanRead (s : State) (k t : Nat) (conv : Bool) (p : Nat) : State :=
  let c := s.chan t conv p
  match c.cmd with
  | none => s.dropMsg k
  | some cmd =>
    if c.wait ≠ .none then s.dropMsg k
    else if c.table.length < cmd.op.tableLen then
      match s.engRead k t conv p cmd (tablePiece cmd c.table.length) with
      | .stop s => s
      | .ok ds s =>
        let tbl := c.table ++ (ds.map (·.data)).flatten
        let s := s.modChan t conv p fun c => { c with table := tbl }
        if cmd.op.tableLen ≤ tbl.length ∧ !cmd.op.tableOk tbl then s.chanFail t conv p 0x0E cmd.aux
        else if cmd.op.tableLen ≤ tbl.length then s.chanSend t conv p .chanWrite
        else s
    else if cmd.total c.table ≤ c.rd then (s.dropMsg k).chanSend t conv p .chanWrite
    else if 8192 ≤ c.held then s
    else
      match s.engReads k t conv p cmd ((cmd.reads c.table c.rd).drop c.part.length) with
      | .stop s => s
      | .ok ds s =>
        let m := topOf ds
        (s.modChan t conv p fun c => { c with
          part := [], rd := c.rd + 1, buf := c.buf ++ [cmd.writes c.table c.rd ds],
          top := (maxCode c.top.1 m.1, maxCode c.top.2 m.2) }).chanSend t conv p .chanWrite

/-! ## The destination -/

/-- Whether the ranges of a command write every byte of a block of virtual addresses. -/
def covers (rs : List (Touch × Bool)) (blk : Word) : Bool :=
  (List.range 512).all fun i => rs.any fun r => decide ((plus blk i - r.1.va).toNat < r.1.len)

/-- The blocks at the ends of a range, of which it may cover a part: each with the first byte that it has there. -/
def edges (t : Touch) : List (Word × Word) :=
  if t.len = 0 then []
  else
    let last := plus t.va (t.len - 1)
    (if t.va.toNat % 512 ≠ 0 then [(t.va &&& ~~~511#64, t.va)] else []) ++
      (if last.toNat % 512 ≠ 511 then
        [(last &&& ~~~511#64, if (last - t.va).toNat ≤ last.toNat % 512 then t.va else last &&& ~~~511#64)] else [])

/-- The pages of a range, each with its first byte there and the bytes that the range has in it. -/
def Touch.pages : Nat → Touch → List Touch
  | 0, _ => []
  | fuel + 1, t =>
    let room := 65536 - t.va.toNat % 65536
    if t.len = 0 then []
    else if t.len ≤ room then [t]
    else { va := t.va, len := room } :: Touch.pages fuel { va := plus t.va room, len := t.len - room }

/-- What the check of a command's destination comes to. -/
inductive Planned where
  | ok
  | fail (cause : Nat) (va : Word)
  | hold (page : Nat) (va : Word)

/-- The pages of a command's destination translated and checked (R249, R265): the pages of ONCE type are noted. -/
def State.planPages (s : State) (t : Nat) (cmd : EngCmd) : List (Touch × Bool) → List Nat → Planned × List Nat × State
  | [], once => (.ok, once, s)
  | (r, scales) :: rs, once =>
    match s.xlate (.engine t) cmd.ctx { wr := true, need := .engine } [{ va := r.va, len := 1 }] with
    | (.fault c v, s) => (.fail c v, once, s)
    | (.hold pg v, s) => (.hold pg v, once, s)
    | (.ok fs, s) =>
      let ty := (frameOf fs r.va).ty
      if engineBad (physOf fs r.va) || (scales && ty == .once) then (.fail 0x0E r.va, once, s)
      else s.planPages t cmd rs (if ty = .once then (r.va.toNat / 65536) :: once else once)

/-- Where CPYC writes: the offset in a column slice, which the channel keeps (R262). -/
def State.planSlice (s : State) (t p : Nat) (cmd : EngCmd) (len : Nat) : Planned × State :=
  match s.xlate (.engine t) cmd.ctx { wr := true, need := .engine } [{ va := cmd.dst, len := 1 }] with
  | (.fault c v, s) => (.fail c v, s)
  | (.hold pg v, s) => (.hold pg v, s)
  | (.ok fs, s) =>
    let pa := physOf fs cmd.dst
    let loc := localOf pa
    let o := vaultOff loc - 0xC0000
    if !s.isRemote pa && isVault loc && vaultTile loc == t && decide (0xC0000 ≤ vaultOff loc) && decide (o < 0x2000)
      && decide (o + len / 32 ≤ 8192) then (.ok, s.modChan t false p fun c => { c with slice := o })
    else (.fail 0x0E cmd.dst, s)

/-- The check of a command's destination before its first write (R249, R250, R262). -/
def State.plan_ (s : State) (t p : Nat) (cmd : EngCmd) (tbl : List Byte) : Planned × State :=
  match cmd.op with
  | .cpyc len => if len = 0 then (.ok, s) else s.planSlice t p cmd len
  | _ =>
    let rs := cmd.ranges tbl
    let pages := rs.flatMap fun r => (Touch.pages (r.1.len / 65536 + 2) r.1).map fun x => (x, r.2)
    match s.planPages t cmd pages [] with
    | (.ok, once, s) =>
      match (rs.flatMap fun r => edges r.1).find? fun e => decide ((e.1.toNat / 65536) ∈ once) && !covers rs e.1 with
      | some e => (.fail 0x0A e.2, s)
      | none => (.ok, s)
    | (r, _, s) => (r, s)

/-! ## Writes -/

/-- The units of poison of a destination that words of a write fall in (R94, R174). -/
def poisonUnits (pa : Nat) (words : List Nat) : List Nat :=
  let u := eccUnit pa
  (words.map fun o => (pa + o) / u * u).eraseDups

/-- The bound and magnitude that a block of a STRICT or RELEASE page has now. -/
def State.metaPair (s : State) (pa : Nat) : BitVec 16 × BitVec 8 := ((s.blkMeta pa).bound, (s.blkMeta pa).maxe)

/-- The larger of two pairs of a bound and a magnitude. -/
def maxPair (a b : BitVec 16 × BitVec 8) : BitVec 16 × BitVec 8 := (maxCode a.1 b.1, maxCode a.2 b.2)

/-- What a channel's record of a block becomes by a write: one that another agent has written since begins anew. -/
def ChMeta.note (e : Option ChMeta) (now : BitVec 16 × BitVec 8) (off len : Nat) (m : BitVec 16 × BitVec 8) : ChMeta :=
  let e := match e with
    | some e => if e.set = now then e else { mask := 0, old := now, new := (0, 0), set := now }
    | none => { mask := 0, old := now, new := (0, 0), set := now }
  let mask := e.mask ||| ((2 ^ len - 1) * 2 ^ off)
  let new := maxPair e.new m
  { mask := mask, old := e.old, new := new, set := if mask = 2 ^ 512 - 1 then new else maxPair e.old new }

/-- Bytes written on a STRICT or RELEASE page: data, poison, bound and magnitude (R94, R254). No fibre writes them: record 0x28
of a poisoned atom names TID 0 (R95; DESIGN CHOICE, log 124). -/
def State.engStore (s : State) (pa : Nat) (w : EngWrite) (e : Option ChMeta) : State × ChMeta :=
  let e := ChMeta.note e (s.metaPair pa) (pa % 512) w.data.length (w.bound, w.maxe)
  let s := (s.dropVersions pa w.data.length).writeUnits 0 (w.data.length + 1) pa w.data
  let s := (poisonUnits pa w.poison).foldl (fun s u => s.setPoison u true) s
  let s := s.modMeta pa fun m => { m with dsc := true, bound := e.set.1, maxe := e.set.2 }
  (if s.isRetired pa then s.retireBlock pa else s, e)

/-- A block that a channel assembles, with bytes merged. -/
def ChAsm.merge (a : ChAsm) (off : Nat) (w : EngWrite) : ChAsm :=
  { a with
    bytes := (w.data.zipIdx).foldl (fun m b => m.insert (off + b.2) b.1) a.bytes
    poison := a.poison ++ poisonUnits (a.blk + off) w.poison
    bound := maxCode a.bound w.bound, maxe := maxCode a.maxe w.maxe }

/-- What the commit of an assembled block carries. -/
def ChAsm.commit (a : ChAsm) : CommitData :=
  { data := (List.range 512).map fun i => a.bytes.getD i 0, bound := a.bound, maxe := a.maxe,
    poison := (a.poison.map (· - a.blk)).eraseDups }

/-- The oldest write of a channel done: the unit's others remain. -/
def Chan.written (c : Chan) (n : Nat) : Chan :=
  match c.buf with
  | (_ :: w :: ws) :: us => { c with bytes := c.bytes + n, buf := (w :: ws) :: us }
  | _ :: us => { c with bytes := c.bytes + n, buf := us, wr := c.wr + 1 }
  | [] => c

/-- A write into a ONCE block (R250): it commits once all 512 bytes have been produced; a block that MST has reserved is
waited for. A byte that the command produces twice begins the block anew, for a commit that will find it FULL (R259). Another
package's block stands above `2 ^ 56`, and its home's answer is free (log 8). -/
def State.engOnce (s : State) (t : Nat) (conv : Bool) (p : Nat) (pa : Nat) (w : EngWrite) : State :=
  let c := s.chan t conv p
  let blk := blkOf pa
  let va := w.va - BitVec.ofNat 64 (pa % 512)
  let free (a : ChAsm) : Bool := a.blk == blk && (List.range w.data.length).all fun i => (a.bytes.get? (pa % 512 + i)).isNone
  let old := c.asm.find? free
  let a := (old.getD { blk := blk, va := va, bytes := [], poison := [], bound := 0, maxe := 0 }).merge (pa % 512) w
  let rest := match old with
    | some o => c.asm.erase o
    | none => c.asm
  if a.bytes.length < 512 then s.modChan t conv p fun c => { c with asm := rest ++ [a] }.written 0
  else if s.reserved blk || s.wakeStuck blk then s
  else
    match (if 2 ^ 56 ≤ blk then s.farCommit else s.performCommit blk a.commit) with
    | (s, 0) => s.modChan t conv p fun c => { c with asm := rest }.written 512
    | (s, code) => s.chanFail t conv p (if code = 1 then 0x07 else 0x09) va

/-- A write of a channel to the page of its virtual address. -/
def State.engWrite (s : State) (k t : Nat) (conv : Bool) (p : Nat) (cmd : EngCmd) (w : EngWrite) : State :=
  match s.xlate (.engine t) cmd.ctx { wr := true, need := .engine } [{ va := w.va, len := w.data.length }] with
  | (.fault c v, s) => s.chanFail t conv p c v
  | (.hold pg v, s) => s.chanPark k t conv p (.hold pg v)
  | (.ok fs, s) =>
    let pa := physOf fs w.va
    let ty := (frameOf fs w.va).ty
    if engineBad pa then s.chanFail t conv p 0x0E w.va
    else if s.isRemote pa then
      if ty = .once then s.engOnce t conv p (s.placed pa) w else s.modChan t conv p (Chan.written · w.data.length)
    else
      let raw := rawOf (localOf pa)
      if ty = .once then s.engOnce t conv p raw w
      else
        let s := (s.touchLines raw w.data.length true).meet raw w.data.length
        if s.isRetired raw then s.chanFail t conv p 0x09 w.va
        else
          let blk := blkOf raw
          let (s, e) := s.engStore raw w ((s.chan t conv p).wrote.get? blk)
          s.modChan t conv p fun c => { c with wrote := c.wrote.insert blk e }.written w.data.length

/-- Whether a B-region block has been read by a MMA of an open group (R255). -/
def Tile.readsB (k : Tile) (blk : Nat) : Bool := k.acc.toList.any fun a => a.isOpen && decide (blk ∈ a.bRead)

/-- Whether an open group has selected a scale slot (R255). -/
def Tile.selects (k : Tile) (slot : Fin 16) : Bool :=
  k.acc.toList.any fun a => a.isOpen && a.scl && (a.rs == slot || a.cs == slot)

/-- The B-region blocks that a CPYC writes get the bound and magnitude of all its source blocks (R262). -/
def State.sliceMeta (s : State) (t o len : Nat) (top : BitVec 16 × BitVec 8) : State :=
  let l := len / 32
  let blks := (List.range 32).flatMap fun j =>
    (List.range ((o + l - 1) / 512 - o / 512 + 1)).map fun i => blkOf (runAddr t j o) + 512 * i
  blks.foldl (fun s b => if s.isRetired b then s else s.modMeta b fun m => { m with dsc := true, bound := top.1, maxe := top.2 }) s

/-- A write of CPYC at a raw address of the B region; `va` is what a failure reports: the virtual address in column slice 0, and
otherwise the raw one (R247, R255, R262). -/
def State.slicePut (s : State) (k t p : Nat) (len pa : Nat) (va : Word) (w : EngWrite) : State :=
  let c := s.chan t false p
  if s.isHeld pa then s.chanPark k t false p (.hold (pageOf pa) va)
  else if (s.tile t).readsB (blkOf pa) then s.chanPark k t false p .group
  else
    let s := s.meet pa 32
    if s.isRetired pa then s.chanFail t false p 0x09 va
    else
      let s := s.writeUnits 0 33 pa w.data
      let s := (poisonUnits pa w.poison).foldl (fun s u => s.setPoison u true) s
      let s := s.modMeta pa fun m => { m with dsc := true, bound := c.top.1, maxe := c.top.2 }
      let s := if len ≤ 32 * (c.wr + 1) then s.sliceMeta t c.slice len c.top else s
      s.modChan t false p (Chan.written · 32)

/-- A write of CPYC: one into column slice 0 is translated, and no virtual address names the others (R262). -/
def State.sliceWrite (s : State) (k t p : Nat) (cmd : EngCmd) (len : Nat) (w : EngWrite) : State :=
  let c := s.chan t false p
  let l := len / 32
  let pa := runAddr t (32 * c.wr / l) c.slice + 32 * c.wr % l
  if l ≤ 32 * c.wr then s.slicePut k t p len pa (BitVec.ofNat 64 pa) w
  else
    match s.xlate (.engine t) cmd.ctx { wr := true, need := .engine } [{ va := w.va, len := 32 }] with
    | (.fault c v, s) => s.chanFail t false p c v
    | (.hold pg v, s) => s.chanPark k t false p (.hold pg v)
    | (.ok _, s) => s.slicePut k t p len pa w.va w

/-- The scale slot of a CPYK written once all its entries have been read (R255, R263). -/
def State.slotWrite (s : State) (k t p : Nat) (slot : Fin 16) : State :=
  let c := s.chan t false p
  if c.buf.length < 32 then s.dropMsg k
  else if (s.tile t).selects slot then s.chanPark k t false p .group
  else
    let v := natOfBytes (c.buf.flatten.flatMap (·.data))
    let s := s.modTile t fun q => { q with scale := q.scale.set slot (BitVec.ofNat 256 v) }
    s.modChan t false p fun c => { c with buf := [], wr := 32, bytes := 32 }

/-- The next write of a channel: the check of its destination first, and the end of the command last (R249, R250, R253). -/
def State.chanWrite (s : State) (k t : Nat) (conv : Bool) (p : Nat) : State :=
  let c := s.chan t conv p
  match c.cmd with
  | none => s.dropMsg k
  | some cmd =>
    if c.table.length < cmd.op.tableLen then s.dropMsg k
    else if !c.ready then
      match s.plan_ t p cmd c.table with
      | (.ok, s) => s.modChan t conv p fun c => { c with ready := true }
      | (.fail cause va, s) => s.chanFail t conv p cause va
      | (.hold pg va, s) => s.chanPark k t conv p (.hold pg va)
    else if cmd.total c.table ≤ c.wr then
      -- a block begun anew by equal indices of CPYS: its commit finds it FULL (R259)
      match c.asm with
      | a :: _ => s.chanFail t conv p 0x07 a.va
      | [] => (s.dropMsg k).chanSend t conv p .chanEnd
    else match cmd.op, c.buf with
      | .cpyk slot, _ => s.slotWrite k t p slot
      | .cpyc len, (w :: _) :: _ => s.sliceWrite k t p cmd len w
      | _, (w :: _) :: _ => s.engWrite k t conv p cmd w
      | _, _ => s.dropMsg k

/-! ## The events of a channel -/

/-- CHANNEL_COMPLETION (R253): a command whose every write has been performed ends. -/
def execChannelCompletion (k : Nat) (s : State) : Out :=
  match s.net.get? k with
  | some (.req a) =>
    match a.owner, a.op with
    | .channel t conv p, .chanEnd => .next (s.chanOver t conv p .idle (BitVec.ofNat 64 (s.chan t conv p).bytes))
    | _, _ => .fault .noSuchEvent
  | _ => .fault .noSuchEvent

/-- CHANNEL_RESUME (R255): a channel that waited for the end of a group goes on. -/
def execChannelResume (tile p : Nat) (s : State) : Out :=
  let c := s.chan tile false p
  match c.wait, c.cmd with
  | .group, some cmd =>
    let go := match cmd.op with
      | .cpyk slot => !(s.tile tile).selects slot
      | _ => true
    .next (if go then s.chanGo tile false p else s)
  | _, _ => .fault .noSuchEvent

/-- A wake of KIND 100 or 101 at its channel (R205, R207, R359): it reads the block again, or stops with the flag's cause. -/
def State.chanWoken (s : State) (t : Nat) (conv : Bool) (p blk : Nat) (fl : RFlag) : State :=
  match (s.chan t conv p).wait with
  | .block b va =>
    if !s.sameBlk b blk then s
    else if fl = .none ∨ fl = .poison then s.chanGo t conv p
    else s.chanFail t conv p fl.cause va
  | _ => s

/-! ## Issue (R245 to R248) -/

/-- A command at issue (R237, R246, R248): alignments of operands, the limits of its entry, the channel's state; then it
happens after every earlier access of the fibre. -/
def engIssue (i : Instr) (conv : Bool) (p : Nat) (al : List (Word × Nat)) (limits : Bool) (op : EngOp) (xs : Word × Word × Word)
    (gen : GenArg) (done : Option XR) (s : State) : Out :=
  memSlot i s fun s =>
    let t := s.myTile
    let c := s.chan t conv p
    match al.find? fun a => a.1.toNat % a.2 ≠ 0 with
    | some a => s.endTrap false 0x0A a.1
    | none =>
      if limits then s.endTrap false 0x0E 0
      else if c.st == .busy || c.st == .parked then s.endPark 5 (.channel t conv p)
      else if c.st == .error then s.endTrap false 0x0E c.word
      else
        s.afterMsgs (s.mustWait { rel := true } 0 0 false) fun s =>
          let cmd : EngCmd :=
            { op := op, src := xs.1, dst := xs.2.1, aux := xs.2.2, gen := gen, done := done, core := s.cur.core,
              slot := s.cur.slot, tid := s.me.tid, ctx := s.myCore.ctxid.toNat }
          let s := s.modChan t conv p fun _ => { st := .busy, cmd := some cmd }
          let s := match done with
            | some xd => s.emptyX xd
            | none => s
          ((s.chanSend t conv p .chanRead).chanSend t conv p .chanWrite).endC

/-- Whether two ranges of virtual addresses overlap. -/
def overlapVa (a : Word) (n : Nat) (b : Word) (m : Nat) : Bool :=
  n != 0 && m != 0 && (decide ((b - a).toNat < n) || decide ((a - b).toNat < m))

/-- CPY (R258). -/
def execCpy (ch : Fin 8) (xb xa : XR) (len : BitVec 21) (gen : GenArg) (done : Option XR) (s : State) : Out :=
  let a := s.rx xa
  let b := s.rx xb
  let n := len.toNat
  engIssue (.cpy ch xb xa len gen done) false ch.val [(a, 32), (b, 32)] (n % 32 != 0 || overlapVa a n b n) (.cpy n)
    (a, b, 0) gen done s

/-- CPYG (R259). -/
def execCpyg (ch : Fin 8) (xb xa xc : XR) (rows : BitVec 9) (atoms : BitVec 12) (gen : GenArg) (done : Option XR)
    (s : State) : Out :=
  engIssue (.cpyg ch xb xa xc rows atoms gen done) false ch.val [(s.rx xa, 32), (s.rx xb, 32), (s.rx xc, 4)] false
    (.cpyg rows.toNat (32 * atoms.toNat)) (s.rx xa, s.rx xb, s.rx xc) gen done s

/-- CPYS (R259). -/
def execCpys (ch : Fin 8) (xb xa xc : XR) (rows : BitVec 9) (atoms : BitVec 12) (gen : GenArg) (done : Option XR)
    (s : State) : Out :=
  engIssue (.cpys ch xb xa xc rows atoms gen done) false ch.val [(s.rx xa, 32), (s.rx xb, 32), (s.rx xc, 4)] false
    (.cpys rows.toNat (32 * atoms.toNat)) (s.rx xa, s.rx xb, s.rx xc) gen done s

/-- CPYT (R260, R261). -/
def execCpyt (ch : Fin 8) (xb xa xc : XR) (first : BitVec 21) (gen : GenArg) (done : Option XR) (s : State) : Out :=
  engIssue (.cpyt ch xb xa xc first gen done) false ch.val [(s.rx xb, 32), (s.rx xc, 128)] false (.cpyt first.toNat)
    (s.rx xa, s.rx xb, s.rx xc) gen done s

/-- CPYC (R262). -/
def execCpyc (ch : Fin 8) (xb xa : XR) (len : BitVec 21) (gen : GenArg) (done : Option XR) (s : State) : Out :=
  engIssue (.cpyc ch xb xa len gen done) false ch.val [(s.rx xa, 32), (s.rx xb, 32)] (len.toNat % 1024 != 0)
    (.cpyc len.toNat) (s.rx xa, s.rx xb, 0) gen done s

/-- CPYK (R263). -/
def execCpyk (ch : Fin 8) (slot : Fin 16) (xa xc : XR) (gen : GenArg) (done : Option XR) (s : State) : Out :=
  engIssue (.cpyk ch slot xa xc gen done) false ch.val [(s.rx xc, 128)] false (.cpyk slot) (s.rx xa, 0, s.rx xc) gen done s

/-- A conversion at issue (R265). -/
def convIssue (i : Instr) (p : Nat) (op : EngOp) (rows : Nat) (a b c : Word) (gen : GenArg) (done : Option XR) (s : State) : Out :=
  let (n, m) := op.rowBytes
  engIssue i true p [(a, n), (b, m)] (overlapVa a (n * rows) b (m * rows)) op (a, b, c) gen done s

/-- CVQ (R265). -/
def execCvq (fmt : B8) (ch : Fin 4) (xb xa xc : XR) (rows : BitVec 16) (gen : GenArg) (done : Option XR) (s : State) : Out :=
  convIssue (.cvq fmt ch xb xa xc rows gen done) ch.val (.cvq fmt rows.toNat) rows.toNat (s.rx xa) (s.rx xb) (s.rx xc) gen done s
/-- CVD (R265). -/
def execCvd (fmt : B8) (ch : Fin 4) (xb xa xc : XR) (rows : BitVec 16) (gen : GenArg) (done : Option XR) (s : State) : Out :=
  convIssue (.cvd fmt ch xb xa xc rows gen done) ch.val (.cvd fmt rows.toNat) rows.toNat (s.rx xa) (s.rx xb) (s.rx xc) gen done s
/-- CVR (R265). -/
def execCvr (src dst : B8) (ch : Fin 4) (xb xa xc : XR) (rows : BitVec 16) (gen : GenArg) (done : Option XR) (s : State) : Out :=
  convIssue (.cvr src dst ch xb xa xc rows gen done) ch.val (.cvr src dst rows.toNat) rows.toNat (s.rx xa) (s.rx xb) (s.rx xc)
    gen done s

/-- A channel whose error has been read: it is IDLE, and its word counts the bytes that the command wrote (R247, R264). -/
def State.clearErr (s : State) (t : Nat) (conv : Bool) (p : Nat) : State :=
  s.modChan t conv p fun c => { c with st := .idle, status := BitVec.ofNat 64 c.bytes }

/-- CPYW and CVW with .wait (R264). -/
def chanWait (i : Instr) (conv : Bool) (p : Nat) (xr : XR) (s : State) : Out :=
  slotC i s fun s =>
    let t := s.myTile
    let c := s.chan t conv p
    match c.st with
    | .busy | .parked => s.endPark 5 (.channel t conv p)
    | .error => (s.clearErr t conv p).endTrap false 0x0E c.word
    | .idle => (s.hearMe.setX xr c.word).endC

/-- CPYW and CVW with .query (R264). -/
def chanQuery (i : Instr) (conv : Bool) (p : Nat) (xr : XR) (s : State) : Out :=
  slotC i s fun s =>
    let t := s.myTile
    let c := s.chan t conv p
    ((if c.st = .error then s.clearErr t conv p else s).setX xr c.word).endC

/-- CPYW.wait (R264). -/
def execCpywWait (ch : Fin 8) (xr : XR) (s : State) : Out := chanWait (.cpywWait ch xr) false ch.val xr s
/-- CPYW.query (R264). -/
def execCpywQuery (ch : Fin 8) (xr : XR) (s : State) : Out := chanQuery (.cpywQuery ch xr) false ch.val xr s
/-- CVW.wait (R264). -/
def execCvwWait (ch : Fin 4) (xr : XR) (s : State) : Out := chanWait (.cvwWait ch xr) true ch.val xr s
/-- CVW.query (R264). -/
def execCvwQuery (ch : Fin 4) (xr : XR) (s : State) : Out := chanQuery (.cvwQuery ch xr) true ch.val xr s

end Sys2Proof.Machine
end

