-- ==== Sys2Proof/Machine/Wakes.lean ====
section
/-!
DEFINITION. The arrival of wakes at their readers (R205, R207, R208, R212, R495).
-/

namespace Sys2Proof.Machine

/-- The fibre of a record counts one record less. -/
def Fibre.lessRec (f : Fibre) : Fibre := { f with recs := f.recs - 1 }

/-- A wake at a fibre that waits without a register (KIND 011): a BWAIT retires, but that of a block that has become RETIRED
is judged again; other instructions are executed whole again. -/
def State.blockWoken (s : State) (c k : Nat) (fl : RFlag) : State :=
  let s := s.modFib c k fun f =>
    let r : Resume := match f.resume with
      | .stage 0 _ _ => if fl = .poison then Resume.none else .stage 1 [] none
      | _ => Resume.none
    { f.lessRec with resume := r }
  (s.wakeWhere fun c' k' f => c' == c && k' == k && f.need == .block).settle

/-- A wake at its reader, by the kind of its record (R205). -/
def State.deliverWake (s : State) (blk : Nat) (r : Aster) (data : List Byte) (fl : RFlag) : State :=
  let c := r.core.toNat
  let k := r.slot.toNat
  let kind := r.kind.toNat
  -- the read is performed now (R218), an acquire of its fibre (R220, R237)
  let s := if kind = 4 ∨ kind = 5 then s else s.hear c k
  if kind = 1 then ((s.fillDst c k r.dst data fl).modFib c k Fibre.lessRec).settle
  else if kind = 2 then
    let p := s.port c (Fin.ofNat 4 r.dreg.toNat)
    if decide (12 ≤ r.dreg.toNat) && p.bound && !p.out then s.elemWoken blk r data fl
    else
      let s := (s.fillDst c k r.dst data fl).modFib c k fun f => { f.lessRec with vrecs := f.vrecs - 1 }
      (s.lanesArrive c (Fin.ofNat 16 r.dreg.toNat) r.lanes fl).settle
  else if kind = 3 then s.blockWoken c k fl
  else if kind = 4 ∨ kind = 5 then s.chanWoken (tileOf c) (kind == 5) k blk fl
  else if kind = 6 then s.rowWoken (tileOf c) blk r fl
  else s

/-- Whether a wake of a vector load must wait: its lanes complete an element of an output port that cannot go yet (R193, R231). -/
def State.wakeWaits (s : State) (r : Aster) : Bool :=
  r.kind == 2 && s.loadWaits r.core.toNat (Fin.ofNat 16 r.dreg.toNat) r.lanes

/-- A wake that has arrived: delivered at once, or held in the pool of a context that is not resident; it waits while no group of
that is free (R208). -/
def State.wakeAt (s : State) (k blk : Nat) (r : Aster) (data : List Byte) (fl : RFlag) : State :=
  if s.stale r then s.dropMsg k
  else if s.reachable r then (if s.wakeWaits r then s else (s.dropMsg k).deliverWake blk r data fl)
  else
    match s.poolGroup r.ctx.toNat with
    | none => s
    | some g =>
      let s := s.dropMsg k
      { s with
        groups := s.groups.insert g ()
        heldWakes := s.heldWakes ++ [{ blk := blk, ast := r, data := data, flag := fl, group := g }] }

/-- WAKE (R205, R208, R495). -/
def execWake (k : Nat) (s : State) : Out :=
  match s.net.get? k with
  | some (.wake blk r data fl) => overPlane k (fun s => .next (s.wakeAt k blk r data fl)) s
  | _ => .fault .noSuchEvent

/-- The wakes held for a context delivered: a stale one is discarded (R441, R495). -/
def State.deliverHeld (s : State) (ctx : Nat) : State :=
  let mine := s.heldWakes.filter fun w => w.ast.ctx.toNat == ctx
  let s := { s with
    heldWakes := s.heldWakes.filter fun w => w.ast.ctx.toNat != ctx
    groups := mine.foldl (fun m w => AMap.erase m w.group) s.groups }
  mine.foldl (fun s w =>
    if s.stale w.ast then s
    else if s.wakeWaits w.ast then (s.send (.wake w.blk w.ast w.data w.flag)).1
    else s.deliverWake w.blk w.ast w.data w.flag) s

end Sys2Proof.Machine
end

