-- ==== Sys2Proof/Machine/Launch.lean ====
section
/-!
DEFINITION. Partitions as rectangles of cores and tiles (R413), launch queues (R400 to R403), launch packets (R404, R405),
arbitration (R406), dispatch (R407, R408, R411), and completion (R409).
-/

namespace Sys2Proof.Machine

/-! ## The resident context of a partition (R413) -/

/-- The state with the resident context of a partition set; RV and RES read 0 with none (R413, R492). -/
def State.setResident (s : State) (t : Nat) : Option Nat → State
  | some c => (s.setRegF (partOff t) 50 10 c).setRegF (partOff t) 49 1 1
  | none => (s.setRegF (partOff t) 50 10 0).setRegF (partOff t) 49 1 0

/-- The context and tenant of a partition for a record. -/
def partCtx (t ctx : Nat) : Option RecCtx := some { ctx := ctx, tenant := t }

/-! ## Vaults zeroed, contexts switched in (R153, R414) -/

/-- A map without the entries whose keys lie in a range. -/
def AMap.without {α : Type} (m : AMap α) (lo n : Nat) : AMap α := m.filter fun e => !(decide (lo ≤ e.1) && decide (e.1 < lo + n))
/-- The entries of a map whose keys lie in a range. -/
def AMap.within {α : Type} (m : AMap α) (lo n : Nat) : AMap α := m.filter fun e => decide (lo ≤ e.1) && decide (e.1 < lo + n)

/-- The first byte of a tile's vault. -/
def vaultOf (t : Nat) : Nat := vaultBase + t * 0x100000

/-- A tile's vault zeroed with its tags, its fibre stores emptied, its matrix array, engines and collective table fresh. Every
rewrite reads back clean, that of a RETIRED block too (R170; DESIGN CHOICE, log 130). -/
def State.zeroTile (s : State) (t : Nat) : State :=
  let a := vaultOf t
  let s := { s with
    mem := s.mem.without a 0x100000
    past := s.past.without a 0x100000
    bmeta := s.bmeta.without (a / 512) 2048
    vsynd := s.vsynd.without (a / 8) 131072
    badMeta := s.badMeta.without (a / 512) 2048
    groups := s.groups.without a 0x100000 }
  let s := s.setTile t { gated := (s.tile t).gated }
  (List.range 8).foldl (fun s i => { s with fibres := s.fibres.without (fibKey (tileCore t i) 0) 256 }) s

/-- A core's allotment per microsecond (R417): core 2 of a tile has its own. -/
def State.allot (s : State) (ctx c : Nat) : Nat :=
  let off := 0x1F1000 + 16 * ctx
  if coreInTile c = 2 then s.regF off 16 24 else s.regF off 40 24

/-- The allotments of a context: ALLOT and ALLOTM. -/
def State.allots (s : State) (ctx : Nat) : Nat × Nat := (s.regF (0x1F1000 + 16 * ctx) 40 24, s.regF (0x1F1000 + 16 * ctx) 16 24)

/-- The state with both allotments of a context set. -/
def State.setAllots (s : State) (ctx : Nat) (v : Nat × Nat) : State :=
  (s.setRegF (0x1F1000 + 16 * ctx) 40 24 v.1).setRegF (0x1F1000 + 16 * ctx) 16 24 v.2

/-- The allotments that the power loop has set for a context. -/
def State.powerSet (s : State) (ctx : Nat) : Nat × Nat := ((s.thermal.get? ctx).map (·.1)).getD (s.allots ctx)

/-- An allotment lowered by a factor of 65,536ths. -/
def lowered (f v : Nat) : Nat := v * f / 65536

/-- The temperature action on a context's allotments (R418, R465). -/
def State.throttle (s : State) (f ctx : Nat) : State :=
  let now := s.allots ctx
  let c := (lowered f now.1, lowered f now.2)
  { s with thermal := s.thermal.insert ctx (s.powerSet ctx, c) }.setAllots ctx c

/-- MGMT_STAT.THERM: the temperature action is on (R465). -/
def State.isHot (s : State) : Bool := s.regF 0x210100 61 1 == 1

/-- A context that enters a partition while the temperature action is on: its allotments are lowered like the others', by a free factor
(R465, log 136). -/
def State.throttleIn (s : State) (ctx : Nat) : State :=
  if !s.isHot || (s.thermal.get? ctx).isSome then s
  else
    let (n, s) := s.takeFresh
    s.throttle ((Config.freeWord n).toNat % 65536) ctx

/-- A core as a context finds it at switch-in: its budget is the allotment (R417); the counts of its messages go on. -/
def State.freshCore (s : State) (ctx c : Nat) : State :=
  s.modCore c fun r => { ctxid := BitVec.ofNat 10 ctx, ebud := (s.allot ctx c : Nat), cost := s.reg (0x1F1008 + 16 * ctx), sent := r.sent, rcvd := r.rcvd }

/-- A context switched in with zeroed vaults (R153, R414). -/
def State.switchIn (s : State) (t ctx : Nat) : State :=
  let s := ((s.partTiles t).foldl State.zeroTile s).throttleIn ctx
  let s := (s.partCores t).foldl (fun s c => s.freshCore ctx c) s
  (s.setResident t (some ctx)).setPartState t 1

/-! ## Queue registers (R400 to R403) -/

/-- The offset of a register of a queue. -/
def qOff (q r : Nat) : Nat := 0x1E0000 + 0x40 * q + r
/-- A field of Q_CFG[q]. -/
def State.qCfg (s : State) (q lo n : Nat) : Nat := s.regF (qOff q 0x08) lo n
/-- Whether a queue is served. -/
def State.qEn (s : State) (q : Nat) : Bool := s.qCfg q 63 1 == 1
/-- The context whose launches a queue carries. -/
def State.qCtx (s : State) (q : Nat) : Nat := s.qCfg q 45 10
/-- The partition that a queue serves. -/
def State.qPart (s : State) (q : Nat) : Nat := s.qCfg q 39 6
/-- The priority level of a queue, 0 highest. -/
def State.qPrio (s : State) (q : Nat) : Nat := s.qCfg q 34 5
/-- Q_WR[q]. -/
def State.qWr (s : State) (q : Nat) : Word := s.reg (qOff q 0x10)
/-- Q_RD[q]. -/
def State.qRd (s : State) (q : Nat) : Word := s.reg (qOff q 0x18)
/-- Q_STAT[q].STATE: 0 OFF, 1 ACTIVE, 2 OVERRUN, 3 BADPKT, 4 PSTOP. -/
def State.qState (s : State) (q : Nat) : Nat := s.regF (qOff q 0x28) 61 3
/-- The state with Q_STAT[q].STATE set. -/
def State.setQState (s : State) (q v : Nat) : State := s.setRegF (qOff q 0x28) 61 3 v
/-- The state with Q_STAT[q].RUN set. -/
def State.setQRun (s : State) (q : Nat) (v : Bool) : State := s.setRegF (qOff q 0x28) 60 1 v.toNat
/-- The state in which Q_DONE[q] has advanced by one. -/
def State.countDone (s : State) (q : Nat) : State := s.setReg (qOff q 0x20) (s.reg (qOff q 0x20) + 1)

/-- Whether a queue overruns (R403). -/
def State.overruns (s : State) (q : Nat) : Bool := decide (2 ^ s.qCfg q 55 5 < (s.qWr q - s.qRd q).toNat)

/-- The test for overrun of a queue that is served (R403). -/
def State.testOverrun (s : State) (q : Nat) : State :=
  if !s.qEn q || !s.overruns q then s
  else
    let s := s.setQState q 2
    let s := s.errRec 0x30 (partCtx (s.qPart q) (s.qCtx q)) [BitVec.ofNat 64 q, s.qWr q, s.qRd q]
    s.noteStatus (s.qCtx q) { bits := 0x08 }

/-- A write to Q_WR (R402, R403). -/
def State.writeQWr (s : State) (q : Nat) (val : Word) : State := (s.setReg (qOff q 0x10) val).testOverrun q

/-- Q_WR (R403). -/
def execQWr (q : Nat) (val : Word) (s : State) : Out :=
  if q < 512 then barWrite (qOff q 0x10) val (fun s => .next (s.writeQWr q val)) s else .fault .noSuchEvent

/-- Whether the pages of a ring in device memory are all STRICT (R401). -/
def State.ringStrict (s : State) (q : Nat) : Bool :=
  let a := s.regF (qOff q 0) 6 58 * 64
  let n := 64 * 2 ^ s.qCfg q 55 5
  (List.range ((a + n - 1) / 65536 - a / 65536 + 1)).all fun i =>
    let p := (a / 65536 + i) * 65536
    (pptIndex p).isSome && s.exists_ p && pptType (s.typeByte p) == .strict

/-- Whether the fields of a queue allow its service (R401). -/
def State.qValid (s : State) (q : Nat) : Bool :=
  let n := s.qCfg q 55 5
  decide (4 ≤ n) && decide (n ≤ 20) && s.qCfg q 26 8 != 0 && s.partEn (s.qPart q) && (s.qCfg q 62 1 == 1 || s.ringStrict q)

/-- A write to Q_CFG (R401, R403): while EN is 1 only EN changes. -/
def State.writeQCfg (s : State) (q : Nat) (val : Word) : State :=
  let off := qOff q 0x08
  if s.qEn q then
    if val.getLsbD 63 then s else (s.setRegF off 63 1 0).setQState q 0
  else
    let s := s.writeField off val
    if !val.getLsbD 63 then s.setQState q 0
    else if !s.qValid q then s.setRegF off 63 1 0
    else (s.setQState q 1).testOverrun q

/-- Q_CFG (R401). -/
def execQCfg (q : Nat) (val : Word) (s : State) : Out :=
  if q < 512 then barWrite (qOff q 0x08) val (fun s => .next (s.writeQCfg q val)) s else .fault .noSuchEvent

/-! ## PART (R413) -/

/-- Whether two partitions' rectangles share a sector. -/
def State.partsMeet (s : State) (t u : Nat) : Bool :=
  decide (s.partRow t < s.partRow u + s.partHeight u) && decide (s.partRow u < s.partRow t + s.partHeight t)
    && decide (s.partCol t < s.partCol u + s.partWidth u) && decide (s.partCol u < s.partCol t + s.partWidth t)

/-- Whether a partition's fields allow its enabling. -/
def State.partValid (s : State) (t : Nat) : Bool :=
  decide (s.partRow t + s.partHeight t ≤ 16) && decide (s.partCol t + s.partWidth t ≤ 16) && s.regF (partOff t) 16 16 != 0
    && (List.range 64).all fun u => u == t || !s.partEn u || !s.partsMeet t u

/-- A write to PART[t] (R413). The routers' membership bitmaps are what the enabled rectangles say. The tiles that a partition
uses are not gated (R465). -/
def State.writePart (s : State) (t : Nat) (val : Word) : State :=
  let off := partOff t
  if s.partEn t then
    if !val.getLsbD 63 && s.partState t == 0 && (s.resident t).isNone then s.setRegF off 63 1 0 else s
  else
    let s := s.setRegF off 0 32 (fld val.toNat 0 32)
    if val.getLsbD 63 && s.partValid t then
      (s.partTiles t).foldl (fun s k => s.modTile k fun k => { k with gated := false }) (s.setRegF off 63 1 1)
    else s

/-- PART (R413). -/
def execPart (t : Nat) (val : Word) (s : State) : Out :=
  if t < 64 then barWrite (partOff t) val (fun s => .next (s.writePart t val)) s else .fault .noSuchEvent

/-! ## Launch packets (R404, R405) -/

/-- The byte offset of the lowest nonzero byte of a reserved range that begins at byte `base`. -/
def lowByte (n base len : Nat) : List Nat :=
  ((List.range len).find? fun i => fld n (8 * i) 8 != 0).toList.map (base + ·)

/-- The entry of dimension `d`. -/
def dimEntry (bs : List Byte) (d : Nat) : Nat := natOfBytes ((bs.drop (48 + 4 * d)).take 4)

/-- The fields of a packet that hold a reserved value or a nonzero reserved bit. -/
def pktReserved (bs : List Byte) : List Nat :=
  let w0 := recWord bs 0
  (if 1 < fld w0 56 8 then [7] else []) ++ (if 4 < fld w0 52 3 then [6] else []) ++ lowByte (fld w0 0 36) 0 5
    ++ lowByte (fld (recWord bs 1) 48 16) 14 2 ++ lowByte (fld (recWord bs 3) 48 16) 30 2
    ++ ((List.range 4).filter fun d => fld (dimEntry bs d) 30 2 == 3 || fld (dimEntry bs d) 24 6 != 0).map (51 + 4 * ·)

/-- The fields at fault among a packet's extents: a zero one below NDIM, a nonzero entry from NDIM on. -/
def pktExtents (bs : List Byte) : List Nat :=
  let n := fld (recWord bs 0) 52 3
  (List.range 4).flatMap fun d =>
    let e := dimEntry bs d
    if d < n then (if fld e 0 24 = 0 then [48 + 4 * d] else [])
    else if fld e 0 24 ≠ 0 then [48 + 4 * d]
    else if e ≠ 0 then [51 + 4 * d]
    else []

/-- The axes of entries that name the same axis. -/
def pktAxes (bs : List Byte) : List Nat :=
  let ax (d : Nat) : Nat := fld (dimEntry bs d) 30 2
  ((List.range 4).filter fun d => ax d != 0 && (List.range 4).any fun e => e != d && ax e == ax d).map (51 + 4 * ·)

/-- The offsets of the grid that lie outside the partition. -/
def State.pktOffsets (s : State) (t : Nat) (bs : List Byte) : List Nat :=
  let w0 := recWord bs 0
  (if 32 * s.partWidth t ≤ fld w0 48 4 then [6] else []) ++ (if 16 * s.partHeight t ≤ fld w0 40 4 then [5] else [])

/-- The lowest of some byte offsets. -/
def lowestOff : List Nat → Option Nat
  | [] => none
  | n :: ns => match lowestOff ns with
    | none => some n
    | some m => some (min n m)

/-- The packet of its bytes. -/
def Packet.ofBytes (bs : List Byte) : Packet :=
  let w0 := recWord bs 0
  { irq := fld w0 55 1 == 1, ox := fld w0 48 4, sx := fld w0 44 4 + 1, oy := fld w0 40 4, sy := fld w0 36 4 + 1,
    entry := BitVec.ofNat 48 (recWord bs 1), param := BitVec.ofNat 64 (recWord bs 2), tid0 := fld (recWord bs 3) 0 48,
    counter := BitVec.ofNat 64 (recWord bs 4), done := BitVec.ofNat 64 (recWord bs 5),
    dims := (List.range (fld w0 52 3)).map fun d => (fld (dimEntry bs d) 30 2, fld (dimEntry bs d) 0 24) }

/-- What an address of a packet translates to, in the queue's context (R405). -/
inductive Target where
  | at (pa : Nat)
  | bad
  | held
  deriving DecidableEq, Repr

/-- The physical place of an address of a packet that its check accepts. A hold is waited for, or has timed out, as a free value
says (R144). -/
def State.target (s : State) (ctx : Nat) (a : Word) (n : Nat) (ok : State → Frame → Nat → Bool) : Target × State :=
  match s.xlate .io ctx { wr := true } [{ va := a, len := n }] with
  | (.fault .., s) => (.bad, s)
  | (.hold .., s) =>
    let (n, s) := s.takeFresh
    (if Config.freeBool n then .bad else .held, s)
  | (.ok fs, s) =>
    let pa := physOf fs a
    let raw := rawOf (localOf pa)
    if !s.isRemote pa && ok s (frameOf fs a) raw then (.at raw, s) else (.bad, s)

/-- COUNTER's place: an 8-byte-aligned word on a local STRICT or RELEASE page. -/
def State.counterAt (s : State) (ctx : Nat) (a : Word) : Target × State :=
  if a.toNat % 8 ≠ 0 then (.bad, s)
  else s.target ctx a 8 fun _ f _ => f.ty == .strict || f.ty == .release

/-- DONE's place: a local block in HBM4 or LPDDR-6 that is ONCE and EMPTY. -/
def State.doneAt (s : State) (ctx : Nat) (a : Word) : Target × State :=
  match s.target ctx a 1 fun s f raw =>
    f.ty == .once && isDram raw && (s.blkMeta raw).pres == .empty && !s.isRetired raw with
  | (.at pa, s) => (.at (blkOf pa), s)
  | r => r

/-- What becomes of a packet that is taken. -/
inductive Taken where
  | bad (byte : Nat)
  | held
  | nop
  | launch (pk : Packet) (counter done : Nat)
  deriving DecidableEq, Repr

/-- The checks of R405 in their order. -/
def State.checkPacket (s : State) (t ctx : Nat) (bs : List Byte) : Taken × State :=
  match lowestOff (pktReserved bs) with
  | some b => (.bad b, s)
  | none =>
    if fld (recWord bs 0) 56 8 = 0 then (.nop, s)
    else
      match lowestOff (pktExtents bs), lowestOff (pktAxes bs), lowestOff (s.pktOffsets t bs) with
      | some b, _, _ => (.bad b, s)
      | none, some b, _ => (.bad b, s)
      | none, none, some b => (.bad b, s)
      | none, none, none =>
        let pk := Packet.ofBytes bs
        match s.counterAt ctx pk.counter with
        | (.bad, s) => (.bad 32, s)
        | (.held, s) => (.held, s)
        | (.at c, s) =>
          match s.doneAt ctx pk.done with
          | (.bad, s) => (.bad 40, s)
          | (.held, s) => (.held, s)
          | (.at d, s) => (.launch pk c d, s)

/-- The bytes of a queue's next packet (R402, R404): those of a poisoned read are free. -/
def State.readPacket (s : State) (q : Nat) : List Byte × State :=
  let a := s.regF (qOff q 0) 6 58 * 64 + (s.qRd q).toNat % 2 ^ s.qCfg q 55 5 * 64
  if s.qCfg q 62 1 = 1 then (s.hostBytes a 64, s)
  else
    let raw := rawOf (localOf a)
    let s := (s.touchLines raw 64 false).meet raw 64
    if s.isRetired raw || (s.firstPoison raw 64).isSome then
      let (n, s) := s.takeMany 64
      (freeBytes n 64, s)
    else (s.bytes raw 64, s)

/-! ## Dispatch (R407, R408, R411) -/

/-- A quotient rounded up. -/
def ceilDiv (a b : Nat) : Nat := (a + b - 1) / b

/-- The columns and rows of a packet's grid in a partition of `w` by `h` sectors. -/
def Packet.grid (pk : Packet) (w h : Nat) : Nat × Nat := (ceilDiv (32 * w - pk.ox) pk.sx, ceilDiv (16 * h - pk.oy) pk.sy)

/-- The base and extent of a dimension at a grid core. -/
def dimShare (g : Nat × Nat) (gx gy : Nat) (d : Nat × Nat) : Nat × Nat :=
  let (parts, i) := if d.1 = 1 then (g.1, gx) else if d.1 = 2 then (g.2, gy) else (1, 0)
  let c := ceilDiv d.2 parts
  (i * c, min c (d.2 - i * c))

/-- The grid cores that get a root fibre, in the order of their ranks: column and row. -/
def Packet.roots (pk : Packet) (g : Nat × Nat) : List (Nat × Nat) :=
  ((List.range g.2).flatMap fun y => (List.range g.1).map fun x => (x, y)).filter fun p =>
    pk.dims.all fun d => (dimShare g p.1 p.2 d).2 != 0

/-- The identity registers of a core at a row and column of its partition (R411). -/
def State.identAt (s : State) (t q num : Nat) (pk : Packet) (row col : Nat) : Vector Word 9 :=
  let g := pk.grid (s.partWidth t) (s.partHeight t)
  let c := s.partCore t row col
  let inside := decide (pk.oy ≤ row) && decide (pk.ox ≤ col) && (row - pk.oy) % pk.sy == 0 && (col - pk.ox) % pk.sx == 0
  let gx := (col - pk.ox) / pk.sx
  let gy := (row - pk.oy) / pk.sy
  let dim (i : Nat) : Nat := match pk.dims[i]? with
    | some d => if inside then (dimShare g gx gy d).2 * 2 ^ 32 + (dimShare g gx gy d).1 else 0
    | none => 0
  let grid : Nat := if inside then g.2 * 2 ^ 48 + g.1 * 2 ^ 32 + gy * 2 ^ 16 + gx else 2 ^ 64 - 1
  #v[BitVec.ofNat 64 c, BitVec.ofNat 64 (tileOf c), BitVec.ofNat 64 (t * 2 ^ 16 + s.regF (partOff t) 0 16),
    BitVec.ofNat 64 grid, BitVec.ofNat 64 (dim 0), BitVec.ofNat 64 (dim 1), BitVec.ofNat 64 (dim 2), BitVec.ofNat 64 (dim 3),
    BitVec.ofNat 64 (q * 2 ^ 48 + num % 2 ^ 48)]

/-- The identity registers of every core of a partition written. -/
def State.writeIdents (s : State) (t q num : Nat) (pk : Packet) : State :=
  (List.range (16 * s.partHeight t)).foldl (fun s y =>
    (List.range (32 * s.partWidth t)).foldl (fun s x =>
      s.modCore (s.partCore t y x) fun r => { r with ident := s.identAt t q num pk y x }) s) s

/-- The reset value of FSW (R272). -/
def fswReset : BitVec 32 := 0x00010000#32

/-- A root fibre of a rank (R408). -/
def Packet.rootFibre (pk : Packet) (rank : Nat) : Fibre :=
  let tid := BitVec.ofNat 48 (pk.tid0 + rank)
  let one (v : Word) : XReg := { val := v, full := true }
  { x := #v[one pk.param, one pk.counter, one pk.done, one (BitVec.ofNat 64 rank), one 0, one 0, one 0, one 0]
    pc := pk.entry, save := tid.setWidth 16, tid := tid, fsw := fswReset }

/-- A root fibre sent to a place reserved for it, or kept until there is one (R408). -/
def State.placeRoot (s : State) (r : Travel) : State :=
  match s.reserveOne r with
  | some (s, r) => (s.send (.travel r)).1
  | none => { s with roots := s.roots ++ [r] }

/-- The dispatch of a launch in a partition where its context is resident (R407). -/
def State.dispatch (s : State) (t q num ctx counter done : Nat) (pk : Packet) : State :=
  let g := pk.grid (s.partWidth t) (s.partHeight t)
  let roots := pk.roots g
  -- what memory holds now was written before every access of the launch (R240)
  let s := { s.performWrite 0 counter (bytesOfNat 8 roots.length) with past := [] }
  let l : Launch :=
    { q := q, ctx := ctx, level := s.qPrio q, irq := pk.irq, done := done, win := s.regF (qOff q 0x30) 0 32 }
  let s := { s with launches := s.launches.insert t l }.setQRun q true
  let s := if roots.isEmpty then (s.performCommit done { data := List.replicate 512 0, bound := 0, maxe := 0, poison := [] }).1
    else s
  let s := (s.writeIdents t q num pk).setPartState t 1
  roots.foldl (fun s p =>
    s.placeRoot
      { ctx := ctx, core := s.partCore t (pk.oy + p.2 * pk.sy) (pk.ox + p.1 * pk.sx), slot := none,
        f := pk.rootFibre (p.2 * g.1 + p.1) }) s

/-! ## Arbitration (R406, R414) -/

/-- The queues that may be granted for a partition: bound to it, ACTIVE, not empty. While a launch runs, only those that
pre-empt it for another context. One whose context waits with an incomplete launch waits behind that launch. -/
def State.grantable (s : State) (t : Nat) : List Nat :=
  (List.range 512).filter fun q =>
    s.qEn q && s.qState q == 1 && s.qPart q == t && s.qWr q != s.qRd q && (s.evicted.get? (s.qCtx q)).isNone &&
      (match s.launches.get? t with
        | none => true
        | some l => s.qCfg q 61 1 == 1 && decide (s.qPrio q < l.level) && s.qCtx q != l.ctx)

/-- The evicted contexts of a partition that are candidates again: context and level. -/
def State.waiting (s : State) (t : Nat) : List (Nat × Nat) :=
  if (s.launches.get? t).isSome then []
  else s.evicted.filterMap fun e => if e.2.1 = t then some (e.1, e.2.2.level) else none

/-- What the launch unit grants. -/
inductive Grant where
  /-- a queue, and the grants that it has left after this one -/
  | queue (q left : Nat)
  /-- an evicted context with an incomplete launch -/
  | back (ctx : Nat)
  deriving DecidableEq, Repr

/-- The queue of a level that holds the grant, or the next after the pointer. -/
def State.nextQueue (s : State) (t lvl : Nat) (qs : List Nat) : Option Grant :=
  let (p, left) := s.arb.getD (32 * t + lvl) (511, 0)
  if p ∈ qs ∧ 0 < left then some (.queue p (left - 1))
  else
    let dist (q : Nat) : Nat := (q + 511 - p) % 512
    let best := qs.foldl (fun (m : Option Nat) q => match m with
      | none => some q
      | some o => if dist q < dist o then some q else some o) none
    best.map fun q => .queue q (s.qCfg q 26 8 - 1)

/-- The grant of a partition: of the lowest level. Between a queue and an evicted context of one level a free value picks. -/
def State.grant (s : State) (t : Nat) : Option Grant × State :=
  let qs := s.grantable t
  let ws := s.waiting t
  match lowestOff (qs.map s.qPrio ++ ws.map (·.2)) with
  | none => (none, s)
  | some lvl =>
    let back := (ws.filter fun w => w.2 == lvl).map fun w => Grant.back w.1
    let cs := back ++ (s.nextQueue t lvl (qs.filter fun q => s.qPrio q == lvl)).toList
    match cs with
    | [c] => (some c, s)
    | _ =>
      let (n, s) := s.takeFresh
      (cs[Config.pick n % cs.length]?, s)

/-- Whether a message is another package's word on a collective entry. -/
def Msg.decides (e : Coll) : Msg → Bool
  | .result c _ cid seq _ g _ => c == e.core && cid == e.cid && seq == e.seq && g == e.group
  | .aborted c _ cid seq _ g _ => c == e.core && cid == e.cid && seq == e.seq && g == e.group
  | _ => false

/-- The FIRING entries of a tile whose collectives are of several packages as an eviction finds them: an undecided one, as a free
value says, is PREEMPTED, and its abort goes to the root (R361, log 8). -/
def State.preemptSpan (s : State) (t : Nat) : State :=
  ((s.tile t).coll.filter fun e => e.st == .firing && e.pkind == 2 && decide (1 < e.n)).foldl (fun s e =>
    let (n, s) := s.takeFresh
    if Config.freeBool n then
      { s with net := s.net.filter fun m => !m.2.decides e }.modColl t e.blk fun e => { e with st := .preempted, held := [] }
    else s) s

/-- The start of an eviction (R415). -/
def State.startEviction (s : State) (t : Nat) : State :=
  let s := (s.partTiles t).foldl State.preemptSpan { s with saving := s.saving.filter (· != t) }
  (s.fibres.foldl (fun s e =>
    if s.partHas t (e.1 / 256) then s.setFib (e.1 / 256) (e.1 % 256) { e.2 with woken := false } else s) s).setPartState t 2

/-- A partition on its way to what it runs next: its resident context, if any, is evicted first (R414). -/
def State.switchTo (s : State) (t : Nat) (i : Incoming) : State :=
  let s := { s with incoming := s.incoming.insert t i }
  if (s.resident t).isSome then s.startEviction t else s

/-- A launch that has been taken: dispatched where its context is resident or can be switched in at once (R414). -/
def State.takeLaunch (s : State) (t q num counter done : Nat) (pk : Packet) : State :=
  let ctx := s.qCtx q
  if s.resident t = some ctx then s.dispatch t q num ctx counter done pk
  else if (s.resident t).isNone && (s.saved.get? ctx).isNone then (s.switchIn t ctx).dispatch t q num ctx counter done pk
  else s.switchTo t (.fresh q num pk ctx counter done)

/-- A grant used: a packet is taken (R405, R406). -/
def State.takePacket (s : State) (t q left : Nat) : State :=
  let num := (s.qRd q).toNat
  let ctx := s.qCtx q
  let (bs, s) := s.readPacket q
  match s.checkPacket t ctx bs with
  | (.held, s) => s
  | (.bad b, s) =>
    (s.setQState q 3).errRec 0x31 (partCtx t ctx) [BitVec.ofNat 64 q, BitVec.ofNat 64 num, BitVec.ofNat 64 b]
  | (r, s) =>
    let s := s.setReg (qOff q 0x18) (s.qRd q + 1)
    let left := if s.qWr q = s.qRd q then 0 else left
    let s := { s with arb := s.arb.insert (32 * t + s.qPrio q) (q, left) }
    match r with
    | .launch pk c d => s.takeLaunch t q num c d pk
    | _ => s.countDone q

/-- LAUNCH_DISPATCH (R406, R407, R414): the launch unit grants for a partition. It does nothing while the partition is being
evicted or killed, or a state summary runs (R415, R454). -/
def execLaunchDispatch (t : Nat) (s : State) : Out :=
  if 64 ≤ t then .fault .noSuchEvent
  else if !s.partEn t || decide (2 ≤ s.partState t) || s.summary.isSome || (s.incoming.get? t).isSome then .next s
  else
    match s.grant t with
    | (none, s) => .next s
    | (some (.back ctx), s) => .next (s.switchTo t (.back ctx))
    | (some (.queue q left), s) => .next (s.takePacket t q left)

/-- Whether a root waits for a place in a partition where its context is resident; the others wait with their contexts (R415). -/
def State.rootWaits (s : State) (t : Nat) (r : Travel) : Bool := s.partHas t r.core && s.resident t == some r.ctx

/-- Roots that have found no place tried again, those of the context that is resident in a partition. -/
def State.retryRoots (s : State) (t : Nat) : List Travel → State
  | [] => s
  | r :: rs => ((if s.rootWaits t r then s.placeRoot r else { s with roots := s.roots ++ [r] }).retryRoots t) rs

/-- ROOT_PLACEMENT_RETRY (R408): the roots of a partition that wait for a place are tried again. -/
def execRootPlacementRetry (t : Nat) (s : State) : Out :=
  if s.partState t ≠ 1 then .next s else .next ({ s with roots := [] }.retryRoots t s.roots)

/-! ## Completion (R409) -/

/-- The completion of a launch: Q_DONE advances, the queue's vector may be sent, RUN clears. -/
def State.complete (s : State) (l : Launch) : State :=
  let s := s.countDone l.q
  let s := if l.irq && s.qCfg l.q 60 1 == 1 then s.msix (s.qCfg l.q 15 11) else s
  s.setQRun l.q false

/-- LAUNCH_COMPLETION (R409): the home of DONE has notified the launch unit. A launch that a kill has ended is none. -/
def execLaunchCompletion (k : Nat) (s : State) : Out :=
  match s.net.get? k with
  | some (.launchDone blk) =>
    if s.summary.isSome then .next s
    else
      let s := s.dropMsg k
      let ended (l : Launch) : Bool := s.sameBlk l.done blk && l.notified
      let ls := (s.launches.map (·.2) ++ s.evicted.map (·.2.2)).filter ended
      let s := { s with
        launches := s.launches.filter fun e => !ended e.2
        evicted := s.evicted.filter fun e => !ended e.2.2 }
      .next (ls.foldl State.complete s)
  | _ => .fault .noSuchEvent

end Sys2Proof.Machine
end

