-- ==== Sys2Proof/Machine/Context.lean ====
section
/-!
DEFINITION. Contexts leaving and entering a partition: the drain (R415, R419), the image (R437 to R440), save and restore
(R438, R441), eviction deadline, watchdog, kill and all-asleep detection (R416, R419, R495), the Larkspur tree (R435, R436),
and the energy budget (R417, R418).
-/

namespace Sys2Proof.Machine

/-! ## What is under way in a partition -/

/-- The core that an owner belongs to. -/
def Owner.coreOf : Owner → Option Nat
  | .fibre c _ | .push c | .port c _ _ => some c
  | .channel t _ _ | .mma t | .coll t _ => some (tileCore t 0)
  | .ended c => some c
  | .host _ | .nobody => none

/-- The core for whose context a message travels. -/
def Msg.coreOf : Msg → Option Nat
  | .arithX c .. | .arithV c .. | .fill c .. | .done c .. | .result c .. | .aborted c .. | .signal c .. | .retype c ..
  | .zero c .. => some c
  | .req a => Owner.coreOf a.owner
  | .reply o .. | .ack o | .answer o .. => Owner.coreOf o
  | .wake _ r _ _ => some r.core.toNat
  | .reserve r | .reserved r _ => some r.core
  | .travel t => some t.core
  | .part p => some p.root
  | .abort src .. => some src
  | .launchDone _ => none

/-- Whether a message is a step that a channel which is not BUSY has yet to take. -/
def State.idleStep (s : State) : Msg → Bool
  | .req a => match a.owner with
    | .channel t conv p => (s.chan t conv p).st != .busy
    | _ => false
  | _ => false

/-- Whether a message travels for the context of a partition. A wake of a context that is not resident there does not. -/
def State.msgIn (s : State) (t : Nat) (m : Msg) : Bool :=
  (match m.coreOf with
    | some c => s.partHas t c
    | none => false) &&
  (match m with
    | .wake _ r _ _ => s.resident t == some r.ctx.toNat
    | _ => true)

/-- The messages of a partition that its drain waits for (R415, R419). -/
def State.msgsOf (s : State) (t : Nat) : List Nat :=
  s.net.filterMap fun m => if s.msgIn t m.2 && !s.idleStep m.2 then some m.1 else none

/-- Whether a message is a collective partial: an eviction discards those on their way (R361). -/
def Msg.isPart : Msg → Bool
  | .part _ => true
  | _ => false

/-- Whether a tile's engines and matrix array are at rest: no BUSY channel, no MMA that has retired and accumulates. -/
def Tile.quiet (k : Tile) : Bool :=
  k.mmas.isEmpty && (List.range 8).all (fun p => (k.chan false p).st != .busy)
    && (List.range 4).all fun p => (k.chan true p).st != .busy

/-- The fibres of a partition with their cores and slots. -/
def State.fibresIn (s : State) (t : Nat) : List (Nat × Fibre) := s.fibres.filter fun e => s.partHas t (e.1 / 256)

/-- Whether the drain of an eviction is over (R415, step 2). -/
def State.drained (s : State) (t : Nat) : Bool :=
  ((s.fibresIn t).all fun e => match e.2.st with
    | .free | .parked => true
    | .ready => e.2.woken
    | _ => false)
  && ((s.msgsOf t).all fun id => ((s.net.get? id).map Msg.isPart).getD true)
  && (s.partTiles t).all fun k => (s.tile k).quiet

/-! ## The image (R437, R439, R440) -/

/-- The offset of CTX_IMG[c]. -/
def imgOff (ctx : Nat) : Nat := 0x208000 + 8 * ctx
/-- The address of the record of the i-th tile in the image of a context. -/
def State.imgAt (s : State) (ctx i : Nat) : Nat := s.regF (imgOff ctx) 21 25 * 0x200000 + i * 0x200000

/-- Bytes filled with zeros to a length. -/
def padTo (n : Nat) (bs : List Byte) : List Byte := bs ++ List.replicate (n - bs.length) 0

/-- The 24 bytes of a level of a trap bank (R440). -/
def TrapBank.image (b : TrapBank) : List Byte :=
  bytesOfNat 8 (fld b.cause.toNat 0 16 * 2 ^ 48 + fld b.pc.toNat 0 48) ++ wordBytes b.val ++ wordBytes b.keep

/-- The 1 KiB of a block-assembly entry (R440). -/
def BabEntry.image (e : BabEntry) : List Byte :=
  let mask := (List.range 512).foldl (fun n i => if (e.bytes.get? i).isSome then n + 2 ^ i else n) 0
  let mark := match e.mark with
    | some (f, b) => 2 ^ 63 + f.toNat * 2 ^ 16 + b.toNat
    | none => 0
  padTo 512 (bytesOfNat 8 (e.blk + 1) ++ bytesOfNat 64 mask ++ bytesOfNat 8 mark) ++ e.data

/-- The descriptor of a port as R297 lays it out. -/
def Port.image (p : Port) : List Byte :=
  wordBytes p.base ++ bytesOfNat 8 (p.out.toNat * 2 ^ 63 + p.n1 * 2 ^ 40 + p.n0 * 2 ^ 16) ++ bytesOfNat 8 p.s0.toNat
    ++ bytesOfNat 8 p.s1.toNat

/-- A core's image (R440), whose opaque bytes are free ones from number `n` on. -/
def State.coreImage (s : State) (c n : Nat) : List Byte :=
  let r := s.core c
  let lanes := r.v.toList.flatMap fun v => v.toList
  let port (sp : Fin 4) : List Byte := (r.sp.get sp).image ++ wordBytes (s.portStatus c sp) ++ freeBytes (n + 24 * sp.val) 24
  let anchor := match r.anchor with
    | some k => 2 ^ 63 + k
    | none => 0
  padTo 0x3000 ((List.range 256).flatMap fun k => (s.fib c k).bank1.image ++ (s.fib c k).bank2.image)
    ++ padTo 0x2000 (r.bab.flatMap BabEntry.image)
    ++ lanes.flatMap (fun l => bytesOfNat 4 l.val.toNat)
    ++ padTo 0x100 (bytesOfNat 8 (packBits 1 (lanes.map fun l => l.full.toNat))
      ++ bytesOfNat 24 (packBits 3 (lanes.map fun l => RFlag.code l.flag))
      ++ bytesOfNat 8 (packBits 4 (r.m.toList.map BitVec.toNat)) ++ bytesOfNat 8 anchor)
    ++ (List.finRange 4).flatMap port ++ freeBytes (n + 96) 0x100
    ++ padTo 0x2C00 (r.ident.toList.flatMap wordBytes ++ r.wf.toList.flatMap (fun f => bytesOfNat 8 f.toNat)
      ++ r.wfl.toList.flatMap wordBytes ++ bytesOfNat 8 r.qtm ++ wordBytes (BitVec.ofInt 64 r.ebud))

/-- The 32 bytes of an accumulator's group state (R439). -/
def Accum.image (a : Accum) : List Byte :=
  wordBytes a.status ++ bytesOfNat 8 a.start.toNat ++ bytesOfNat 8 a.tid.toNat ++ bytesOfNat 8 a.pair.toNat

/-- A tile's record (R439), whose opaque bytes are free ones from number `n` on. -/
def State.tileImage (s : State) (t n : Nat) : List Byte :=
  let k := s.tile t
  let a := vaultOf t
  s.bytes a 0x100000
    ++ (List.range 2048).flatMap (fun j => bytesOfNat 8 (s.blkMeta (a + 512 * j)).toNat)
    ++ k.acc.toList.flatMap (fun c => (List.range 1024).flatMap fun i => bytesOfNat 4 (c.cells.getD i 0).toNat)
    ++ padTo 0x40 (k.acc.toList.flatMap fun c => bytesOfNat 2 c.bound.toNat)
    ++ padTo 0x1C0 (k.acc.toList.flatMap Accum.image)
    ++ padTo 0xE00 (k.scale.toList.flatMap fun v => bytesOfNat 32 v.toNat)
    ++ padTo 0x1000 (freeBytes n 0x300) ++ padTo 0x2000 (freeBytes (n + 0x300) 0xA00)
    ++ padTo 0xF0000 ((List.range 8).flatMap fun i => s.coreImage (tileCore t i) (n + 0xD00 + 0x160 * i))

/-- The free values that a tile's record takes. -/
def imageFree : Nat := 0x1800

/-! ## Save (R438) -/

/-- The state in which every core of a partition has pushed: lines of its PRIVATE write buffers are on their way home. -/
def State.pushPart (s : State) (t : Nat) : State := (s.partCores t).foldl State.pushAll s

/-- The undecided collectives of a partition PREEMPTED: their partials are discarded, held or on their way (R361). -/
def State.preempt (s : State) (t : Nat) : State :=
  let s := s.loseMsgs fun m => m.isPart && s.msgIn t m
  let s := (s.partTiles t).foldl (fun s k => s.modTile k fun k => { k with
    spill := k.spill.filter fun q => q.2.tenant != t
    coll := k.coll.map fun e => if e.st = .firing then { e with st := .preempted, held := [], decided := false } else e }) s
  (s.partCores t).foldl (fun s c =>
    let r := s.routers.getD c {}
    { s with routers := s.routers.setD c { r with slots := r.slots.filter fun p => p.tenant != t } {} }) s

/-- Blocks of a vault whose tags cannot be read become RETIRED before the tags are saved (R170). -/
def State.meetTags (s : State) (t : Nat) : State :=
  (s.badMeta.within (vaultOf t / 512) 2048).foldl (fun s e => s.meet (e.1 * 512) 0) s

/-- The tile records of a partition written into an image (R438, step 4). -/
def State.writeImage (s : State) (ctx : Nat) : Nat → List Nat → State
  | _, [] => s
  | i, t :: ts =>
    let s := s.meetTags t
    let bs := s.tileImage t s.fresh
    let s := { s with fresh := s.fresh + imageFree }
    (s.writeSpan 4097 (s.imgAt ctx i) bs).writeImage ctx (i + 1) ts

/-- What the opaque parts of the image of a partition hold. -/
def State.keep (s : State) (t : Nat) : Saved :=
  let ts := s.partTiles t
  { part := t
    tiles := s.tiles.filter fun e => decide (e.1 ∈ ts)
    cores := s.cores.filter fun e => s.partHas t e.1
    fibres := s.fibresIn t
    groups := (ts.flatMap fun k => s.groups.within (vaultOf k) 0x100000).map (·.1)
    words := ts.flatMap fun k => s.vsynd.within (vaultOf k / 8) 131072 }

/-- The state without the steps of channels that an eviction or a kill leaves behind. -/
def State.dropSteps (s : State) (t : Nat) : State :=
  { s with net := s.net.filter fun m => !(s.msgIn t m.2 && s.idleStep m.2) }

/-- The fibre stores of a partition brought up to date: no fibre is in a hot slot (R438, step 3; R439). -/
def State.syncPart (s : State) (t : Nat) : State :=
  (s.partCores t).foldl (fun s c => (List.range 256).foldl (fun s k => s.syncSlot c k) s) s

/-- The context of a partition saved and gone (R415 steps 3 and 4, R438): an incomplete launch of it becomes a candidate again
(R414). -/
def State.saveOut (s : State) (t ctx : Nat) : State :=
  let s := ((s.partCores t).foldl State.pullAll (s.preempt t)).syncPart t
  let s := (s.writeImage ctx 0 (s.partTiles t)).dropSteps t
  let s := { s with saved := s.saved.insert ctx (s.keep t) }.setRegF (imgOff ctx) 1 1 1
  let s := match s.launches.get? t with
    | some l => { s with launches := s.launches.erase t, evicted := s.evicted.insert ctx (t, l) }
    | none => s
  let s := (s.partTiles t).foldl State.zeroTile s
  let s := (s.partCores t).foldl (fun s c => s.modCore c fun r => { sent := r.sent, rcvd := r.rcvd }) s
  let s := { s.setResident t none with
    asleep := s.asleep.filter (· != t), saving := s.saving.filter (· != t) }
  if (s.incoming.get? t).isSome then s else s.setPartState t 0

/-- EVICTION_SAVE (R438): once the eviction has drained, the write buffers are pushed, and then the context is saved; without
an image it is killed. No partition changes state while a state summary runs (R454). -/
def execEvictionSave (t : Nat) (s : State) : Out :=
  match s.resident t with
  | none => .fault .noSuchEvent
  | some ctx =>
    if s.partState t ≠ 2 || (s.kills.get? t).isSome then .fault .noSuchEvent
    else if s.summary.isSome || !s.drained t then .next s
    else if s.regF (imgOff ctx) 0 1 = 0 then .next (s.startKill t { ctx := ctx, reason := 5 })
    else if (s.partCores t).any fun c => !(s.core c).wbuf.isEmpty then
      .next ({ s with saving := s.saving ++ [t] }.pushPart t)
    else .next (s.saveOut t ctx)

/-- EVICTION_DEADLINE (R416, R454): a context whose drain has not ended is killed. -/
def execEvictionDeadline (t : Nat) (s : State) : Out :=
  match s.resident t with
  | none => .fault .noSuchEvent
  | some ctx =>
    if s.partState t ≠ 2 then .fault .noSuchEvent
    else if s.summary.isSome || decide (t ∈ s.saving) || s.drained t then .next s
    else .next (s.startKill t { ctx := ctx, reason := 2 })

/-! ## Restore (R441) -/

/-- The bits of FSW that R272 defines. -/
def fswDefined : Nat := 0x00E11F7F

/-- Whether a fibre's record holds a reserved value (R9, R272, R377); a FREE slot's other bytes have no meaning. -/
def recordBad (bs : List Byte) : Bool :=
  let w := natOfBytes
  let last := w ((bs.drop 88).take 8)
  let flags := w ((bs.drop 84).take 4)
  let fsw := w ((bs.drop 80).take 4)
  let st := fld last 0 3
  if st = 0 then false
  else
    decide (4 < st) || fld last 24 40 != 0 || fld last 8 8 != 0 || decide (9 ≤ fld last 4 4) || fld flags 24 8 != 0
      || (List.range 8).any (fun i => decide (5 < fld flags (3 * i) 3)) || fld (w ((bs.drop 72).take 8)) 56 8 != 0
      || fsw &&& fswDefined != fsw || fld fsw 22 2 == 3

/-- A fibre as its record holds it (R377), over what the record does not hold. -/
def Fibre.ofRecord (f : Fibre) (bs : List Byte) : Fibre :=
  let w (o n : Nat) : Nat := natOfBytes ((bs.drop o).take n)
  let fe := fld (w 72 8) 48 8
  let last := w 88 8
  if fld last 0 3 = 0 then {}
  else
    { f with
      x := Vector.ofFn fun i : Fin 8 =>
        { val := BitVec.ofNat 64 (w (8 * i.val) 8), full := fld fe i.val 1 == 1,
          flag := RFlag.ofCode (fld (w 84 4) (3 * i.val) 3), va := (f.x.get i).va }
      pc := BitVec.ofNat 48 (w 64 8), save := BitVec.ofNat 16 (fld (w 64 8) 48 16), tid := BitVec.ofNat 48 (w 72 8)
      fsw := BitVec.ofNat 32 (w 80 4), recs := fld last 16 8, wait := fld last 4 4, anc := fld last 3 1 == 1
      st := FState.ofCode (fld last 0 3) }

/-- The bytes of the record of a slot in the image of the i-th tile. -/
def State.imgRecord (s : State) (ctx i core k : Nat) : List Byte :=
  s.bytes (s.imgAt ctx i + 0x80000 + core * 0x8000 + 96 * k) 96

/-- Whether some record of the i-th tile of an image holds a reserved value. -/
def State.imgBad (s : State) (ctx i : Nat) : Bool :=
  (List.range 8).any fun c => (List.range 256).any fun k => recordBad (s.imgRecord ctx i c k)

/-- A restored fibre: its record may be another's now, so that it follows all writes (R230), and one that waited on a page's hold tries
again (R143): it becomes READY, and the trace shows it (R463). -/
def State.wentBack (s : State) (c k : Nat) : State :=
  let s := s.hear c k
  let f := s.fib c k
  match f.need with
  | .hold .. =>
    if f.st = .parked then (s.setFib c k f.ready).traceRec c (s.core c).ctxid.toNat 5 f.tid (BitVec.ofNat 32 f.wait) else s
  | _ => s

/-- The fibres of a core restored from the image of its tile. -/
def State.restoreFibres (s : State) (sv : Saved) (ctx i t core : Nat) : State :=
  let c := tileCore t core
  (List.range 256).foldl (fun s k =>
    (s.setFib c k ((sv.fibres.getD (fibKey c k) {}).ofRecord (s.imgRecord ctx i core k))).wentBack c k) s

/-- A tile restored from its record (R441, steps 1 and 2). No fibre has been in its hot slots since the switch: each search
starts at slot 0 (R381). -/
def State.restoreTile (s : State) (sv : Saved) (ctx i t : Nat) : State :=
  let s := s.zeroTile t
  let img := s.imgAt ctx i
  let a := vaultOf t
  let s := s.setBytes a (s.bytes img 0x100000)
  let s := (List.range 2048).foldl (fun s j => s.setMeta (a + 512 * j) (BMeta.ofNat (s.nat (img + 0x100000 + 8 * j) 8))) s
  let k := sv.tiles.getD t {}
  let s := s.setTile t { k with gated := (s.tile t).gated }
  let s := (List.range 8).foldl (fun s c => s.modCore (tileCore t c) fun r =>
    { sv.cores.getD (tileCore t c) {} with sent := r.sent, rcvd := r.rcvd, hotN := {}, hotH := {} }) s
  (List.range 8).foldl (fun s c => s.restoreFibres sv ctx i t c) s

/-- Tiles restored in the order of their records. -/
def State.restoreTiles (s : State) (sv : Saved) (ctx : Nat) : Nat → List Nat → State
  | _, [] => s
  | i, t :: ts => (s.restoreTile sv ctx i t).restoreTiles sv ctx (i + 1) ts

/-- The PREEMPTED entries of a tile fire again, each under its next SEQ (R361). -/
def State.refire (s : State) (t : Nat) : State :=
  ((s.tile t).coll.filter fun e => e.st == .preempted).foldl (fun s e =>
    let e := { e with seq := e.seq + 1 }
    (s.modColl t e.blk fun _ => e).fire t e) s

/-- A channel of a restored tile resumed where it stopped (R256): one that waited on a page's hold goes on, one that waits for a
block goes on writing what it has read, one that waits for a group goes on reading. -/
def State.resumeChan (s : State) (t : Nat) (q : Bool × Nat) : State :=
  match (s.chan t q.1 q.2).wait with
  | .hold .. => s.chanGo t q.1 q.2
  | .block .. => s.chanSend t q.1 q.2 .chanWrite
  | .group => s.chanSend t q.1 q.2 .chanRead
  | .none => s

/-- The channels of a tile resumed (R256). -/
def State.resumeChans (s : State) (t : Nat) : State := ((s.tile t).waiting (· != .none)).foldl (State.resumeChan · t ·) s

/-- A context brought back into its partition (R441). -/
def State.restoreIn (s : State) (t ctx : Nat) (sv : Saved) : State :=
  let ts := s.partTiles t
  let s := s.restoreTiles sv ctx 0 ts
  let s := { s with
    groups := sv.groups.foldl (fun m g => AMap.insert m g ()) s.groups
    vsynd := sv.words.foldl (fun m (e : Nat × Nat) => AMap.insert m e.1 e.2) s.vsynd
    saved := s.saved.erase ctx }
  let s := ((s.setResident t (some ctx)).setPartState t 1).throttleIn ctx
  let s := s.deliverHeld ctx
  let s := ts.foldl (fun s k => (s.resumeChans k).refire k) s
  let s := (s.partCores t).foldl (fun (s : State) c => (List.finRange 4).foldl (fun (s : State) sp => s.pumpPort c sp) s) s
  s.settle

/-- Whether a context can be restored in a partition: the image is there, was saved from it, and holds no reserved value. -/
def State.restorable (s : State) (t ctx : Nat) (sv : Saved) : Bool :=
  s.regF (imgOff ctx) 0 1 == 1 && s.regF (imgOff ctx) 1 1 == 1 && sv.part == t
    && !(List.range (s.partTiles t).length).any (s.imgBad ctx)

/-- A context back in a partition, or killed before any fibre issues; then what follows (R441). -/
def State.bringBack (s : State) (t ctx : Nat) (k : State → State) : State :=
  match s.saved.get? ctx with
  | none => k (s.switchIn t ctx)
  | some sv =>
    if s.restorable t ctx sv then k (s.restoreIn t ctx sv)
    else (s.setResident t (some ctx)).startKill t { ctx := ctx, reason := 5 }

/-- CONTEXT_RESTORE (R414, R441): a partition that its last context has left takes the incoming one: it is restored, or
switched in, and its launch goes on or is dispatched; all this waits while a state summary runs (R454). -/
def execContextRestore (t : Nat) (s : State) : Out :=
  match s.incoming.get? t with
  | none => .fault .noSuchEvent
  | some i =>
    if (s.resident t).isSome || (s.kills.get? t).isSome || !s.partEn t then .fault .noSuchEvent
    else if s.summary.isSome then .next s
    else
      let s := { s with incoming := s.incoming.erase t }
      match i with
      | .fresh q num pk ctx ctr done => .next (s.bringBack t ctx fun s => s.dispatch t q num ctx ctr done pk)
      | .back ctx =>
        .next (s.bringBack t ctx fun s => match s.evicted.get? ctx with
          | some (_, l) => { s with launches := s.launches.insert t l, evicted := s.evicted.erase ctx }
          | none => s)

/-! ## The Larkspur tree (R435, R436) -/

/-- The offset of LARK_CTL. -/
def larkCtlOff : Nat := 0x20A000
/-- The offset of LARK_BASE. -/
def larkBaseOff : Nat := 0x20A008

/-- The stop record of a core written (R436). -/
def State.stopRecord (s : State) (seq base : Nat) (r : StopRec) : State :=
  s.performWrite 0 (base + 32 * r.core)
    (bytesOfNat 8 r.cyc ++ bytesOfNat 8 (r.sent % 2 ^ 64) ++ bytesOfNat 8 (r.rcvd % 2 ^ 64) ++ bytesOfNat 8 (seq * 2 ^ 32 + r.slots))

/-- The records of a stop written, when LARK_BASE.V is 1: the stop is done, and BUSY stays while another has records to write. -/
def State.stopRecords (s : State) (seq : Nat) : State :=
  let recs := s.stops.getD seq []
  let s := { s with stops := s.stops.erase seq }
  let s := if s.regF larkBaseOff 0 1 = 1 then
      recs.foldl (fun s r => s.stopRecord seq (s.regF larkBaseOff 22 24 * 0x400000) r) s
    else s
  (s.setRegF larkStatOff 63 1 (!s.stops.isEmpty).toNat).setRegF larkStatOff 62 1 1

/-- The tree stops a partition (R435). -/
def State.larkStop (s : State) (t : Nat) : State :=
  let (n, s) := s.stopCores t
  { s with lark := some (t, n) }

/-- A write to LARK_CTL (R435): a command while a stop writes its records, or to a partition that is not enabled, is ignored with its
fields, and so is the reserved command. -/
def State.writeLarkCtl (s : State) (val : Word) : State :=
  let cmd := fld val.toNat 6 2
  let t := fld val.toNat 0 6
  if cmd = 0 then s.writeField larkCtlOff val
  else if cmd = 3 || s.regF larkStatOff 63 1 = 1 || !s.partEn t then s
  else
    let s := s.writeField larkCtlOff val
    match cmd, s.resident t with
    | 2, some ctx => s.startKill t { ctx := ctx, reason := 4 }
    | _, _ => s.larkStop t

/-- LARK_STOP_RESUME (R435): LARK_CTL is written with CMD 01. -/
def execLarkStopResume (t : Nat) (s : State) : Out :=
  if t < 64 then
    let v : Word := BitVec.ofNat 64 (0x40 + t)
    barWrite larkCtlOff v (fun s => .next (s.writeLarkCtl v)) s
  else .fault .noSuchEvent

/-- LARK_STOP_KILL (R435): LARK_CTL is written with CMD 10. -/
def execLarkStopKill (t : Nat) (s : State) : Out :=
  if t < 64 then
    let v : Word := BitVec.ofNat 64 (0x80 + t)
    barWrite larkCtlOff v (fun s => .next (s.writeLarkCtl v)) s
  else .fault .noSuchEvent

/-- LARK_RESUME (R436): the stop records have been performed, DONE is set, and the stopped cores resume. -/
def execLarkResume (s : State) : Out :=
  match s.lark with
  | none => .fault .noSuchEvent
  | some (_, n) => .next ({ s with lark := none }.stopRecords n)

/-! ## Kills (R416, R419, R424, R495) -/

/-- Whether a message is one that a kill lets finish: an access on its way to its home, a page operation under way (R419,
step 2). The steps of channels end with them. -/
def Msg.finishes : Msg → Bool
  | .req a => match a.owner with
    | .channel .. => false
    | _ => true
  | .retype .. | .zero .. => true
  | _ => false

/-- The queues bound to a partition stop (R419, step 4); one whose EN is 0 is OFF (R403) and stays so (DEDUCED, log 154). -/
def State.stopQueues (s : State) (t : Nat) : State :=
  (List.range 512).foldl (fun s q => if s.qEn q && s.qPart q == t then s.setQState q 4 else s) s

/-- What the kill of a context ends wherever it is: records in pools, held wakes, roots and the image are discarded, and its
instance advances (R419, R495). -/
def State.forget (s : State) (ctx : Nat) : State :=
  let held := s.heldWakes.filter fun w => w.ast.ctx.toNat == ctx
  { s with
    pool := s.pool.filter fun f => f.ctx != ctx
    poolResv := s.poolResv.erase ctx
    roots := s.roots.filter fun f => f.ctx != ctx
    heldWakes := s.heldWakes.filter fun w => w.ast.ctx.toNat != ctx
    groups := held.foldl (fun m (w : HeldWake) => AMap.erase m w.group) s.groups
    inst := s.inst.setD ctx (s.inst.getD ctx 0 + 1) 0
    saved := s.saved.erase ctx }

/-- What a kill ends at once (R419, steps 1 to 3): the stop is recorded; messages, records in pools and held wakes of the context
are discarded; vaults, fibre stores, cores and matrix state are zeroed; its instance advances. -/
def State.killReset (s : State) (t : Nat) (k : Kill) : State :=
  let s := ((s.stopRecords k.seq).loseMsgs (s.msgIn t)).forget k.ctx
  let s := { s with
    dloading := s.dloading.filter fun d => !s.partHas t d.2.1
    asleep := s.asleep.filter (· != t)
    saving := s.saving.filter (· != t) }
  let s := (s.preempt t)
  let s := (s.partTiles t).foldl State.zeroTile s
  ((s.partCores t).foldl (fun (s : State) c => s.modCore c fun r => { sent := r.sent, rcvd := r.rcvd }) s).setPartState t 4

/-- The bits and records of a kill (R419, step 5). -/
def State.killRecords (s : State) (t : Nat) (k : Kill) : State :=
  let rc := partCtx t k.ctx
  let c := BitVec.ofNat 64 k.ctx
  let n := BitVec.ofNat 64 t
  let s := if k.reason = 3 then (s.noteStatus k.ctx { bits := 0x02 }).errRec 0x33 rc [BitVec.ofNat 64 k.queue, c, n]
    else if k.reason = 2 then (s.noteStatus k.ctx { bits := 0x10 }).errRec 0x34 rc [c, n]
    else s
  let s := s.noteStatus k.ctx { bits := 0x04, reason := some (k.reason, k.cause), tid := k.tid, pc := k.pc.setWidth 64 }
  s.errRec 0x35 rc [c, n, BitVec.ofNat 64 k.reason]

/-- The end of a kill (R419, steps 4 to 6). -/
def State.killEnd (s : State) (t : Nat) (k : Kill) : State :=
  let s := s.stopQueues t
  let gone := (s.launches.get? t).toList ++ ((s.evicted.get? k.ctx).map (·.2)).toList
  let s := gone.foldl (fun s l => s.setQRun l.q false) s
  let s := { s with launches := s.launches.erase t, evicted := s.evicted.erase k.ctx, kills := s.kills.erase t }
  ((s.killRecords t k).setResident t none).setPartState t 0

/-- CONTEXT_KILL_COMPLETE (R419): a kill goes on: once its accesses have been performed the partition is reset, and once it has
been zeroed the kill ends. -/
def execContextKillComplete (t : Nat) (s : State) : Out :=
  match s.kills.get? t with
  | none => .fault .noSuchEvent
  | some k =>
    if s.summary.isSome then .next s
    else if s.partState t = 4 then .next (s.killEnd t k)
    else if s.net.any fun m => s.msgIn t m.2 && m.2.finishes then .next s
    else .next (s.killReset t k)

/-- The kill of a context that is not resident, by the watchdog of its launch (R419): nothing runs that is to be stopped, and
what the context has left is gone (DESIGN CHOICE, log 76). -/
def State.killAway (s : State) (t : Nat) (l : Launch) : State :=
  let s := (s.forget l.ctx).stopQueues t
  let next := s.incoming.get? t == some (Incoming.back l.ctx)
  let s := { s.setQRun l.q false with
    evicted := s.evicted.erase l.ctx
    incoming := if next then s.incoming.erase t else s.incoming }
  let s := if next && (s.resident t).isNone then s.setPartState t 0 else s
  s.killRecords t { ctx := l.ctx, reason := 3, queue := l.q }

/-- The launches of a partition that watchdogs watch: the one that runs, and those of evicted contexts. -/
def State.watched (s : State) (t : Nat) : List Launch :=
  ((s.launches.get? t).toList ++ (s.evicted.filter fun e => e.2.1 == t).map (·.2.2)).filter fun l => l.win != 0

/-- The window of a watched launch has passed: its context is killed (R419). -/
def State.expire (s : State) (t : Nat) (l : Launch) : State :=
  if s.resident t = some l.ctx then s.startKill t { ctx := l.ctx, reason := 3, queue := l.q } else s.killAway t l

/-- WATCHDOG_EXPIRY (R419): the window of a launch of a partition has passed; of several watched ones a free value picks it. -/
def execWatchdogExpiry (t : Nat) (s : State) : Out :=
  match s.watched t with
  | [] => .fault .noSuchEvent
  | l :: ls =>
    if s.summary.isSome then .next s
    else if ls.isEmpty then .next (s.expire t l)
    else
      let (n, s) := s.takeFresh
      .next (s.expire t ((l :: ls).getD (Config.pick n % (ls.length + 1)) l))

/-! ## The all-asleep detector (R419) -/

/-- Whether a core is asleep (R385). -/
def State.coreAsleep (s : State) (c : Nat) : Bool :=
  (s.core c).hotN.slot.isNone && (s.core c).hotH.slot.isNone
    && ((List.range 256).all fun k => (s.fib c k).st == .free || (s.fib c k).st == .parked)

/-- Whether nothing in a partition can go on (R419). -/
def State.allAsleep (s : State) (t ctx : Nat) : Bool :=
  ((s.fibresIn t).any (fun e => e.2.st == .parked) || s.pool.any fun f => f.ctx == ctx && s.partHas t f.core)
    && (s.partCores t).all s.coreAsleep && (s.msgsOf t).isEmpty && (s.partTiles t).all fun k => (s.tile k).quiet

/-- DEADLOCK_EVENT (R419): once per entry into the state. -/
def execDeadlockEvent (t : Nat) (s : State) : Out :=
  match s.resident t with
  | none => .fault .noSuchEvent
  | some ctx =>
    if t ∈ s.asleep || !s.partEn t || !s.allAsleep t ctx then .fault .noSuchEvent
    else
      let s := ({ s with asleep := s.asleep ++ [t] }).noteStatus ctx { bits := 0x01 }
      .next (s.errRec 0x32 (partCtx t ctx) [BitVec.ofNat 64 ctx, BitVec.ofNat 64 t])

/-! ## Energy (R417, R418) -/

/-- The partitions with a resident context, and the contexts. -/
def State.residents (s : State) : List (Nat × Nat) :=
  (List.range 64).filterMap fun t => if s.partEn t then (s.resident t).map fun c => (t, c) else none

/-- A core's budget after a refill (R417). A count that 32 bits cannot hold is free (log 34). -/
def State.refill (s : State) (ctx c n : Nat) : State :=
  let a : Int := (s.allot ctx c : Nat)
  s.modCore c fun r =>
    let v := min (r.ebud + a) (a * (s.regF (0x1F1000 + 16 * ctx) 8 8 : Nat))
    { r with cost := s.reg (0x1F1008 + 16 * ctx), ebud := if v < 2 ^ 31 then v else ((Config.freeWord (n + c)).setWidth 32).toInt }

/-- EBUD_REFILL (R417). -/
def execEbudRefill (s : State) : Out :=
  let n := s.fresh
  let s := { s with fresh := n + 131072 }
  .next (s.residents.foldl (fun s p => (s.partCores p.1).foldl (fun s c => s.refill p.2 c n) s) s)

/-- The allotments of a context as the power loop changes them: the lower of its values and the temperature action's applies
(R418). -/
def State.powerAllots (s : State) (v : Nat × Nat) (ctx : Nat) : State :=
  match s.thermal.get? ctx with
  | none => s.setAllots ctx v
  | some (_, c) => { s with thermal := s.thermal.insert ctx (v, c) }.setAllots ctx (min v.1 c.1, min v.2 c.2)

/-- An allotment raised by a sixteenth of its reset value, never above that. -/
def raised (reset v : Nat) : Nat := if reset ≤ v then v else min (v + reset / 16) reset

/-- The energy that the allotments of the resident contexts admit, in pJ per µs, which are microwatts (R417). -/
def State.admitted (s : State) : Nat :=
  (s.residents.map fun p => (s.partTiles p.1).length * (7 * (s.allots p.2).1 + (s.allots p.2).2)).sum

/-- The factors, in 65,536ths, of which the power loop chooses one (R418): with each the allotments admit less than 4,400 W. -/
def State.powerFactors (s : State) : Nat :=
  if s.admitted = 0 then 65536 else min 65536 ((4400000000 * 65536 - 1) / s.admitted + 1)

/-- The end of the temperature action: THERM clears, and the allotments are those of the power loop again (R418, R465, log 136). -/
def State.coolDown (s : State) : State :=
  let s := s.thermal.foldl (fun (s : State) (e : Nat × (Nat × Nat) × (Nat × Nat)) => s.setAllots e.1 e.2.1) s
  { s with thermal := [] }.setRegF 0x210100 61 1 0

/-- POWER_MEASUREMENT (R418): above 4,200 W the allotments of every resident context are lowered by one common factor, which
depends on a draw that the machine does not hold and is free among those that keep the limit; below 3,900 W they are raised when a
millisecond has passed, as a free value says. Another free value says whether the temperature action has ended by then. -/
def execPowerMeasurement (milliwatts : Nat) (s : State) : Out :=
  let (n, s) := s.takeMany 2
  let s := if s.isHot ∧ Config.freeBool (n + 1) then s.coolDown else s
  let f := (Config.freeWord n).toNat % s.powerFactors
  if 4200000 < milliwatts then
    .next (s.residents.foldl (fun s p => s.powerAllots (lowered f (s.allots p.2).1, lowered f (s.allots p.2).2) p.2) s)
  else if milliwatts < 3900000 ∧ Config.freeBool n then
    .next (s.residents.foldl (fun s p =>
      s.powerAllots (raised 0x8000 (s.powerSet p.2).1, raised 0x28000 (s.powerSet p.2).2) p.2) s)
  else .next s

end Sys2Proof.Machine
end

