-- ==== Sys2Proof/Machine/Sha.lean ====
section
/-!
DEFINITION. SHA-256 (FIPS 180-4), which the measurement registers extend by (R457, R458).
-/

namespace Sys2Proof.Machine

/-- The round constants, first half. -/
def shaK1 : List Lane :=
  [0x428A2F98#32, 0x71374491#32, 0xB5C0FBCF#32, 0xE9B5DBA5#32, 0x3956C25B#32, 0x59F111F1#32,
   0x923F82A4#32, 0xAB1C5ED5#32, 0xD807AA98#32, 0x12835B01#32, 0x243185BE#32, 0x550C7DC3#32,
   0x72BE5D74#32, 0x80DEB1FE#32, 0x9BDC06A7#32, 0xC19BF174#32, 0xE49B69C1#32, 0xEFBE4786#32,
   0x0FC19DC6#32, 0x240CA1CC#32, 0x2DE92C6F#32, 0x4A7484AA#32, 0x5CB0A9DC#32, 0x76F988DA#32,
   0x983E5152#32, 0xA831C66D#32, 0xB00327C8#32, 0xBF597FC7#32, 0xC6E00BF3#32, 0xD5A79147#32,
   0x06CA6351#32, 0x14292967#32]
/-- The round constants, second half. -/
def shaK2 : List Lane :=
  [0x27B70A85#32, 0x2E1B2138#32, 0x4D2C6DFC#32, 0x53380D13#32, 0x650A7354#32, 0x766A0ABB#32,
   0x81C2C92E#32, 0x92722C85#32, 0xA2BFE8A1#32, 0xA81A664B#32, 0xC24B8B70#32, 0xC76C51A3#32,
   0xD192E819#32, 0xD6990624#32, 0xF40E3585#32, 0x106AA070#32, 0x19A4C116#32, 0x1E376C08#32,
   0x2748774C#32, 0x34B0BCB5#32, 0x391C0CB3#32, 0x4ED8AA4A#32, 0x5B9CCA4F#32, 0x682E6FF3#32,
   0x748F82EE#32, 0x78A5636F#32, 0x84C87814#32, 0x8CC70208#32, 0x90BEFFFA#32, 0xA4506CEB#32,
   0xBEF9A3F7#32, 0xC67178F2#32]

/-- The initial hash value. -/
def shaInit : List Lane :=
  [0x6A09E667#32, 0xBB67AE85#32, 0x3C6EF372#32, 0xA54FF53A#32, 0x510E527F#32, 0x9B05688C#32,
   0x1F83D9AB#32, 0x5BE0CD19#32]

/-- The eight working variables. -/
structure ShaVars where
  a : Lane
  b : Lane
  c : Lane
  d : Lane
  e : Lane
  f : Lane
  g : Lane
  h : Lane
  deriving DecidableEq, Repr

/-- One round with its constant and its word. -/
def ShaVars.round (v : ShaVars) (k w : Lane) : ShaVars :=
  let s1 := v.e.rotateRight 6 ^^^ v.e.rotateRight 11 ^^^ v.e.rotateRight 25
  let ch := (v.e &&& v.f) ^^^ (~~~v.e &&& v.g)
  let t1 := v.h + s1 + ch + k + w
  let s0 := v.a.rotateRight 2 ^^^ v.a.rotateRight 13 ^^^ v.a.rotateRight 22
  let mj := (v.a &&& v.b) ^^^ (v.a &&& v.c) ^^^ (v.b &&& v.c)
  { a := t1 + s0 + mj, b := v.a, c := v.b, d := v.c, e := v.d + t1, f := v.e, g := v.f, h := v.g }

/-- The rounds of a block; the message schedule slides over its last 16 words. -/
def shaRounds (v : ShaVars) (ws : List Lane) : List Lane → ShaVars
  | [] => v
  | k :: ks =>
    let w := ws.headD 0
    let w1 := ws.getD 1 0
    let w14 := ws.getD 14 0
    let s0 := w1.rotateRight 7 ^^^ w1.rotateRight 18 ^^^ (w1 >>> 3)
    let s1 := w14.rotateRight 17 ^^^ w14.rotateRight 19 ^^^ (w14 >>> 10)
    shaRounds (v.round k w) (ws.drop 1 ++ [w + s0 + ws.getD 9 0 + s1]) ks

/-- The big-endian word in four bytes. -/
def beWord (bs : List Byte) : Lane := BitVec.ofNat 32 (natOfBytes (bs.take 4).reverse)

/-- The big-endian bytes of a word. -/
def beBytes (w : Lane) : List Byte := (bytesOfNat 4 w.toNat).reverse

/-- The hash value after a block of 64 bytes. -/
def shaBlock (h : List Lane) (bs : List Byte) : List Lane :=
  let ws := (List.range 16).map fun i => beWord (bs.drop (4 * i))
  let v := shaRounds
    { a := h.getD 0 0, b := h.getD 1 0, c := h.getD 2 0, d := h.getD 3 0, e := h.getD 4 0, f := h.getD 5 0,
      g := h.getD 6 0, h := h.getD 7 0 } ws (shaK1 ++ shaK2)
  List.zipWith (· + ·) h [v.a, v.b, v.c, v.d, v.e, v.f, v.g, v.h]

/-- The hash value after some blocks; `fuel` bounds them. -/
def shaBlocks (h : List Lane) : Nat → List Byte → List Lane
  | 0, _ => h
  | fuel + 1, bs => if bs.isEmpty then h else shaBlocks (shaBlock h (bs.take 64)) fuel (bs.drop 64)

/-- A message padded to whole blocks. -/
def shaPad (bs : List Byte) : List Byte :=
  let n := bs.length
  bs ++ [0x80#8] ++ List.replicate ((119 - n % 64) % 64) 0 ++ (bytesOfNat 8 (8 * n)).reverse

/-- SHA-256. -/
def sha256 (bs : List Byte) : List Byte :=
  let m := shaPad bs
  (shaBlocks shaInit (m.length / 64 + 1) m).flatMap beBytes

/-- The offset of MEAS[j]. -/
def measOff (j : Nat) : Nat := 0x216100 + 32 * j

/-- The 32 bytes of four registers from an offset on. -/
def State.regBytes (s : State) (off : Nat) : List Byte := (List.range 4).flatMap fun i => wordBytes (s.reg (off + 8 * i))

/-- The state with four registers set from 32 bytes. -/
def State.setRegBytes (s : State) (off : Nat) (bs : List Byte) : State :=
  (List.range 4).foldl
    (fun s i => s.setReg (off + 8 * i) (BitVec.ofNat 64 (natOfBytes ((bs.drop (8 * i)).take 8)))) s

/-- MEAS[j] extended by a digest (R458). -/
def State.extendMeas (s : State) (j : Nat) (d : List Byte) : State :=
  s.setRegBytes (measOff j) (sha256 (s.regBytes (measOff j) ++ d))

end Sys2Proof.Machine
end

