-- ==== Sys2Proof/Machine/Module.lean ====
section
/-!
DEFINITION. The host interface and the module's management: BAR0 accesses that complete as unsupported (R445), HSEAL and
HCB_STAT (R447, R448), MSI-X (R445), error ring and interrupt (R449, R450), the state summary (R453, R454), the scale-out
fabric's ports (R455, R456), measurement and attestation (R458, R459), trace drain (R464), gating and temperature (R465).
-/

namespace Sys2Proof.Machine

/-! ## BAR0 (R445) -/

/-- Whether an access of BAR0 is one that a register takes: 8 bytes, aligned, at a register, or 4 aligned bytes of the MSI-X
table or pending-bit array. -/
def barOk (off len : Nat) : Bool :=
  (len == 8 && off % 8 == 0 && (regName off).isSome)
    || (len == 4 && off % 4 == 0 && decide (0x300000 ≤ off) && (regName (off / 8 * 8)).isSome)

/-- BAR0_UNSUPPORTED_REQUEST (R445): any other access completes with unsupported request and has no effect. -/
def execBar0UnsupportedRequest (off len : Nat) (_write : Bool) (s : State) : Out :=
  if barOk off len then .fault .noSuchEvent else .next (s.tellHost (.bar0Unsupported off))

/-! ## HSEAL, HCB_STAT, MSI-X -/

/-- The offset of HSEAL. -/
def hsealOff : Nat := 0x210008

/-- A write to HSEAL (R447). -/
def State.writeHseal (s : State) (val : Word) : State :=
  let s := s.writeField hsealOff val
  s.hcbSeal (fld val.toNat 9 37 * 512)

/-- Whether a write to HSEAL waits at the home of its block, as a posted write does (R446): on a held page, or while MST has
reserved the block, or while the home holds every access to it (R208). -/
def State.sealWaits (s : State) (val : Word) : Bool :=
  let blk := fld val.toNat 9 37 * 512
  s.isHeld blk || s.reserved blk || s.wakeStuck blk

/-- HSEAL (R447). -/
def execHseal (val : Word) (s : State) : Out :=
  barWrite hsealOff val (fun s =>
    if s.sealWaits val then .next (s.hostArrives (sysBase + hsealOff) 8 (some (wordBytes val)) true)
    else .next (s.writeHseal val)) s

/-- HCB_STAT (R448): a read returns the open entries and DISC, which clears. -/
def execHcbStat (s : State) : Out := barRead hcbStatOff s

/-- A write to the second word of an MSI-X table entry (R445): unmasking sends a pending message. -/
def State.writeMsixData (s : State) (v : Nat) (val : Word) : State :=
  let s := s.writeField (0x300008 + 16 * v) val
  let pba := 0x308000 + v / 64 * 8
  if s.regF (0x300008 + 16 * v) 32 1 = 0 ∧ s.regF pba (v % 64) 1 = 1 then (s.setRegF pba (v % 64) 1 0).msix v else s

/-- MSIX_UNMASK (R445): the host clears the mask bit of a vector. -/
def execMsixUnmask (vec : Nat) (s : State) : Out :=
  if 2048 ≤ vec then .fault .noSuchEvent
  else
    let off := 0x300008 + 16 * vec
    let val := withField (s.reg off) 32 1 0
    barWrite off val (fun s => .next (s.writeMsixData vec val)) s

/-! ## Error records (R449, R450) -/

/-- The offset of ERR_CFG. -/
def errCfgOff : Nat := 0x211008

/-- A write to ERR_CFG (R449): EN stays 0 with a SIZE outside 4 to 16. -/
def State.writeErrCfg (s : State) (val : Word) : State :=
  let s := s.writeField errCfgOff val
  let n := s.regF errCfgOff 56 5
  if n < 4 ∨ 16 < n then s.setRegF errCfgOff 63 1 0 else s

/-- ERR_CFG (R449). -/
def execErrCfg (acc : RegAcc) (s : State) : Out :=
  match acc with
  | .read => barRead errCfgOff s
  | .write val => barWrite errCfgOff val (fun s => .next (s.writeErrCfg val)) s

/-- ERROR_INTERRUPT (R450): while records are unread, the ring's vector is sent. -/
def execErrorInterrupt (s : State) : Out :=
  if s.regF errCfgOff 61 1 = 1 ∧ s.reg 0x211010 ≠ s.reg 0x211018 then .next (s.msix (s.regF errCfgOff 45 11)) else .next s

/-! ## The state summary (R453, R454) -/

/-- The offset of RESYNC_CTL. -/
def resyncOff : Nat := 0x212008
/-- The bytes of a summary. -/
def summaryLen : Nat := 102400

/-- The 64 bytes of a queue in a summary. -/
def State.queueSummary (s : State) (q : Nat) : List Byte :=
  padTo 64 ((List.range 7).flatMap fun i => wordBytes (s.reg (qOff q (8 * i))))

/-- The 64 bytes of a context in a summary: its status record, its image, its residence. -/
def State.ctxSummary (s : State) (c : Nat) : List Byte :=
  let a := s.regF (0x1F6000 + 8 * c) 6 40 * 64
  let rec_ := if a = 0 then List.replicate 48 0 else s.bytes a 48
  let last := match s.partWith c with
    | some t => 128 + t
    | none => 0
  padTo 64 (rec_ ++ wordBytes (s.reg (imgOff c)) ++ bytesOfNat 1 last)

/-- The minimum security version number (R457): that of the fuses, as images have raised it. -/
def State.floorSvn (s : State) : Nat := max Config.fusedSvn s.minSvn

/-- The bytes of a summary, as the machine is now (R454). -/
def State.summaryBytes (s : State) : List Byte :=
  padTo 0x40 ([0x213000, 0x210100, errCfgOff, 0x211010, 0x211018, larkStatOff].flatMap fun o => wordBytes (s.reg o))
    ++ padTo 0x1C0 (padTo 0x20 (wordBytes s.fwVersion ++ bytesOfNat 8 s.floorSvn)
      ++ (List.range 4).flatMap fun j => s.regBytes (measOff j))
    ++ padTo 0xE00 ((List.range 64).flatMap fun t => wordBytes (s.reg (partOff t)))
    ++ (List.range 512).flatMap s.queueSummary ++ (List.range 1024).flatMap s.ctxSummary

/-- A write to RESYNC_CTL (R453): GO starts a summary, or is refused. -/
def State.writeResync (s : State) (val : Word) : State :=
  let go := s.regF resyncOff 63 1
  let s := (s.writeField resyncOff val).setRegF resyncOff 63 1 go
  if !val.getLsbD 63 then s
  else if go = 1 || decide (fld val.toNat 0 32 < summaryLen) then s.setRegF resyncOff 61 1 1
  else { s with summary := some s.summaryBytes }.setRegF resyncOff 63 1 1

/-- RESYNC_CTL (R453). A write of it while a summary runs waits as every host register write does (R454). -/
def execResyncCtl (val : Word) (s : State) : Out := barWrite resyncOff val (fun s => .next (s.writeResync val)) s

/-- RESYNC_DONE (R454): the summary has been written; then the records and register writes that waited for it. -/
def execResyncDone (s : State) : Out :=
  match s.summary with
  | none => .fault .noSuchEvent
  | some bs =>
    let s := { s with summary := none }.setHostBytes (s.regF 0x212000 6 58 * 64) bs
    let s := (s.setRegF resyncOff 63 1 0).setRegF resyncOff 62 1 1
    let held := s.errHeld
    let s := held.foldl (fun s r => s.errNow r.kind (r.rc.map fun p => { ctx := p.1, tenant := p.2 }) r.payload (some r.time))
      { s with errHeld := [] }
    .next s.pumpHost

/-! ## The scale-out fabric (R455, R456) -/

/-- The offset of FAB_ID. -/
def fabIdOff : Nat := 0x213000
/-- The offset of FAB_PORT[i]. -/
def portOff (i : Nat) : Nat := 0x213100 + 8 * i

/-- A write to FAB_ID (R455): ignored while LOCK is 1. -/
def State.writeFabId (s : State) (val : Word) : State :=
  if s.regF fabIdOff 63 1 = 1 then s else s.writeField fabIdOff val

/-- FAB_ID (R455). -/
def execFabId (val : Word) (s : State) : Out := barWrite fabIdOff val (fun s => .next (s.writeFabId val)) s

/-- FAB_PORT (R455): a read returns the port's state and clears its count, which has grown by a free number (log 155). -/
def execFabPort (i : Nat) (s : State) : Out := if i < 16 then barRead (portOff i) s else .fault .noSuchEvent

/-- FABRIC_PORT_TRAINED (R455): an enabled port's link is up; accesses held for want of a port replay (R456). -/
def execFabricPortTrained (i peer : Nat) (s : State) : Out :=
  if 16 ≤ i ∨ 1024 ≤ peer ∨ s.regF (portOff i) 63 1 = 0 ∨ s.regF (portOff i) 62 1 = 1 then .fault .noSuchEvent
  else .next (((s.setRegF (portOff i) 62 1 1).setRegF (portOff i) 32 10 peer).releaseHolds fun p => decide (fabricHold 0 ≤ p))

/-- FABRIC_PORT_DOWN (R456). -/
def execFabricPortDown (i : Nat) (s : State) : Out :=
  if 16 ≤ i ∨ s.regF (portOff i) 62 1 = 0 then .fault .noSuchEvent
  else
    let s := s.setRegF (portOff i) 62 1 0
    .next (s.errRec 0x41 none [BitVec.ofNat 64 i, BitVec.ofNat 64 (s.regF (portOff i) 32 10)])

/-! ## Measurement and attestation (R458, R459) -/

/-- A write to a word of MEAS_EXT: that of the last 8 bytes extends MEAS[3] (R458). -/
def State.writeMeasExt (s : State) (i : Nat) (val : Word) : State :=
  let s := s.setReg (0x216200 + 8 * i) val
  if i = 3 then s.extendMeas 3 (s.regBytes 0x216200) else s

/-- MEAS_EXT (R458): its last 8 bytes are written. -/
def execMeasExt (val : Word) (s : State) : Out := barWrite 0x216218 val (fun s => .next (s.writeMeasExt 3 val)) s

/-- The offset of ATT_CTL. -/
def attCtlOff : Nat := 0x216028

/-- The first 200 bytes of a report (R459). How its bytes 160 to 167 hold the part number and the fused minimum is free
(log 31). -/
def State.reportHead (s : State) : List Byte :=
  s.regBytes 0x216000 ++ (List.range 4).flatMap (fun j => s.regBytes (measOff j))
    ++ wordBytes (Config.fuseWord Config.partNumber s.floorSvn) ++ (padTo 32 Config.attKey).take 32

/-- A write to ATT_CTL (R459): bit 63 starts a report, and is ignored while one is being made. -/
def State.writeAttCtl (s : State) (val : Word) : State :=
  let s := s.writeField attCtlOff val
  if !val.getLsbD 63 || s.regF attCtlOff 63 1 == 1 then s
  else
    { s with report := some s.reportHead }.setRegF attCtlOff 63 1 1

/-- ATT_CTL (R459). -/
def execAttCtl (val : Word) (s : State) : Out := barWrite attCtlOff val (fun s => .next (s.writeAttCtl val)) s

/-- ATTESTATION_DONE (R459): the report and its signature have been written. -/
def execAttestationDone (s : State) : Out :=
  match s.report with
  | none => .fault .noSuchEvent
  | some head =>
    let bs := head ++ (padTo 7856 (Config.attSign head)).take 7856
    let s := { s with report := none }.setHostBytes (s.regF 0x216020 6 58 * 64) bs
    .next ((s.setRegF attCtlOff 63 1 0).setRegF attCtlOff 62 1 1)

/-! ## Trace drain (R462, R464) -/

/-- A trace record written into its context's ring segment of a tile; a context whose trace has been disabled has none. -/
def State.drainRec (s : State) (t : Nat) (r : Nat × Word × Word) : State :=
  let off := 0x228000 + 16 * r.1
  let seg := s.regF off 0 5
  if seg < 12 then s
  else
    let b := s.traceBuf t
    let pos := b.pos.getD r.1 0
    let a := s.regF (off + 8) 12 34 * 4096 + t * 2 ^ seg + pos % 2 ^ seg
    let s := s.performWrite 0 a (wordBytes r.2.1 ++ wordBytes r.2.2)
    s.setTrace t { s.traceBuf t with pos := b.pos.insert r.1 (pos + 16) }

/-- The oldest records of a tile's buffer drained. -/
def State.drainTrace (s : State) (t n : Nat) : State :=
  let b := s.traceBuf t
  (b.recs.take n).foldl (fun s r => s.drainRec t r) (s.setTrace t { b with recs := b.recs.drop n })

/-- TRACE_DRAIN (R464): 2 KiB of a buffer that is half full. -/
def execTraceDrain (tile : Nat) (s : State) : Out :=
  if (s.traceBuf tile).recs.length < 128 then .fault .noSuchEvent else .next (s.drainTrace tile 128)

/-! ## Power and temperature (R464, R465) -/

/-- Whether an enabled partition holds a tile. -/
def State.tileUsed (s : State) (tile : Nat) : Bool := (s.partOf (tileCore tile 0)).isSome

/-- A tile's trace buffer discarded: the next record written is a loss marker with the count (R464). -/
def State.discardTrace (s : State) (tile : Nat) : State :=
  let b := s.traceBuf tile
  s.setTrace tile { b with recs := [], lost := b.lost + b.recs.length }

/-- TILE_POWER_GATE (R464, R465): a tile that no partition uses is gated once its trace buffer has drained, or 2 µs later with
what is left of it lost, as a free value says. -/
def execTilePowerGate (tile : Nat) (s : State) : Out :=
  if 16384 ≤ tile || s.tileUsed tile || (s.tile tile).gated then .fault .noSuchEvent
  else
    let (n, s) := s.takeFresh
    let s := if Config.freeBool n then s.drainTrace tile 256 else s.discardTrace tile
    .next (s.modTile tile fun k => { k with gated := true })

/-- THERMAL_THROTTLE (R465): the allotments are lowered by a factor that is free, and THERM is set. -/
def execThermalThrottle (s : State) : Out :=
  let (n, s) := s.takeFresh
  let f := (Config.freeWord n).toNat % 65536
  let s := s.residents.foldl (fun s p => s.throttle f p.2) s
  .next (s.setRegF 0x210100 61 1 1)

/-- A tile gated in an emergency: its trace buffer is discarded. -/
def State.gateTile (s : State) (tile : Nat) : State :=
  (s.discardTrace tile).modTile tile fun k => { k with gated := true }

/-- THERMAL_EMERGENCY (R465): the hottest tiles are gated, record 0x43 is sent, and each partition that loses a tile is killed, which
none is while a state summary runs (R454). -/
def execThermalEmergency (tiles : List Nat) (s : State) : Out :=
  if tiles.isEmpty || tiles.any fun t => decide (16384 ≤ t) then .fault .noSuchEvent
  else if s.summary.isSome then .next s
  else
    let s := tiles.foldl State.gateTile s
    let s := s.errRec 0x43 none [BitVec.ofNat 64 tiles.eraseDups.length]
    .next (s.residents.foldl (fun s p =>
      if tiles.any fun t => s.partHas p.1 (tileCore t 0) then s.startKill p.1 { ctx := p.2, reason := 6 } else s) s)

/-! ## Module reset (R457) -/

/-- The state that a module reset leaves before bring-up: the fuses, the host's memory and what the host has been sent stay. -/
def State.rebooted (s : State) : State :=
  { State.reset with
    plan := s.plan, fresh := s.fresh, hostMem := s.hostMem, toHost := s.toHost, hostReqs := s.hostReqs, minSvn := s.minSvn }

/-- Whether the boot ROM accepts an image (R457). -/
def State.accepts (s : State) (img : FwImage) : Bool :=
  sha256 img.pubKey == Config.fusedDigest && Config.slhVerify img.pubKey img.body img.signature && decide (s.floorSvn ≤ img.svn)

/-- MODULE_RESET (R457, R465): a verified image brings the module up to READY; a refused one leaves FWERR. Whether the image
raises the minimum, and what device firmware MEAS[1] has measured, is free. -/
def execModuleReset (img : FwImage) (s : State) : Out :=
  let s := s.rebooted
  if !s.accepts img then .next (s.setRegF 0x210100 62 1 1)
  else
    let (n, s) := s.takeMany 40
    let s := (s.extendMeas 0 (sha256 img.body)).setRegBytes (measOff 1) (freeBytes (n + 1) 32)
    let s := { s with fwVersion := img.version, minSvn := if Config.freeBool n then max s.minSvn img.svn else s.minSvn }
    .next (s.setRegF 0x210100 63 1 1)

end Sys2Proof.Machine
end

