-- ==== Sys2Proof/Machine/Arrive.lean ====
section
/-!
DEFINITION. Accesses at their homes and what comes back: HOME_ACCESS, COMMIT, ACCESS_REPLY, ACKNOWLEDGEMENT (R191, R196,
R212, R218, R235), arithmetic results (R270), waits for the block-assembly buffer (R193), hold timeouts (R144), and writes of
registers (R8, R445).
-/

namespace Sys2Proof.Machine

/-! ## Register writes -/

/-- A write of a system register with everything that its rules say a write does. -/
def State.writeReg (s : State) (off : Nat) (val : Word) : State :=
  match regName off with
  | none => s
  | some r =>
    match r with
    | .poolExt i => s.writePoolExt i val
    | .poolRel => s.writePoolRel val
    | .spareAdd => s.writeSpareAdd val
    | .pptSet => s.writePptSet val
    | .pptBase => s.writePptBase val
    | .moveCtl => s.writeMoveCtl val
    | .zinCtl => s.writeZinCtl val
    | .qBase q | .qRd q => if s.qEn q then s else s.writeField off val
    | .qCfg q => s.writeQCfg q val
    | .qWr q => s.writeQWr q val
    | .part t => s.writePart t val
    | .ebudCfg _ => if fld val.toNat 8 8 = 0 then s.writeField off (withField val 8 8 (s.regF off 8 8)) else s.writeField off val
    | .larkCtl => s.writeLarkCtl val
    | .hseal => s.writeHseal val
    | .errCfg => s.writeErrCfg val
    | .resyncCtl => s.writeResync val
    | .fabId => s.writeFabId val
    | .measExt i => s.writeMeasExt i val
    | .attCtl => s.writeAttCtl val
    | .msixData v => s.writeMsixData v val
    | _ => s.writeField off val

/-- A write of one aligned half of a register of the MSI-X table or pending-bit array: the other half keeps its value (R445). -/
def State.writeHalf (s : State) (off : Nat) (val : Word) : State :=
  s.writeReg (off / 8 * 8) (withField (s.reg (off / 8 * 8)) (off % 8 * 8) 32 (fld val.toNat 0 32))

/-- REGISTER_WRITE (R8, R445): the host writes a register through BAR0. -/
def execRegisterWrite (off : Nat) (val : Word) (s : State) : Out :=
  if (regName off).isNone then .fault .noSuchEvent
  else if off = hsealOff then execHseal val s
  else barWrite off val (fun s => .next (s.writeReg off val)) s

/-- A half of a register of the MSI-X table or pending-bit array written through BAR0 (R445). -/
def barWriteHalf (off : Nat) (val : Word) (s : State) : Out :=
  if !s.isReady then .next s
  else if s.hostBehind || s.summary.isSome then .next (s.hostArrives (sysBase + off) 4 (some ((wordBytes val).take 4)) true)
  else .next (s.writeHalf off val)

/-- An access of the host to BAR0 (R445): a read, or a write, of a register or of a half that may be accessed alone; any other
completes as unsupported. -/
def barAccess (off n : Nat) (data : Option Word) (s : State) : Out :=
  if !barOk off n then .next (s.tellHost (.bar0Unsupported off))
  else
    match data with
    | none => barRead off s n
    | some v => if n = 4 then barWriteHalf off v s else execRegisterWrite off v s

/-! ## Accesses at their homes (R218) -/

/-- A read at its home: its data is on its way, which may be superseded (R230), or its record waits in the block. -/
def State.homeRead (s : State) (k : Nat) (a : Acc) (dst : Dst) : State :=
  if s.extentGone a then s.putMsg k (.reply a.owner dst [] .absent)
  else
    match a.owner, dst with
    | .mma t, .row i => s.homeRow k a t i
    | _, _ =>
      match s.performRead a dst with
      | (s, some (.reply o d data .none)) =>
        let (data, s) := s.pickVersion a data
        s.putMsg k (.reply o d data .none)
      | (s, some m) => s.putMsg k m
      | (s, none) =>
        let s := s.dropMsg k
        match a.owner with
        | .port c sp e => s.modPort c (Fin.ofNat 4 sp) fun p => { p with queued := p.queued.insert e a.pa }
        | _ => s

/-- A read of a register at its home (R8). -/
def State.homeSysRead (s : State) (k : Nat) (a : Acc) (xd : XR) : State :=
  let off := sysOff a.pa
  let (v, s) := s.readReg (off / 8 * 8)
  match a.owner with
  | .fibre c j => s.putMsg k (.fill c j xd v .none none)
  | .host _ => ((s.dropMsg k).tellHost (.bar0 off (halfOf off a.len v))).pumpHost
  | _ => s.dropMsg k

/-- Whether a write of a register can change the state of a queue or a partition: those of PART, of the queues and of LARK_CTL. -/
def changesParts (off : Nat) : Bool :=
  match regName (off / 8 * 8) with
  | some r => (match r with
    | .part _ | .larkCtl => true
    | _ => decide (0x1E0000 ≤ off) && decide (off < 0x1E0000 + 0x40 * 512))
  | none => false

/-- A write of a register at its home. While a state summary runs, no queue or partition changes state (R454). -/
def State.homeSysWrite (s : State) (k : Nat) (a : Acc) (val : Word) : State :=
  let off := sysOff a.pa
  if (off = hsealOff ∧ s.sealWaits val) ∨ (s.summary.isSome ∧ changesParts off) then s
  else
    let s := if a.len = 4 then s.writeHalf off val else s.writeReg off val
    match a.owner with
    | .host _ => (s.dropMsg k).pumpHost
    | o => s.putMsg k (.ack o)

/-- The address that the refusal of a write reports: that of a pushed line is physical (R243). -/
def Acc.lostVa (a : Acc) : Word :=
  match a.owner with
  | .push _ => BitVec.ofNat 64 (a.pa / 64 * 64 % 2 ^ 56)
  | _ => a.va

/-- A write of bytes at its home. Bytes for an extent that is gone, or for a block that has become RETIRED on the way, change
nothing, and the home answers so: a bundle that still waits for the write, a PUSH or a SAVEM, traps, an output port keeps the cause,
and a store whose bundle has retired has nobody left to learn of it (R97, R108; DESIGN CHOICE, log 126). Another package's home
takes the bytes (log 8). -/
def State.homeWrite (s : State) (k : Nat) (a : Acc) (data : List Byte) : State :=
  if a.far then s.putMsg k (.ack a.owner)
  else
    let t := if s.extentGone a then s else s.performWrite a.tid a.pa data
    match t.writeLost a with
    | 0 => (t.noteVersion (s.versions a.pa) a data).putMsg k (.ack a.owner)
    | n => t.putMsg k (.answer a.owner n a.lostVa)

/-- What an access does at its home. -/
def State.homeDo (s : State) (k : Nat) (a : Acc) : State :=
  let s := s.hearAcc a
  match a.op with
  | .read dst => s.homeRead k a dst
  | .write data => s.homeWrite k a data
  | .atomic op sz operand xd mg =>
    if s.extentGone a then (match a.owner with
      | .fibre c j => s.putMsg k (.fill c j xd 0 .absent none)
      | _ => s.dropMsg k)
    else s.homeAtomic k a op sz operand xd mg
  | .sysRead xd => s.homeSysRead k a xd
  | .sysWrite val => s.homeSysWrite k a val
  | .decj sz xd blk =>
    if a.ty = .once then (if s.reserved a.pa || s.joinWaits k a then s else s.homeJoin k a xd)
    else if s.extentGone a then (match a.owner with
      | .fibre c j => s.putMsg k (.fill c j xd 0 .absent none)
      | _ => s.dropMsg k)
    else s.homeDecj k a sz xd blk
  | .mstCommit c inOrder => s.homeMst k a c inOrder
  | .mstWrite rows bound maxe whole => s.homeMstWrite k a rows bound maxe whole
  | .chanRead => match a.owner with
    | .channel t conv p => s.chanRead k t conv p
    | _ => s.dropMsg k
  | .chanWrite => match a.owner with
    | .channel t conv p => s.chanWrite k t conv p
    | _ => s.dropMsg k
  | .commit _ | .cancel .. | .chanEnd | .dimus .. | .await => s

/-- Whether an access waits at its home: the home holds every access to the block (R208), or keeps the access back while its
page is held (R143, R243). -/
def State.homeWaits (s : State) (a : Acc) : Bool := s.wakeStuck (blkOf a.pa) || (a.late && s.isHeld a.pa)

/-- Whether an access waits at its home; that of a pushed line in another package keeps it back or takes it, which is free (R136,
log 8). -/
def State.homeKeeps (s : State) (a : Acc) : Bool × State :=
  if a.late && a.far then
    match s.farAnswer with
    | (.hold, s) => (true, s)
    | (_, s) => (false, s)
  else (s.homeWaits a, s)

/-- HOME_ACCESS (R218): an access is performed at its home, unless it must wait there. -/
def execHomeAccess (k : Nat) (s : State) : Out :=
  match s.net.get? k with
  | some (.req a) =>
    match a.op with
    | .commit _ | .cancel .. | .chanEnd | .dimus .. => .fault .noSuchEvent
    | _ =>
      let go (s : State) : Out :=
        match s.homeKeeps a with
        | (true, s) => .next s
        | (false, s) => .next (s.homeDo k a).settle
      if a.tap.isNone then go s else overPlane k go s
  | _ => .fault .noSuchEvent

/-- COMMIT (R191, R196): a commit is performed at the block's home, which answers. One waits while MST has reserved the block
(R324), and while the home holds every access to it (R208). -/
def execCommit (k : Nat) (s : State) : Out :=
  match s.net.get? k with
  | some (.req a) =>
    match a.op with
    | .commit c =>
      if s.reserved a.pa || s.wakeStuck (blkOf a.pa) then .next s
      else
        let (s, code) := if a.far then s.farCommit else s.performCommit a.pa c
        .next (s.putMsg k (.answer a.owner code a.va)).settle
    | _ => .fault .noSuchEvent
  | _ => .fault .noSuchEvent

/-! ## What comes back -/

/-- The failure that an answer or a reply brings to a bundle that waits for message `k`: the first counts. -/
def State.failWait (s : State) (c j k cause : Nat) (va : Word) : State :=
  s.modFib c j fun f => match f.resume with
    | .stage n ids none => if k ∈ ids then { f with resume := .stage n ids (some (cause, va)) } else f
    | _ => f

/-- Whether a fibre's bundle waits for message `k`. -/
def Fibre.awaits (f : Fibre) (k : Nat) : Bool :=
  match f.resume with
  | .stage _ ids _ => decide (k ∈ ids)
  | .none => false

/-- The reply of a read at the fibre of a slot: a LOADM that meets a flag traps (R433), any other register is filled, with the
flag if there is one (R212), and an element of an output port that is whole is stored. The last lanes of one that cannot go
yet wait (R193, R231). -/
def State.fibreReply (s : State) (k c j : Nat) (dst : Dst) (data : List Byte) (fl : RFlag) : State :=
  if fl ≠ .none ∧ (s.fib c j).awaits k then (s.dropMsg k).failWait c j k fl.cause 0
  else
    match dst with
    | .v vd lanes _ =>
      if s.loadWaits c vd lanes then s
      else ((s.dropMsg k).fillDst c j dst data fl).lanesArrive c vd lanes fl
    | _ => (s.dropMsg k).fillDst c j dst data fl

/-- A value at the x register that it is for (R212, R398); then an atomic with .m may migrate. A SHIPR, which waits for its reply,
traps with the flag that it brings, and its register has its old value again (R36, R118). -/
def State.fillReply (s : State) (k c j : Nat) (xd : XR) (val : Word) (fl : RFlag) (mig : Option Nat) : State :=
  if fl ≠ .none ∧ (s.fib c j).awaits k then
    let x := (s.fib c j).x.get xd
    ((s.dropMsg k).modFib c j (·.fill xd x.val)).failWait c j k fl.cause x.va
  else
  let s := if fl = .none then s.modFib c j (·.fill xd val) else s.modFib c j fun f => f.flagged xd fl (f.x.get xd).va
  match mig with
  | some dest => s.tryMove k c j dest
  | none => s.dropMsg k

/-- Where a fibre is that done= or res= fills (R253, R391). -/
inductive Whereabouts where
  | slot (c j : Nat)
  | moving
  | gone
  deriving DecidableEq, Repr

/-- A fibre by its TID, in its slot or where it has migrated in its partition: there its register must be EMPTY. -/
def State.whereIs (s : State) (c j : Nat) (tid : BitVec 48) (xd : XR) : Whereabouts :=
  let here := s.fib c j
  if here.st ≠ .free ∧ here.st ≠ .transit ∧ here.tid = tid then .slot c j
  else
    match s.fibres.find? fun e =>
      e.2.st != .free && e.2.st != .transit && e.2.tid == tid && s.samePart c (e.1 / 256) && !(e.2.x.get xd).full with
    | some e => .slot (e.1 / 256) (e.1 % 256)
    | none =>
      let ctx := (s.core c).ctxid.toNat
      let mine (t : Travel) : Bool := t.ctx == ctx && t.f.tid == tid
      if s.pool.any mine || s.net.any fun m => match m.2 with
        | .travel t => mine t
        | _ => false
      then .moving else .gone

/-- The fill of a register named by done= or res=: it follows its fibre, and is dropped when that has ended. What reads it is an acquire
(R220, R237). -/
def State.doneReply (s : State) (k c j : Nat) (tid : BitVec 48) (xd : XR) (val : Word) : State :=
  match s.whereIs c j tid xd with
  | .slot c j => ((s.dropMsg k).hear c j).modFib c j (·.fill xd val)
  | .moving => s
  | .gone => s.dropMsg k

/-- ACCESS_REPLY (R212, R218, R253): data or a value arrives at its reader. -/
def execAccessReply (k : Nat) (s : State) : Out :=
  match s.net.get? k with
  | some (.reply (.fibre c j) dst data fl) => .next (s.fibreReply k c j dst data fl).settle
  | some (.reply (.port c sp e) dst data fl) => .next ((s.dropMsg k).elemArrives c sp e dst data fl)
  | some (.reply (.mma t) (.row i) _ fl) => .next (s.rowReply k t i fl)
  | some (.reply ..) => .next (s.dropMsg k)
  | some (.fill c j xd val fl mig) => .next (s.fillReply k c j xd val fl mig).settle
  | some (.done c j tid xd val) => overPlane k (fun s => .next (s.doneReply k c j tid xd val).settle) s
  | _ => .fault .noSuchEvent

/-- The cause that an answer of a home brings: a second write, a RETIRED block (R196), or an extent that is gone (R108). -/
def answerCause (code : Nat) : Nat := if code = 1 then 0x07 else if code = 3 then 0x03 else 0x09

/-- An answer of a home at its owner: one that refuses fails the bundle that waits for it, or stands in the status of the output
port whose element it was (R196, R243, R304). -/
def State.answerTo (s : State) (k : Nat) (o : Owner) (code : Nat) (va : Word) : State :=
  if code = 0 then s
  else
    match o with
    | .fibre c j => s.failWait c j k (answerCause code) va
    | .push c => ((s.fibresOf c).filter fun e => e.2.awaits k).foldl (fun s e => s.failWait c e.1 k (answerCause code) va) s
    | .port c sp _ => s.modPort c (Fin.ofNat 4 sp) fun p => if p.bound then { p with cause := answerCause code } else p
    | _ => s

/-- ACKNOWLEDGEMENT (R196, R218): an acknowledgement, or a home's answer to a commit, arrives. -/
def execAcknowledgement (k : Nat) (s : State) : Out :=
  match s.net.get? k with
  | some (.ack _) => .next (s.dropMsg k).settle
  | some (.answer o code va) => .next ((s.answerTo k o code va).dropMsg k).settle
  | _ => .fault .noSuchEvent

/-- ARITHMETIC_RESULT (R270): a result is written to its register, with its flags. -/
def execArithmeticResult (k : Nat) (s : State) : Out :=
  match s.net.get? k with
  | some (.arithX c j xd val fl) => .next ((s.applyArith (.arithX c j xd val fl)).dropMsg k).settle
  | some (.arithV c j vd lanes vals fl) => .next ((s.applyArith (.arithV c j vd lanes vals fl)).dropMsg k).settle
  | _ => .fault .noSuchEvent

/-! ## The end of waits -/

/-- BLOCK_ASSEMBLY_RESUME (R193): a fibre that waits for an entry of its core's buffer goes on once there is one. -/
def execBlockAssemblyResume (core slot : Nat) (s : State) : Out :=
  if (s.fib core slot).need ≠ .assembly then .fault .noSuchEvent
  else if 8 ≤ (s.core core).bab.length then .next s
  else .next (s.wakeWhere fun c k f => c == core && k == slot && f.need == .assembly)

/-- A line for which a PUSH waits and which its home keeps back, by its physical address (R243). Whether another package's home
keeps one back is free: it does where the timeout comes (R136, log 8). -/
def State.heldLine (s : State) (k : Nat) : Option Word :=
  match s.net.get? k with
  | some (.req a) => if a.late && (a.far || s.isHeld a.pa) then some a.lostVa else none
  | _ => none

/-- The address whose hold a fibre waits for: that of its own access, or of a line of its PUSH (R143, R243). -/
def State.holdOf (s : State) (f : Fibre) : Option Word :=
  match f.need, f.resume with
  | .hold _ va, _ => some va
  | .gone ids, _ | .performed ids, _ => ids.findSome? s.heldLine
  | _, _ => none

/-- The trap of a fibre whose access has been held too long (R144). -/
def State.holdTrap (s : State) (c k : Nat) (va : Word) : State :=
  let old := s.cur
  let s := (s.modFib c k Fibre.ready).rearm c
  let s := { s with cur := { core := c, slot := k } }
  { s.trapEntry false 0x17 va with cur := old }

/-- HOLD_TIMEOUT (R144, R446): an access that has been held too long ends. -/
def execHoldTimeout (h : Held) (s : State) : Out :=
  match h with
  | .fibre c k => match s.holdOf (s.fib c k) with
    | some va => .next (s.holdTrap c k va)
    | none => .fault .noSuchEvent
  | .port c sp =>
    let sp : Fin 4 := Fin.ofNat 4 sp
    let p := s.port c sp
    match p.held with
    | some (_, va) => .next ((s.setPort c sp { p with held := none }).failPort c sp p.asked va 0x17)
    | none => .fault .noSuchEvent
  | .channel t conv p => match (s.chan t conv p).wait with
    | .hold _ va => .next (s.chanFail t conv p 0x17 va)
    | _ => .fault .noSuchEvent
  | .host k =>
    match s.hostHeld.find? fun w => w.k == k && w.data.isNone && !w.reg && s.isHeld w.pa with
    | none => .fault .noSuchEvent
    | some w =>
      let s := { s with hostHeld := s.hostHeld.filter fun o => o.k != w.k }
      .next (s.tellHost (.abort k)).pumpHost

end Sys2Proof.Machine
end

