-- ==== Sys2Proof/Machine/Alu.lean ====
section
/-!
DEFINITION. Integer arithmetic at the operating width (R275, R280 to R282) as functions of the operands.
-/

namespace Sys2Proof.Machine

/-- An operation at the operating width: .w on bits 31:0 with the result sign-extended, .d on all bits (R275). -/
def onWd (sz : Wd) (f : (n : Nat) → BitVec n → BitVec n → BitVec n) (a b : Word) : Word :=
  match sz with
  | .w => (f 32 (a.setWidth 32) (b.setWidth 32)).signExtend 64
  | .d => f 64 a b

/-- A result of the operands cut to the operating width that is not extended (R275). -/
def cutWd {α : Type} (sz : Wd) (f : (n : Nat) → BitVec n → BitVec n → α) (a b : Word) : α :=
  match sz with
  | .w => f 32 (a.setWidth 32) (b.setWidth 32)
  | .d => f 64 a b

/-- MULH: the upper half of the signed or unsigned product (R280). -/
def aluMulh (u : Bool) (n : Nat) (a b : BitVec n) : BitVec n :=
  if u then BitVec.ofNat n (a.toNat * b.toNat / 2 ^ n) else BitVec.ofInt n (a.toInt * b.toInt / 2 ^ n)

/-- SHL (R280). -/
def aluShl (n : Nat) (a b : BitVec n) : BitVec n := a <<< (b.toNat % n)
/-- SHR (R280). -/
def aluShr (n : Nat) (a b : BitVec n) : BitVec n := a >>> (b.toNat % n)
/-- SRA (R280). -/
def aluSra (n : Nat) (a b : BitVec n) : BitVec n := a.sshiftRight (b.toNat % n)
/-- ROL (R280). -/
def aluRol (n : Nat) (a b : BitVec n) : BitVec n :=
  let k := b.toNat % n
  (a <<< k) ||| (a >>> (n - k))

/-- Whether a is below b, signed or unsigned. -/
def aluLess (u : Bool) (n : Nat) (a b : BitVec n) : Bool := if u then a.ult b else a.slt b

/-- MIN (R280). -/
def aluMin (u : Bool) (n : Nat) (a b : BitVec n) : BitVec n := if aluLess u n b a then b else a
/-- MAX (R280). -/
def aluMax (u : Bool) (n : Nat) (a b : BitVec n) : BitVec n := if aluLess u n a b then b else a

/-- DIV of a nonzero divisor: the quotient truncated toward zero (R281). -/
def aluDiv (u : Bool) (n : Nat) (a b : BitVec n) : BitVec n :=
  if u then BitVec.ofNat n (a.toNat / b.toNat) else BitVec.ofInt n (a.toInt.tdiv b.toInt)
/-- REM of a nonzero divisor: the remainder with the dividend's sign (R281). -/
def aluRem (u : Bool) (n : Nat) (a b : BitVec n) : BitVec n :=
  if u then BitVec.ofNat n (a.toNat % b.toNat) else BitVec.ofInt n (a.toInt.tmod b.toInt)

/-- The number of 1 bits among the low `n` bits of a number. -/
def popCount : Nat → Nat → Nat
  | 0, _ => 0
  | n + 1, v => v % 2 + popCount n (v / 2)

/-- The number of 0 bits below the lowest 1 bit, `n` when there is none. -/
def trailZeros : Nat → Nat → Nat
  | 0, _ => 0
  | n + 1, v => if v % 2 = 1 then 0 else trailZeros n (v / 2) + 1

/-- CLZ (R280). -/
def aluClz (n : Nat) (a : BitVec n) : Nat := n - bitLen a.toNat
/-- CTZ (R280). -/
def aluCtz (n : Nat) (a : BitVec n) : Nat := trailZeros n a.toNat
/-- POPC (R280). -/
def aluPopc (n : Nat) (a : BitVec n) : Nat := popCount n a.toNat

/-- The bits from which SEXT and ZEXT extend (R280). -/
def ExtFrom.bits : ExtFrom → Nat
  | .b => 8 | .h => 16 | .w => 32

/-- SEXT (R280). -/
def aluSext (e : ExtFrom) (a : Word) : Word := (a.setWidth (ExtFrom.bits e)).signExtend 64
/-- ZEXT (R280). -/
def aluZext (e : ExtFrom) (a : Word) : Word := (a.setWidth (ExtFrom.bits e)).setWidth 64

/-- The shift that SHI names, by an amount (R282). -/
def aluShift (op : ShOp) (n : Nat) (a b : BitVec n) : BitVec n :=
  match op with
  | .shl => aluShl n a b
  | .shr => aluShr n a b
  | .sra => aluSra n a b
  | .rol => aluRol n a b

/-- The immediate operand of R282: imm19 sign-extended. -/
def imm19 (i : BitVec 19) : Word := i.signExtend 64

end Sys2Proof.Machine
end

