-- ==== Sys2Proof/Machine/Control.lean ====
section
/-!
DEFINITION. NOPC, branches, jumps and calls, and the constants MOVI and MOVHI (R276 to R279).
-/

namespace Sys2Proof.Machine

/-- A relative target (R33): the bundle's address plus a signed bundle offset, modulo 2^48. -/
def relTarget {n : Nat} (pc : Pc) (off : BitVec n) : Pc := pc + (off.signExtend 48 <<< 3)

/-- NOPC (R276). -/
def execNopc (s : State) : Out := s.endC

/-- A branch (R277). -/
def branch (i : Instr) (off : BitVec 19) (taken : State → Bool) (s : State) : Out :=
  slotC i s fun s => if taken s then s.endJump (relTarget s.me.pc off) else s.endC

/-- BEQ (R277). -/
def execBeq (xa xb : XR) (off : BitVec 19) (s : State) : Out :=
  branch (.beq xa xb off) off (fun s => s.rx xa == s.rx xb) s
/-- BNE (R277). -/
def execBne (xa xb : XR) (off : BitVec 19) (s : State) : Out :=
  branch (.bne xa xb off) off (fun s => s.rx xa != s.rx xb) s
/-- BLT (R277). -/
def execBlt (xa xb : XR) (off : BitVec 19) (s : State) : Out :=
  branch (.blt xa xb off) off (fun s => (s.rx xa).slt (s.rx xb)) s
/-- BGE (R277). -/
def execBge (xa xb : XR) (off : BitVec 19) (s : State) : Out :=
  branch (.bge xa xb off) off (fun s => !(s.rx xa).slt (s.rx xb)) s
/-- BLTU (R277). -/
def execBltu (xa xb : XR) (off : BitVec 19) (s : State) : Out :=
  branch (.bltu xa xb off) off (fun s => (s.rx xa).ult (s.rx xb)) s
/-- BGEU (R277). -/
def execBgeu (xa xb : XR) (off : BitVec 19) (s : State) : Out :=
  branch (.bgeu xa xb off) off (fun s => !(s.rx xa).ult (s.rx xb)) s
/-- BZ (R277). -/
def execBz (xa : XR) (off : BitVec 19) (s : State) : Out := branch (.bz xa off) off (fun s => s.rx xa == 0) s
/-- BNZ (R277). -/
def execBnz (xa : XR) (off : BitVec 19) (s : State) : Out := branch (.bnz xa off) off (fun s => s.rx xa != 0) s

/-- The link value of a call: the address of the next bundle, zero-extended (R278). -/
def State.link (s : State) : Word := (s.me.pc + 8).setWidth 64

/-- J (R278). -/
def execJ (off : BitVec 25) (s : State) : Out := slotC (.j off) s fun s => s.endJump (relTarget s.me.pc off)
/-- JAL (R278). -/
def execJal (off : BitVec 25) (s : State) : Out :=
  slotC (.jal off) s fun s => (s.setX 7 s.link).endJump (relTarget s.me.pc off)
/-- JL (R278). -/
def execJl (off : BitVec 45) (s : State) : Out := slotC (.jl off) s fun s => s.endJump (relTarget s.me.pc off)
/-- CALLL (R278). -/
def execCalll (off : BitVec 45) (s : State) : Out :=
  slotC (.calll off) s fun s => (s.setX 7 s.link).endJump (relTarget s.me.pc off)
/-- JR (R278). -/
def execJr (xa : XR) (s : State) : Out :=
  slotC (.jr xa) s fun s =>
    let t := s.rx xa
    if fld t.toNat 48 16 ≠ 0 then s.endTrap false 0x03 t
    else if fld t.toNat 0 3 ≠ 0 then s.endTrap false 0x0A t
    else s.endJump (t.setWidth 48)

/-- MOVI (R279). -/
def execMovi (xd : XR) (imm : BitVec 48) (s : State) : Out :=
  slotC (.movi xd imm) s fun s => (s.setX xd (imm.signExtend 64)).endC
/-- MOVHI (R279): bits 47:0 are kept. -/
def execMovhi (xd : XR) (imm : BitVec 16) (s : State) : Out :=
  slotC (.movhi xd imm) s fun s => (s.setX xd (imm ++ (s.rx xd).setWidth 48)).endC

end Sys2Proof.Machine
end

