-- ==== Sys2Proof/Machine/Dimus.lean ====
section
/-!
DEFINITION. Dimus processors (R109 to R121): the steps of a routine, the built-in routines, a run, SHIP, SHIPR and DLOAD.
-/

namespace Sys2Proof.Machine

/-! ## Steps (R112, R113) -/

/-- Where a step takes its operand from. -/
inductive DSrc where
  | p | q
  /-- the same lane of a buffer; in REPLY, the lane at A of the step's own buffer -/
  | buf (b : Fin 4)
  /-- a constant of 14 bits, sign-extended -/
  | imm (v : BitVec 14)
  deriving DecidableEq, Repr

/-- The operations of an ALU step (R113). -/
inductive DOp where
  | mov | add | sadd | usadd | min | max | minu | maxu | and | or | xor | fadd | fmin | fmax | xacc | xout
  deriving DecidableEq, Repr

/-- The predicates of a CMP step (R112). -/
inductive DPred where
  | eq | ne | lt | ltu | flt | fle
  deriving DecidableEq, Repr

/-- A step of a routine (R112); `w` is a width in bits. -/
inductive DStep where
  | done
  | read (b : Fin 4) (n : Nat)
  | write (b : Fin 4) (n : Nat)
  | alu (op : DOp) (b : Fin 4) (w : Nat) (all : Bool) (src : DSrc)
  | cmp (p : DPred) (b : Fin 4) (w : Nat) (src : DSrc)
  | cond (sense : Bool) (skip : Nat)
  | reply (b : Fin 4) (w : Nat) (src : DSrc)
  deriving DecidableEq, Repr

/-- The operation of a code. -/
def DOp.ofCode : Nat → Option DOp
  | 0 => some .mov | 1 => some .add | 2 => some .sadd | 3 => some .usadd | 4 => some .min | 5 => some .max
  | 6 => some .minu | 7 => some .maxu | 8 => some .and | 9 => some .or | 10 => some .xor | 11 => some .fadd
  | 12 => some .fmin | 13 => some .fmax | 14 => some .xacc | 15 => some .xout | _ => none

/-- Whether an operation has a width (R113). -/
def DOp.widthOk (op : DOp) (w : Nat) : Bool :=
  match op with
  | .fadd => w == 16 || w == 32
  | .fmin | .fmax | .xacc | .xout => w == 32
  | _ => true

/-- The predicate of a code. -/
def DPred.ofCode : Nat → Option DPred
  | 0 => some .eq | 1 => some .ne | 2 => some .lt | 3 => some .ltu | 4 => some .flt | 5 => some .fle | _ => none

/-- The source of an ALU or CMP step: the fields src and arg. -/
def DSrc.ofFields (src arg : Nat) : Option DSrc :=
  match src with
  | 0 => some .p
  | 1 => some .q
  | 2 => if fld arg 0 14 = 0 then some (.buf (Fin.ofNat 4 (fld arg 14 2))) else none
  | _ => some (.imm (BitVec.ofNat 14 (fld arg 0 14)))

/-- The step of a word; none for one with a reserved field or value (R112, R113). -/
def DStep.ofWord (w : Nat) : Option DStep :=
  let b : Fin 4 := Fin.ofNat 4 (fld w 21 2)
  let rb : Fin 4 := Fin.ofNat 4 (fld w 26 2)
  let wd := 8 * 2 ^ fld w 19 2
  match fld w 28 4 with
  | 0 => if fld w 0 28 = 0 then some .done else none
  | 1 => if fld w 0 22 = 0 then some (.read rb (fld w 22 4)) else none
  | 2 => if fld w 0 22 = 0 then some (.write rb (fld w 22 4)) else none
  | 3 =>
    match DOp.ofCode (fld w 23 5), DSrc.ofFields (fld w 16 2) (fld w 0 16) with
    | some op, some src =>
      if !op.widthOk wd then none
      else if op = .xacc ∧ ¬ (fld w 21 2 = 0 ∧ fld w 18 1 = 0) then none
      else if op = .xout ∧ ¬ (fld w 0 18 = 0) then none
      else some (.alu op b wd (fld w 18 1 == 1) src)
    | _, _ => none
  | 4 =>
    match DPred.ofCode (fld w 25 3), DSrc.ofFields (fld w 16 2) (fld w 0 16) with
    | some p, some src =>
      if fld w 23 2 ≠ 0 ∨ fld w 18 1 ≠ 0 then none
      else if (p = .flt ∨ p = .fle) ∧ wd ≠ 32 then none
      else some (.cmp p b wd src)
    | _, _ => none
  | 5 => if fld w 4 23 = 0 ∧ fld w 0 4 ≠ 0 then some (.cond (fld w 27 1 == 1) (fld w 0 4)) else none
  | 6 =>
    if fld w 23 5 ≠ 0 ∨ fld w 18 1 ≠ 0 ∨ fld w 0 16 ≠ 0 then none
    else match fld w 16 2 with
      | 0 => some (.reply b wd .p)
      | 1 => some (.reply b wd .q)
      | 2 => some (.reply b wd (.buf b))
      | _ => none
  | _ => none

/-! ## A run (R111, R114, R115) -/

/-- The state of a routine (R111), and the atoms it is to write. -/
structure DRun where
  a    : Nat
  p    : Word
  q    : Word
  h    : Vector Nat 4
  t    : Bool := false
  z    : Word := 0
  pend : AMap Nat := []
  deriving DecidableEq, Repr

/-- A lane of a buffer. -/
def dLane (b w k : Nat) : Nat := fld b (k * w) w
/-- A buffer with a lane replaced. -/
def dSetLane (b w k v : Nat) : Nat := b - dLane b w k * 2 ^ (k * w) + v % 2 ^ w * 2 ^ (k * w)
/-- The number of the lane at A. -/
def DRun.laneAt (r : DRun) (w : Nat) : Nat := r.a % 32 / (w / 8)

/-- The operand of a step for a lane. -/
def DRun.operand (r : DRun) (w k : Nat) : DSrc → Nat
  | .p => r.p.toNat % 2 ^ w
  | .q => r.q.toNat % 2 ^ w
  | .buf b => dLane (r.h.get b) w k
  | .imm v => (BitVec.ofInt w v.toInt).toNat

/-- A signed value held to a width's range. -/
def satS (w : Nat) (v : Int) : Nat :=
  let hi : Int := 2 ^ (w - 1) - 1
  let lo : Int := -(2 ^ (w - 1))
  (BitVec.ofInt w (if v < lo then lo else if hi < v then hi else v)).toNat

/-- An ALU operation on a lane (R113); XACC and XOUT act on the cell. -/
def DOp.lane (op : DOp) (w x y : Nat) : Nat :=
  let sx := (BitVec.ofNat w x).toInt
  let sy := (BitVec.ofNat w y).toInt
  match op with
  | .mov => y
  | .add => (x + y) % 2 ^ w
  | .sadd => satS w (sx + sy)
  | .usadd => Nat.min (x + y) (2 ^ w - 1)
  | .min => if sx ≤ sy then x else y
  | .max => if sx ≤ sy then y else x
  | .minu => Nat.min x y
  | .maxu => Nat.max x y
  | .and => x &&& y
  | .or => x ||| y
  | .xor => x ^^^ y
  | .fadd =>
    if w = 16 then (bf16.encode .rne (Fx.add .rne (bf16.decode x) (bf16.decode y)).1).1
    else (fpAdd .rne (BitVec.ofNat 32 x) (BitVec.ofNat 32 y)).bits.toNat
  | .fmin => (fpMin (BitVec.ofNat 32 x) (BitVec.ofNat 32 y)).bits.toNat
  | .fmax => (fpMax (BitVec.ofNat 32 x) (BitVec.ofNat 32 y)).bits.toNat
  | .xacc | .xout => x

/-- The invalid cell (R115). -/
def cellInvalid : BitVec 512 := BitVec.ofNat 512 (2 ^ 511)

/-- An EXACT cell with an FP32 value added (R115). -/
def cellAdd (v : BitVec 512) (x : Fx) : BitVec 512 :=
  if v = cellInvalid then v
  else match x with
    | .fin neg m e => v + BitVec.ofInt 512 (signed neg (m * 2 ^ (e + 160).toNat))
    | _ => cellInvalid

/-- The read-out of an EXACT cell (R115). -/
def cellOut (v : BitVec 512) : Lane :=
  if v = cellInvalid then canonNan
  else (round32 .rne (.fin (decide (v.toInt < 0)) v.toInt.natAbs (-160))).bits

/-- The cell H1:H0. -/
def DRun.cell (r : DRun) : BitVec 512 := BitVec.ofNat 512 (r.h.get 1 * 2 ^ 256 + r.h.get 0)
/-- The run with the cell H1:H0 set. -/
def DRun.setCell (r : DRun) (v : BitVec 512) : DRun :=
  { r with h := (r.h.set 0 (v.toNat % 2 ^ 256)).set 1 (v.toNat / 2 ^ 256) }

/-- An ALU step. Of XACC the spec ignores the lane: an operand in a buffer is the 32-bit lane at A (R113; DESIGN CHOICE, log
115). -/
def DRun.alu (r : DRun) (op : DOp) (b : Fin 4) (w : Nat) (all : Bool) (src : DSrc) : DRun :=
  match op with
  | .xacc => r.setCell (cellAdd r.cell (Fx.ofLane (BitVec.ofNat 32 (r.operand 32 (r.laneAt 32) src))))
  | .xout => { r with z := (cellOut r.cell).setWidth 64 }
  | op =>
    let ks := if all then List.range (256 / w) else [r.laneAt w]
    let old := r.h.get b
    { r with h := r.h.set b (ks.foldl (fun x k => dSetLane x w k (op.lane w (dLane old w k) (r.operand w k src))) old) }

/-- A comparison (R112): flt and fle are false if either value is a NaN. -/
def DPred.test (p : DPred) (w x y : Nat) : Bool :=
  match p with
  | .eq => x == y
  | .ne => x != y
  | .lt => decide ((BitVec.ofNat w x).toInt < (BitVec.ofNat w y).toInt)
  | .ltu => decide (x < y)
  | .flt => (fpCmp .lt (BitVec.ofNat 32 x) (BitVec.ofNat 32 y)).1
  | .fle => (fpCmp .le (BitVec.ofNat 32 x) (BitVec.ofNat 32 y)).1

/-- The address of the atom of a step (R112). -/
def DRun.atom (r : DRun) (n : Nat) : Nat := blkOf r.a + (fld r.a 5 4 + n) % 16 * 32

/-- The steps of a run from one on; none when it meets poison. A READ step reads its atom as the controller does (R92). `fuel`
bounds the steps. -/
def State.dimusSteps (s : State) (steps : List DStep) : Nat → Nat → DRun → State × Option DRun
  | 0, _, r => (s, some r)
  | fuel + 1, i, r =>
    match steps[i]? with
    | none => (s, some r)
    | some st =>
      let next := s.dimusSteps steps fuel (i + 1)
      match st with
      | .done => (s, some r)
      | .read b n =>
        match r.pend.get? (r.atom n) with
        | some v => next { r with h := r.h.set b v }
        | none =>
          let s := s.readUnit (r.atom n)
          if s.unitPoisoned (r.atom n) then (s, none)
          else s.dimusSteps steps fuel (i + 1) { r with h := r.h.set b (s.nat (r.atom n) 32) }
      | .write b n => next { r with pend := r.pend.insert (r.atom n) (r.h.get b) }
      | .alu op b w all src => next (r.alu op b w all src)
      | .cmp p b w src =>
        let k := r.laneAt w
        next { r with t := p.test w (dLane (r.h.get b) w k) (r.operand w k src) }
      | .cond sense skip => if r.t = sense then s.dimusSteps steps fuel (i + 1 + skip) r else next r
      | .reply b w src =>
        let v := match src with
          | .buf _ => dLane (r.h.get b) w (r.laneAt w)
          | src => r.operand w 0 src
        next { r with z := BitVec.ofNat 64 v }

/-! ## The routine table (R116) -/

/-- A routine as a run uses it. -/
structure DRoutine where
  align : Nat
  pay   : Bool
  steps : List DStep
  deriving DecidableEq, Repr

/-- The built-in that combines the lane at A with an operand and replies with the old lane. -/
def builtinLane (op : DOp) (bytes : Nat) (src : DSrc) : DRoutine :=
  { align := bytes, pay := false
    steps := [.read 0 0, .reply 0 (8 * bytes) (.buf 0), .alu op 0 (8 * bytes) false src, .write 0 0] }

/-- The built-in routines (R116). -/
def builtin (n : Nat) : Option DRoutine :=
  match n with
  | 0 => some (builtinLane .fadd 4 .p)
  | 1 => some
      { align := 64, pay := true
        steps := [.read 0 0, .read 1 1, .alu .fadd 0 16 true (.buf 2), .alu .fadd 1 16 true (.buf 3), .write 0 0, .write 1 1] }
  | 2 => some (builtinLane .add 4 .p)
  | 3 => some (builtinLane .add 8 .p)
  | 4 => some (builtinLane .min 4 .p)
  | 5 => some (builtinLane .max 4 .p)
  | 6 => some (builtinLane .min 8 .p)
  | 7 => some (builtinLane .max 8 .p)
  | 8 => some (builtinLane .sadd 4 .p)
  | 9 => some (builtinLane .usadd 4 (.imm 1))
  | 10 => some { align := 64, pay := false, steps := [.read 0 0, .read 1 1, .alu .xacc 0 32 false .p, .write 0 0, .write 1 1] }
  | 11 => some { align := 64, pay := false, steps := [.read 0 0, .read 1 1, .alu .xout 0 32 false .p] }
  | 12 => some
      { align := 64, pay := false
        steps := [.read 0 0, .read 1 1, .alu .xout 0 32 false .p, .write 2 0, .write 2 1] }
  | 13 => some (builtinLane .fmax 4 .p)
  | 14 => some (builtinLane .fmin 4 .p)
  | 15 => some (builtinLane .mov 8 .p)
  | _ => none

/-- A routine of the table, while it is valid (R116, R121). -/
def State.routine (s : State) (n : Nat) : Option DRoutine :=
  match builtin n with
  | some r => some r
  | none => (s.routines.get? n).map fun r =>
      { align := r.align, pay := r.pay, steps := r.steps.filterMap fun w => DStep.ofWord w.toNat }

/-- Whether the valid map holds a routine (R118, R121): a DLOAD under way has cleared its bit. -/
def State.routineValid (s : State) (n : Nat) : Bool := (s.routine n).isSome && !s.dloading.any fun d => d.1 == n

/-- The lines of a block written back and no longer held (R110, R161, R165, R166). -/
def State.writeBackBlock (s : State) (a : Nat) : State :=
  let first := s.lineKey (blkOf a)
  (List.range 8).foldl (fun s i => s.writeBack (first + i)) s

/-- A run on a block (R114): the reply, or none when it meets poison. The slice writes the block's lines back first (R110). -/
def State.dimusRun (s : State) (e : DRoutine) (a : Nat) (p q : Word) (pay : List Byte) : State × Option Word :=
  let s := ((s.writeBackBlock a).demand (s.redirected a)).meet a 1
  if s.isRetired a then (s, none)
  else
    let h2 := natOfBytes (pay.take 32)
    let h3 := natOfBytes (pay.drop 32)
    let r : DRun := { a := a, p := p, q := q, h := #v[0, 0, if e.pay then h2 else 0, if e.pay then h3 else 0] }
    match s.dimusSteps e.steps (e.steps.length + 1) 0 r with
    | (s, none) => (s, none)
    | (s, some r) =>
      let s := r.pend.foldl (fun s w => ((s.dropVersions w.1 32).setPoison w.1 false).setBytes w.1 (bytesOfNat 32 w.2)) s
      (if r.pend.isEmpty then s else s.noteWrite a, some r.z)

/-! ## SHIP and SHIPR -/

/-- Where a SHIP goes (R118): a STRICT or RELEASE page of HBM4 or LPDDR-6. -/
def State.locateShip (s : State) (e : DRoutine) (reply : Bool) (a : Word) : Loc Site × State :=
  match s.reach { acc := { rd := reply, wr := true, need := .atomic }, n := e.align, own := true } [{ va := a, len := e.align }] with
  | (.fault c v, s) => (.fault c v, s)
  | (.hold p v, s) => (.hold p v, s)
  | (.ok fs, s) =>
    let pa := physOf fs a
    if !isDram (localOf pa) then (.fault 0x05 a, s)
    else (.ok { va := a, pa := s.placed pa, len := e.align, fmt := 0, ty := (frameOf fs a).ty, remote := s.isRemote pa }, s)

/-- The payload of a SHIP (R118), and what follows it. -/
def shipPayload (e : DRoutine) (p : Word) (k : List Byte → State → Out) (s : State) : Out :=
  if !e.pay then k [] s
  else if p.toNat % 64 ≠ 0 then s.endTrap false 0x0A p
  else
    match s.syncRead .plain p 64 with
    | .stop o => o
    | .data bs s => k bs s

/-- SHIP and SHIPR (R118, R120): the register of a reply is EMPTY until it comes (R268). A request to another package is out of sight, and its reply is free (log 8). -/
def ship (n : Fin 64) (reply : Option XR) (a p q : Word) (s : State) : Out :=
  match s.me.resume with
  | .stage _ _ fail => s.answered fail
  | .none =>
    match if s.routineValid n.val then s.routine n.val else none with
    | none => s.endTrap false 0x0E (BitVec.ofNat 64 n.val)
    | some e =>
      if a.toNat % e.align ≠ 0 then s.endTrap false 0x0A a
      else
        located (s.locateShip e reply.isSome a) fun x s =>
          shipPayload e p (fun pay s =>
            let b := x.block
            let cls := x.cls reply.isSome true false false
            s.afterEarlier cls [b] fun s =>
              if x.remote then
                match reply with
                | none => s.endC
                | some xr =>
                  let (k, s) := s.takeFresh
                  (s.setX xr (Config.freeWord k)).endC
              else
                let (s, id) := s.sendAcc s.mine s.me.tid s.myCore.ctxid.toNat a b.pa 512 x.ty cls
                  (.dimus n.val p q pay reply)
                match reply with
                | none => s.endC
                | some xr => ((s.pendX xr a).modMe fun f => { f with resume := .stage 1 [id] none }).endPark 1 (.gone [id])) s

/-- SHIP (R118). -/
def execShip (n : Fin 64) (xa xb xc : XR) (s : State) : Out :=
  memSlot (.ship n xa xb xc) s fun s => ship n none (s.rx xa) (s.rx xb) (s.rx xc) s
/-- SHIPR (R118). -/
def execShipr (n : Fin 64) (xr xa xb xc : XR) (s : State) : Out :=
  memSlot (.shipr n xr xa xb xc) s fun s => ship n (some xr) (s.rx xa) (s.rx xb) (s.rx xc) s

/-- The run of a SHIP that met poison (R119): record 0x27, and RTF in the status record. -/
def State.routineFault (s : State) (a : Acc) (n pa : Nat) : State :=
  let rc : Option RecCtx := match a.owner with
    | .fibre c _ | .ended c => s.recCtx c
    | _ => none
  let s := s.errRec 0x27 (rc.map fun r => { r with ctx := a.ctx })
    [a.tid.setWidth 64, BitVec.ofNat 64 n, BitVec.ofNat 64 pa, 0x09]
  s.noteStatus a.ctx { bits := 0x20 }

/-- DIMUS_RUN (R109, R110, R114, R119): a request is run on its block at once, unless the home holds every access to it (R208). -/
def execDimusRun (k : Nat) (s : State) : Out :=
  match s.net.get? k with
  | some (.req a) =>
    match a.op with
    | .dimus n p q pay xd =>
      let pa := a.pa + a.va.toNat % 512
      if s.wakeStuck (blkOf a.pa) then .next s
      else match s.routine n with
      | none => .fault .noSuchEvent
      | some e =>
        match s.dimusRun e pa p q pay, xd, a.owner with
        | (s, some z), some xr, .fibre c j => .next (s.putMsg k (.fill c j xr z .none none))
        | (s, none), some xr, .fibre c j => .next (s.putMsg k (.fill c j xr 0 .poison none))
        | (s, some _), _, _ | (s, none), some _, _ => .next ((s.dropMsg k).settle)
        | (s, none), none, _ => .next (((s.routineFault a n pa).dropMsg k).settle)
    | _ => .fault .noSuchEvent
  | _ => .fault .noSuchEvent

/-! ## DLOAD (R117, R121) -/

/-- The buffers that a step takes as a source, other than its own result's. -/
def DStep.sources : DStep → List (Fin 4)
  | .write b _ => [b]
  | .alu .xacc _ _ _ src | .alu .xout _ _ _ src => [0, 1] ++ (match src with
      | .buf c => [c]
      | _ => [])
  | .alu op b _ _ src => (if op = .mov then [] else [b]) ++ (match src with
      | .buf c => [c]
      | _ => [])
  | .cmp _ b _ src => b :: (match src with
      | .buf c => [c]
      | _ => [])
  | .reply _ _ (.buf b) => [b]
  | _ => []

/-- The buffers that a step writes. -/
def DStep.targets : DStep → List (Fin 4)
  | .read b _ => [b]
  | .alu .xacc .. => [0, 1]
  | .alu .xout .. => []
  | .alu _ b .. => [b]
  | _ => []

/-- The index of the first bad step of an image from one on (R117): `n` steps in all, `wr` the buffers written so far. -/
def badStep (pay : Bool) (n : Nat) : Nat → List Nat → List (Fin 4) → Option Nat
  | _, [], _ => none
  | i, w :: ws, wr =>
    match DStep.ofWord w with
    | none => some i
    | some st =>
      let skips := match st with
        | .cond _ k => decide (n < i + 1 + k)
        | _ => false
      let blind := !pay && st.sources.any fun b => decide (2 ≤ b.val) && !decide (b ∈ wr)
      if skips || blind then some i else badStep pay n (i + 1) ws (wr ++ st.targets)

/-- What an image of 128 bytes holds (R117): a routine, or the index of its first bad step, 0xFF for its header; a reserved byte
8 to 63 that is not zero gives 0xFF too, for which the spec names no value (DESIGN CHOICE, log 116). -/
def readImage (bs : List Byte) : Routine ⊕ Nat :=
  let h := natOfBytes (bs.take 8)
  let n := fld h 0 4 + 1
  let pay := fld h 4 1 == 1
  let words := (List.range n).map fun i => natOfBytes ((bs.drop (64 + 4 * i)).take 4)
  if fld h 8 56 ≠ 0 ∨ fld h 5 3 = 7 ∨ !((bs.drop 8).take 56).all (· == 0) then .inr 0xFF
  else
    match badStep pay n 0 words [] with
    | some i => .inr i
    | none => .inl { align := 2 ^ fld h 5 3, pay := pay, steps := words.map (BitVec.ofNat 32) }

/-- The runs of a routine that have not ended. -/
def State.runsOfRoutine (s : State) (n : Nat) : List Nat :=
  s.openWhere fun a => match a.op with
    | .dimus m .. => m == n
    | _ => false

/-- The installation of an image (R121, R458), once every run of the entry has ended and every earlier DLOAD of it has taken
effect. -/
def State.installImage (s : State) (n : Nat) (bs : List Byte) : State :=
  match readImage bs with
  | .inr _ => s
  | .inl r =>
    let s := { s with
      routines := s.routines.insert n r
      dloading := s.dloading.filter fun d => !(d.1 == n && d.2.1 == s.cur.core && d.2.2.1 == s.cur.slot) }
    s.extendMeas 2 (sha256 (BitVec.ofNat 8 n :: bs))

/-- What a DLOAD that has cleared its entry's bit does next (R121): it waits for the runs of the entry and for earlier
DLOADs of it. -/
def dloadWait (n : Nat) (s : State) : Out :=
  let ids := s.runsOfRoutine n
  let s := s.modMe fun f => { f with resume := .stage 1 [] none }
  if !ids.isEmpty then s.endPark 7 (.performed ids)
  else
    match s.dloading.find? fun o => o.1 == n with
    | some d => if d.2.1 = s.cur.core ∧ d.2.2.1 = s.cur.slot then (s.installImage n d.2.2.2).endC else s.endStall
    | none => s.endC

/-- DLOAD (R121): the image is checked, the entry's valid bit cleared, and the image installed when no run of the entry is
left. -/
def execDload (n : Fin 64) (xa : XR) (s : State) : Out :=
  memSlot (.dload n xa) s fun s =>
    let a := s.rx xa
    match s.me.resume with
    | .stage .. => dloadWait n.val s
    | .none =>
      if a.toNat % 128 ≠ 0 then s.endTrap false 0x0A a
      else
        match s.xlateMine { rd := true } [{ va := a, len := 128 }] with
        | (.fault c v, s) => s.endTrap false c v
        | (.hold p v, s) => s.endPark 3 (.hold p v)
        | (.ok fs, s) =>
          let ty := (frameOf fs a).ty
          if ty = .once ∨ ty = .priv then s.endTrap false 0x05 a
          else
            match s.syncRead .plain a 128 with
            | .stop o => o
            | .data bs s =>
              match readImage bs with
              | .inr i => s.endTrap false 0x0E (BitVec.ofNat 64 i)
              | .inl _ => dloadWait n.val { s with dloading := s.dloading ++ [(n.val, s.cur.core, s.cur.slot, bs)] }

end Sys2Proof.Machine
end

