-- ==== Sys2Proof/Machine/Fetch.lean ====
section
/-!
DEFINITION. Fetching a bundle (R33, R135, R138, R162), task breakpoints (R461), and the events of a bundle that does
not execute: illegal encoding, fetch fault, task breakpoint.
-/

namespace Sys2Proof.Machine

/-- What a fetch gives. -/
inductive Fetched where
  /-- the two words of the bundle -/
  | words (w0 w1 : Nat)
  /-- a trap with its cause and value -/
  | fault (cause : Nat) (val : Word)
  /-- the page is held (R143) -/
  | hold (page : Nat) (val : Word)
  deriving DecidableEq, Repr

/-- The words of the bundle at a local physical address: those fetched ahead, or those at its home (R162, R244). A
poisoned or RETIRED bundle raises poison consumed (R93, R97). -/
def State.fetchPhys (s : State) (c : Nat) (va : Word) (pa : Nat) : Fetched × State :=
  match (s.core c).ahead.get? pa with
  | some w => (.words w.1 w.2, s)
  | none =>
    let raw := rawOf pa
    let s := (s.touchLines raw 8 false).meet raw 8
    if s.isRetired raw then (.fault 0x09 (va &&& ~~~511#64), s)
    else
      match s.firstPoison raw 8 with
      | some u => (.fault 0x09 (va + BitVec.ofNat 64 u - BitVec.ofNat 64 raw), s)
      | none => (.words (s.nat raw 4) (s.nat (raw + 4) 4), s)

/-- The access of a fetch, in the mode of the running fibre. -/
def State.fetchAcc (s : State) : XAcc := { ex := true, need := .fetch, user := !s.me.sys }

/-- The fetch of the bundle at a PC in the context that runs on a core: the regions refuse it as they refuse a load (R32, R169).
Another package's bytes are free (log 8). A PC that is no multiple of 8, which only ENTRY of a launch packet and a restored record
can give, faults as a jump to it does (R33, R278, R405; DEDUCED, log 149). -/
def State.fetchAt (s : State) (c : Nat) (pc : Pc) : Fetched × State :=
  let va : Word := pc.setWidth 64
  if pc.toNat % 8 ≠ 0 then (.fault 0x0A va, s)
  else
  match s.xlate (.core c) (s.core c).ctxid.toNat s.fetchAcc [{ va := va, len := 8 }] with
  | (.fault k v, s) => (.fault k v, s)
  | (.hold p v, s) => (.hold p v, s)
  | (.ok fs, s) =>
    let pa := physOf fs va
    if s.isRemote pa then
      let (n, s) := s.takeFresh
      let w := (Config.freeWord n).toNat
      (.words (w % 2 ^ 32) (w / 2 ^ 32), s)
    else s.fetchPhys c va (localOf pa)

/-- The offset of TBP[c][i], and that of TBPC[c][i] (R460). -/
def tbpOff (ctx i : Nat) : Nat := 0x218000 + 64 * ctx + 8 * i
/-- The offset of TBPC[c][i] (R460). -/
def tbpcOff (ctx i : Nat) : Nat := 0x230000 + 64 * ctx + 8 * i

/-- Whether breakpoint i of a context matches the next bundle of a fibre (R461). -/
def State.breaksAt (s : State) (ctx : Nat) (f : Fibre) (i : Nat) : Bool :=
  let b := s.reg (tbpOff ctx i)
  b.getLsbD 63 && (b.getLsbD 62 || fld b.toNat 0 48 == f.tid.toNat)
    && fld (s.reg (tbpcOff ctx i)).toNat 3 45 == fld f.pc.toNat 3 45
    && f.lvl == 0 && !f.afterRtt

/-- The breakpoint that stops the running fibre's next bundle; a bundle that has begun is no next one. -/
def State.breakpoint (s : State) : Option Nat :=
  if s.me.resume ≠ .none then none else (List.range 8).find? fun i => s.breaksAt s.myCore.ctxid.toNat s.me i

/-- TASK_BREAKPOINT (R461): the bundle does not execute; trap entry with cause 0x14 and value 0x1_0000 + i. -/
def execTaskBreakpoint (i : Nat) (s : State) : Out := s.endTrap false 0x14 (BitVec.ofNat 64 (0x10000 + i))

/-- ILLEGAL_ENCODING (R37, R50): cause 0x01 with the bundle's words as trap value (R428). It is the bundle's, so ASLOT is 0, also
where only W1 or the pair is at fault (R423; DESIGN CHOICE, log 129). -/
def execIllegalEncoding (w0 w1 : BitVec 32) (s : State) : Out := s.endTrap false 0x01 (w1 ++ w0)

/-- INSTRUCTION_FETCH_FAULT (R28, R138): the fetch of the running fibre's next bundle traps; a held page parks it. -/
def execInstructionFetchFault (s : State) : Out :=
  match s.fetchAt s.cur.core s.me.pc with
  | (.fault c v, s) => s.endTrap false c v
  | (.hold p v, s) => s.endPark 3 (.hold p v)
  | (.words _ _, _) => .fault .noSuchEvent

end Sys2Proof.Machine
end

