-- ==== Sys2Proof/Machine/Float.lean ====
section
/-!
DEFINITION. The scalar FP32 instructions (R283 to R287), and how an FP instruction writes, raises and traps (R67,
R68, R271).
-/

namespace Sys2Proof.Machine

/-- The FP32 operand of an x register: bits 31:0 (R283). -/
def State.rf (s : State) (i : XR) : Lane := (s.rx i).setWidth 32
/-- The rounding mode of an instruction (R64, R283). -/
def State.mode (s : State) (rm : Rm) : RMode := RMode.ofRm (fswRm s.rfsw) rm
/-- Whether flags raise an FP exception: one of them is enabled (R68). -/
def State.fpTraps (s : State) (fl : Flags) : Bool := (fl &&& fswEnables s.rfsw) != 0
/-- Whether any FP flag is enabled, so that a bundle does not retire before its result is known (R271). -/
def State.fpSync (s : State) : Bool := fswEnables s.rfsw != 0

/-- A scalar FP instruction of latency 1 (R270). -/
def fpNow (i : Instr) (xd : XR) (f : State → Word × Flags) (s : State) : Out :=
  slotA i s fun s =>
    let r := f s
    if s.fpTraps r.2 then s.endTrap true 0x0C (r.2.setWidth 64)
    else ((s.setX xd r.1).raise r.2).endA

/-- A scalar FP instruction of a longer latency: xd is EMPTY and the flags wait until the result arrives, unless an
enable makes the bundle wait for them (R270, R271). -/
def fpLater (i : Instr) (xd : XR) (f : State → Word × Flags) (s : State) : Out :=
  slotA i s fun s =>
    let r := f s
    if s.fpTraps r.2 then s.endTrap true 0x0C (r.2.setWidth 64)
    else if s.fpSync then ((s.setX xd r.1).raise r.2).endA
    else ((s.emptyX xd).send (.arithX s.cur.core s.cur.slot xd r.1 r.2)).1.endA

/-- An FP32 result in bits 31:0 with zero above (R283). -/
def FpRes.word (r : FpRes) : Word × Flags := (r.bits.setWidth 64, r.flags)

/-- FADD (R284). -/
def execFadd (rm : Rm) (xd xa xb : XR) (s : State) : Out :=
  fpLater (.fadd rm xd xa xb) xd (fun s => (fpAdd (s.mode rm) (s.rf xa) (s.rf xb)).word) s
/-- FSUB (R284). -/
def execFsub (rm : Rm) (xd xa xb : XR) (s : State) : Out :=
  fpLater (.fsub rm xd xa xb) xd (fun s => (fpSub (s.mode rm) (s.rf xa) (s.rf xb)).word) s
/-- FMUL (R284). -/
def execFmul (rm : Rm) (xd xa xb : XR) (s : State) : Out :=
  fpLater (.fmul rm xd xa xb) xd (fun s => (fpMul (s.mode rm) (s.rf xa) (s.rf xb)).word) s
/-- FDIV (R284). -/
def execFdiv (rm : Rm) (xd xa xb : XR) (s : State) : Out :=
  fpLater (.fdiv rm xd xa xb) xd (fun s => (fpDiv (s.mode rm) (s.rf xa) (s.rf xb)).word) s
/-- FSQRT (R284). -/
def execFsqrt (rm : Rm) (xd xa : XR) (s : State) : Out :=
  fpLater (.fsqrt rm xd xa) xd (fun s => (fpSqrt (s.mode rm) (s.rf xa)).word) s
/-- FMA (R284). -/
def execFma (rm : Rm) (xd xa xb xc : XR) (s : State) : Out :=
  fpLater (.fma rm xd xa xb xc) xd (fun s => (fpFma (s.mode rm) (s.rf xa) (s.rf xb) (s.rf xc)).word) s
/-- FMIN (R284). -/
def execFmin (xd xa xb : XR) (s : State) : Out :=
  fpNow (.fmin xd xa xb) xd (fun s => (fpMin (s.rf xa) (s.rf xb)).word) s
/-- FMAX (R284). -/
def execFmax (xd xa xb : XR) (s : State) : Out :=
  fpNow (.fmax xd xa xb) xd (fun s => (fpMax (s.rf xa) (s.rf xb)).word) s
/-- FSGN (R284). -/
def execFsgn (op : SgnOp) (xd xa xb : XR) (s : State) : Out :=
  fpNow (.fsgn op xd xa xb) xd (fun s => ((fpSgn op (s.rf xa) (s.rf xb)).setWidth 64, 0)) s
/-- FCMP (R285). -/
def execFcmp (p : FPred) (xd xa xb : XR) (s : State) : Out :=
  fpNow (.fcmp p xd xa xb) xd (fun s =>
    let r := fpCmp p (s.rf xa) (s.rf xb)
    (if r.1 then 1 else 0, r.2)) s
/-- FCVT (R286). -/
def execFcvt (k : CvtKind) (rm : Rm) (xd xa : XR) (s : State) : Out :=
  fpLater (.fcvt k rm xd xa) xd (fun s => fpCvt k (s.mode rm) (s.rx xa)) s
/-- FCLASS (R287). -/
def execFclass (xd xa : XR) (s : State) : Out :=
  fpNow (.fclass xd xa) xd (fun s => (BitVec.ofNat 64 (2 ^ fpClass (s.rf xa)), 0)) s

end Sys2Proof.Machine
end

