-- ==== Sys2Proof/Machine/Integer.lean ====
section
/-!
DEFINITION. The integer A-slot instructions (R276, R280 to R282).
-/

namespace Sys2Proof.Machine

/-- An integer instruction of latency 1: its result is written at issue (R270). -/
def intNow (i : Instr) (xd : XR) (f : State → Word) (s : State) : Out :=
  slotA i s fun s => (s.setX xd (f s)).endA

/-- An integer instruction of a longer latency: xd is EMPTY until the result arrives (R268, R270). -/
def intLater (i : Instr) (xd : XR) (f : State → Word) (s : State) : Out :=
  slotA i s fun s =>
    let v := f s
    ((s.emptyX xd).send (.arithX s.cur.core s.cur.slot xd v 0)).1.endA

/-- NOPA (R276): reads nothing, writes nothing, never waits and never faults. -/
def execNopa (s : State) : Out := s.endA

/-- ADD (R280). -/
def execAdd (sz : Wd) (xd xa xb : XR) (s : State) : Out :=
  intNow (.add sz xd xa xb) xd (fun s => onWd sz (fun _ a b => a + b) (s.rx xa) (s.rx xb)) s
/-- SUB (R280). -/
def execSub (sz : Wd) (xd xa xb : XR) (s : State) : Out :=
  intNow (.sub sz xd xa xb) xd (fun s => onWd sz (fun _ a b => a - b) (s.rx xa) (s.rx xb)) s
/-- MUL (R280). -/
def execMul (sz : Wd) (xd xa xb : XR) (s : State) : Out :=
  intLater (.mul sz xd xa xb) xd (fun s => onWd sz (fun _ a b => a * b) (s.rx xa) (s.rx xb)) s
/-- MULH (R280). -/
def execMulh (u : Bool) (sz : Wd) (xd xa xb : XR) (s : State) : Out :=
  intLater (.mulh u sz xd xa xb) xd (fun s => onWd sz (aluMulh u) (s.rx xa) (s.rx xb)) s

/-- Whether the divisor cut to the operating width is zero (R281). -/
def divZero (sz : Wd) (b : Word) : Bool := cutWd sz (fun n _ y => y == 0#n) 0 b

/-- DIV (R281). -/
def execDiv (u : Bool) (sz : Wd) (xd xa xb : XR) (s : State) : Out :=
  if s.ready (.div u sz xd xa xb) = .go ∧ divZero sz (s.rx xb) ∧ fswIz s.rfsw then s.endTrap true 0x0B (s.rx xa)
  else intLater (.div u sz xd xa xb) xd
    (fun s => if divZero sz (s.rx xb) then 0 else onWd sz (aluDiv u) (s.rx xa) (s.rx xb)) s
/-- REM (R281). -/
def execRem (u : Bool) (sz : Wd) (xd xa xb : XR) (s : State) : Out :=
  if s.ready (.rem u sz xd xa xb) = .go ∧ divZero sz (s.rx xb) ∧ fswIz s.rfsw then s.endTrap true 0x0B (s.rx xa)
  else intLater (.rem u sz xd xa xb) xd
    (fun s => if divZero sz (s.rx xb) then onWd sz (fun _ a _ => a) (s.rx xa) 0
      else onWd sz (aluRem u) (s.rx xa) (s.rx xb)) s

/-- AND (R280). -/
def execAnd (sz : Wd) (xd xa xb : XR) (s : State) : Out :=
  intNow (.and sz xd xa xb) xd (fun s => onWd sz (fun _ a b => a &&& b) (s.rx xa) (s.rx xb)) s
/-- OR (R280). -/
def execOr (sz : Wd) (xd xa xb : XR) (s : State) : Out :=
  intNow (.or sz xd xa xb) xd (fun s => onWd sz (fun _ a b => a ||| b) (s.rx xa) (s.rx xb)) s
/-- XOR (R280). -/
def execXor (sz : Wd) (xd xa xb : XR) (s : State) : Out :=
  intNow (.xor sz xd xa xb) xd (fun s => onWd sz (fun _ a b => a ^^^ b) (s.rx xa) (s.rx xb)) s
/-- ANDN (R280). -/
def execAndn (sz : Wd) (xd xa xb : XR) (s : State) : Out :=
  intNow (.andn sz xd xa xb) xd (fun s => onWd sz (fun _ a b => a &&& ~~~b) (s.rx xa) (s.rx xb)) s
/-- SHL (R280). -/
def execShl (sz : Wd) (xd xa xb : XR) (s : State) : Out :=
  intNow (.shl sz xd xa xb) xd (fun s => onWd sz aluShl (s.rx xa) (s.rx xb)) s
/-- SHR (R280). -/
def execShr (sz : Wd) (xd xa xb : XR) (s : State) : Out :=
  intNow (.shr sz xd xa xb) xd (fun s => onWd sz aluShr (s.rx xa) (s.rx xb)) s
/-- SRA (R280). -/
def execSra (sz : Wd) (xd xa xb : XR) (s : State) : Out :=
  intNow (.sra sz xd xa xb) xd (fun s => onWd sz aluSra (s.rx xa) (s.rx xb)) s
/-- ROL (R280). -/
def execRol (sz : Wd) (xd xa xb : XR) (s : State) : Out :=
  intNow (.rol sz xd xa xb) xd (fun s => onWd sz aluRol (s.rx xa) (s.rx xb)) s
/-- MIN (R280). -/
def execMin (u : Bool) (sz : Wd) (xd xa xb : XR) (s : State) : Out :=
  intNow (.min u sz xd xa xb) xd (fun s => onWd sz (aluMin u) (s.rx xa) (s.rx xb)) s
/-- MAX (R280). -/
def execMax (u : Bool) (sz : Wd) (xd xa xb : XR) (s : State) : Out :=
  intNow (.max u sz xd xa xb) xd (fun s => onWd sz (aluMax u) (s.rx xa) (s.rx xb)) s

/-- The word of a truth value. -/
def boolWord (b : Bool) : Word := if b then 1 else 0

/-- SLT (R280): 1 or 0, not extended. -/
def execSlt (u : Bool) (sz : Wd) (xd xa xb : XR) (s : State) : Out :=
  intNow (.slt u sz xd xa xb) xd (fun s => boolWord (cutWd sz (aluLess u) (s.rx xa) (s.rx xb))) s
/-- SETEQ (R280). -/
def execSeteq (sz : Wd) (xd xa xb : XR) (s : State) : Out :=
  intNow (.seteq sz xd xa xb) xd (fun s => boolWord (cutWd sz (fun _ a b => a == b) (s.rx xa) (s.rx xb))) s
/-- SETNE (R280). -/
def execSetne (sz : Wd) (xd xa xb : XR) (s : State) : Out :=
  intNow (.setne sz xd xa xb) xd (fun s => boolWord (cutWd sz (fun _ a b => a != b) (s.rx xa) (s.rx xb))) s
/-- CLZ (R280). -/
def execClz (sz : Wd) (xd xa : XR) (s : State) : Out :=
  intNow (.clz sz xd xa) xd (fun s => BitVec.ofNat 64 (cutWd sz (fun n a _ => aluClz n a) (s.rx xa) 0)) s
/-- CTZ (R280). -/
def execCtz (sz : Wd) (xd xa : XR) (s : State) : Out :=
  intNow (.ctz sz xd xa) xd (fun s => BitVec.ofNat 64 (cutWd sz (fun n a _ => aluCtz n a) (s.rx xa) 0)) s
/-- POPC (R280). -/
def execPopc (sz : Wd) (xd xa : XR) (s : State) : Out :=
  intNow (.popc sz xd xa) xd (fun s => BitVec.ofNat 64 (cutWd sz (fun n a _ => aluPopc n a) (s.rx xa) 0)) s
/-- SEXT (R280). -/
def execSext (ext : ExtFrom) (xd xa : XR) (s : State) : Out :=
  intNow (.sext ext xd xa) xd (fun s => aluSext ext (s.rx xa)) s
/-- ZEXT (R280). -/
def execZext (ext : ExtFrom) (xd xa : XR) (s : State) : Out :=
  intNow (.zext ext xd xa) xd (fun s => aluZext ext (s.rx xa)) s
/-- SEL (R280). -/
def execSel (sz : Wd) (xd xa xb xc : XR) (s : State) : Out :=
  intNow (.sel sz xd xa xb xc) xd
    (fun s => if cutWd sz (fun n c _ => c != 0#n) (s.rx xc) 0 then onWd sz (fun _ a _ => a) (s.rx xa) 0
      else onWd sz (fun _ a _ => a) (s.rx xb) 0) s
/-- MOV (R280): all 64 bits. -/
def execMov (xd xa : XR) (s : State) : Out := intNow (.mov xd xa) xd (fun s => s.rx xa) s

/-- ADDI (R282). -/
def execAddi (sz : Wd) (xd xa : XR) (imm : BitVec 19) (s : State) : Out :=
  intNow (.addi sz xd xa imm) xd (fun s => onWd sz (fun _ a b => a + b) (s.rx xa) (imm19 imm)) s
/-- ANDI (R282). -/
def execAndi (sz : Wd) (xd xa : XR) (imm : BitVec 19) (s : State) : Out :=
  intNow (.andi sz xd xa imm) xd (fun s => onWd sz (fun _ a b => a &&& b) (s.rx xa) (imm19 imm)) s
/-- ORI (R282). -/
def execOri (sz : Wd) (xd xa : XR) (imm : BitVec 19) (s : State) : Out :=
  intNow (.ori sz xd xa imm) xd (fun s => onWd sz (fun _ a b => a ||| b) (s.rx xa) (imm19 imm)) s
/-- XORI (R282). -/
def execXori (sz : Wd) (xd xa : XR) (imm : BitVec 19) (s : State) : Out :=
  intNow (.xori sz xd xa imm) xd (fun s => onWd sz (fun _ a b => a ^^^ b) (s.rx xa) (imm19 imm)) s
/-- SHI (R282). -/
def execShi (op : ShOp) (sz : Wd) (xd xa : XR) (n : BitVec 6) (s : State) : Out :=
  intNow (.shi op sz xd xa n) xd (fun s => onWd sz (aluShift op) (s.rx xa) (n.setWidth 64)) s

end Sys2Proof.Machine
end

