-- ==== Sys2Proof/Machine/Sched.lean ====
section
/-!
DEFINITION. How a core chooses and runs a bundle: the two slots of a pair (R35, R36, R38), the energy budget (R417),
stream ports at retirement (R298, R299), the hot slots and the quantum (R380 to R383). The meaning of an instruction is
an argument here; the step gives it.
-/

namespace Sys2Proof

/-- The instructions of a bundle. -/
def Bundle.instrs : Bundle → List Instr
  | .pair c a => [c, a]
  | .long i => [i]

end Sys2Proof

namespace Sys2Proof.Machine

/-! ## One bundle -/

/-- The trap that comes before everything else of a slot: privileged, then not anchored or wrong core (R38). -/
def State.earlyFault (s : State) (i : Instr) : Bool := (i.userFault && !s.ops.f.sys) || s.anchorFault i

/-- Whether an instruction waits for a register. -/
def State.waits (s : State) (i : Instr) : Bool :=
  match s.ready i with
  | .wait .. => true
  | _ => false

/-- The state with the pair's operands latched (R35). -/
def State.latched (s : State) : State := { s with cur := { s.cur with latch := some s.ops } }
/-- The state without a latch. -/
def State.unlatched (s : State) : State := { s with cur := { s.cur with latch := none } }

/-- The outcome without the latch. -/
def unlatch : Out → Out
  | .next s => .next s.unlatched
  | o => o

/-- Whether a C slot that has not retired has passed the checks of its issue: what it has met was found at its home, or its
access waits or is on its way. The A slot's faults are found before that (R35). -/
def State.pastChecks (s : State) : Bool :=
  match s.cur.disp, s.me.need with
  | .homeTrapped, _ => true
  | .parked, .performed _ | .parked, .gone _ | .parked, .recs | .parked, .block | .parked, .assembly | .parked, .guard _ => true
  | _, _ => false

/-- A pair (R35, R38): each slot is judged on the operands as latched; when either traps or waits neither has its
effect, and otherwise the C slot's comes first. A wait of the A slot comes before the C slot's other faults; its own
faults come after those of the C slot's issue, and before what the C slot's access meets. When the C slot's effect would make
the A slot wait after all, the bundle issues again. -/
def runPair (ex : Instr → State → Out) (c a : Instr) (s : State) : Out :=
  let s := s.latched
  unlatch <|
    if s.earlyFault c then ex c s
    else if s.earlyFault a || (s.waits a && !s.waits c) then ex a s
    else
      match ex c s with
      | .next s1 =>
        if s1.cur.disp ≠ .retired ∧ s1.pastChecks = false then .next s1
        else
          match ex a s with
          | .next s2 =>
            if s1.cur.disp ≠ .retired then .next (if s2.cur.disp = .trapped then s2 else s1)
            else if s2.cur.disp ≠ .retired then .next s2
            else
              match ex a s1 with
              | .next s3 => if s3.cur.disp ≠ .retired then s.endStall else .next s3
              | o => o
          | o => o
      | o => o

/-- A bundle run: a pair or a long instruction. -/
def runBundle (ex : Instr → State → Out) (b : Bundle) (s : State) : Out :=
  match b with
  | .pair c a => runPair ex c a s
  | .long i => ex i s

/-- Whether a bundle waits for the energy budget (R417). -/
def State.starved (s : State) (b : Bundle) : Bool :=
  (b.instrs.any fun i => i.energyClass != 0) && decide (s.myCore.ebud ≤ 0)

/-- A signed 32-bit count after a debit (R417). -/
def wrap32 (x : Int) : Int := (BitVec.ofInt 32 x).toInt

/-- The cost of a bundle on a core (R49, R417). -/
def State.bundleCost (s : State) (c : Nat) (b : Bundle) : Nat := (b.instrs.map fun i => s.energyCost c i.energyClass).sum

/-- The debit of a core (R417). -/
def State.charge (s : State) (c cost : Nat) : State :=
  if cost = 0 then s else s.modCore c fun r => { r with ebud := wrap32 (r.ebud - cost) }

/-- Whether the bundle that has run has issued: it has begun, or it has neither stalled nor waited for its registers
(R269, R417). -/
def State.hasIssued (s : State) (c k : Nat) : Bool :=
  (s.fib c k).resume != .none ||
    (match s.cur.disp, (s.fib c k).need with
      | .stalled, _ => false
      | .parked, .regs .. => false
      | _, _ => true)

/-- The debit of a bundle that has issued (R49, R318, R417): once, also where it parks and goes on later (log 17). -/
def State.debit (s : State) (c k cost : Nat) (paid : Bool) : State :=
  if cost = 0 || paid || !s.hasIssued c k then s
  else
    let s := s.charge c cost
    if s.cur.disp = .parked ∨ s.cur.disp = .stalled then s.modFib c k fun f => { f with paid := true } else s

/-- An input port whose head element has been consumed (R298): the register is EMPTY until the next one arrives, and
holds it when it has arrived already. -/
def Port.consume (p : Port) : Port × Option (Vector Lane 4) :=
  let k := p.pos + 1
  ({ p with pos := k, got := p.got.erase k }, p.got.get? k)

/-- The consumption of the head elements that a retired bundle has read (R298). -/
def State.consumePorts (s : State) (c : Nat) (used : List VR) : State :=
  (List.finRange 4).foldl
    (fun s sp =>
      let r : VR := Fin.ofNat 16 (12 + sp.val)
      let p := (s.core c).sp.get sp
      if p.bound && !p.out && r ∈ used then
        let (p', next) := p.consume
        let s := s.modCore c fun k =>
          let lanes : Vector VLane 4 := Vector.ofFn fun i : Fin 4 => match next with
            | some v => { val := v.get i }
            | none => { (k.v.get r).get i with full := false }
          { k with sp := k.sp.set sp p', v := k.v.set r lanes }
        s.pumpPort c sp
      else s) s

/-- The v registers that a bundle reads through a lane that the masks before it enable. -/
def State.usedVs (s : State) (b : Bundle) : List VR := b.instrs.flatMap fun i => i.consumed (s.enabledBy i)

/-- The next bundle of the running fibre: a vector load that waits (R186), breakpoint, fetch, decoding, energy, execution (R38, R461). -/
def issue (ex : Instr → State → Out) (s : State) : Out :=
  if s.me.vrecs ≠ 0 then s.endPark 2 .vrecs
  else
  match s.breakpoint with
  | some i => ex (.taskBreakpoint i) s
  | none =>
    match s.fetchAt s.cur.core s.me.pc with
    | (.words w0 w1, s) =>
      let s := { s with cur := { s.cur with word := BitVec.ofNat 64 (w0 + w1 * 2 ^ 32) } }
      match decodeWords w0 w1 with
      | .reject _ => ex (.illegalEncoding (BitVec.ofNat 32 w0) (BitVec.ofNat 32 w1)) s
      | .ok b =>
        if s.starved b && !s.me.paid then s.endStall
        else
          let c := s.cur.core
          let k := s.cur.slot
          let used := s.usedVs b
          let cost := s.bundleCost c b
          let paid := s.me.paid
          match runBundle ex b s with
          | .next s =>
            let s := s.debit c k cost paid
            .next (if s.cur.disp = .retired then s.consumePorts c used else s)
          | o => o
    | _ => ex .instructionFetchFault s

/-! ## The hot slots -/

/-- The slots of a core that hold a READY fibre of a priority. -/
def State.readySlots (s : State) (c : Nat) (high : Bool) : List Nat :=
  (s.fibresOf c).filterMap fun e => if e.2.st = .ready ∧ e.2.sys = high then some e.1 else none

/-- The first of some slots counting upward from a slot, wrapping from 255 to 0 (R381). -/
def firstFrom (start : Nat) : List Nat → Option Nat
  | [] => none
  | k :: ks =>
    match firstFrom start ks with
    | none => some k
    | some j => if (k + 256 - start) % 256 ≤ (j + 256 - start) % 256 then some k else some j

/-- The hot slot of a priority. -/
def Core.hot (r : Core) (high : Bool) : Hot := if high then r.hotH else r.hotN
/-- The core with the hot slot of a priority set. -/
def Core.setHot (r : Core) (high : Bool) (h : Hot) : Core := if high then { r with hotH := h } else { r with hotN := h }

/-- The state in which an empty hot slot has taken the next READY fibre of its priority (R381); none while the
partition's context is being evicted (R415). -/
def State.choose (s : State) (c : Nat) (high : Bool) : State :=
  let h := (s.core c).hot high
  if h.slot.isSome || s.evicting c then s
  else
    match firstFrom h.start (s.readySlots c high) with
    | none => s
    | some k =>
      (s.modFib c k fun f => { f with st := .running }).modCore c fun r =>
        r.setHot high { h with slot := some k, count := 0, qtm := r.qtm }

/-- The state in which the fibre in a hot slot is READY again and the slot is empty. -/
def State.relinquish (s : State) (c : Nat) (high : Bool) : State :=
  match ((s.core c).hot high).slot with
  | none => s
  | some k => (s.modFib c k fun f => if f.st = .running then { f with st := .ready } else f).leaveHot c k

/-- Whether the fibre in a hot slot has issued its quantum and another of its priority is READY (R382). -/
def State.quantumOver (s : State) (c : Nat) (high : Bool) : Bool :=
  let h := (s.core c).hot high
  h.slot.isSome && decide (h.qtm ≤ h.count) && !(s.readySlots c high).isEmpty

/-- QUANTUM_EXPIRY (R382): a fibre that has issued its quantum stops being RUNNING when another of its priority is
READY. -/
def execQuantumExpiry (core : Nat) (s : State) : Out :=
  let s := if s.quantumOver core true then s.relinquish core true else s
  .next (if s.quantumOver core false then s.relinquish core false else s)

/-- A bundle of the fibre in a hot slot (R380, R382): a stalled fibre gives way to another READY one of its priority. -/
def runHot (ex : Instr → State → Out) (c k : Nat) (high : Bool) (s : State) : Out :=
  match issue ex { s with cur := { core := c, slot := k, wf := (s.fib c k).wf } } with
  | .next s =>
    if s.cur.disp = .stalled then
      .next (if (s.readySlots c high).isEmpty || s.evicting c then s else s.relinquish c high)
    else
      let h := (s.core c).hot high
      .next (if h.slot = some k then s.modCore c fun r => r.setHot high { h with count := h.count + 1 } else s)
  | o => o

/-- A turn of a core (R380): a bundle of the high-priority slot if its fibre can issue, and otherwise one of the normal
slot; then the quantum. The normal fibre that a high-priority one suspends stays RUNNING in its hot slot (DESIGN CHOICE, log 148). A
stopped core issues nothing (R435). -/
def coreTurn (ex : Instr → State → Out) (c : Nat) (s : State) : Out :=
  if s.isStopped c then .next s
  else
    let s := (s.choose c true).choose c false
    let normal (s : State) : Out := match (s.core c).hotN.slot with
      | none => .next s
      | some k => runHot ex c k false s
    let done := match (s.core c).hotH.slot with
      | none => normal s
      | some k =>
        match runHot ex c k true s with
        | .next s' => if s'.cur.disp = Disp.stalled then normal s' else .next s'
        | o => o
    match done with
    | .next s => if s.quantumOver c true || s.quantumOver c false then ex (.quantumExpiry c) s else .next s
    | o => o

/-! ## Fetching ahead (R162, R244) -/

/-- A core fetches ahead the bundle at an address of its context; a fetch that fails has no effect. -/
def fetchAhead (c : Nat) (pc : Pc) (s : State) : State :=
  let va : Word := pc.setWidth 64 &&& ~~~7#64
  match s.xlate (.core c) (s.core c).ctxid.toNat { ex := true, need := .fetch } [{ va := va, len := 8 }] with
  | (.ok fs, s) =>
    let pa := physOf fs va
    if s.isRemote pa then s
    else
      match s.fetchPhys c va (localOf pa) with
      | (.words w0 w1, s) => s.modCore c fun r => { r with ahead := r.ahead.insert (localOf pa) (w0, w1) }
      | (_, s) => s
  | (_, s) => s

/-! ## Placing an instruction for the next step -/

/-- The TLB entry that maps the code page of a placed instruction: the first 64 KiB of memory, RELEASE, executable. -/
def placedPage : TlbEntry :=
  { lvl := 2, vpn := 0, ctx := 0, pa := 0, r := true, w := true, x := true, ty := .release, d := true, g := true,
    wa := false }

/-- The fibre that runs a placed instruction: system mode, every register FULL (log 15). -/
def placedFibre : Fibre :=
  { x := Vector.replicate 8 { full := true }, fsw := 0x00210000#32, st := .running }

/-- The state in which core 0 runs the bundle of two words next: a fibre in its high-priority hot slot whose PC is 0, the
page of the PC in its TLB, translation on in its context, the words at the page's start (log 15). -/
def State.place (s : State) (w0 w1 : Nat) : State :=
  let s := { s with plan := [.core 0] }
  let s := s.setFib 0 0 placedFibre
  let s := s.modCore 0 fun r => { r with hotH := { slot := some 0, qtm := r.qtm }, ahead := [] }
  let s := s.setTlb 0 [placedPage]
  let s := s.setRegF 0x1B0000 0 1 1
  s.setBytes 0 (bytesOfNat 4 w0 ++ bytesOfNat 4 w1)

end Sys2Proof.Machine
end

