-- ==== Sys2Proof/Machine/VecMem.lean ====
section
/-!
DEFINITION. The vector memory instructions: VLD, VST, VLDS, VSTS, VGATH and VSCAT (R185 to R188).
-/

namespace Sys2Proof.Machine

/-- A vector load without an enabled lane (R185): no access and no fault; an output port counts an element (R299). -/
def State.emptyLoad (s : State) (vd : VR) : Out :=
  match portOfV vd with
  | some sp => if s.isOutV vd then (s.advancePort sp).endC else s.endC
  | none => s.endC

/-- The reads of the lanes of a vector load, once they have been located: what the homes find wrong, the element of an
output port that the load fills, and the reads. -/
def loadSites (vd : VR) (en : BitVec 4) (xs : List (Nat × Site)) (start : Cls → State → State) (s : State) : Out :=
  let cls := clsAll true false false false (sitesOf xs)
  s.afterEarlier cls (sitesOf xs) fun s =>
    match s.lanesFault vd xs with
    | (some (c, v), s) => s.endHomeTrap c v
    | (none, s) =>
      match (match portOfV vd with
        | some sp => if s.isOutV vd then s.noteElem sp en else .done s
        | none => .done s) with
      | .stop o => o
      | .done s => (start cls (s.pendV vd xs)).endC

/-- VLD (R185, R186): one read from the first to the last enabled lane. -/
def execVld (vd : VR) (xa : XR) (mk : Option MR) (off : BitVec 12) (s : State) : Out :=
  memSlot (.vld vd xa mk off) s fun s =>
    let en := s.enabled mk
    if en = 0 then s.emptyLoad vd
    else
      located (s.locateQuad { acc := { rd := true }, n := 4 } (s.addr xa off) en) fun xs s =>
        loadSites vd en xs (fun cls s =>
          match spanSite xs with
          | none => s
          | some x => (s.startRead x cls none (.v vd en x.fmt)).1) s

/-- VST (R185). -/
def execVst (vd : VR) (xa : XR) (mk : Option MR) (off : BitVec 12) (s : State) : Out :=
  storeSlot (.vst vd xa mk off) s fun s =>
    let en := s.enabled mk
    if en = 0 then s.endC
    else
      located (s.locateQuad { acc := { wr := true }, n := 4 } (s.addr xa off) en) fun xs s =>
        s.storeAll none (s.lanePuts vd xs)

/-- A vector load of one element a lane (R187). -/
def loadLanes (vd : VR) (en : BitVec 4) (la : Nat → Word) (s : State) : Out :=
  if en = 0 then s.emptyLoad vd
  else
    located (s.locateLanes { acc := { rd := true }, n := 4 } (lanesAt en la)) fun xs s =>
      loadSites vd en xs (fun cls s => s.startLanes cls vd xs) s

/-- A vector store of one element a lane (R187, R188). -/
def storeLanes (vd : VR) (en : BitVec 4) (la : Nat → Word) (s : State) : Out :=
  if en = 0 then s.endC
  else
    located (s.locateLanes { acc := { wr := true }, n := 4 } (lanesAt en la)) fun xs s =>
      s.storeAll none (s.lanePuts vd (lastWriters xs))

/-- The lane address of VLDS and VSTS (R187). -/
def State.strideAddr (s : State) (xa xb : XR) (off : BitVec 32) (k : Nat) : Word :=
  s.addr xa off + BitVec.ofNat 64 k * s.rx xb
/-- The lane address of VGATH and VSCAT (R187). -/
def State.indexAddr (s : State) (xa : XR) (vi : VR) (shift : Fin 4) (off : BitVec 32) (k : Nat) : Word :=
  s.addr xa off + (((s.rv vi (Fin.ofNat 4 k)).signExtend 64) <<< shift.val)

/-- VLDS (R187). -/
def execVlds (vd : VR) (xa xb : XR) (mk : Option MR) (off : BitVec 32) (s : State) : Out :=
  memSlot (.vlds vd xa xb mk off) s fun s => loadLanes vd (s.enabled mk) (s.strideAddr xa xb off) s
/-- VSTS (R187, R188). -/
def execVsts (vd : VR) (xa xb : XR) (mk : Option MR) (off : BitVec 32) (s : State) : Out :=
  storeSlot (.vsts vd xa xb mk off) s fun s => storeLanes vd (s.enabled mk) (s.strideAddr xa xb off) s
/-- VGATH (R187). -/
def execVgath (vd : VR) (xa : XR) (vi : VR) (shift : Fin 4) (mk : Option MR) (off : BitVec 32) (s : State) : Out :=
  memSlot (.vgath vd xa vi shift mk off) s fun s => loadLanes vd (s.enabled mk) (s.indexAddr xa vi shift off) s
/-- VSCAT (R187, R188). -/
def execVscat (vd : VR) (xa : XR) (vi : VR) (shift : Fin 4) (mk : Option MR) (off : BitVec 32) (s : State) : Out :=
  storeSlot (.vscat vd xa vi shift mk off) s fun s => storeLanes vd (s.enabled mk) (s.indexAddr xa vi shift off) s

end Sys2Proof.Machine
end

