-- ==== Sys2Proof/Machine/Vector.lean ====
section
/-!
DEFINITION. The vector and mask instructions of the A slot (R288 to R296).
-/

namespace Sys2Proof.Machine

/-! ## How a vector instruction ends -/

/-- The results of four lanes with the flags of each. -/
abbrev LaneRes := Vector (Lane × Flags) 4

/-- The flags of the enabled lanes together (R288). -/
def laneFlags (en : BitVec 4) (r : LaneRes) : Flags :=
  (List.finRange 4).foldl (fun fl k => if en.getLsbD k.val then fl ||| (r.get k).2 else fl) 0

/-- The end of a slot that has written a v register: its flags, or where the write stopped. -/
def ElemOut.finish (o : ElemOut) (fl : Flags) : Out :=
  match o with
  | .stop o => o
  | .done s => (s.raise fl).endA

/-- A vector result of latency 1 (R270). -/
def vecNow (i : Instr) (vd : VR) (en : State → BitVec 4) (f : State → LaneRes) (s : State) : Out :=
  slotA i s fun s =>
    let r := f s
    let fl := laneFlags (en s) r
    if s.fpTraps fl then s.endTrap true 0x0C (fl.setWidth 64)
    else (s.writeV true vd (en s) fun k => (r.get k).1).finish fl

/-- A vector result of a longer latency (R270, R271): its lanes are EMPTY until it arrives. An element of an output port
is sent at once. -/
def vecLater (i : Instr) (vd : VR) (mk : Option MR) (f : State → LaneRes) (s : State) : Out :=
  slotA i s fun s =>
    let en := s.enabled mk
    let r := f s
    let fl := laneFlags en r
    if s.fpTraps fl then s.endTrap true 0x0C (fl.setWidth 64)
    else if s.fpSync || s.isOutV vd then (s.writeV true vd en fun k => (r.get k).1).finish fl
    else if en = 0 then s.endA
    else ((s.emptyV vd en).send (.arithV s.cur.core s.cur.slot vd en (Vector.ofFn fun k : Fin 4 => (r.get k).1) fl)).1.endA

/-- The result of one lane. -/
def FpRes.lane (r : FpRes) : Lane × Flags := (r.bits, r.flags)

/-- The lanes of an operation on one v register. -/
def State.lanes1 (s : State) (va : VR) (g : Lane → Lane × Flags) : LaneRes := Vector.ofFn fun k : Fin 4 => g (s.rv va k)
/-- The lanes of an operation on two v registers. -/
def State.lanes2 (s : State) (va vb : VR) (g : Lane → Lane → Lane × Flags) : LaneRes :=
  Vector.ofFn fun k : Fin 4 => g (s.rv va k) (s.rv vb k)

/-! ## FP lanes (R288, R289) -/

/-- VADD (R288). -/
def execVadd (rm : Rm) (vd va vb : VR) (mk : Option MR) (s : State) : Out :=
  vecLater (.vadd rm vd va vb mk) vd mk (fun s => s.lanes2 va vb fun a b => (fpAdd (s.mode rm) a b).lane) s
/-- VSUB (R288). -/
def execVsub (rm : Rm) (vd va vb : VR) (mk : Option MR) (s : State) : Out :=
  vecLater (.vsub rm vd va vb mk) vd mk (fun s => s.lanes2 va vb fun a b => (fpSub (s.mode rm) a b).lane) s
/-- VMUL (R288). -/
def execVmul (rm : Rm) (vd va vb : VR) (mk : Option MR) (s : State) : Out :=
  vecLater (.vmul rm vd va vb mk) vd mk (fun s => s.lanes2 va vb fun a b => (fpMul (s.mode rm) a b).lane) s
/-- VFMA (R288): rounded once. -/
def execVfma (rm : Rm) (vd va vb vc : VR) (mk : Option MR) (s : State) : Out :=
  vecLater (.vfma rm vd va vb vc mk) vd mk
    (fun s => Vector.ofFn fun k : Fin 4 => (fpFma (s.mode rm) (s.rv va k) (s.rv vb k) (s.rv vc k)).lane) s
/-- VDIV (R288). -/
def execVdiv (rm : Rm) (vd va vb : VR) (mk : Option MR) (s : State) : Out :=
  vecLater (.vdiv rm vd va vb mk) vd mk (fun s => s.lanes2 va vb fun a b => (fpDiv (s.mode rm) a b).lane) s
/-- VSQRT (R288). -/
def execVsqrt (rm : Rm) (vd va : VR) (mk : Option MR) (s : State) : Out :=
  vecLater (.vsqrt rm vd va mk) vd mk (fun s => s.lanes1 va fun a => (fpSqrt (s.mode rm) a).lane) s
/-- VMIN (R288). -/
def execVmin (vd va vb : VR) (mk : Option MR) (s : State) : Out :=
  vecNow (.vmin vd va vb mk) vd (·.enabled mk) (fun s => s.lanes2 va vb fun a b => (fpMin a b).lane) s
/-- VMAX (R288). -/
def execVmax (vd va vb : VR) (mk : Option MR) (s : State) : Out :=
  vecNow (.vmax vd va vb mk) vd (·.enabled mk) (fun s => s.lanes2 va vb fun a b => (fpMax a b).lane) s
/-- VEXP2 (R289). -/
def execVexp2 (rm : Rm) (vd va : VR) (mk : Option MR) (s : State) : Out :=
  vecLater (.vexp2 rm vd va mk) vd mk (fun s => s.lanes1 va fun a => (fpExp2 (s.mode rm) a).lane) s
/-- VLOG2 (R289). -/
def execVlog2 (rm : Rm) (vd va : VR) (mk : Option MR) (s : State) : Out :=
  vecLater (.vlog2 rm vd va mk) vd mk (fun s => s.lanes1 va fun a => (fpLog2 (s.mode rm) a).lane) s

/-! ## Integer lanes, comparisons, moves (R290 to R295) -/

/-- The lane result of VINT (R290). -/
def vintLane (op : VintOp) (a b : Lane) : Lane :=
  match op with
  | .add => a + b
  | .sub => a - b
  | .mul => a * b
  | .and => a &&& b
  | .or => a ||| b
  | .xor => a ^^^ b
  | .shl => aluShl 32 a b
  | .shr => aluShr 32 a b
  | .sra => aluSra 32 a b
  | .min => aluMin false 32 a b
  | .max => aluMax false 32 a b
  | .minu => aluMin true 32 a b
  | .maxu => aluMax true 32 a b

/-- VINT (R290): MUL has a latency of 3 (R270). -/
def execVint (op : VintOp) (vd va vb : VR) (mk : Option MR) (s : State) : Out :=
  let f := fun (s : State) => s.lanes2 va vb fun a b => (vintLane op a b, 0)
  if op = .mul then vecLater (.vint op vd va vb mk) vd mk f s
  else vecNow (.vint op vd va vb mk) vd (·.enabled mk) f s

/-- The truth of a VCMP predicate on two lanes, with its flags (R291). -/
def vcmpLane (p : VPred) (a b : Lane) : Bool × Flags :=
  match p with
  | .feq => fpCmp .eq a b
  | .flt => fpCmp .lt a b
  | .fle => fpCmp .le a b
  | .fun_ => fpCmp .un a b
  | .ieq => (a == b, 0)
  | .ilt => (a.slt b, 0)
  | .iltu => (a.ult b, 0)

/-- A mask of four truth values. -/
def maskOf (f : Fin 4 → Bool) : BitVec 4 :=
  BitVec.ofNat 4 ((f 0).toNat + (f 1).toNat * 2 + (f 2).toNat * 4 + (f 3).toNat * 8)

/-- VCMP (R291): the bits of disabled lanes become 0. -/
def execVcmp (pred : VPred) (md : MR) (va vb : VR) (mk : Option MR) (s : State) : Out :=
  slotA (.vcmp pred md va vb mk) s fun s =>
    let en := s.enabled mk
    let r : Vector (Bool × Flags) 4 := Vector.ofFn fun k : Fin 4 => vcmpLane pred (s.rv va k) (s.rv vb k)
    let fl := laneFlags en (Vector.ofFn fun k : Fin 4 => (0, (r.get k).2))
    if s.fpTraps fl then s.endTrap true 0x0C (fl.setWidth 64)
    else ((s.setM md (maskOf fun k => en.getLsbD k.val && (r.get k).1)).raise fl).endA

/-- VSELM (R292): every lane is written. -/
def execVselm (vd va vb : VR) (mk : MR) (s : State) : Out :=
  vecNow (.vselm vd va vb mk) vd (fun _ => 0xF)
    (fun s => Vector.ofFn fun k : Fin 4 => (if (s.rm mk).getLsbD k.val then s.rv va k else s.rv vb k, 0)) s

/-- One combination of a reduction: the other operand when one is absent (R293). -/
def redComb (op : RedOp) (mode : RMode) (u w : Option Lane × Flags) : Option Lane × Flags :=
  let fl := u.2 ||| w.2
  match u.1, w.1 with
  | none, b => (b, fl)
  | a, none => (a, fl)
  | some a, some b =>
    let r := match op with
      | .add => fpAdd mode a b
      | .max => fpMax a b
      | .min => fpMin a b
    (some r.bits, fl ||| r.flags)

/-- The value of a reduction without an enabled lane (R293). -/
def redAbsent : RedOp → Lane
  | .add => 0
  | .max => 0xFF800000#32
  | .min => 0x7F800000#32

/-- A reduction of the enabled lanes in its fixed order (R293). -/
def reduce (op : RedOp) (mode : RMode) (en : BitVec 4) (v : Fin 4 → Lane) : Word × Flags :=
  let l (k : Fin 4) : Option Lane × Flags := (if en.getLsbD k.val then some (v k) else none, 0)
  let r := redComb op mode (redComb op mode (l 0) (l 1)) (redComb op mode (l 2) (l 3))
  ((r.1.getD (redAbsent op)).setWidth 64, r.2)

/-- VRED (R293). -/
def execVred (op : RedOp) (rm : Rm) (xd : XR) (va : VR) (mk : Option MR) (s : State) : Out :=
  fpLater (.vred op rm xd va mk) xd (fun s => reduce op (s.mode rm) (s.enabled mk) (s.rv va)) s

/-- VPERM (R294). -/
def execVperm (op : PermOp) (vd va : VR) (mk : Option MR) (s : State) : Out :=
  vecNow (.vperm op vd va mk) vd (·.enabled mk) (fun s => Vector.ofFn fun k : Fin 4 => (s.rv va (permLane op k), 0)) s

/-- The FCVT kind of a VCVT kind (R295). -/
def VcvtKind.scalar : VcvtKind → CvtKind
  | .toint => .toint | .fromint => .fromint | .touns => .touns | .fromuns => .fromuns

/-- VCVT (R295). -/
def execVcvt (kind : VcvtKind) (rm : Rm) (vd va : VR) (mk : Option MR) (s : State) : Out :=
  vecLater (.vcvt kind rm vd va mk) vd mk
    (fun s => s.lanes1 va fun a =>
      let r := fpCvt (VcvtKind.scalar kind) (s.mode rm) (a.setWidth 64)
      (r.1.setWidth 32, r.2)) s

/-! ## Masks (R296) -/

/-- The result of a two-operand mask operation (R296). -/
def maskResult (op : MaskOp) (a b : BitVec 4) : BitVec 4 :=
  match op with
  | .and => a &&& b
  | .or => a ||| b
  | .xor => a ^^^ b
  | .andn => a &&& ~~~b

/-- VMASK.and, .or, .xor and .andn (R296). -/
def execVmask (op : MaskOp) (md ma mb : MR) (s : State) : Out :=
  slotA (.vmask op md ma mb) s fun s => (s.setM md (maskResult op (s.rm ma) (s.rm mb))).endA
/-- VMASK.not (R296). -/
def execVmaskNot (md ma : MR) (s : State) : Out := slotA (.vmaskNot md ma) s fun s => (s.setM md (~~~(s.rm ma))).endA
/-- VMASK.fromx (R296). -/
def execVmaskFromx (md : MR) (xa : XR) (s : State) : Out :=
  slotA (.vmaskFromx md xa) s fun s => (s.setM md ((s.rx xa).setWidth 4)).endA
/-- VMASK.tox (R296). -/
def execVmaskTox (xd : XR) (ma : MR) (s : State) : Out :=
  slotA (.vmaskTox xd ma) s fun s => (s.setX xd ((s.rm ma).setWidth 64)).endA

end Sys2Proof.Machine
end

