-- ==== Sys2Proof/Machine/Dispatch.lean ====
section
/-!
DEFINITION. The dispatch: one arm per constructor of the instruction type.
-/

namespace Sys2Proof.Machine

/-- What an instruction, operation or event does. -/
def exec (i : Instr) (s : State) : Host.Outcome State Fault Refusal :=
  match i with
  | .moduleReset img => Sys2Proof.Machine.execModuleReset img s
  | .registerWrite off val => Sys2Proof.Machine.execRegisterWrite off val s
  | .homeAccess k => Sys2Proof.Machine.execHomeAccess k s
  | .accessReply k => Sys2Proof.Machine.execAccessReply k s
  | .acknowledgement k => Sys2Proof.Machine.execAcknowledgement k s
  | .commit k => Sys2Proof.Machine.execCommit k s
  | .blockAssemblyResume core slot => Sys2Proof.Machine.execBlockAssemblyResume core slot s
  | .wake k => Sys2Proof.Machine.execWake k s
  | .cancel k => Sys2Proof.Machine.execCancel k s
  | .holdTimeout h => Sys2Proof.Machine.execHoldTimeout h s
  | .patrolRead c => Sys2Proof.Machine.execPatrolRead c s
  | .rowSpareDone c ch bank row => Sys2Proof.Machine.execRowSpareDone c ch bank row s
  | .pageRetirement page => Sys2Proof.Machine.execPageRetirement page s
  | .spareAdd val => Sys2Proof.Machine.execSpareAdd val s
  | .poolExt ix val => Sys2Proof.Machine.execPoolExt ix val s
  | .poolRel val => Sys2Proof.Machine.execPoolRel val s
  | .forcedRemoval ix => Sys2Proof.Machine.execForcedRemoval ix s
  | .vaultPatrol tile => Sys2Proof.Machine.execVaultPatrol tile s
  | .fmcErr c => Sys2Proof.Machine.execFmcErr c s
  | .dimusRun k => Sys2Proof.Machine.execDimusRun k s
  | .pptSet val => Sys2Proof.Machine.execPptSet val s
  | .pptBase val => Sys2Proof.Machine.execPptBase val s
  | .retypeComplete k => Sys2Proof.Machine.execRetypeComplete k s
  | .zeroComplete k => Sys2Proof.Machine.execZeroComplete k s
  | .channelCompletion k => Sys2Proof.Machine.execChannelCompletion k s
  | .channelResume tile p => Sys2Proof.Machine.execChannelResume tile p s
  | .mmaAccumulation tile => Sys2Proof.Machine.execMmaAccumulation tile s
  | .partialArrival k => Sys2Proof.Machine.execPartialArrival k s
  | .resultArrival k => Sys2Proof.Machine.execResultArrival k s
  | .abortRequest k => Sys2Proof.Machine.execAbortRequest k s
  | .abortBroadcastArrival k => Sys2Proof.Machine.execAbortBroadcastArrival k s
  | .corePlaneDiscard k => Sys2Proof.Machine.execCorePlaneDiscard k s
  | .barrierSignal k => Sys2Proof.Machine.execBarrierSignal k s
  | .zinCtl val => Sys2Proof.Machine.execZinCtl val s
  | .inputElementArrival core port => Sys2Proof.Machine.execInputElementArrival core port s
  | .quantumExpiry core => Sys2Proof.Machine.execQuantumExpiry core s
  | .reservationRequest k => Sys2Proof.Machine.execReservationRequest k s
  | .reservationAnswer k => Sys2Proof.Machine.execReservationAnswer k s
  | .fibreArrival k => Sys2Proof.Machine.execFibreArrival k s
  | .poolPlacement core => Sys2Proof.Machine.execPoolPlacement core s
  | .qWr q val => Sys2Proof.Machine.execQWr q val s
  | .qCfg q val => Sys2Proof.Machine.execQCfg q val s
  | .launchDispatch t => Sys2Proof.Machine.execLaunchDispatch t s
  | .rootPlacementRetry t => Sys2Proof.Machine.execRootPlacementRetry t s
  | .launchCompletion k => Sys2Proof.Machine.execLaunchCompletion k s
  | .part t val => Sys2Proof.Machine.execPart t val s
  | .evictionSave t => Sys2Proof.Machine.execEvictionSave t s
  | .evictionDeadline t => Sys2Proof.Machine.execEvictionDeadline t s
  | .contextRestore t => Sys2Proof.Machine.execContextRestore t s
  | .powerMeasurement milliwatts => Sys2Proof.Machine.execPowerMeasurement milliwatts s
  | .deadlockEvent t => Sys2Proof.Machine.execDeadlockEvent t s
  | .watchdogExpiry t => Sys2Proof.Machine.execWatchdogExpiry t s
  | .larkStopResume t => Sys2Proof.Machine.execLarkStopResume t s
  | .larkStopKill t => Sys2Proof.Machine.execLarkStopKill t s
  | .bar0UnsupportedRequest off len write => Sys2Proof.Machine.execBar0UnsupportedRequest off len write s
  | .bar2Read off n => Sys2Proof.Machine.execBar2Read off n s
  | .bar2Write off data => Sys2Proof.Machine.execBar2Write off data s
  | .hostWriteDrop k => Sys2Proof.Machine.execHostWriteDrop k s
  | .hseal val => Sys2Proof.Machine.execHseal val s
  | .msixUnmask vec => Sys2Proof.Machine.execMsixUnmask vec s
  | .errCfg acc => Sys2Proof.Machine.execErrCfg acc s
  | .resyncCtl val => Sys2Proof.Machine.execResyncCtl val s
  | .fabId val => Sys2Proof.Machine.execFabId val s
  | .fabricPortTrained ix peer => Sys2Proof.Machine.execFabricPortTrained ix peer s
  | .fabricPortDown ix => Sys2Proof.Machine.execFabricPortDown ix s
  | .measExt val => Sys2Proof.Machine.execMeasExt val s
  | .attCtl val => Sys2Proof.Machine.execAttCtl val s
  | .taskBreakpoint ix => Sys2Proof.Machine.execTaskBreakpoint ix s
  | .traceDrain tile => Sys2Proof.Machine.execTraceDrain tile s
  | .tilePowerGate tile => Sys2Proof.Machine.execTilePowerGate tile s
  | .thermalEmergency tiles => Sys2Proof.Machine.execThermalEmergency tiles s
  | .beq xa xb off => Sys2Proof.Machine.execBeq xa xb off s
  | .bne xa xb off => Sys2Proof.Machine.execBne xa xb off s
  | .blt xa xb off => Sys2Proof.Machine.execBlt xa xb off s
  | .bge xa xb off => Sys2Proof.Machine.execBge xa xb off s
  | .bltu xa xb off => Sys2Proof.Machine.execBltu xa xb off s
  | .bgeu xa xb off => Sys2Proof.Machine.execBgeu xa xb off s
  | .bz xa off => Sys2Proof.Machine.execBz xa off s
  | .bnz xa off => Sys2Proof.Machine.execBnz xa off s
  | .j off => Sys2Proof.Machine.execJ off s
  | .jal off => Sys2Proof.Machine.execJal off s
  | .jr xa => Sys2Proof.Machine.execJr xa s
  | .ld size sgn acq xd xa off => Sys2Proof.Machine.execLd size sgn acq xd xa off s
  | .st size rel xd xa off => Sys2Proof.Machine.execSt size rel xd xa off s
  | .vld vd xa mk off => Sys2Proof.Machine.execVld vd xa mk off s
  | .vst vd xa mk off => Sys2Proof.Machine.execVst vd xa mk off s
  | .ldg size sgn xd xa xg off => Sys2Proof.Machine.execLdg size sgn xd xa xg off s
  | .savem xa list off => Sys2Proof.Machine.execSavem xa list off s
  | .loadm xa list off => Sys2Proof.Machine.execLoadm xa list off s
  | .pref tlbOnly xa off => Sys2Proof.Machine.execPref tlbOnly xa off s
  | .sealb xa off => Sys2Proof.Machine.execSealb xa off s
  | .clr xa off => Sys2Proof.Machine.execClr xa off s
  | .probe xd xa off => Sys2Proof.Machine.execProbe xd xa off s
  | .bwait xa off => Sys2Proof.Machine.execBwait xa off s
  | .amo op sz ord sc mg xd xs xa => Sys2Proof.Machine.execAmo op sz ord sc mg xd xs xa s
  | .famo op ord sc mg xd xs xa => Sys2Proof.Machine.execFamo op ord sc mg xd xs xa s
  | .decj sz span xd xa xs => Sys2Proof.Machine.execDecj sz span xd xa xs s
  | .migrate v xa => Sys2Proof.Machine.execMigrate v xa s
  | .anchorClaim xd => Sys2Proof.Machine.execAnchorClaim xd s
  | .anchorFree xd => Sys2Proof.Machine.execAnchorFree xd s
  | .self kind xd => Sys2Proof.Machine.execSelf kind xd s
  | .fence kinds sc => Sys2Proof.Machine.execFence kinds sc s
  | .trap code => Sys2Proof.Machine.execTrap code s
  | .mfs xd reg => Sys2Proof.Machine.execMfs xd reg s
  | .mts reg xa => Sys2Proof.Machine.execMts reg xa s
  | .brk code => Sys2Proof.Machine.execBrk code s
  | .idr xd index => Sys2Proof.Machine.execIdr xd index s
  | .add sz xd xa xb => Sys2Proof.Machine.execAdd sz xd xa xb s
  | .sub sz xd xa xb => Sys2Proof.Machine.execSub sz xd xa xb s
  | .mul sz xd xa xb => Sys2Proof.Machine.execMul sz xd xa xb s
  | .mulh u sz xd xa xb => Sys2Proof.Machine.execMulh u sz xd xa xb s
  | .div u sz xd xa xb => Sys2Proof.Machine.execDiv u sz xd xa xb s
  | .rem u sz xd xa xb => Sys2Proof.Machine.execRem u sz xd xa xb s
  | .and sz xd xa xb => Sys2Proof.Machine.execAnd sz xd xa xb s
  | .or sz xd xa xb => Sys2Proof.Machine.execOr sz xd xa xb s
  | .xor sz xd xa xb => Sys2Proof.Machine.execXor sz xd xa xb s
  | .andn sz xd xa xb => Sys2Proof.Machine.execAndn sz xd xa xb s
  | .shl sz xd xa xb => Sys2Proof.Machine.execShl sz xd xa xb s
  | .shr sz xd xa xb => Sys2Proof.Machine.execShr sz xd xa xb s
  | .sra sz xd xa xb => Sys2Proof.Machine.execSra sz xd xa xb s
  | .rol sz xd xa xb => Sys2Proof.Machine.execRol sz xd xa xb s
  | .min u sz xd xa xb => Sys2Proof.Machine.execMin u sz xd xa xb s
  | .max u sz xd xa xb => Sys2Proof.Machine.execMax u sz xd xa xb s
  | .slt u sz xd xa xb => Sys2Proof.Machine.execSlt u sz xd xa xb s
  | .seteq sz xd xa xb => Sys2Proof.Machine.execSeteq sz xd xa xb s
  | .setne sz xd xa xb => Sys2Proof.Machine.execSetne sz xd xa xb s
  | .clz sz xd xa => Sys2Proof.Machine.execClz sz xd xa s
  | .ctz sz xd xa => Sys2Proof.Machine.execCtz sz xd xa s
  | .popc sz xd xa => Sys2Proof.Machine.execPopc sz xd xa s
  | .sext ext xd xa => Sys2Proof.Machine.execSext ext xd xa s
  | .zext ext xd xa => Sys2Proof.Machine.execZext ext xd xa s
  | .sel sz xd xa xb xc => Sys2Proof.Machine.execSel sz xd xa xb xc s
  | .mov xd xa => Sys2Proof.Machine.execMov xd xa s
  | .addi sz xd xa imm => Sys2Proof.Machine.execAddi sz xd xa imm s
  | .andi sz xd xa imm => Sys2Proof.Machine.execAndi sz xd xa imm s
  | .ori sz xd xa imm => Sys2Proof.Machine.execOri sz xd xa imm s
  | .xori sz xd xa imm => Sys2Proof.Machine.execXori sz xd xa imm s
  | .shi op sz xd xa n => Sys2Proof.Machine.execShi op sz xd xa n s
  | .fadd rm xd xa xb => Sys2Proof.Machine.execFadd rm xd xa xb s
  | .fsub rm xd xa xb => Sys2Proof.Machine.execFsub rm xd xa xb s
  | .fmul rm xd xa xb => Sys2Proof.Machine.execFmul rm xd xa xb s
  | .fdiv rm xd xa xb => Sys2Proof.Machine.execFdiv rm xd xa xb s
  | .fsqrt rm xd xa => Sys2Proof.Machine.execFsqrt rm xd xa s
  | .fma rm xd xa xb xc => Sys2Proof.Machine.execFma rm xd xa xb xc s
  | .fmin xd xa xb => Sys2Proof.Machine.execFmin xd xa xb s
  | .fmax xd xa xb => Sys2Proof.Machine.execFmax xd xa xb s
  | .fsgn op xd xa xb => Sys2Proof.Machine.execFsgn op xd xa xb s
  | .fcmp pred xd xa xb => Sys2Proof.Machine.execFcmp pred xd xa xb s
  | .fcvt kind rm xd xa => Sys2Proof.Machine.execFcvt kind rm xd xa s
  | .fclass xd xa => Sys2Proof.Machine.execFclass xd xa s
  | .vadd rm vd va vb mk => Sys2Proof.Machine.execVadd rm vd va vb mk s
  | .vsub rm vd va vb mk => Sys2Proof.Machine.execVsub rm vd va vb mk s
  | .vmul rm vd va vb mk => Sys2Proof.Machine.execVmul rm vd va vb mk s
  | .vfma rm vd va vb vc mk => Sys2Proof.Machine.execVfma rm vd va vb vc mk s
  | .vdiv rm vd va vb mk => Sys2Proof.Machine.execVdiv rm vd va vb mk s
  | .vsqrt rm vd va mk => Sys2Proof.Machine.execVsqrt rm vd va mk s
  | .vmin vd va vb mk => Sys2Proof.Machine.execVmin vd va vb mk s
  | .vmax vd va vb mk => Sys2Proof.Machine.execVmax vd va vb mk s
  | .vexp2 rm vd va mk => Sys2Proof.Machine.execVexp2 rm vd va mk s
  | .vlog2 rm vd va mk => Sys2Proof.Machine.execVlog2 rm vd va mk s
  | .vint op vd va vb mk => Sys2Proof.Machine.execVint op vd va vb mk s
  | .vcmp pred md va vb mk => Sys2Proof.Machine.execVcmp pred md va vb mk s
  | .vselm vd va vb mk => Sys2Proof.Machine.execVselm vd va vb mk s
  | .vred op rm xd va mk => Sys2Proof.Machine.execVred op rm xd va mk s
  | .vperm op vd va mk => Sys2Proof.Machine.execVperm op vd va mk s
  | .vcvt kind rm vd va mk => Sys2Proof.Machine.execVcvt kind rm vd va mk s
  | .vmask op md ma mb => Sys2Proof.Machine.execVmask op md ma mb s
  | .vmaskNot md ma => Sys2Proof.Machine.execVmaskNot md ma s
  | .vmaskFromx md xa => Sys2Proof.Machine.execVmaskFromx md xa s
  | .vmaskTox xd ma => Sys2Proof.Machine.execVmaskTox xd ma s
  | .movi xd imm => Sys2Proof.Machine.execMovi xd imm s
  | .movhi xd imm => Sys2Proof.Machine.execMovhi xd imm s
  | .ldl size sgn acq xd xa off => Sys2Proof.Machine.execLdl size sgn acq xd xa off s
  | .stl size rel xs xa off => Sys2Proof.Machine.execStl size rel xs xa off s
  | .jl off => Sys2Proof.Machine.execJl off s
  | .calll off => Sys2Proof.Machine.execCalll off s
  | .cas sz ord sc mg xd xs xa off => Sys2Proof.Machine.execCas sz ord sc mg xd xs xa off s
  | .amol op sz ord sc mg xd xs xa off => Sys2Proof.Machine.execAmol op sz ord sc mg xd xs xa off s
  | .vlds vd xa xb mk off => Sys2Proof.Machine.execVlds vd xa xb mk off s
  | .vsts vd xa xb mk off => Sys2Proof.Machine.execVsts vd xa xb mk off s
  | .vgath vd xa vi shift mk off => Sys2Proof.Machine.execVgath vd xa vi shift mk off s
  | .vscat vd xa vi shift mk off => Sys2Proof.Machine.execVscat vd xa vi shift mk off s
  | .sbind sp xa => Sys2Proof.Machine.execSbind sp xa s
  | .sfree sp => Sys2Proof.Machine.execSfree sp s
  | .sstat xd sp => Sys2Proof.Machine.execSstat xd sp s
  | .mbegin act wide p k => Sys2Proof.Machine.execMbegin act wide p k s
  | .mma p xa xb stride => Sys2Proof.Machine.execMma p xa xb stride s
  | .mend p => Sys2Proof.Machine.execMend p s
  | .mst p xa stride => Sys2Proof.Machine.execMst p xa stride s
  | .mzero p => Sys2Proof.Machine.execMzero p s
  | .mrv vd p row grp => Sys2Proof.Machine.execMrv vd p row grp s
  | .mva p vs row grp => Sys2Proof.Machine.execMva p vs row grp s
  | .mscl p rs cs => Sys2Proof.Machine.execMscl p rs cs s
  | .mstat xr p => Sys2Proof.Machine.execMstat xr p s
  | .bget xr p => Sys2Proof.Machine.execBget xr p s
  | .bset p xa => Sys2Proof.Machine.execBset p xa s
  | .bthr act p k => Sys2Proof.Machine.execBthr act p k s
  | .bblk xr xa => Sys2Proof.Machine.execBblk xr xa s
  | .bblkSet xa xb => Sys2Proof.Machine.execBblkSet xa xb s
  | .bmark xa xb => Sys2Proof.Machine.execBmark xa xb s
  | .cpy ch xb xa len gen done => Sys2Proof.Machine.execCpy ch xb xa len gen done s
  | .cpyg ch xb xa xc rows atoms gen done => Sys2Proof.Machine.execCpyg ch xb xa xc rows atoms gen done s
  | .cpys ch xb xa xc rows atoms gen done => Sys2Proof.Machine.execCpys ch xb xa xc rows atoms gen done s
  | .cpyt ch xb xa xc first gen done => Sys2Proof.Machine.execCpyt ch xb xa xc first gen done s
  | .cpyc ch xb xa len gen done => Sys2Proof.Machine.execCpyc ch xb xa len gen done s
  | .cpyk ch slot xa xc gen done => Sys2Proof.Machine.execCpyk ch slot xa xc gen done s
  | .cpywWait ch xr => Sys2Proof.Machine.execCpywWait ch xr s
  | .cpywQuery ch xr => Sys2Proof.Machine.execCpywQuery ch xr s
  | .cvq fmt ch xb xa xc rows gen done => Sys2Proof.Machine.execCvq fmt ch xb xa xc rows gen done s
  | .cvd fmt ch xb xa xc rows gen done => Sys2Proof.Machine.execCvd fmt ch xb xa xc rows gen done s
  | .cvr src dst ch xb xa xc rows gen done => Sys2Proof.Machine.execCvr src dst ch xb xa xc rows gen done s
  | .cvwWait ch xr => Sys2Proof.Machine.execCvwWait ch xr s
  | .cvwQuery ch xr => Sys2Proof.Machine.execCvwQuery ch xr s
  | .carm xa xb => Sys2Proof.Machine.execCarm xa xb s
  | .cdis xa => Sys2Proof.Machine.execCdis xa s
  | .cabt xa seq => Sys2Proof.Machine.execCabt xa seq s
  | .mcast col xa first last => Sys2Proof.Machine.execMcast col xa first last s
  | .barrier xa xr => Sys2Proof.Machine.execBarrier xa xr s
  | .cstat xr xa => Sys2Proof.Machine.execCstat xr xa s
  | .ship n xa xb xc => Sys2Proof.Machine.execShip n xa xb xc s
  | .shipr n xr xa xb xc => Sys2Proof.Machine.execShipr n xr xa xb xc s
  | .dload n xa => Sys2Proof.Machine.execDload n xa s
  | .spawn v t xa xb xc res => Sys2Proof.Machine.execSpawn v t xa xb xc res s
  | .spawnr t xa xb xc w h res => Sys2Proof.Machine.execSpawnr t xa xb xc w h res s
  | .map lvl xa xb => Sys2Proof.Machine.execMap lvl xa xb s
  | .unmap lvl xa => Sys2Proof.Machine.execUnmap lvl xa s
  | .tlbiVa xa => Sys2Proof.Machine.execTlbiVa xa s
  | .tlbiCtx xb => Sys2Proof.Machine.execTlbiCtx xb s
  | .retype ty empty xa done => Sys2Proof.Machine.execRetype ty empty xa done s
  | .watchOn filter xa => Sys2Proof.Machine.execWatchOn filter xa s
  | .watchOff filter xa => Sys2Proof.Machine.execWatchOff filter xa s
  | .zero xa pages done => Sys2Proof.Machine.execZero xa pages done s
  | .illegalEncoding w0 w1 => Sys2Proof.Machine.execIllegalEncoding w0 w1 s
  | .arithmeticResult k => Sys2Proof.Machine.execArithmeticResult k s
  | .contextKillComplete t => Sys2Proof.Machine.execContextKillComplete t s
  | .fabPort ix => Sys2Proof.Machine.execFabPort ix s
  | .poolReleaseDone => Sys2Proof.Machine.execPoolReleaseDone s
  | .moveStart => Sys2Proof.Machine.execMoveStart s
  | .moveCut => Sys2Proof.Machine.execMoveCut s
  | .moveFinalPass => Sys2Proof.Machine.execMoveFinalPass s
  | .moveRelease => Sys2Proof.Machine.execMoveRelease s
  | .moveAbort => Sys2Proof.Machine.execMoveAbort s
  | .zinniaSnapshot => Sys2Proof.Machine.execZinniaSnapshot s
  | .ebudRefill => Sys2Proof.Machine.execEbudRefill s
  | .larkResume => Sys2Proof.Machine.execLarkResume s
  | .hcbStat => Sys2Proof.Machine.execHcbStat s
  | .errorInterrupt => Sys2Proof.Machine.execErrorInterrupt s
  | .resyncDone => Sys2Proof.Machine.execResyncDone s
  | .attestationDone => Sys2Proof.Machine.execAttestationDone s
  | .thermalThrottle => Sys2Proof.Machine.execThermalThrottle s
  | .nopc => Sys2Proof.Machine.execNopc s
  | .exit => Sys2Proof.Machine.execExit s
  | .yield => Sys2Proof.Machine.execYield s
  | .push => Sys2Proof.Machine.execPush s
  | .pull => Sys2Proof.Machine.execPull s
  | .rtt => Sys2Proof.Machine.execRtt s
  | .nopa => Sys2Proof.Machine.execNopa s
  | .tlbiAll => Sys2Proof.Machine.execTlbiAll s
  | .instructionFetchFault => Sys2Proof.Machine.execInstructionFetchFault s

end Sys2Proof.Machine
end

