-- ==== Sys2Proof/Machine/Plan.lean ====
section
/-!
DEFINITION. Whose turn is next: the plan, or one of the turns that may come next (log 1).
-/

namespace Sys2Proof.Machine

/-- The event that carries a message on (log 1). -/
def Msg.event (id : Nat) : Msg → Instr
  | .arithX .. | .arithV .. => .arithmeticResult id
  | .req a => match a.op with
    | .commit _ => .commit id
    | .cancel .. => .cancel id
    | .dimus .. => .dimusRun id
    | .chanEnd => .channelCompletion id
    | _ => .homeAccess id
  | .reply .. | .fill .. | .done .. => .accessReply id
  | .ack _ | .answer .. => .acknowledgement id
  | .wake .. => .wake id
  | .reserve _ => .reservationRequest id
  | .reserved .. => .reservationAnswer id
  | .travel _ => .fibreArrival id
  | .part _ => .partialArrival id
  | .result .. => .resultArrival id
  | .abort .. => .abortRequest id
  | .aborted .. => .abortBroadcastArrival id
  | .signal .. => .barrierSignal id
  | .retype .. => .retypeComplete id
  | .zero .. => .zeroComplete id
  | .launchDone _ => .launchCompletion id

/-- The cores that hold a READY or RUNNING fibre. -/
def State.busyCores (s : State) : List Nat :=
  (s.fibres.filterMap fun e => if e.2.st = .ready ∨ e.2.st = .running then some (e.1 / 256) else none).eraseDups

/-- The turns of the launch unit and of what follows it in the partitions: grants, saves, restores, kills, lost progress. -/
def State.partTurns (s : State) : List Instr :=
  (List.range 64).flatMap fun t =>
    if !s.partEn t then []
    else
      (if s.partState t < 2 ∧ (!(s.grantable t).isEmpty || !(s.waiting t).isEmpty) then [.launchDispatch t] else [])
        ++ (if s.roots.any (s.rootWaits t) then [.rootPlacementRetry t] else [])
        ++ (if s.partState t = 2 ∧ (s.resident t).isSome ∧ (s.kills.get? t).isNone then [.evictionSave t] else [])
        ++ (if (s.incoming.get? t).isSome ∧ (s.resident t).isNone ∧ (s.kills.get? t).isNone then [.contextRestore t] else [])
        ++ (if (s.kills.get? t).isSome then [.contextKillComplete t] else [])

/-- The turns of units that have work of their own: tiles, waits for buffers and pools, page moves, slow activities. -/
def State.unitTurns (s : State) : List Instr :=
  (s.tiles.flatMap fun e =>
    (if e.2.mmas.isEmpty then [] else [.mmaAccumulation e.1])
      ++ ((e.2.waiting fun w => w == .group).filter fun q => !q.1).map fun q => .channelResume e.1 q.2)
  ++ (s.fibres.filterMap fun e => if e.2.need = .assembly then some (.blockAssemblyResume (e.1 / 256) (e.1 % 256)) else none)
  ++ ((s.pool.map fun t => t.core).eraseDups.map .poolPlacement)
  ++ (if s.move.isNone then [] else if s.regF moveStatOff 60 3 = 1 then [.moveCut]
      else if s.regF moveStatOff 60 3 = 2 then [.moveFinalPass] else [])
  ++ (if s.regF rstatOff 63 1 = 1 then [.poolReleaseDone] else [])
  ++ (if s.lark.isSome then [.larkResume] else [])
  ++ (if s.summary.isSome then [.resyncDone] else [])
  ++ (if s.report.isSome then [.attestationDone] else [])

/-- The packages for which something waits that could go on now (R136, R456). -/
def State.fabricWaits (s : State) : List Nat :=
  let fibres := s.fibres.filterMap fun e => match e.2.need with
    | .hold p _ => some p
    | _ => none
  let chans := s.tiles.flatMap fun e => ((List.range 8).map (e.2.chan false) ++ (List.range 4).map (e.2.chan true)).filterMap fun c =>
    match c.wait with
    | .hold p _ => some p
    | _ => none
  let ports := s.cores.flatMap fun e => e.2.sp.toList.filterMap fun p => p.held.map (·.1)
  (((fibres ++ chans ++ ports).filter fun p => decide (fabricHold 0 ≤ p)).map fun p => p - fabricHold 0).eraseDups.filter s.routeUp

/-- What another package has held goes on (R136, R456). -/
def State.fabricGo (s : State) (n : Nat) : State := if s.routeUp n then s.releaseHolds (· == fabricHold n) else s

/-- The turns that may come next when the plan is empty: a core that can run, a message that can arrive, a unit that has
work. -/
def State.candidates (s : State) : List Turn :=
  s.busyCores.map Turn.core ++ s.net.map (fun p => Turn.event (p.2.event p.1))
    ++ (s.partTurns ++ s.unitTurns).map Turn.event ++ s.fabricWaits.map Turn.fabric

/-- The next turn: the plan's, or one that a free value picks (log 1). -/
def State.nextTurn (s : State) : Option Turn × State :=
  match s.plan with
  | t :: ts => (some t, { s with plan := ts })
  | [] =>
    match s.candidates with
    | [] => (none, s)
    | [t] => (some t, s)
    | ts =>
      let (n, s) := s.takeFresh
      (ts[Config.pick n % ts.length]?, s)

/-- One turn of the machine. -/
def turn (ex : Instr → State → Out) (s : State) : Out :=
  match s.nextTurn with
  | (none, s) => .next s
  | (some (.core c), s) => coreTurn ex c s
  | (some (.event i), s) => ex i s
  | (some (.bar0 off n data), s) => barAccess off n data s
  | (some (.fabric n), s) => .next (s.fabricGo n)
  | (some (.ahead c pc), s) => .next (fetchAhead c pc s)
  | (some (.discard c pa), s) => .next (s.modCore c fun r => { r with ahead := r.ahead.erase pa })

end Sys2Proof.Machine
end

