-- ==== Sys2Proof/Machine/Step.lean ====
section
/-!
DEFINITION. One step of the machine, and the state in which the next step runs a given instruction.
-/

namespace Sys2Proof.Machine

/-- One step: the next turn of the plan (log 1). -/
def step (s : State) : Host.Outcome State Fault Refusal := turn exec s

/-- The state in which the next step fetches and runs the instruction that a number of the opcode table stands for
(log 15). -/
def State.withFetchWord (s : State) (nbits w : Nat) : State :=
  s.place (tableWords nbits w).bundle.1 (tableWords nbits w).bundle.2

end Sys2Proof.Machine
end

