-- ==== Sys2Proof/Safety.lean ====
section
/-!
DEFINITION. What counts as a safe run, and the words in which claims are made: the canonical form of the state, when
the operands of an instruction let it act, and what two states have in common.
-/

namespace Sys2Proof

/-- Whether an instruction is a copy or conversion command that checks no generation (R48). -/
def Instr.uncheckedGen : Instr → Bool
  | .cpy _ _ _ _ g _ | .cpyc _ _ _ _ g _ | .cpyk _ _ _ _ g _ | .cpyg _ _ _ _ _ _ g _ | .cpys _ _ _ _ _ _ g _
  | .cpyt _ _ _ _ _ g _ | .cvq _ _ _ _ _ _ g _ | .cvd _ _ _ _ _ _ g _ | .cvr _ _ _ _ _ _ _ g _ => g.isNone
  | _ => false

end Sys2Proof

namespace Sys2Proof.Machine

/-! ## Safe runs -/

/-- A state from which the machine goes on: its next step is a next state. -/
def State.goesOn (s : State) : Prop := ∃ t, step s = .next t

/-- The form that every step keeps: local memory, host memory, the fibres and the cores are in canonical form. -/
structure State.Inv (s : State) : Prop where
  mem    : Memory.wf s.mem = true
  host   : Memory.wf s.hostMem = true
  fibres : AMap.wf {} s.fibres = true
  cores  : AMap.wf {} s.cores = true

/-- The form as a statement that can be decided. -/
theorem State.inv_iff (s : State) : s.Inv ↔ Memory.wf s.mem = true ∧ Memory.wf s.hostMem = true
    ∧ AMap.wf {} s.fibres = true ∧ AMap.wf {} s.cores = true :=
  ⟨fun ⟨a, b, c, d⟩ => ⟨a, b, c, d⟩, fun ⟨a, b, c, d⟩ => ⟨a, b, c, d⟩⟩

/-- A safe run of `n` steps: every step goes on, and every state on the way has the canonical form. -/
def Safe : Nat → State → Prop
  | 0, s => s.Inv
  | n + 1, s => s.Inv ∧ ∃ t, step s = .next t ∧ Safe n t

/-! ## When an instruction may act (R24, R52, R212, R269, R274, R298) -/

/-- An x register that an instruction may read and write: FULL, without a flag. -/
def State.xClear (s : State) (i : XR) : Prop :=
  (s.ops.f.x.get i).full = true ∧ (s.ops.f.x.get i).flag = .none

/-- A v register that an instruction may read and write: no stream port is bound to it, and every lane is FULL and
without a flag. -/
def State.vClear (s : State) (r : VR) : Prop :=
  (∀ p, s.portV r = some p → p.bound = false)
    ∧ ∀ k : Fin 4, ((s.ops.v.get r).get k).full = true ∧ ((s.ops.v.get r).get k).flag = .none

/-- What lets an instruction act, in the words of the spec: the mode that it needs, the anchor and the core that it needs,
and its registers clear. -/
structure State.Clear (s : State) (i : Instr) : Prop where
  mode   : i.userFault = true → s.ops.f.sys = true
  anchor : i.anchored = true → s.ops.f.anc = true
  role   : ∀ r, i.role = some r → coreInTile s.cur.core = r
  xs     : ∀ r ∈ i.regUse.xs, s.xClear r
  vs     : ∀ r ∈ i.regUse.vs, s.vClear r

/-! ## Numbers at the operating width (R275) -/

/-- The bits of an operating width. -/
def widthBits (sz : Wd) : Nat :=
  match sz with
  | .w => 32
  | .d => 64

/-- An operand cut to the operating width and read as an unsigned integer: A and B of R280. -/
def opNat (sz : Wd) (x : Word) : Nat := x.toNat % 2 ^ widthBits sz

/-- An operand cut to the operating width and read as a signed integer: sA and sB of R280. -/
def opInt (sz : Wd) (x : Word) : Int :=
  if opNat sz x < 2 ^ (widthBits sz - 1) then opNat sz x else (opNat sz x : Int) - 2 ^ widthBits sz

/-- A number modulo 2^n, extended under R275: what an integer instruction writes. -/
def widthWord (sz : Wd) (z : Int) : Word := BitVec.ofInt 64 ((BitVec.ofInt (widthBits sz) z).toInt)

/-- A word with the bits that a function gives: those above the operating width repeat its top bit (R275). -/
def bitsWord (sz : Wd) (f : Nat → Bool) (v : Word) : Prop :=
  ∀ k, k < 64 → v.getLsbD k = f (min k (widthBits sz - 1))

/-- A shift of R280 by a number of places: left, right, right with the sign, or left around. -/
def shifted (op : ShOp) (sz : Wd) (x : Word) (k : Nat) : Int :=
  match op with
  | .shl => opNat sz x * 2 ^ k
  | .shr => opNat sz x / 2 ^ k
  | .sra => opInt sz x / 2 ^ k
  | .rol => opNat sz x * 2 ^ k + opNat sz x / 2 ^ (widthBits sz - k)

/-! ## How a slot ends well -/

/-- The end of an A-slot instruction that writes an x register at once: the register holds the value, FULL and without a
flag, and nothing else has changed (R35, R268). -/
def State.wroteX (s : State) (xd : XR) (v : Word) : State := (s.setX xd v).withDisp .retired

/-- The end of an arithmetic instruction whose result comes later (R268, R270): its destination is EMPTY, and the value and
the flags are on their way to it. -/
def State.sentX (s : State) (xd : XR) (v : Word) (fl : Flags) : State :=
  ((s.emptyX xd).send (.arithX s.cur.core s.cur.slot xd v fl)).1.withDisp .retired

/-- The trap of an FP instruction that raises an enabled flag: cause 0x0C with every flag that it raised (R68). -/
def State.fpTrap (s : State) (fl : Flags) : State := s.trapEntry true 0x0C (fl.setWidth 64)

/-- How an FP instruction of latency 1 ends, whose result is `v` with flags `fl` (R67, R68, R270). -/
def FpEndsNow (i : Instr) (xd : XR) (v : Word) (fl : Flags) (s : State) : Prop :=
  (fl &&& fswEnables s.rfsw = 0 → exec i s = .next (((s.setX xd v).raise fl).withDisp .retired))
    ∧ (fl &&& fswEnables s.rfsw ≠ 0 → exec i s = .next (s.fpTrap fl))

/-- How an FP instruction of a longer latency ends (R67, R68, R270, R271): with no enable set, its result is on its way;
with one set, it retires with its result known; a raised flag that is enabled traps. -/
def FpEndsLater (i : Instr) (xd : XR) (v : Word) (fl : Flags) (s : State) : Prop :=
  (fswEnables s.rfsw = 0 → exec i s = .next (s.sentX xd v fl))
    ∧ (fswEnables s.rfsw ≠ 0 → fl &&& fswEnables s.rfsw = 0 →
      exec i s = .next (((s.setX xd v).raise fl).withDisp .retired))
    ∧ (fl &&& fswEnables s.rfsw ≠ 0 → exec i s = .next (s.fpTrap fl))

/-- The flags of some enabled lanes together (R288). -/
def laneOr (en : BitVec 4) (fl : Fin 4 → Flags) : Flags :=
  (if en.getLsbD 0 then fl 0 else 0) ||| (if en.getLsbD 1 then fl 1 else 0)
    ||| (if en.getLsbD 2 then fl 2 else 0) ||| (if en.getLsbD 3 then fl 3 else 0)

/-- How a vector instruction of latency 1 ends that writes a register to which no output port is bound (R67, R68, R274):
the enabled lanes hold their results, the others keep their values. -/
def VecEndsNow (i : Instr) (vd : VR) (en : BitVec 4) (r : Fin 4 → Lane × Flags) (s : State) : Prop :=
  let fl := laneOr en fun k => (r k).2
  (fl &&& fswEnables s.rfsw = 0 →
      exec i s = .next (((s.setV vd en fun k => (r k).1).raise fl).withDisp .retired))
    ∧ (fl &&& fswEnables s.rfsw ≠ 0 → exec i s = .next (s.fpTrap fl))

/-- The state in which the enabled lanes of a v register are EMPTY and their results on their way (R268, R270). -/
def State.sentV (s : State) (vd : VR) (en : BitVec 4) (v : Vector Lane 4) (fl : Flags) : State :=
  ((s.emptyV vd en).send (.arithV s.cur.core s.cur.slot vd en v fl)).1.withDisp .retired

/-- How a vector instruction of a longer latency ends that writes a register to which no output port is bound (R67, R68,
R270, R271): without an enabled lane it does nothing. -/
def VecEndsLater (i : Instr) (vd : VR) (en : BitVec 4) (r : Fin 4 → Lane × Flags) (s : State) : Prop :=
  let fl := laneOr en fun k => (r k).2
  (fswEnables s.rfsw = 0 → en ≠ 0 → exec i s = .next (s.sentV vd en (Vector.ofFn fun k : Fin 4 => (r k).1) fl))
    ∧ (fswEnables s.rfsw = 0 → en = 0 → exec i s = .next (s.withDisp .retired))
    ∧ (fswEnables s.rfsw ≠ 0 → fl &&& fswEnables s.rfsw = 0 →
      exec i s = .next (((s.setV vd en fun k => (r k).1).raise fl).withDisp .retired))
    ∧ (fl &&& fswEnables s.rfsw ≠ 0 → exec i s = .next (s.fpTrap fl))

/-- How a vector instruction ends that writes the register of a bound output port (R67, R68, R299): its enabled lanes go out as the
port's next element, and where that cannot be stored now the bundle ends as the store of the element does. -/
def VecEndsOut (i : Instr) (sp : Fin 4) (en : BitVec 4) (r : Fin 4 → Lane × Flags) (s : State) : Prop :=
  let fl := laneOr en fun k => (r k).2
  (fl &&& fswEnables s.rfsw ≠ 0 → exec i s = .next (s.fpTrap fl))
    ∧ (fl &&& fswEnables s.rfsw = 0 →
      (∀ t, s.storeElem true sp en (fun k => (r k).1) = .done t → exec i s = .next ((t.raise fl).withDisp .retired))
      ∧ ∀ o, s.storeElem true sp en (fun k => (r k).1) = .stop o → exec i s = o)

/-- The end of a C-slot or long instruction that goes on at an address (R33, R277, R278). -/
def State.jumped (s : State) (pc : Pc) : State :=
  (s.modMe fun f => { f with pc := pc, resume := .none, afterRtt := false, wf := none, paid := false, owed := [] }).withDisp .retired

/-- The end of a C-slot or long instruction that goes on at the next bundle (R33). -/
def State.wentOn (s : State) : State := s.jumped (s.me.pc + 8)

/-! ## Memory instructions and accesses (R182 to R184, R218, R221) -/

/-- The address of a scalar access: x[xa] plus the signed offset, modulo 2^64 (R182). -/
def State.at (s : State) (xa : XR) (off : Int) : Word := BitVec.ofInt 64 ((s.rx xa).toNat + off)

/-- What a scalar load asks of its address: a read, with the need that its order suffix gives (R138, R183). -/
def loadWant (size : Size) (need : XNeed) (reg : Bool) : Want := { acc := { rd := true, need := need }, n := 2 ^ Size.code size, reg := reg }
/-- What a scalar store asks of its address (R138, R184). -/
def storeWant (size : Size) (rel : Option Scope) : Want :=
  { acc := { wr := true, need := if rel.isSome then .order else .plain }, n := 2 ^ Size.code size, reg := true }

/-- A memory instruction may act: its operands let it, and no queued ONCE read of its fibre is outstanding (R232). -/
abbrev State.mayAccess (s : State) (i : Instr) : Prop := s.ready i = .go ∧ s.me.recs = 0

/-- An access to some sites may be performed: no queued ONCE read of its fibre is outstanding (R232), and it waits for no
earlier access (R221 to R223). -/
abbrev State.mayGo (s : State) (cls : Cls) (xs : List Site) : Prop := s.me.recs = 0 ∧ s.earlier cls xs = []

/-- How a store ends that makes the writes `ws`, from the state `u` in which its address has been located (R36, R184, R187, R193,
R196): nothing keeps it back, no home refuses it and no watch filter meets a commit of it. When it completes no ONCE block, it makes
its writes and goes on; otherwise its writes to the blocks that it completes go into their entries, these commit, and the others are
made once the homes have answered; the homes of several blocks are asked together (log 145). -/
def StoreEnds (i : Instr) (s u : State) (rel : Option Scope) (ws : List Put) : Prop :=
  let xs := ws.map (·.site)
  let once := ws.filter fun w => w.site.ty == .once
  let done := u.myCore.completed once
  let named := namedBlocks once done
  let cls : Cls := { clsAll false true false (rel.isSome || !done.isEmpty) xs with
    near := done.isEmpty && rel.any fun sc => sc != .span }
  s.cResume = .none → u.mayGo cls xs → u.putWait ws = none → (∀ w ∈ ws, (u.writeFault w.site).1 = none) →
  (∀ b ∈ named, u.commitHit b.2 = none) →
    (done = [] → exec i s = .next (u.putAll cls ws).wentOn)
    ∧ (∀ v, done ≠ [] → (if 1 < named.length then u.commitsFault named else (none, u)) = (none, v) →
      let whole := fun w : Put => w.site.ty == .once && decide (blkOf w.site.pa ∈ done)
      let p := ((v.babStores (ws.filter whole)).modMe fun f => { f with owed := ws.filter fun w => !whole w }).commitEntries named
      exec i s = p.1.awaitIds 1 p.2 none)

/-- How a store ends whose commits have been answered (R36, R196): a refusal traps, with nothing else written; otherwise it makes the
writes that it still owes and goes on. -/
def StoreAnswered (i : Instr) (s : State) : Prop :=
  ∀ (n : Nat) (ids : List Nat) (fail : Option (Nat × Word)), s.cResume = .stage n ids fail →
    let ws := s.me.owed
    (∀ c v, fail = some (c, v) → exec i s = .next (s.trapEntry false c v))
    ∧ (fail = none → ws = [] → exec i s = .next s.wentOn)
    ∧ (fail = none → ws ≠ [] → s.putWait ws = none → s.myCore.completed (ws.filter fun w => w.site.ty == .once) = [] →
      exec i s = .next (s.putAll (clsAll false true false false (ws.map (·.site))) ws).wentOn)

/-- A range of one block in good order: the block is not RETIRED, and none of the atoms or words that the range touches
is poisoned (R93, R97). -/
abbrev State.Sound (s : State) (pa len : Nat) : Prop :=
  s.isRetired pa = false ∧ s.firstPoison pa len = none ∧ pa % 512 + len ≤ 512

/-- The message of an access over the memory plane that is on its way to its home in this package, where nothing keeps it back: no
wake of its block waits for a group (R208), no hold of its page (R143), and a pooled extent that it names is there (R108). -/
abbrev State.Arrives (s : State) (k : Nat) (a : Acc) : Prop :=
  s.net.get? k = some (.req a) ∧ a.tap = none ∧ a.pa < 2 ^ 56 ∧ s.homeWaits a = false ∧ s.extentGone a = false

/-- What a message over the core plane finds on its way: every router of its way has its tenant in its membership bitmap (R348). -/
abbrev State.Passes (s : State) (m : Msg) : Prop := s.planeStop (s.routesOf m) = none

/-- The state after a message has arrived over the core plane, from the one that its arrival gives: the links on its way, its
sender and its receiver have counted it (R374, R436). -/
def State.crossed (s t : State) (k : Nat) (m : Msg) : State := (doneRoutes (s.routesOf m) m (t.net.get? k)).foldl State.countRoute t

/-- What `t` keeps of the bytes of `s`: every byte but those of a range of places (R102). -/
def State.keepsBytes (s t : State) (pa len : Nat) : Prop :=
  ∀ x, (∀ i, i < len → s.placeOf x ≠ s.placeOf (pa + i)) → t.byte x = s.byte x

/-! ## The host's register accesses (R445, R446, R454, R465) -/

/-- A register access of the host takes effect as it arrives: the module is READY, the access waits behind no posted write and no
register access, and no state summary runs. The registers are listed in canonical form. -/
abbrev State.hostOpen (s : State) : Prop :=
  s.isReady = true ∧ s.hostBehind = false ∧ s.summary = none ∧ AMap.rising none s.regs = true

/-- Whether a write of a register does only what its field table says (R8). -/
def RegName.plain : RegName → Bool
  | .poolExt _ | .poolRel | .spareAdd | .pptSet | .pptBase | .moveCtl | .zinCtl | .qBase _ | .qRd _ | .qCfg _ | .qWr _ | .part _
  | .ebudCfg _ | .larkCtl | .hseal | .errCfg | .resyncCtl | .fabId | .measExt _ | .attCtl | .msixData _ => false
  | _ => true

/-! ## Values of FP numbers (R62) -/

/-- The rational number that a finite value is. -/
def Fx.val : Fx → Rat
  | .fin neg m e => (if neg then -1 else 1) * (m : Rat) * (2 : Rat) ^ e
  | _ => 0

/-- Whether a value is finite. -/
def Fx.isFin : Fx → Bool
  | .fin .. => true
  | _ => false

/-! ## What two states have in common -/

/-- Everything but the cores, the fibres, the messages, and the model's own fields is the same: memory and its metadata and
check codes, system registers, tiles, translation caches, the launch unit, the host's side. -/
structure SameModule (s t : State) : Prop where
  bytes    : ∀ a, t.byte a = s.byte a
  host     : t.hostMem = s.hostMem
  regs     : t.regs = s.regs
  bmeta    : t.bmeta = s.bmeta
  synd     : t.synd = s.synd
  vsynd    : t.vsynd = s.vsynd
  tiles    : t.tiles = s.tiles
  l2       : t.l2 = s.l2
  tlbs     : t.tlbs = s.tlbs
  groups   : t.groups = s.groups
  launches : t.launches = s.launches
  toHost   : t.toHost = s.toHost

end Sys2Proof.Machine
end

