-- ==== Sys2Proof/Certificates/Slice0/Obligations.lean ====
section
/-!
DEFINITION. The statements about the machine that are to be proved.
-/

open Sys2Proof Sys2Proof.Machine

/-! ## Integer instructions (R275 to R282) -/

/-- R280, R282: ADD, SUB and ADDI complete with the sum or difference modulo 2^n, extended. -/
def Parts.IntegerSums : Prop :=
  ∀ (s : State) (sz : Wd) (xd xa xb : XR) (imm : BitVec 19),
    (s.ready (.add sz xd xa xb) = .go →
      exec (.add sz xd xa xb) s = .next (s.wroteX xd (widthWord sz (opNat sz (s.rx xa) + opNat sz (s.rx xb)))))
    ∧ (s.ready (.sub sz xd xa xb) = .go →
      exec (.sub sz xd xa xb) s = .next (s.wroteX xd (widthWord sz (opNat sz (s.rx xa) - opNat sz (s.rx xb)))))
    ∧ (s.ready (.addi sz xd xa imm) = .go →
      exec (.addi sz xd xa imm) s = .next (s.wroteX xd (widthWord sz (opNat sz (s.rx xa) + imm.toInt))))

/-- R280, R282: the logical instructions complete with each bit the function of the operands' bits. -/
def Parts.IntegerLogic : Prop :=
  ∀ (s : State) (sz : Wd) (xd xa xb : XR) (imm : BitVec 19),
    (s.ready (.and sz xd xa xb) = .go → ∃ v, exec (.and sz xd xa xb) s = .next (s.wroteX xd v)
      ∧ bitsWord sz (fun k => (s.rx xa).getLsbD k && (s.rx xb).getLsbD k) v)
    ∧ (s.ready (.or sz xd xa xb) = .go → ∃ v, exec (.or sz xd xa xb) s = .next (s.wroteX xd v)
      ∧ bitsWord sz (fun k => (s.rx xa).getLsbD k || (s.rx xb).getLsbD k) v)
    ∧ (s.ready (.xor sz xd xa xb) = .go → ∃ v, exec (.xor sz xd xa xb) s = .next (s.wroteX xd v)
      ∧ bitsWord sz (fun k => (s.rx xa).getLsbD k != (s.rx xb).getLsbD k) v)
    ∧ (s.ready (.andn sz xd xa xb) = .go → ∃ v, exec (.andn sz xd xa xb) s = .next (s.wroteX xd v)
      ∧ bitsWord sz (fun k => (s.rx xa).getLsbD k && !(s.rx xb).getLsbD k) v)
    ∧ (s.ready (.andi sz xd xa imm) = .go → ∃ v, exec (.andi sz xd xa imm) s = .next (s.wroteX xd v)
      ∧ bitsWord sz (fun k => (s.rx xa).getLsbD k && imm.getLsbD (min k 18)) v)
    ∧ (s.ready (.ori sz xd xa imm) = .go → ∃ v, exec (.ori sz xd xa imm) s = .next (s.wroteX xd v)
      ∧ bitsWord sz (fun k => (s.rx xa).getLsbD k || imm.getLsbD (min k 18)) v)
    ∧ (s.ready (.xori sz xd xa imm) = .go → ∃ v, exec (.xori sz xd xa imm) s = .next (s.wroteX xd v)
      ∧ bitsWord sz (fun k => (s.rx xa).getLsbD k != imm.getLsbD (min k 18)) v)

/-- R280, R282: the shifts complete, by x[xb] modulo n or by the immediate. -/
def Parts.IntegerShifts : Prop :=
  ∀ (s : State) (sz : Wd) (xd xa xb : XR) (op : ShOp) (n : BitVec 6),
    (s.ready (.shl sz xd xa xb) = .go → exec (.shl sz xd xa xb) s = .next (s.wroteX xd
      (widthWord sz (shifted .shl sz (s.rx xa) ((s.rx xb).toNat % widthBits sz)))))
    ∧ (s.ready (.shr sz xd xa xb) = .go → exec (.shr sz xd xa xb) s = .next (s.wroteX xd
      (widthWord sz (shifted .shr sz (s.rx xa) ((s.rx xb).toNat % widthBits sz)))))
    ∧ (s.ready (.sra sz xd xa xb) = .go → exec (.sra sz xd xa xb) s = .next (s.wroteX xd
      (widthWord sz (shifted .sra sz (s.rx xa) ((s.rx xb).toNat % widthBits sz)))))
    ∧ (s.ready (.rol sz xd xa xb) = .go → exec (.rol sz xd xa xb) s = .next (s.wroteX xd
      (widthWord sz (shifted .rol sz (s.rx xa) ((s.rx xb).toNat % widthBits sz)))))
    ∧ (s.ready (.shi op sz xd xa n) = .go → n.toNat < widthBits sz →
      exec (.shi op sz xd xa n) s = .next (s.wroteX xd (widthWord sz (shifted op sz (s.rx xa) n.toNat))))

/-- R280: MIN, MAX, SLT, SETEQ and SETNE complete with the smaller or larger operand, or with 1 or 0. -/
def Parts.IntegerComparisons : Prop :=
  ∀ (s : State) (sz : Wd) (xd xa xb : XR),
    let a := opInt sz (s.rx xa)
    let b := opInt sz (s.rx xb)
    let ua := opNat sz (s.rx xa)
    let ub := opNat sz (s.rx xb)
    (s.ready (.min false sz xd xa xb) = .go →
      exec (.min false sz xd xa xb) s = .next (s.wroteX xd (widthWord sz (if a ≤ b then a else b))))
    ∧ (s.ready (.min true sz xd xa xb) = .go →
      exec (.min true sz xd xa xb) s = .next (s.wroteX xd (widthWord sz (if ua ≤ ub then ua else ub))))
    ∧ (s.ready (.max false sz xd xa xb) = .go →
      exec (.max false sz xd xa xb) s = .next (s.wroteX xd (widthWord sz (if a ≤ b then b else a))))
    ∧ (s.ready (.max true sz xd xa xb) = .go →
      exec (.max true sz xd xa xb) s = .next (s.wroteX xd (widthWord sz (if ua ≤ ub then ub else ua))))
    ∧ (s.ready (.slt false sz xd xa xb) = .go →
      exec (.slt false sz xd xa xb) s = .next (s.wroteX xd (if a < b then 1 else 0)))
    ∧ (s.ready (.slt true sz xd xa xb) = .go →
      exec (.slt true sz xd xa xb) s = .next (s.wroteX xd (if ua < ub then 1 else 0)))
    ∧ (s.ready (.seteq sz xd xa xb) = .go →
      exec (.seteq sz xd xa xb) s = .next (s.wroteX xd (if ua = ub then 1 else 0)))
    ∧ (s.ready (.setne sz xd xa xb) = .go →
      exec (.setne sz xd xa xb) s = .next (s.wroteX xd (if ua = ub then 0 else 1)))

/-- R280: CLZ, CTZ and POPC complete with the number of leading zeros, of trailing zeros, of 1 bits. -/
def Parts.IntegerCounts : Prop :=
  ∀ (s : State) (sz : Wd) (xd xa : XR),
    let a := opNat sz (s.rx xa)
    let n := widthBits sz
    (s.ready (.clz sz xd xa) = .go → ∃ k : Nat,
      exec (.clz sz xd xa) s = .next (s.wroteX xd (BitVec.ofNat 64 k))
        ∧ k ≤ n ∧ a < 2 ^ (n - k) ∧ (a ≠ 0 → k < n ∧ 2 ^ (n - k - 1) ≤ a) ∧ (a = 0 → k = n))
    ∧ (s.ready (.ctz sz xd xa) = .go → ∃ k : Nat,
      exec (.ctz sz xd xa) s = .next (s.wroteX xd (BitVec.ofNat 64 k))
        ∧ (a ≠ 0 → a % 2 ^ k = 0 ∧ a % 2 ^ (k + 1) ≠ 0) ∧ (a = 0 → k = n))
    ∧ (s.ready (.popc sz xd xa) = .go → exec (.popc sz xd xa) s = .next (s.wroteX xd
      (BitVec.ofNat 64 ((List.range n).filter fun k => a.testBit k).length)))

/-- The statements above of IntegerSums, IntegerLogic, IntegerShifts, IntegerCounts, together. -/
def Obligations.IntegerSumsLogicAndShifts : Prop := Parts.IntegerSums ∧ Parts.IntegerLogic ∧ Parts.IntegerShifts ∧ Parts.IntegerCounts

/-- R276, R280: NOPA changes nothing; MOV, SEXT, ZEXT and SEL complete with the operand, extended or chosen. -/
def Parts.IntegerMoves : Prop :=
  ∀ (s : State) (sz : Wd) (xd xa xb xc : XR),
    exec .nopa s = .next (s.withDisp .retired)
    ∧ (s.ready (.mov xd xa) = .go → exec (.mov xd xa) s = .next (s.wroteX xd (s.rx xa)))
    ∧ (s.ready (.sext .b xd xa) = .go → exec (.sext .b xd xa) s = .next (s.wroteX xd
      (BitVec.ofInt 64 (BitVec.ofNat 8 (s.rx xa).toNat).toInt)))
    ∧ (s.ready (.sext .h xd xa) = .go → exec (.sext .h xd xa) s = .next (s.wroteX xd
      (BitVec.ofInt 64 (BitVec.ofNat 16 (s.rx xa).toNat).toInt)))
    ∧ (s.ready (.sext .w xd xa) = .go → exec (.sext .w xd xa) s = .next (s.wroteX xd
      (BitVec.ofInt 64 (BitVec.ofNat 32 (s.rx xa).toNat).toInt)))
    ∧ (s.ready (.zext .b xd xa) = .go → exec (.zext .b xd xa) s = .next (s.wroteX xd
      (BitVec.ofNat 64 ((s.rx xa).toNat % 2 ^ 8))))
    ∧ (s.ready (.zext .h xd xa) = .go → exec (.zext .h xd xa) s = .next (s.wroteX xd
      (BitVec.ofNat 64 ((s.rx xa).toNat % 2 ^ 16))))
    ∧ (s.ready (.zext .w xd xa) = .go → exec (.zext .w xd xa) s = .next (s.wroteX xd
      (BitVec.ofNat 64 ((s.rx xa).toNat % 2 ^ 32))))
    ∧ (s.ready (.sel sz xd xa xb xc) = .go → exec (.sel sz xd xa xb xc) s = .next (s.wroteX xd
      (widthWord sz (if opNat sz (s.rx xc) ≠ 0 then opNat sz (s.rx xa) else opNat sz (s.rx xb)))))

/-- R270, R280: MUL and MULH complete: the destination is EMPTY, and the product's lower or upper half is on its way. -/
def Parts.IntegerProducts : Prop :=
  ∀ (s : State) (sz : Wd) (xd xa xb : XR),
    let a := opInt sz (s.rx xa)
    let b := opInt sz (s.rx xb)
    let ua := opNat sz (s.rx xa)
    let ub := opNat sz (s.rx xb)
    (s.ready (.mul sz xd xa xb) = .go → exec (.mul sz xd xa xb) s = .next (s.sentX xd (widthWord sz (ua * ub)) 0))
    ∧ (s.ready (.mulh false sz xd xa xb) = .go →
      exec (.mulh false sz xd xa xb) s = .next (s.sentX xd (widthWord sz (a * b / 2 ^ widthBits sz)) 0))
    ∧ (s.ready (.mulh true sz xd xa xb) = .go →
      exec (.mulh true sz xd xa xb) s = .next (s.sentX xd (widthWord sz (ua * ub / 2 ^ widthBits sz)) 0))

/-- R281: DIV and REM by a nonzero divisor complete with the quotient truncated toward zero and the remainder that has the
dividend's sign; by zero with FSW.IZ = 0, with 0 and the dividend; by zero with FSW.IZ = 1 they trap. -/
def Parts.IntegerQuotients : Prop :=
  ∀ (s : State) (u : Bool) (sz : Wd) (xd xa xb : XR),
    let a : Int := if u then opNat sz (s.rx xa) else opInt sz (s.rx xa)
    let b : Int := if u then opNat sz (s.rx xb) else opInt sz (s.rx xb)
    (s.ready (.div u sz xd xa xb) = .go →
      (b ≠ 0 → exec (.div u sz xd xa xb) s = .next (s.sentX xd (widthWord sz (a.tdiv b)) 0))
      ∧ (b = 0 → s.rfsw.getLsbD 16 = false → exec (.div u sz xd xa xb) s = .next (s.sentX xd 0 0))
      ∧ (b = 0 → s.rfsw.getLsbD 16 = true →
        exec (.div u sz xd xa xb) s = .next (s.trapEntry true 0x0B (s.rx xa))))
    ∧ (s.ready (.rem u sz xd xa xb) = .go →
      (b ≠ 0 → exec (.rem u sz xd xa xb) s = .next (s.sentX xd (widthWord sz (a.tmod b)) 0))
      ∧ (b = 0 → s.rfsw.getLsbD 16 = false → exec (.rem u sz xd xa xb) s = .next (s.sentX xd (widthWord sz a) 0))
      ∧ (b = 0 → s.rfsw.getLsbD 16 = true →
        exec (.rem u sz xd xa xb) s = .next (s.trapEntry true 0x0B (s.rx xa))))

/-- The statements above of IntegerComparisons, IntegerMoves, IntegerProducts, IntegerQuotients, together. -/
def Obligations.IntegerComparisonsMovesAndProducts : Prop := Parts.IntegerComparisons ∧ Parts.IntegerMoves ∧ Parts.IntegerProducts ∧ Parts.IntegerQuotients

/-! ## Scalar and vector arithmetic (R283 to R296) -/

/-- R283 to R285, R287: FMIN, FMAX, FSGN, FCMP and FCLASS complete at once with their result and flags. -/
def Obligations.FloatComparisons : Prop :=
  ∀ (s : State) (xd xa xb : XR) (op : SgnOp) (p : FPred),
    let a := (s.rx xa).setWidth 32
    let b := (s.rx xb).setWidth 32
    (s.ready (.fmin xd xa xb) = .go →
      FpEndsNow (.fmin xd xa xb) xd ((fpMin a b).bits.setWidth 64) (fpMin a b).flags s)
    ∧ (s.ready (.fmax xd xa xb) = .go →
      FpEndsNow (.fmax xd xa xb) xd ((fpMax a b).bits.setWidth 64) (fpMax a b).flags s)
    ∧ (s.ready (.fsgn op xd xa xb) = .go → exec (.fsgn op xd xa xb) s = .next (s.wroteX xd
      (((match op with
        | .copy => b.msb
        | .neg => !b.msb
        | .xor => a.msb != b.msb) : Bool).toNat * 2 ^ 31 + a.toNat % 2 ^ 31)))
    ∧ (s.ready (.fcmp p xd xa xb) = .go →
      FpEndsNow (.fcmp p xd xa xb) xd (if (fpCmp p a b).1 then 1 else 0) (fpCmp p a b).2 s)
    ∧ (s.ready (.fclass xd xa) = .go →
      exec (.fclass xd xa) s = .next (s.wroteX xd (BitVec.ofNat 64 (2 ^ (
        let n := a.msb
        let e := a.toNat / 2 ^ 23 % 256
        let f := a.toNat % 2 ^ 23
        if e = 255 then (if f = 0 then (if n then 0 else 7) else if f < 2 ^ 22 then 8 else 9)
        else if e = 0 then (if f = 0 then (if n then 3 else 4) else if n then 2 else 5)
        else if n then 1 else 6)))))

/-- R283, R284, R286, R293: the scalar FP instructions of a longer latency, and VRED, complete with the result that the
rounding mode of the instruction gives, and its flags. -/
def Obligations.FloatArithmetic : Prop :=
  ∀ (s : State) (rm : Rm) (xd xa xb xc : XR) (k : CvtKind) (op : RedOp) (va : VR) (mk : Option MR),
    let mode := RMode.ofRm (fld s.rfsw.toNat 5 2) rm
    let a := (s.rx xa).setWidth 32
    let b := (s.rx xb).setWidth 32
    let c := (s.rx xc).setWidth 32
    (s.ready (.fadd rm xd xa xb) = .go →
      FpEndsLater (.fadd rm xd xa xb) xd ((fpAdd mode a b).bits.setWidth 64) (fpAdd mode a b).flags s)
    ∧ (s.ready (.fsub rm xd xa xb) = .go →
      FpEndsLater (.fsub rm xd xa xb) xd ((fpSub mode a b).bits.setWidth 64) (fpSub mode a b).flags s)
    ∧ (s.ready (.fmul rm xd xa xb) = .go →
      FpEndsLater (.fmul rm xd xa xb) xd ((fpMul mode a b).bits.setWidth 64) (fpMul mode a b).flags s)
    ∧ (s.ready (.fdiv rm xd xa xb) = .go →
      FpEndsLater (.fdiv rm xd xa xb) xd ((fpDiv mode a b).bits.setWidth 64) (fpDiv mode a b).flags s)
    ∧ (s.ready (.fsqrt rm xd xa) = .go →
      FpEndsLater (.fsqrt rm xd xa) xd ((fpSqrt mode a).bits.setWidth 64) (fpSqrt mode a).flags s)
    ∧ (s.ready (.fma rm xd xa xb xc) = .go →
      FpEndsLater (.fma rm xd xa xb xc) xd ((fpFma mode a b c).bits.setWidth 64) (fpFma mode a b c).flags s)
    ∧ (s.ready (.fcvt k rm xd xa) = .go →
      FpEndsLater (.fcvt k rm xd xa) xd (fpCvt k mode (s.rx xa)).1 (fpCvt k mode (s.rx xa)).2 s)
    ∧ (s.ready (.vred op rm xd va mk) = .go →
      FpEndsLater (.vred op rm xd va mk) xd (reduce op mode (s.enabled mk) (s.rv va)).1
        (reduce op mode (s.enabled mk) (s.rv va)).2 s)

/-- R284: FADD, FSUB, FMUL and FMA of finite operands round one exact value, which is the sum, difference, product or
product and sum; an exact zero sum of operands of opposite sign is +0, or −0 under RDN. -/
def Parts.FloatExactThenRounded : Prop :=
  ∀ (mode : RMode) (a b c : Lane), (Fx.ofLane a).isFin = true → (Fx.ofLane b).isFin = true → (Fx.ofLane c).isFin = true →
    let x := Fx.ofLane a
    let y := Fx.ofLane b
    let z := Fx.ofLane c
    (∃ r : Fx, r.isFin = true ∧ r.val = x.val + y.val ∧ fpAdd mode a b = round32 mode r)
    ∧ (∃ r : Fx, r.isFin = true ∧ r.val = x.val - y.val ∧ fpSub mode a b = round32 mode r)
    ∧ (∃ r : Fx, r.isFin = true ∧ r.val = x.val * y.val ∧ fpMul mode a b = round32 mode r)
    ∧ (∃ r : Fx, r.isFin = true ∧ r.val = x.val * y.val + z.val ∧ fpFma mode a b c = round32 mode r)
    ∧ (x.val + y.val = 0 → a.msb ≠ b.msb →
      (fpAdd mode a b).bits = (if mode = .rdn then 0x80000000#32 else 0x00000000#32) ∧ (fpAdd mode a b).flags = 0)

/-- R63, R67, R284: a NaN operand of the arithmetic gives the canonical NaN, with NV exactly when an operand is a
signalling NaN. -/
def Parts.FloatNanRule : Prop :=
  ∀ (mode : RMode) (a b : Lane), (Fx.ofLane a).isNan = true ∨ (Fx.ofLane b).isNan = true →
    let nv : Flags := if Fx.ofLane a = .nan true ∨ Fx.ofLane b = .nan true then 0x10 else 0
    fpAdd mode a b = ⟨0x7FC00000#32, nv⟩ ∧ fpSub mode a b = ⟨0x7FC00000#32, nv⟩
      ∧ fpMul mode a b = ⟨0x7FC00000#32, nv⟩ ∧ fpDiv mode a b = ⟨0x7FC00000#32, nv⟩
      ∧ fpMin a b = ⟨0x7FC00000#32, nv⟩ ∧ fpMax a b = ⟨0x7FC00000#32, nv⟩
      ∧ fpCmp .eq a b = (false, nv) ∧ fpCmp .lt a b = (false, 0x10) ∧ fpCmp .le a b = (false, 0x10)
      ∧ fpCmp .un a b = (true, nv)

/-- R64, R65: a finite FP32 value is its own rounding in every mode and raises no flag. -/
def Parts.RoundingKeepsRepresentable : Prop :=
  ∀ (mode : RMode) (a : Lane), (Fx.ofLane a).isFin = true → round32 mode (Fx.ofLane a) = ⟨a, 0⟩

/-- The statements above of FloatExactThenRounded, FloatNanRule, RoundingKeepsRepresentable, together. -/
def Obligations.FloatRules : Prop := Parts.FloatExactThenRounded ∧ Parts.FloatNanRule ∧ Parts.RoundingKeepsRepresentable

/-- R288, R290, R292, R294: the vector instructions of latency 1 complete on a register to which no output port is bound. -/
def Parts.VectorMoves : Prop :=
  ∀ (s : State) (vd va vb : VR) (mk : Option MR) (m : MR) (op : VintOp) (p : PermOp), s.isOutV vd = false →
    (s.ready (.vmin vd va vb mk) = .go → VecEndsNow (.vmin vd va vb mk) vd (s.enabled mk)
      (fun k => ((fpMin (s.rv va k) (s.rv vb k)).bits, (fpMin (s.rv va k) (s.rv vb k)).flags)) s)
    ∧ (s.ready (.vmax vd va vb mk) = .go → VecEndsNow (.vmax vd va vb mk) vd (s.enabled mk)
      (fun k => ((fpMax (s.rv va k) (s.rv vb k)).bits, (fpMax (s.rv va k) (s.rv vb k)).flags)) s)
    ∧ (s.ready (.vint op vd va vb mk) = .go → op ≠ .mul → VecEndsNow (.vint op vd va vb mk) vd (s.enabled mk)
      (fun k => (vintLane op (s.rv va k) (s.rv vb k), 0)) s)
    ∧ (s.ready (.vselm vd va vb m) = .go → VecEndsNow (.vselm vd va vb m) vd 0xF
      (fun k => (if (s.rm m).getLsbD k.val then s.rv va k else s.rv vb k, 0)) s)
    ∧ (s.ready (.vperm p vd va mk) = .go → VecEndsNow (.vperm p vd va mk) vd (s.enabled mk)
      (fun k => (match p with
        | .bcast n => s.rv va n
        | .rot n => s.rv va (k + n)
        | .swap => s.rv va ((#v[1, 0, 3, 2] : Vector (Fin 4) 4).get k)
        | .rev => s.rv va ((#v[3, 2, 1, 0] : Vector (Fin 4) 4).get k), 0)) s)

/-- R288 to R290, R295: the vector instructions of a longer latency complete on a register to which no output port is
bound. -/
def Parts.VectorArithmetic : Prop :=
  ∀ (s : State) (rm : Rm) (vd va vb vc : VR) (mk : Option MR) (k : VcvtKind), s.isOutV vd = false →
    let mode := RMode.ofRm (fld s.rfsw.toNat 5 2) rm
    let en := s.enabled mk
    let res (f : Fin 4 → FpRes) : Fin 4 → Lane × Flags := fun k => ((f k).bits, (f k).flags)
    (s.ready (.vadd rm vd va vb mk) = .go →
      VecEndsLater (.vadd rm vd va vb mk) vd en (res fun k => fpAdd mode (s.rv va k) (s.rv vb k)) s)
    ∧ (s.ready (.vsub rm vd va vb mk) = .go →
      VecEndsLater (.vsub rm vd va vb mk) vd en (res fun k => fpSub mode (s.rv va k) (s.rv vb k)) s)
    ∧ (s.ready (.vmul rm vd va vb mk) = .go →
      VecEndsLater (.vmul rm vd va vb mk) vd en (res fun k => fpMul mode (s.rv va k) (s.rv vb k)) s)
    ∧ (s.ready (.vfma rm vd va vb vc mk) = .go →
      VecEndsLater (.vfma rm vd va vb vc mk) vd en (res fun k => fpFma mode (s.rv va k) (s.rv vb k) (s.rv vc k)) s)
    ∧ (s.ready (.vdiv rm vd va vb mk) = .go →
      VecEndsLater (.vdiv rm vd va vb mk) vd en (res fun k => fpDiv mode (s.rv va k) (s.rv vb k)) s)
    ∧ (s.ready (.vsqrt rm vd va mk) = .go →
      VecEndsLater (.vsqrt rm vd va mk) vd en (res fun k => fpSqrt mode (s.rv va k)) s)
    ∧ (s.ready (.vexp2 rm vd va mk) = .go →
      VecEndsLater (.vexp2 rm vd va mk) vd en (res fun k => fpExp2 mode (s.rv va k)) s)
    ∧ (s.ready (.vlog2 rm vd va mk) = .go →
      VecEndsLater (.vlog2 rm vd va mk) vd en (res fun k => fpLog2 mode (s.rv va k)) s)
    ∧ (s.ready (.vint .mul vd va vb mk) = .go →
      VecEndsLater (.vint .mul vd va vb mk) vd en (fun k => (s.rv va k * s.rv vb k, 0)) s)
    ∧ (s.ready (.vcvt k rm vd va mk) = .go →
      VecEndsLater (.vcvt k rm vd va mk) vd en (fun j =>
        let r := fpCvt (match k with
          | .toint => .toint
          | .fromint => .fromint
          | .touns => .touns
          | .fromuns => .fromuns) mode ((s.rv va j).setWidth 64)
        (r.1.setWidth 32, r.2)) s)

/-- R291, R296: VCMP and the mask instructions complete with the mask or the register written. -/
def Parts.MaskInstructions : Prop :=
  ∀ (s : State) (md ma mb : MR) (va vb : VR) (mk : Option MR) (p : VPred) (op : MaskOp) (xd xa : XR),
    (s.ready (.vcmp p md va vb mk) = .go →
      let r := fun k : Fin 4 => vcmpLane p (s.rv va k) (s.rv vb k)
      let fl := laneOr (s.enabled mk) fun k => (r k).2
      (fl &&& fswEnables s.rfsw = 0 → ∃ v : BitVec 4,
        exec (.vcmp p md va vb mk) s = .next (((s.setM md v).raise fl).withDisp .retired)
          ∧ ∀ k : Fin 4, v.getLsbD k.val = ((s.enabled mk).getLsbD k.val && (r k).1))
        ∧ (fl &&& fswEnables s.rfsw ≠ 0 → exec (.vcmp p md va vb mk) s = .next (s.fpTrap fl)))
    ∧ (s.ready (.vmask op md ma mb) = .go → ∃ v : BitVec 4,
      exec (.vmask op md ma mb) s = .next ((s.setM md v).withDisp .retired)
        ∧ ∀ k : Fin 4, v.getLsbD k.val = (let a := (s.rm ma).getLsbD k.val
          let b := (s.rm mb).getLsbD k.val
          match op with
          | .and => a && b
          | .or => a || b
          | .xor => a != b
          | .andn => a && !b))
    ∧ (s.ready (.vmaskNot md ma) = .go → ∃ v : BitVec 4,
      exec (.vmaskNot md ma) s = .next ((s.setM md v).withDisp .retired)
        ∧ ∀ k : Fin 4, v.getLsbD k.val = !(s.rm ma).getLsbD k.val)
    ∧ (s.ready (.vmaskFromx md xa) = .go →
      exec (.vmaskFromx md xa) s = .next ((s.setM md ((s.rx xa).setWidth 4)).withDisp .retired))
    ∧ (s.ready (.vmaskTox xd ma) = .go →
      exec (.vmaskTox xd ma) s = .next (s.wroteX xd ((s.rm ma).setWidth 64)))

/-- The statements above of VectorArithmetic, VectorMoves, MaskInstructions, together. -/
def Obligations.VectorRules : Prop := Parts.VectorArithmetic ∧ Parts.VectorMoves ∧ Parts.MaskInstructions

/-! ## Control flow, constants and system registers (R276 to R279, R395, R396, R412, R423 to R430) -/

/-- R276, R277: NOPC goes on at the next bundle; a branch goes on at PC + 8 × offset when its comparison holds, and
otherwise at the next bundle; nothing else changes. -/
def Parts.Branches : Prop :=
  ∀ (s : State) (xa xb : XR) (off : BitVec 19),
    let goes := fun taken : Prop => fun [Decidable taken] =>
      s.jumped (if taken then BitVec.ofInt 48 (s.me.pc.toNat + off.toInt * 8) else s.me.pc + 8)
    let a := s.rx xa
    let b := s.rx xb
    exec .nopc s = .next s.wentOn
    ∧ (s.ready (.beq xa xb off) = .go → exec (.beq xa xb off) s = .next (goes (a.toNat = b.toNat)))
    ∧ (s.ready (.bne xa xb off) = .go → exec (.bne xa xb off) s = .next (goes (a.toNat ≠ b.toNat)))
    ∧ (s.ready (.blt xa xb off) = .go → exec (.blt xa xb off) s = .next (goes (a.toInt < b.toInt)))
    ∧ (s.ready (.bge xa xb off) = .go → exec (.bge xa xb off) s = .next (goes (b.toInt ≤ a.toInt)))
    ∧ (s.ready (.bltu xa xb off) = .go → exec (.bltu xa xb off) s = .next (goes (a.toNat < b.toNat)))
    ∧ (s.ready (.bgeu xa xb off) = .go → exec (.bgeu xa xb off) s = .next (goes (b.toNat ≤ a.toNat)))
    ∧ (s.ready (.bz xa off) = .go → exec (.bz xa off) s = .next (goes (a.toNat = 0)))
    ∧ (s.ready (.bnz xa off) = .go → exec (.bnz xa off) s = .next (goes (a.toNat ≠ 0)))

/-- R278, R279: jumps and calls go on at their target, calls with x7 := PC + 8; JR goes on at x[xa], and traps when that is no
bundle's address; MOVI and MOVHI write their constant. -/
def Parts.JumpsAndConstants : Prop :=
  ∀ (s : State) (xd xa : XR) (o25 : BitVec 25) (o45 : BitVec 45) (i48 : BitVec 48) (i16 : BitVec 16),
    let t25 := BitVec.ofInt 48 (s.me.pc.toNat + o25.toInt * 8)
    let t45 := BitVec.ofInt 48 (s.me.pc.toNat + o45.toInt * 8)
    let link : Word := BitVec.ofNat 64 ((s.me.pc.toNat + 8) % 2 ^ 48)
    (s.ready (.j o25) = .go → exec (.j o25) s = .next (s.jumped t25))
    ∧ (s.ready (.jl o45) = .go → exec (.jl o45) s = .next (s.jumped t45))
    ∧ (s.ready (.jal o25) = .go → exec (.jal o25) s = .next ((s.setX 7 link).jumped t25))
    ∧ (s.ready (.calll o45) = .go → exec (.calll o45) s = .next ((s.setX 7 link).jumped t45))
    ∧ (s.ready (.jr xa) = .go →
      ((s.rx xa).toNat < 2 ^ 48 → (s.rx xa).toNat % 8 = 0 →
        exec (.jr xa) s = .next (s.jumped (BitVec.ofNat 48 (s.rx xa).toNat)))
      ∧ (2 ^ 48 ≤ (s.rx xa).toNat → exec (.jr xa) s = .next (s.trapEntry false 0x03 (s.rx xa)))
      ∧ ((s.rx xa).toNat < 2 ^ 48 → (s.rx xa).toNat % 8 ≠ 0 →
        exec (.jr xa) s = .next (s.trapEntry false 0x0A (s.rx xa))))
    ∧ (s.ready (.movi xd i48) = .go →
      exec (.movi xd i48) s = .next ((s.setX xd (BitVec.ofInt 64 i48.toInt)).wentOn))
    ∧ (s.ready (.movhi xd i16) = .go → exec (.movhi xd i16) s = .next
      ((s.setX xd (BitVec.ofNat 64 (i16.toNat * 2 ^ 48 + (s.rx xd).toNat % 2 ^ 48))).wentOn))

/-- The statements above of Branches, JumpsAndConstants, together. -/
def Obligations.BranchesAndJumps : Prop := Parts.Branches ∧ Parts.JumpsAndConstants

/-- R395, R396, R412: SELF and IDR write what they read; ANCHOR.claim takes a free anchor, keeps one's own, and reports one
that is held; ANCHOR.free by a fibre that does not hold it reports 1. By the holder it waits for the stores of its output ports and
for the homes' answers to the cancels of its input ports; then the ports are unbound and their registers hold zero, FULL, its open
groups close without a test, and the anchor is given up. -/
def Parts.IdentityAndAnchor : Prop :=
  ∀ (s : State) (xd : XR) (ix : Fin 9),
    (s.ready (.self .tid xd) = .go →
      exec (.self .tid xd) s = .next ((s.setX xd (BitVec.ofNat 64 s.me.tid.toNat)).wentOn))
    ∧ (s.ready (.self .core xd) = .go →
      exec (.self .core xd) s = .next ((s.setX xd (BitVec.ofNat 64 s.cur.core)).wentOn))
    ∧ (s.ready (.self .slot xd) = .go →
      exec (.self .slot xd) s = .next ((s.setX xd (BitVec.ofNat 64 s.cur.slot)).wentOn))
    ∧ (s.ready (.self .save xd) = .go →
      exec (.self .save xd) s = .next ((s.setX xd (BitVec.ofNat 64 s.me.save.toNat)).wentOn))
    ∧ (s.ready (.idr xd ix) = .go → exec (.idr xd ix) s = .next ((s.setX xd (s.myCore.ident.get ix)).wentOn))
    ∧ (s.ready (.anchorClaim xd) = .go →
      (s.me.anc = true → exec (.anchorClaim xd) s = .next ((s.setX xd 0).wentOn))
      ∧ (s.me.anc = false → s.myCore.anchor = none → exec (.anchorClaim xd) s = .next
        ((((s.modCore s.cur.core fun r => { r with anchor := some s.cur.slot }).modMe fun f =>
          { f with anc := true }).setX xd 0).wentOn))
      ∧ (s.me.anc = false → s.myCore.anchor ≠ none → exec (.anchorClaim xd) s = .next ((s.setX xd 1).wentOn)))
    ∧ (s.ready (.anchorFree xd) = .go →
      (s.me.anc = false → exec (.anchorFree xd) s = .next ((s.setX xd 1).wentOn))
      ∧ (s.me.anc = true →
        let given := fun u : State => (((u.closeMyGroups.modCore u.cur.core fun r => { r with anchor := none }).modMe fun f =>
          { f with anc := false }).setX xd 0).wentOn
        let w := s.outWaits allPorts
        let p := s.stopPorts allPorts
        (s.cResume = .none → w ≠ [] → exec (.anchorFree xd) s = .next (s.parkMe 7 (.performed w)))
        ∧ (s.cResume = .none → w = [] → p.2 = [] → exec (.anchorFree xd) s = .next (given (p.1.unbindAll allPorts)))
        ∧ (s.cResume = .none → w = [] → p.2 ≠ [] → exec (.anchorFree xd) s = p.1.awaitIds 50 p.2 none)
        ∧ (∀ ids fl, s.cResume = .stage 50 ids fl → exec (.anchorFree xd) s = .next (given (s.unbindAll allPorts)))
        ∧ (s.cResume = .none → (∀ sp, (s.port s.cur.core sp).bound = false) → coreInTile s.cur.core ≠ 2 →
          exec (.anchorFree xd) s = .next
            ((((s.modCore s.cur.core fun r => { r with anchor := none }).modMe fun f =>
              { f with anc := false }).setX xd 0).wentOn))))
    ∧ (s.Inv → ∀ sp : Fin 4,
      let p := (s.unbindAll allPorts).port s.cur.core sp
      p.bound = false
      ∧ ((s.port s.cur.core sp).bound = true → ∀ k : Fin 4,
        (((s.unbindAll allPorts).core s.cur.core).v.get (portReg sp)).get k = { val := 0, full := true }))
    ∧ (coreInTile s.cur.core = 2 → AMap.rising none s.tiles = true → ∀ p : Fin 8,
      let a := (s.closeMyGroups.tile (tileOf s.cur.core)).acc.get p
      let b := (s.tile (tileOf s.cur.core)).acc.get p
      (a.isOpen = true → a.tid ≠ s.me.tid) ∧ a.cells = b.cells ∧ a.bound = b.bound)

/-- R423, R428, R429: TRAP retires and then enters the trap with its code and the next bundle's address; BRK, an illegal
encoding and a task breakpoint enter it at their own address. -/
def Obligations.TrapsTaken : Prop :=
  ∀ (s : State) (code : BitVec 16) (w0 w1 : BitVec 32) (i : Nat),
    (s.ready (.trap code) = .go → exec (.trap code) s = .next
      ((s.modMe fun f => { f with pc := f.pc + 8 }).trapEntry false 0x16 (BitVec.ofNat 64 code.toNat)))
    ∧ (s.ready (.brk code) = .go → exec (.brk code) s = .next (s.trapEntry false 0x14 (BitVec.ofNat 64 code.toNat)))
    ∧ exec (.illegalEncoding w0 w1) s = .next
      (s.trapEntry false 0x01 (BitVec.ofNat 64 (w0.toNat + w1.toNat * 2 ^ 32)))
    ∧ exec (.taskBreakpoint i) s = .next (s.trapEntry false 0x14 (BitVec.ofNat 64 (0x10000 + i)))

/-- R423: what trap entry with cause `c` and trap value `v` does at level L < 2 with a valid vector, once the fibre's
arithmetic results have been written: the bank of level L + 1 holds the cause, the address and the value; the level rises and
SYS is set; the fibre goes on at the vector's address; no x register, v register, mask or other FSW bit changes. -/
def Parts.TrapEntryRule : Prop :=
  ∀ (s : State) (aslot : Bool) (c : Nat) (v : Word), s.Inv → c < 64 →
    let d := s.drainArith s.cur.core s.cur.slot
    let f := d.me
    let vec := d.tvec d.myCore.ctxid.toNat (f.lvl + 1)
    let t := s.trapEntry aslot c v
    f.lvl < 2 → vec.getLsbD 0 = true →
      let g := t.fib s.cur.core s.cur.slot
      (g.bank (f.lvl + 1)).cause = BitVec.ofNat 64 (c + f.sys.toNat * 2 ^ 7 + aslot.toNat * 2 ^ 8)
      ∧ (g.bank (f.lvl + 1)).pc = BitVec.ofNat 64 s.me.pc.toNat
      ∧ (g.bank (f.lvl + 1)).val = v
      ∧ g.lvl = f.lvl + 1 ∧ g.sys = true
      ∧ (∀ k, k ≠ 21 → k ≠ 22 → k ≠ 23 → g.fsw.getLsbD k = f.fsw.getLsbD k)
      ∧ g.pc = BitVec.ofNat 48 (fld vec.toNat 3 45 * 8)
      ∧ g.x = f.x ∧ g.tid = f.tid ∧ g.save = f.save ∧ g.anc = f.anc
      ∧ (t.core s.cur.core).v = d.myCore.v ∧ (t.core s.cur.core).m = d.myCore.m
      ∧ t.cur.disp = .trapped

/-- R430: RTT at level N in system mode restores SYS from tcause[N].PSYS, lowers the level by one and goes on at tpc[N];
the trap banks, the x registers and the other FSW bits stay. -/
def Parts.TrapReturnRule : Prop :=
  ∀ (s : State), s.Inv → s.ready .rtt = .go → s.me.lvl ≠ 0 → s.me.lvl ≤ 2 →
    let f := (s.drainArith s.cur.core s.cur.slot).me
    let n := f.lvl
    ∃ t, exec .rtt s = .next t ∧
      let g := t.fib s.cur.core s.cur.slot
      g.sys = (f.bank n).cause.getLsbD 7 ∧ g.lvl = n - 1
      ∧ g.pc = BitVec.ofNat 48 (f.bank n).pc.toNat
      ∧ (∀ k, k ≠ 21 → k ≠ 22 → k ≠ 23 → g.fsw.getLsbD k = f.fsw.getLsbD k)
      ∧ g.x = f.x ∧ g.bank1 = f.bank1 ∧ g.bank2 = f.bank2 ∧ g.tid = f.tid
      ∧ t.cur.disp = .retired

/-- The statements above of TrapEntryRule, TrapReturnRule, together. -/
def Obligations.TrapRules : Prop := Parts.TrapEntryRule ∧ Parts.TrapReturnRule

/-- R425, R427: MFS completes: x[xd] is EMPTY and the register's value is on its way; MTS completes with the register
written under its field table. The registers of the fibre, of its trap banks and of the core: fsw (whose LVL and SYS
keep their values), the trap registers of both banks (tpc without bits 2:0 and 63:48), qtm, the window formats and the watch
filters (without the bit that their table reserves); and those of the context, tvec1, tvec2 and svbase, which CTX_TRAP holds. -/
def Parts.SystemRegisters : Prop :=
  ∀ (s : State) (xd xa : XR) (reg : BitVec 12) (i : Fin 8),
    (s.ready (.mfs xd reg) = .go →
      let d := if reg = 0 then s.drainArith s.cur.core s.cur.slot else s
      let r := d.readSys reg.toNat
      exec (.mfs xd reg) s = .next (((r.2.emptyX xd).send (.fill s.cur.core s.cur.slot xd r.1 .none none)).1.wentOn)
      ∧ (reg = 0x000 → r.1 = BitVec.ofNat 64 d.me.fsw.toNat) ∧ (reg = 0x001 → r.1 = BitVec.ofNat 64 d.me.tid.toNat)
      ∧ (reg = 0x002 → r.1 = BitVec.ofNat 64 d.myCore.ctxid.toNat)
      ∧ (reg = 0x021 → r.1 = d.me.bank1.cause) ∧ (reg = 0x02B → r.1 = d.me.bank2.val)
      ∧ (reg = 0x022 → r.1 = BitVec.ofNat 64 (d.me.bank1.pc.toNat % 2 ^ 48)))
    ∧ (s.ready (.mts reg xa) = .go → mtsRefuses reg.toNat (s.rx xa) = false →
      let v := s.rx xa
      (reg = 0x000 → exec (.mts reg xa) s = .next
        (((s.drainArith s.cur.core s.cur.slot).modMe fun f => { f with
          fsw := BitVec.ofNat 32 (f.fsw.toNat - (f.fsw &&& 0x11F7F#32).toNat + (v.setWidth 32 &&& 0x11F7F#32).toNat) }).wentOn))
      ∧ (reg = 0x001 ∨ reg = 0x002 ∨ reg = 0x003 ∨ reg = 0x005 ∨ reg = 0x006 → exec (.mts reg xa) s = .next s.wentOn)
      ∧ (reg = 0x004 → exec (.mts reg xa) s = .next
        ((s.modCore s.cur.core fun r => { r with qtm := v.toNat }).wentOn))
      ∧ (reg.toNat = 0x008 + i.val → exec (.mts reg xa) s = .next
        ((s.modCore s.cur.core fun r => { r with wf := r.wf.set i (v.setWidth 6) }).wentOn))
      ∧ (reg.toNat = 0x010 + i.val → exec (.mts reg xa) s = .next
        ((s.modCore s.cur.core fun r => { r with wfl := r.wfl.set i (v &&& ~~~0x100#64) }).wentOn))
      ∧ (let one := fun g : TrapBank → TrapBank => (s.modMe fun f => { f with bank1 := g f.bank1 }).wentOn
        let two := fun g : TrapBank → TrapBank => (s.modMe fun f => { f with bank2 := g f.bank2 }).wentOn
        let cause := fun b : TrapBank => { b with cause := v &&& 0x1BF#64 }
        let pc := fun b : TrapBank => { b with pc := v &&& 0x0000FFFFFFFFFFF8#64 }
        let val := fun b : TrapBank => { b with val := v }
        let keep := fun b : TrapBank => { b with keep := v }
        (reg = 0x021 → exec (.mts reg xa) s = .next (one cause)) ∧ (reg = 0x029 → exec (.mts reg xa) s = .next (two cause))
        ∧ (reg = 0x022 → exec (.mts reg xa) s = .next (one pc)) ∧ (reg = 0x02A → exec (.mts reg xa) s = .next (two pc))
        ∧ (reg = 0x023 → exec (.mts reg xa) s = .next (one val)) ∧ (reg = 0x02B → exec (.mts reg xa) s = .next (two val))
        ∧ (reg = 0x024 → exec (.mts reg xa) s = .next (one keep)) ∧ (reg = 0x02C → exec (.mts reg xa) s = .next (two keep)))
      ∧ (let at_ := 0x200000 + 32 * s.myCore.ctxid.toNat
        let put := fun (off : Nat) (m : Word) => (s.setReg off ((s.reg off &&& ~~~m) ||| (v &&& m))).wentOn
        (reg = 0x020 → exec (.mts reg xa) s = .next (put at_ 0x0000FFFFFFFFFFF9))
        ∧ (reg = 0x028 → exec (.mts reg xa) s = .next (put (at_ + 8) 0x0000FFFFFFFFFFF9))
        ∧ (reg = 0x030 → exec (.mts reg xa) s = .next (put (at_ + 16) 0xFFFFFFFFFFFFFC00))))
    ∧ (s.ready (.mts reg xa) = .go → mtsRefuses reg.toNat (s.rx xa) = true →
      exec (.mts reg xa) s = .next (s.trapEntry false 0x01 (s.rx xa)))

/-- The statements above of IdentityAndAnchor, SystemRegisters, together. -/
def Obligations.SystemRegistersAndIdentity : Prop := Parts.IdentityAndAnchor ∧ Parts.SystemRegisters

/-! ## Loads and stores (R182 to R188, R191, R205, R217, R218) -/

/-- R182, R183, R217, R268: once its address has been located, nothing keeps it back and its home finds nothing wrong, a
scalar load completes: x[xd] is EMPTY and its read has begun. A read of a local page that is not PRIVATE is a request on its
way to its home. -/
def Obligations.ScalarLoads : Prop :=
  ∀ (s u v : State) (size : Size) (sgn : Bool) (acq : Option Scope) (xd xa xg : XR) (o12 : BitVec 12) (o32 : BitVec 32)
    (x : Site),
    let need := if acq.isSome then XNeed.order else .plain
    let cls := x.cls true false acq.isSome false
    let dst := Dst.x xd size sgn x.fmt
    let done := fun (g : Option (BitVec 10)) (c : Cls) => ((v.pendX xd x.blkVa).startRead x c g dst).1.wentOn
    (s.mayAccess (.ld size sgn acq xd xa o12) → s.locate (loadWant size need true) (s.at xa o12.toInt) = (.ok x, u) →
      u.mayGo cls [x] → u.siteFault x none dst = (none, v) →
      exec (.ld size sgn acq xd xa o12) s = .next (done none cls))
    ∧ (s.mayAccess (.ldl size sgn acq xd xa o32) → s.locate (loadWant size need true) (s.at xa o32.toInt) = (.ok x, u) →
      u.mayGo cls [x] → u.siteFault x none dst = (none, v) →
      exec (.ldl size sgn acq xd xa o32) s = .next (done none cls))
    ∧ (let g := some ((s.rx xg).setWidth 10)
      let cls := x.cls true false true false
      s.mayAccess (.ldg size sgn xd xa xg o12) → s.locate (loadWant size .block false) (s.at xa o12.toInt) = (.ok x, u) →
      u.mayGo cls [x] → u.siteFault x g dst = (none, v) →
      exec (.ldg size sgn xd xa xg o12) s = .next (done g cls))
    ∧ (x.ty ≠ .priv → x.remote = false → x.isReg = false → ∀ (t : State) (g : Option (BitVec 10)),
      (t.startRead x cls g dst).1 = (t.send (.req
        { owner := .fibre t.cur.core t.cur.slot, tid := t.me.tid, ctx := t.myCore.ctxid.toNat, va := x.va, pa := x.pa,
          len := x.len, ty := x.ty, cls := cls, gen := g, op := .read dst })).1)

/-- R12, R191, R218, R230: a read of a FULL block, or of any block of a page that is not ONCE, performed at its home in good order,
takes the bytes that stand there. A plain read of a RELEASE page may take superseded ones instead: the model offers those of older
writes that nothing orders before the newest (its choice of which, log 5). No byte of memory changes. -/
def Parts.ReadsAtHome : Prop :=
  ∀ (s : State) (k : Nat) (a : Acc) (dst : Dst), s.Arrives k a → a.op = .read dst → (∀ t, a.owner ≠ .mma t) →
    let u := ((s.hearAcc a).touchLines a.pa a.len false).meet a.pa a.len
    u.isRetired a.pa = false → (∀ g, a.gen = some g → g = (u.blkMeta a.pa).gen) →
    (a.ty = .once → (u.blkMeta a.pa).pres = .full) →
    (∀ r ∈ readRanges dst a.pa a.len, u.firstPoison r.1 r.2 = none) →
    ∃ (data : List Byte) (v : State), exec (.homeAccess k) s = .next (v.putMsg k (.reply a.owner dst data .none)).settle
      ∧ (data = u.bytes a.pa a.len ∨ data ∈ u.superseded a) ∧ (u.superseded a = [] → v = u)
      ∧ (a.ty ≠ .release ∨ a.cls.acq = true → u.superseded a = [])
      ∧ ∀ x, v.byte x = u.byte x

/-- R183, R205: the reply of a scalar load fills x[xd] with the little-endian number in its bytes, zero-extended or
sign-extended; nothing else of its fibre changes. -/
def Parts.LoadReplies : Prop :=
  ∀ (s : State) (k c j : Nat) (xd : XR) (size : Size) (sgn : Bool) (data : List Byte) (val : Word),
    (s.net.get? k = some (.reply (.fibre c j) (.x xd size sgn 0) data .none) → data.length = 2 ^ Size.code size →
      let z : Int := natOfBytes data
      let top : Int := 2 ^ (8 * 2 ^ Size.code size)
      exec (.accessReply k) s = .next ((s.dropMsg k).modFib c j fun f =>
        f.fill xd (BitVec.ofInt 64 (if sgn = true ∧ top ≤ 2 * z then z - top else z))).settle)
    ∧ (s.net.get? k = some (.fill c j xd val .none none) →
      exec (.accessReply k) s = .next (((s.modFib c j (·.fill xd val)).dropMsg k).settle))

/-- The statements above of ReadsAtHome, LoadReplies, together. -/
def Obligations.ReadsAndReplies : Prop := Parts.ReadsAtHome ∧ Parts.LoadReplies

/-- R184, R193, R196, R221: once its address has been located, nothing keeps it back and no home refuses it, a scalar store
completes. Its bytes, the low ones of the register in the format of the place, are then on their way to a STRICT or RELEASE page,
or in the core's own PRIVATE write buffer, where its loads see them and memory does not; those to a ONCE page merge into the
block-assembly entry of their block, and the store that completes it waits for the home's answer to its commit. A store below span
waits for no access homed in another package, and PRIVATE bytes reach memory only later. -/
def Parts.ScalarStores : Prop :=
  (∀ (s u : State) (size : Size) (rel : Option Scope) (xs xa : XR) (o12 : BitVec 12) (o32 : BitVec 32) (x : Site),
    let val := if x.fmt = 0 then (s.rx xs).toNat else laneToFmt x.fmt ((s.rx xs).setWidth 32)
    let put : Put := { site := x, data := bytesOfNat x.len val }
    (s.mayAccess (.st size rel xs xa o12) → StoreAnswered (.st size rel xs xa o12) s
      ∧ (s.locate (storeWant size rel) (s.at xa o12.toInt) = (.ok x, u) → StoreEnds (.st size rel xs xa o12) s u rel [put]))
    ∧ (s.mayAccess (.stl size rel xs xa o32) → StoreAnswered (.stl size rel xs xa o32) s
      ∧ (s.locate (storeWant size rel) (s.at xa o32.toInt) = (.ok x, u) → StoreEnds (.stl size rel xs xa o32) s u rel [put])))
  ∧ (∀ (s : State) (w : Put) (ws : List Put) (cls : Cls),
    let x := w.site
    let msg := fun op : HomeOp => Msg.req
      { owner := .fibre s.cur.core s.cur.slot, tid := s.me.tid, ctx := s.myCore.ctxid.toNat, va := x.va, pa := x.pa,
        len := x.len, ty := x.ty, cls := cls, gen := none, op := op }
    let t := s.putAll cls [w]
    (x.ty = .strict ∨ x.ty = .release →
      (x.isReg = false → t = (s.send (msg (.write w.data))).1)
      ∧ (x.isReg = true → t = (s.send (msg (.sysWrite (BitVec.ofNat 64 (natOfBytes w.data))))).1))
    ∧ (x.ty = .priv → (∀ a, t.byte a = s.byte a) ∧ t.fibres = s.fibres
      ∧ (x.pa % 64 + w.data.length ≤ 64 → ∀ (line : List Byte) (i : Nat), i < w.data.length →
        (t.core s.cur.core).privByte line (x.pa + i) = w.data.getD i 0))
    ∧ (x.ty = .once → t = s.modCore s.cur.core fun c => c.babStore x.pa w.data)
    ∧ ((∀ y ∈ w :: ws, y.site.ty ≠ .once) → s.putAll cls (w :: ws) = t.putAll cls ws))

/-- R95, R97, R337: a write performed at its home in good order stores its bytes, marks the bound and magnitude of the block
unknown, and is acknowledged; every other byte of memory is as before. -/
def Obligations.WritesAtHome : Prop :=
  ∀ (s : State) (k : Nat) (a : Acc) (data : List Byte), s.Arrives k a → a.op = .write data → data.length = a.len → 0 < a.len →
    let u := ((s.hearAcc a).touchLines a.pa a.len true).meet a.pa a.len
    Memory.wf u.mem = true → u.Sound a.pa a.len →
    ∃ v : State, exec (.homeAccess k) s = .next v.settle
      ∧ v.bytes a.pa a.len = data ∧ u.keepsBytes v a.pa a.len
      ∧ v.net = u.net.insert k (.ack a.owner) ∧ v.fibres = u.fibres ∧ v.cores = u.cores ∧ v.regs = u.regs
      ∧ (hasMeta a.pa = true → v.blkMeta a.pa = { u.blkMeta a.pa with dsc := true, bound := 0xFFFF, maxe := 0xFF })

/-- R185, R187: once its lanes have been located, nothing keeps them back and their homes find nothing wrong, a vector load
into a register to which no output port is bound completes: its enabled lanes are EMPTY and their reads have begun, one read
over all of VLD's lanes, one for each lane of VLDS and VGATH; without an enabled lane it does nothing. -/
def Obligations.VectorLoads : Prop :=
  ∀ (s u v : State) (vd vi : VR) (xa xb : XR) (mk : Option MR) (sh : Fin 4) (o12 : BitVec 12) (o32 : BitVec 32)
    (xs : List (Nat × Site)) (x : Site), s.isOutV vd = false →
    let en := s.enabled mk
    let cls := clsAll true false false false (xs.map (·.2))
    let w : Want := { acc := { rd := true }, n := 4 }
    let fine := en ≠ 0 ∧ u.mayGo cls (xs.map (·.2)) ∧ u.lanesFault vd xs = (none, v)
      ∧ v.isOutV vd = false
    let lanes := fun la : Nat → Word => ((List.range 4).filter fun k => en.getLsbD k).map fun k => (k, la k)
    (s.mayAccess (.vld vd xa mk o12) →
      (en = 0 → exec (.vld vd xa mk o12) s = .next s.wentOn)
      ∧ (s.locateQuad w (s.at xa o12.toInt) en = (.ok xs, u) → fine → spanSite xs = some x →
        exec (.vld vd xa mk o12) s = .next ((v.pendV vd xs).startRead x cls none (.v vd en x.fmt)).1.wentOn))
    ∧ (s.mayAccess (.vlds vd xa xb mk o32) →
      (en = 0 → exec (.vlds vd xa xb mk o32) s = .next s.wentOn)
      ∧ (s.locateLanes w (lanes fun k => s.at xa o32.toInt + BitVec.ofNat 64 k * s.rx xb) = (.ok xs, u) → fine →
        exec (.vlds vd xa xb mk o32) s = .next ((v.pendV vd xs).startLanes cls vd xs).wentOn))
    ∧ (s.mayAccess (.vgath vd xa vi sh mk o32) →
      (en = 0 → exec (.vgath vd xa vi sh mk o32) s = .next s.wentOn)
      ∧ (s.locateLanes w (lanes fun k =>
          s.at xa o32.toInt + BitVec.ofInt 64 ((s.rv vi (Fin.ofNat 4 k)).toInt * 2 ^ sh.val)) = (.ok xs, u) → fine →
        exec (.vgath vd xa vi sh mk o32) s = .next ((v.pendV vd xs).startLanes cls vd xs).wentOn))

/-- R185, R187, R188: once its lanes have been located, nothing keeps them back and no home refuses one, a vector store
completes, to pages of any type: the writes of its enabled lanes are made in lane order, as those of a scalar store are; of lanes
that name one address only the highest is written. One that completes ONCE blocks waits for the answers to their commits, and its
other writes for them. Without an enabled lane it does nothing. -/
def Obligations.VectorStores : Prop :=
  ∀ (s u : State) (vd vi : VR) (xa xb : XR) (mk : Option MR) (sh : Fin 4) (o12 : BitVec 12) (o32 : BitVec 32)
    (xs : List (Nat × Site)),
    let en := s.enabled mk
    let w : Want := { acc := { wr := true }, n := 4 }
    let lanes := fun la : Nat → Word => ((List.range 4).filter fun k => en.getLsbD k).map fun k => (k, la k)
    let ends := fun (i : Instr) (at_ : Loc (List (Nat × Site)) × State) (ys : List (Nat × Site)) => s.mayAccess i →
      StoreAnswered i s ∧ (s.cResume = .none → en = 0 → exec i s = .next s.wentOn)
      ∧ (en ≠ 0 → at_ = (.ok xs, u) → StoreEnds i s u none (u.lanePuts vd ys))
    ends (.vst vd xa mk o12) (s.locateQuad w (s.at xa o12.toInt) en) xs
    ∧ ends (.vsts vd xa xb mk o32) (s.locateLanes w (lanes fun k => s.at xa o32.toInt + BitVec.ofNat 64 k * s.rx xb))
      (lastWriters xs)
    ∧ ends (.vscat vd xa vi sh mk o32) (s.locateLanes w (lanes fun k =>
        s.at xa o32.toInt + BitVec.ofInt 64 ((s.rv vi (Fin.ofNat 4 k)).toInt * 2 ^ sh.val))) (lastWriters xs)

/-- R193, R216: a store to a block of a ONCE page that it does not complete merges its bytes into the core's block-assembly
entry for the block and completes; no byte of memory changes. One that completes the block sends the commit of its 512 bytes to the
block's home, with release, and its entry is gone. -/
def Parts.OnceStoreMerges : Prop :=
  (∀ (s u : State) (size : Size) (xs xa : XR) (off : BitVec 12) (x : Site) (e : BabEntry),
    let cls := x.cls false true false false
    let put : Put := { site := x, data := bytesOfNat (2 ^ Size.code size) (s.rx xs).toNat }
    s.mayAccess (.st size none xs xa off) → s.locate (storeWant size none) (s.at xa off.toInt) = (.ok x, u) →
    s.cResume = .none → x.ty = .once → x.remote = false → x.fmt = 0 → x.len = 2 ^ Size.code size →
    u.myCore.babOf (blkOf x.pa) = some e → u.myCore.completed [put] = [] → u.mayGo cls [x] →
    let v := u.modCore u.cur.core fun c => c.babStore x.pa put.data
    exec (.st size none xs xa off) s = .next v.wentOn ∧ ∀ a, v.byte a = u.byte a)
  ∧ (∀ (c : Core) (pa : Nat) (data : List Byte), pa % 512 + data.length ≤ 512 →
    ∃ e, (c.babStore pa data).babOf (blkOf pa) = some e
      ∧ (∀ i, i < data.length → e.bytes.get? (pa % 512 + i) = data[i]?)
      ∧ ∀ j, (∀ i, i < data.length → j ≠ pa % 512 + i) →
        e.bytes.get? j = (c.babOf (blkOf pa)).bind fun o => o.bytes.get? j)
  ∧ (∀ (s : State) (blk : Nat) (va : Word) (e : BabEntry), s.myCore.babOf blk = some e →
    let d := s.modCore s.cur.core fun c => { c with bab := c.bab.filter fun o => o.blk != blk }
    s.commitEntries [(blk, va)] = ((d.send (.req
      { owner := .fibre d.cur.core d.cur.slot, tid := d.me.tid, ctx := d.myCore.ctxid.toNat, va := va, pa := blk, len := 512,
        ty := .once, cls := { rel := true, st := true }, gen := none, op := .commit e.commit })).1, [d.nextId])
    ∧ e.commit.data = (List.range 512).map fun i => e.bytes.getD i 0)

/-- The statements above of ScalarStores, OnceStoreMerges, together. -/
def Obligations.ScalarStoresAndMerges : Prop := Parts.ScalarStores ∧ Parts.OnceStoreMerges

/-! ## Atomics (R397 to R399) -/

/-- R268, R397, R398: once its location has been found, nothing keeps it back and its home finds nothing wrong, an atomic
completes: x[xd] is EMPTY, naming the operand's address, and the operation is on its way to its home, with CAS's expected value cut to its width; with .m
a fibre at level 0 then waits for the reply (R422). -/
def Obligations.AtomicsIssue : Prop :=
  ∀ (s u v : State) (op : AmoOp) (fop : FamoOp) (sz : Wd) (ord : Ord2) (sc : Scope) (mg : Bool) (xd xs xa : XR)
    (off : BitVec 32) (x : Site),
    let cls := fun ord : Ord2 =>
      { x.cls true true (decide (ord = .acq ∨ ord = .ar)) (decide (ord = .rel ∨ ord = .ar)) with
        near := decide (ord = .rel ∨ ord = .ar) && sc != .span }
    let moves := mg && s.me.lvl == 0
    let found := fun (sz : Wd) (ord : Ord2) (a : Word) => s.locateAtom sz a = (.ok x, u) ∧ (moves = true → u.me.anc = false)
      ∧ u.mayGo (cls ord) [x] ∧ u.atomFault x = (false, v) ∧ x.remote = false
    let sent := fun (o : AtomOp) (sz : Wd) (ord : Ord2) (a : Word) => (v.pendX xd a).send (.req
      { owner := .fibre v.cur.core v.cur.slot, tid := (v.pendX xd a).me.tid, ctx := v.myCore.ctxid.toNat, va := x.va,
        pa := x.pa, len := x.len, ty := x.ty, cls := cls ord, gen := none, op := .atomic o sz (s.rx xs) xd moves })
    let done := fun (o : AtomOp) (sz : Wd) (ord : Ord2) (a : Word) =>
      if moves then ((sent o sz ord a).1.wentOn.parkMe 1 (.gone [(sent o sz ord a).2])).withDisp .retired
      else (sent o sz ord a).1.wentOn
    (s.mayAccess (.amo op sz ord sc mg xd xs xa) → found sz ord (s.rx xa) →
      exec (.amo op sz ord sc mg xd xs xa) s = .next (done (.amo op) sz ord (s.rx xa)))
    ∧ (s.mayAccess (.amol op sz ord sc mg xd xs xa off) → found sz ord (s.at xa off.toInt) →
      exec (.amol op sz ord sc mg xd xs xa off) s = .next (done (.amo op) sz ord (s.at xa off.toInt)))
    ∧ (s.mayAccess (.famo fop ord sc mg xd xs xa) → found .w ord (s.rx xa) →
      exec (.famo fop ord sc mg xd xs xa) s = .next (done (.famo fop) .w ord (s.rx xa)))
    ∧ (s.mayAccess (.cas sz ord sc mg xd xs xa off) → found sz ord (s.at xa off.toInt) →
      exec (.cas sz ord sc mg xd xs xa off) s = .next (done (.cas (BitVec.ofNat 64 (opNat sz (s.rx xd)))) sz ord (s.at xa off.toInt)))

/-- R397: the value that an integer atomic leaves in memory, from the old value and the operand cut to its width. -/
def Parts.AtomicResults : Prop :=
  ∀ (sz : Wd) (old operand e : Nat),
    let n := widthBits sz
    let a := old % 2 ^ n
    let b := operand % 2 ^ n
    let sg := fun z : Nat => if z < 2 ^ (n - 1) then (z : Int) else z - 2 ^ n
    atomNew (.amo .add) sz old operand = some ((a + b) % 2 ^ n)
    ∧ atomNew (.amo .swap) sz old operand = some b
    ∧ atomNew (.amo .and) sz old operand = some (a &&& b)
    ∧ atomNew (.amo .or) sz old operand = some (a ||| b)
    ∧ atomNew (.amo .xor) sz old operand = some (a ^^^ b)
    ∧ atomNew (.amo .minu) sz old operand = some (min a b)
    ∧ atomNew (.amo .maxu) sz old operand = some (max a b)
    ∧ atomNew (.amo .min) sz old operand = some (if sg a ≤ sg b then a else b)
    ∧ atomNew (.amo .max) sz old operand = some (if sg a ≤ sg b then b else a)
    ∧ (e < 2 ^ n → atomNew (.cas (BitVec.ofNat 64 e)) sz old operand = if a = e then some b else none)

/-- R235, R398: an atomic performed at its home in good order reads the old value, leaves the new one, and sends the old one
back, sign-extended but for FAMO; every other byte of memory is as before. -/
def Parts.AtomicsAtHome : Prop :=
  ∀ (s : State) (k : Nat) (a : Acc) (op : AtomOp) (sz : Wd) (operand : Word) (xd : XR) (c j : Nat), s.Arrives k a →
    a.op = .atomic op sz operand xd false → a.owner = .fibre c j →
    let n := widthBits sz / 8
    let u := ((s.hearAcc a).touchLines a.pa n true).meet a.pa n
    let old := u.nat a.pa n
    Memory.wf u.mem = true → u.Sound a.pa n →
    ∃ v : State, exec (.homeAccess k) s = .next v.settle
      ∧ v.nat a.pa n = (atomNew op sz old operand.toNat).getD old
      ∧ u.keepsBytes v a.pa n
      ∧ v.net = u.net.insert k (.fill c j xd (match op with
        | .famo _ => BitVec.ofNat 64 old
        | _ => widthWord sz old) .none none)

/-- The statements above of AtomicsAtHome, AtomicResults, together. -/
def Obligations.AtomicsAtHomeAndResults : Prop := Parts.AtomicsAtHome ∧ Parts.AtomicResults

/-- R399: DECJ completes with its decrement on its way, a relaxed store whatever its page's type is (log 150); performed at the counter's home in good order, it leaves the counter
less one modulo 2^n, and sends the old value back unless that was 1: then the commit of the block travels on. -/
def Obligations.DecrementAndJoin : Prop :=
  ∀ (s u w v : State) (k : Nat) (a : Acc) (sz : Wd) (span : Bool) (xd xa xs : XR) (x : Site) (fs : AMap Frame)
    (c j blk : Nat),
    (let b := s.rx xs &&& ~~~511#64
      let cls : Cls := { st := true }
      s.mayAccess (.decj sz span xd xa xs) → s.locateAtom sz (s.rx xa) = (.ok x, u) →
      u.reach { acc := { wr := true, need := .block }, n := 512, own := true } [{ va := b, len := 512 }] = (.ok fs, w) →
      x.remote = false → w.isRemote (physOf fs b) = false → w.mayGo cls [x] → w.atomFault x = (false, v) →
      exec (.decj sz span xd xa xs) s = .next (((v.pendX xd (s.rx xa)).send (.req
        { owner := .fibre v.cur.core v.cur.slot, tid := (v.pendX xd (s.rx xa)).me.tid, ctx := v.myCore.ctxid.toNat, va := x.va,
          pa := x.pa, len := x.len, ty := x.ty, cls := cls, gen := none,
          op := .decj sz xd (v.placed (physOf fs b)) })).1.wentOn))
    ∧ (s.Arrives k a → a.op = .decj sz xd blk → a.owner = .fibre c j → a.ty ≠ .once → blk < 2 ^ 56 →
      let n := widthBits sz / 8
      let u := ((s.hearAcc a).touchLines a.pa n true).meet a.pa n
      let old := u.nat a.pa n
      Memory.wf u.mem = true → u.Sound a.pa n →
      ∃ t : State, exec (.homeAccess k) s = .next t.settle
        ∧ t.nat a.pa n = (old + 2 ^ (8 * n) - 1) % 2 ^ (8 * n) ∧ u.keepsBytes t a.pa n
        ∧ (old ≠ 1 → t.net = u.net.insert k (.fill c j xd (widthWord sz old) .none none))
        ∧ (old = 1 → t.net = u.net.insert k
          (.req { a with va := 1, pa := blk, len := 512, ty := .once, op := .decj sz xd 0 })))

/-! ## Blocks (R191, R196, R209, R216) -/

/-- R196, R216: SEAL sends the commit of the core's entry for the block, or of 512 zero bytes, and parks for the home's
answer; when that has come without a failure, it retires, and with one it traps. -/
def Parts.Seals : Prop :=
  ∀ (s u : State) (xa : XR) (off : BitVec 12) (x : Site), s.mayAccess (.sealb xa off) →
    (s.cResume = .none → s.locateByte { wr := true, need := .block } (s.at xa off.toInt) = (.ok x, u) →
      u.mayGo (x.block.cls false true false true) [x.block] → x.remote = false →
      let e := (u.myCore.babOf (blkOf x.pa)).getD { blk := blkOf x.pa, bytes := [], mark := none }
      let d := u.babDrop (blkOf x.pa)
      let sent := d.send (.req
        { owner := .fibre d.cur.core d.cur.slot, tid := d.me.tid, ctx := d.myCore.ctxid.toNat, va := x.blkVa, pa := blkOf x.pa,
          len := 512, ty := .once, cls := { rel := true, st := true }, gen := none, op := .commit e.commit })
      exec (.sealb xa off) s = sent.1.awaitIds 1 [sent.2] none)
    ∧ (∀ n ids, s.cResume = .stage n ids none → exec (.sealb xa off) s = .next s.wentOn)
    ∧ (∀ n ids c v, s.cResume = .stage n ids (some (c, v)) → exec (.sealb xa off) s = .next (s.trapEntry false c v))

/-- R191, R192, R196: a commit that reaches its home makes an EMPTY block FULL with its data, its bound and magnitude, the
DSC bit and the same generation, and is answered as performed; one that finds the block FULL changes no byte and is
answered as a second write; one that finds it RETIRED, as retired. -/
def Parts.Commits : Prop :=
  ∀ (s : State) (k : Nat) (a : Acc) (c : CommitData), s.net.get? k = some (.req a) → a.op = .commit c → a.pa % 512 = 0 →
    hasMeta a.pa = true → s.reserved a.pa = false → s.wakeStuck (blkOf a.pa) = false → c.data.length = 512 →
    let u := (s.touchLines a.pa 512 true).meet a.pa 0
    let m := u.blkMeta a.pa
    Memory.wf u.mem = true →
    (u.isRetired a.pa = false → m.pres = .full →
      exec (.commit k) s = .next ((u.putMsg k (.answer a.owner 1 a.va)).settle))
    ∧ (u.isRetired a.pa = true → exec (.commit k) s = .next ((u.putMsg k (.answer a.owner 2 a.va)).settle))
    ∧ (u.isRetired a.pa = false → m.pres = .empty → c.poison = [] →
      (isVault a.pa = true → ∀ e ∈ (u.tile (vaultTile a.pa)).coll, e.st = .armed → e.covers a.pa = false) →
      ∃ v : State, exec (.commit k) s = .next (v.putMsg k (.answer a.owner 0 a.va)).settle
        ∧ v.bytes a.pa 512 = c.data ∧ u.keepsBytes v a.pa 512
        ∧ v.blkMeta a.pa = { m with dsc := true, bound := c.bound, maxe := c.maxe, pres := .full })

/-- The statements above of Seals, Commits, together. -/
def Obligations.SealsAndCommits : Prop := Parts.Seals ∧ Parts.Commits

/-- R209, R216: CLR of a FULL or EMPTY block that nothing reserves or guards completes: its bytes are zero, its generation is
the next one, it is EMPTY, and no byte outside the block changes. -/
def Obligations.Clears : Prop :=
  ∀ (s u : State) (xa : XR) (off : BitVec 12) (x : Site), s.mayAccess (.clr xa off) →
    s.locateByte { wr := true, need := .block } (s.at xa off.toInt) = (.ok x, u) →
    u.mayGo (x.block.cls false true false false) [x.block] → x.remote = false → hasMeta (blkOf x.pa) = true →
    u.wakeStuck (blkOf x.pa) = false →
    let w := (u.touchLines (blkOf x.pa) 512 true).meet (blkOf x.pa) 0
    let m := w.blkMeta (blkOf x.pa)
    w.reserved (blkOf x.pa) = false → w.isRetired (blkOf x.pa) = false → (m.pres = .full ∨ m.pres = .empty) →
    w.guardsOf (blkOf x.pa) (m.pres == .full) = [] → Memory.wf w.mem = true →
    ∃ v : State, exec (.clr xa off) s = .next v.wentOn
      ∧ v.bytes (blkOf x.pa) 512 = List.replicate 512 0 ∧ w.keepsBytes v (blkOf x.pa) 512
      ∧ v.blkMeta (blkOf x.pa) = { m with dsc := true, gen := m.gen + 1, pres := .empty }
      ∧ v.fibres = w.fibres ∧ v.cores = w.cores

/-- R216: PROBE completes with the metadata of the block, the number of its queued readers and whether the core holds an
entry for it; BWAIT of a FULL block completes, and of another one queues a reader and parks, to complete once woken. -/
def Obligations.ProbeAndWait : Prop :=
  ∀ (s u : State) (xd xa : XR) (off : BitVec 12) (x : Site),
    let w := (u.touchLines x.pa 1 false).meet (blkOf x.pa) 0
    let q := if (w.blkMeta (blkOf x.pa)).pres = .deferred then w.readQueue (blkOf x.pa) else w
    (s.mayAccess (.probe xd xa off) → s.locateByte { rd := true, need := .block } (s.at xa off.toInt) = (.ok x, u) →
      u.mayGo { ld := true } [x.block] → x.remote = false → u.wakeStuck (blkOf x.pa) = false → q.isRetired (blkOf x.pa) = false →
      exec (.probe xd xa off) s = .next ((q.setX xd (BitVec.ofNat 64 ((q.blkMeta (blkOf x.pa)).toNat
        + (if (q.blkMeta (blkOf x.pa)).pres = .deferred then min (q.queue (blkOf x.pa)).length 255 else 0) * 2 ^ 40
        + (if (q.myCore.babOf (blkOf x.pa)).isSome then 2 ^ 63 else 0)))).wentOn))
    ∧ (s.mayAccess (.bwait xa off) → s.cResume = .none →
      s.locateByte { rd := true, need := .block, watch := false } (s.at xa off.toInt) = (.ok x, u) →
      u.mayGo (x.block.cls true false true false) [x.block] → x.remote = false → u.wakeStuck (blkOf x.pa) = false →
      w.isRetired (blkOf x.pa) = false →
      ((w.blkMeta (blkOf x.pa)).pres = .full → exec (.bwait xa off) s = .next w.hearMe.wentOn)
      ∧ ((w.blkMeta (blkOf x.pa)).pres ≠ .full → exec (.bwait xa off) s = w.queueMe x (.stage 0 [] none)))
    ∧ (∀ ids fail, s.mayAccess (.bwait xa off) → s.cResume = .stage 1 ids fail → exec (.bwait xa off) s = .next s.hearMe.wentOn)

/-! ## Fences, buffers, prefetches and the save area (R189, R242 to R244, R432, R433) -/

/-- R189, R242 to R244: FENCE completes once no access that it names is outstanding; PUSH with an empty buffer and nothing on
its way, or once its lines have been acknowledged; one of which a line of this package is held parks on that hold, and one whose line a home has
refused traps; PULL by discarding the core's read buffer and what it has fetched
ahead; PREF whatever its address is, without a trap, a hold or a wait. -/
def Obligations.FencesAndBuffers : Prop :=
  ∀ (s : State) (kinds : BitVec 4) (sc : Scope) (tlb : Bool) (xa : XR) (off : BitVec 12),
    s.Inv →
    (s.ready (.fence kinds sc) = .go → ((kinds.getLsbD 0 || kinds.getLsbD 1) = true → s.me.recs = 0) →
      (s.fenceWaits kinds sc = [] → exec (.fence kinds sc) s = .next (if kinds &&& 7#4 = 0 then s else s.hearMe).wentOn)
      ∧ (s.fenceWaits kinds sc ≠ [] → (∀ w ∈ s.fenceWaits kinds sc, w.2.far = false ∨ w.2.cls.st = false) →
        exec (.fence kinds sc) s = .next (s.parkMe 7 (.performed ((s.fenceWaits kinds sc).map (·.1))))))
    ∧ (s.ready .push = .go → s.cResume = .none → s.myCore.wbuf = [] ∨ s.me.recs = 0 ∧ s.pushWaits = [] →
      let p := s.pushFree s.cur.core
      let held := (p.core s.cur.core).wbuf
      ((∀ l ∈ s.myCore.wbuf, l.1 < 2 ^ 56) → held = s.myCore.wbuf.filter fun l => s.isHeld l.1)
      ∧ (held = [] → p.pushIds s.cur.core = [] → exec .push s = .next p.wentOn)
      ∧ (held = [] → p.pushIds s.cur.core ≠ [] → exec .push s = p.awaitIds 1 (p.pushIds s.cur.core) none)
      ∧ (∀ l ls, held = l :: ls → l.1 < 2 ^ 56 → exec .push s = p.endHold (l.1 / 65536) (BitVec.ofNat 64 l.1)))
    ∧ (∀ n ids, s.ready .push = .go → s.cResume = .stage n ids none → exec .push s = .next s.wentOn)
    ∧ (∀ n ids c v, s.ready .push = .go → s.cResume = .stage n ids (some (c, v)) →
      exec .push s = .next (s.trapEntry false c v))
    ∧ (s.ready .pull = .go → s.me.recs = 0 → s.openReqs s.cur.core s.cur.slot = [] →
      exec .pull s = .next ((s.modCore s.cur.core fun r => { r with rbuf := [], ahead := [] }).wentOn))
    ∧ (s.ready (.pref tlb xa off) = .go → ∃ t : State, exec (.pref tlb xa off) s = .next t.wentOn
      ∧ t.fibres = s.fibres ∧ t.cores = s.cores)

/-- R432, R433: SAVEM writes the next word of its list to its place in the save area and parks until the home has answered; LOADM
begins the next word's read and parks for it; each retires when no word is left, and a SAVEM whose word its home has refused traps at
that word. That they park after each word is the model's choice (log 20). -/
def Obligations.SaveAndLoadWords : Prop :=
  ∀ (s u v : State) (xa : XR) (list : BitVec 10) (off : BitVec 12) (w : Nat) (ws : List Nat) (x : Site),
    let a := s.at xa off.toInt
    let d := if list.getLsbD 8 then s.drainArith s.cur.core s.cur.slot else s
    let legal := (list.getLsbD 9 = true → s.me.lvl ≠ 0) ∧ a.toNat % 8 = 0
    let from_ := fun n : Nat => (List.range 10).filter fun w => decide (n ≤ w) && list.getLsbD w
    let va := a + BitVec.ofNat 64 (8 * w)
    (∀ c b, s.mayAccess (.savem xa list off) → legal → s.me.resume.word.2 = some (c, b) →
      exec (.savem xa list off) s = .next (s.trapEntry false c (a + BitVec.ofNat 64 (8 * (s.me.resume.word.1 - 1)))))
    ∧ (s.mayAccess (.savem xa list off) → legal → s.me.resume.word.2 = none → from_ s.me.resume.word.1 = [] →
      exec (.savem xa list off) s = .next d.wentOn)
    ∧ (s.mayAccess (.savem xa list off) → legal → s.me.resume.word.2 = none → from_ s.me.resume.word.1 = w :: ws →
      d.locate { acc := { wr := true }, n := 8 } va = (.ok x, u) → (x.ty = .strict ∨ x.ty = .release) → x.remote = false →
      x.isReg = false → u.mayGo (x.cls false true false false) [x] → (u.writeFault x) = (none, u) →
      let word : Word := if w < 8 then (u.me.x.get (Fin.ofNat 8 w)).val else if w = 8 then u.me.fsw.setWidth 64
        else BitVec.ofNat 64 ((u.me.bank u.me.lvl).pc.toNat % 2 ^ 48)
      let sent := u.send (.req
        { owner := .fibre u.cur.core u.cur.slot, tid := u.me.tid, ctx := u.myCore.ctxid.toNat, va := x.va, pa := x.pa,
          len := x.len, ty := x.ty, cls := x.cls false true false false, gen := none, op := .write (bytesOfNat 8 word.toNat) })
      exec (.savem xa list off) s = .next ((sent.1.modMe fun f =>
        { f with resume := .stage (w + 1) [sent.2] none }).parkMe 7 (.gone [sent.2])))
    ∧ (s.mayAccess (.loadm xa list off) → legal → s.me.resume.word.2 = none → from_ s.me.resume.word.1 = [] →
      exec (.loadm xa list off) s = .next d.wentOn)
    ∧ (s.mayAccess (.loadm xa list off) → legal → s.me.resume.word.2 = none → from_ s.me.resume.word.1 = w :: ws →
      d.locate { acc := { rd := true }, n := 8 } va = (.ok x, u) → x.ty ≠ .once →
      u.mayGo (x.cls true false false false) [x] →
      let dst : Dst := if w < 8 then .x (Fin.ofNat 8 w) .d false 0 else if w = 8 then .fsw else .tpc
      u.siteFault x none dst = (none, v) →
      let sent := v.startRead x (x.cls true false false false) none dst
      exec (.loadm xa list off) s = .next ((sent.1.modMe fun f =>
        { f with resume := .stage (w + 1) [sent.2] none }).parkMe 1 (.gone [sent.2])))


/-! ## Fibres (R386 to R396) -/

/-- R392, R393, R394: YIELD leaves its fibre READY behind the bundle. EXIT, with nothing of its fibre on its way but SHIP runs
and nothing in its core's PRIVATE write buffer, leaves its slot FREE, and its core's anchor free where it held it and no port is bound.
MIGRATE to its own core, with nothing on its way, goes on with the read buffer discarded; to another one it asks that core for a
place first and parks, and traps when that has none. -/
def Obligations.FibreEnds : Prop :=
  ∀ (s : State) (v : Bool) (xa : XR), s.Inv →
    let c := s.cur.core
    let k := s.cur.slot
    let d := s.drainArith c k
    let quiet := fun ships => d.me.recs = 0 ∧ d.leaveIds ships = [] ∧ d.me.resume = .none ∧ d.myCore.wbuf = [] ∧ d.pushIds c = []
    (s.ready .yield = .go → ∃ t, exec .yield s = .next t
      ∧ t.fib c k =
        { s.me with pc := s.me.pc + 8, st := .ready, resume := .none, afterRtt := false, wf := none, paid := false, owed := [] }
      ∧ (t.core c).hotN.slot ≠ some k ∧ (t.core c).hotH.slot ≠ some k ∧ SameModule s t)
    ∧ (s.ready .exit = .go → quiet false → s.me.anc = false → ∃ t, exec .exit s = .next t
      ∧ t.fib c k = {} ∧ (t.core c).hotN.slot ≠ some k ∧ (t.core c).hotH.slot ≠ some k ∧ SameModule s t)
    ∧ (s.ready .exit = .go → quiet false → s.me.anc = true → (∀ sp : Fin 4, (d.port c sp).bound = false) →
      ∃ t, exec .exit s = .next t ∧ t.fib c k = {} ∧ (t.core c).anchor = none)
    ∧ (s.ready (.migrate false xa) = .go → s.me.anc = false → s.me.lvl = 0 → s.samePart c (s.rx xa).toNat = true →
      let r : SpawnReq :=
        { mode := .migrate, core := c, slot := k, tid := d.me.tid, res := none
          kids := [{ ctx := d.myCore.ctxid.toNat, core := (s.rx xa).toNat, slot := none, f := d.me }] }
      ((s.rx xa).toNat = c → quiet true → exec (.migrate false xa) s = .next ((d.pushAll c).pullAll c).wentOn)
      ∧ ((s.rx xa).toNat ≠ c → d.me.recs = 0 → d.me.resume = .none → exec (.migrate false xa) s =
        .next (((d.send (.reserve r)).1.modMe fun f => { f with resume := .stage 41 [d.nextId] none }).parkMe 8
          (.gone [d.nextId])))
      ∧ (∀ ids z w, (s.rx xa).toNat ≠ c → d.me.recs = 0 → d.me.resume = .stage 41 ids (some (z, w)) →
        exec (.migrate false xa) s = .next (d.trapEntry false z (s.rx xa))))
    ∧ (s.ready (.migrate v xa) = .go → s.me.anc = true → exec (.migrate v xa) s = .next (s.trapEntry false 0x0F 0))
    ∧ (s.ready (.migrate v xa) = .go → s.me.anc = false → s.me.lvl ≠ 0 →
      exec (.migrate v xa) s = .next (s.trapEntry false 0x0F 1))
    ∧ (s.ready (.migrate false xa) = .go → s.me.anc = false → s.me.lvl = 0 → s.samePart c (s.rx xa).toNat = false →
      exec (.migrate false xa) s = .next (s.trapEntry false 0x15 (s.rx xa)))

/-- R390, R391: SPAWN to a core, and SPAWNR to a rectangle of cores, of the fibre's partition complete once no earlier access
keeps them back: without .t the request for the children's places is on its way and the result register EMPTY; with .t the
fibre parks, with WAIT 7 (the model's choice, log 146), for the answer, and then holds 0 when every child has a slot and 1 when some wait in the pool, or traps. Each
child has x0 to x3 of its parent, the entry PC, its TID, and the FSW bits that a child takes; the children of SPAWNR have
TIDs that count up in row-major order. -/
def Parts.Spawns : Prop :=
  ∀ (s : State) (t : Bool) (xa xb xc : XR) (w h : BitVec 10) (res : Option XR) (n : Nat) (ids : List Nat) (cause : Nat)
    (val : Word) (v : Bool),
    let c := s.cur.core
    let pc := s.rx xb
    let a := (s.rx xa).toNat
    let legal := pc.toNat / 2 ^ 48 = 0 ∧ pc.toNat % 8 = 0 ∧ s.me.resume = .none ∧ s.mustWait { rel := true } 0 0 false = []
    let kid := fun (core : Nat) (tid : BitVec 48) =>
      ({ ctx := s.myCore.ctxid.toNat, core := core, slot := none
         f := { x := Vector.ofFn fun i : Fin 8 => { val := if i.val < 4 then s.rx i else 0, full := true }
                pc := pc.setWidth 48, save := tid.setWidth 16, tid := tid, fsw := s.rfsw &&& spawnFsw
                synced := s.nextId } } : Travel)
    let req := fun kids => Msg.reserve
      { mode := if t then .spawnT else .spawn, core := c, slot := s.cur.slot, tid := s.me.tid, res := res, kids := kids }
    let done := fun kids =>
      if t then (s.send (req kids)).1.awaitIds 1 [s.nextId] none
      else .next (((match res with
        | some xd => s.emptyX xd
        | none => s).send (req kids)).1.wentOn)
    let tid := (s.rx xc).setWidth 48
    (s.mayAccess (.spawn false t xa xb xc res) → legal → s.samePart c a = true →
      exec (.spawn false t xa xb xc res) s = done [kid a tid])
    ∧ (s.mayAccess (.spawnr t xa xb xc w h res) → legal → a < 131072 →
      (∀ y, y < h.toNat → ∀ x, x < w.toNat → a / 512 + y ≤ 255 ∧ a % 512 + x ≤ 511
        ∧ s.samePart c ((a / 512 + y) * 512 + (a % 512 + x)) = true) →
      exec (.spawnr t xa xb xc w h res) s = done ((List.range (h.toNat * w.toNat)).map fun r =>
        kid ((a / 512 + r / w.toNat) * 512 + (a % 512 + r % w.toNat)) (tid + BitVec.ofNat 48 r)))
    ∧ (s.mayAccess (.spawn v t xa xb xc res) → s.me.resume = .stage n ids none →
      exec (.spawn v t xa xb xc res) s = .next (s.setXo res (BitVec.ofNat 64 (n - 2))).wentOn)
    ∧ (s.mayAccess (.spawn v t xa xb xc res) → s.me.resume = .stage n ids (some (cause, val)) →
      exec (.spawn v t xa xb xc res) s = .next (s.trapEntry false cause (s.rx xa)))
    ∧ (s.mayAccess (.spawnr t xa xb xc w h res) → s.me.resume = .stage n ids none →
      exec (.spawnr t xa xb xc w h res) s = .next (s.setXo res (BitVec.ofNat 64 (n - 2))).wentOn)

/-- R387, R388, R391: a request for one place reserves a FREE slot of its core, which becomes TRANSIT; one that finds neither a
FREE slot nor room in the pool reserves nothing. The answer sends the children to their places, or brings the refusal to the
fibre that waits; that of a MIGRATE takes effect once the fibre's own messages are answered and its core's PRIVATE buffer has gone
home: then its slot is FREE and its record is on its way. A fibre that arrives at its slot is READY there with its record; one without a slot waits in its
context's pool, until it moves into a FREE slot of its core. -/
def Parts.Placements : Prop :=
  ∀ (s : State) (k : Nat) (r : SpawnReq) (t : Travel) (j : Nat) (kids : List Travel), s.Inv →
    (s.net.get? k = some (.reserve r) → s.Passes (.reserve r) → r.kids = [t] → (∃ j, j < 256 ∧ (s.fib t.core j).st = .free) →
      ∃ j, j < 256 ∧ (s.fib t.core j).st = .free ∧ ∃ u, exec (.reservationRequest k) s = .next (s.crossed u k (.reserve r))
        ∧ u.net = s.net.insert k (.reserved r (some [{ t with slot := some j }]))
        ∧ u.fib t.core j = { tid := t.f.tid, st := .transit } ∧ u.cores = s.cores ∧ SameModule s u)
    ∧ (s.net.get? k = some (.reserve r) → s.Passes (.reserve r) → r.kids = [t] →
      (∀ j, j < 256 → (s.fib t.core j).st ≠ .free) → s.poolRoom t.ctx = false →
      exec (.reservationRequest k) s = .next (s.crossed (s.putMsg k (.reserved r none)) k (.reserve r)))
    ∧ (s.net.get? k = some (.reserved r (some kids)) → s.Passes (.reserved r (some kids)) → r.mode = .spawn →
      let d := (s.dropMsg k).sendAll r.core kids
      exec (.reservationAnswer k) s = .next (s.crossed (match r.res with
        | some xd => (d.send (.done r.core r.slot r.tid xd (if kids.all fun t => t.slot.isSome then 0 else 1))).1
        | none => d) k (.reserved r (some kids))))
    ∧ (s.net.get? k = some (.reserved r none) → s.Passes (.reserved r none) → r.mode = .spawnT →
      exec (.reservationAnswer k) s =
        .next (s.crossed ((s.dropMsg k).noteAnswer r.core r.slot 2 (some (0x12, 0))) k (.reserved r none)))
    ∧ (s.net.get? k = some (.reserved r (some (t :: kids))) → r.mode = .migrate →
      let m : Msg := .reserved r (some (t :: kids))
      let f := s.fib r.core r.slot
      (s.beforeLeave r.core r.slot k = none → s.Passes m → ∃ u, exec (.reservationAnswer k) s = .next (s.crossed u k m)
        ∧ u.fib r.core r.slot = {} ∧ (∃ i, u.net.get? i = some (.travel { t with f := f.leaving (f.pc + 8), src := some r.core })))
      ∧ (s.ownIds r.core r.slot = [] → s.pushIds r.core = [] → (s.core r.core).wbuf ≠ [] →
        exec (.reservationAnswer k) s = .next (s.pushAll r.core)))
    ∧ (s.net.get? k = some (.travel t) → s.Passes (.travel t) → t.slot = some j → ∃ u,
      exec (.fibreArrival k) s = .next (s.crossed u k (.travel t))
      ∧ u.fib t.core j = { t.f with st := .ready, wait := 0, need := .none }
      ∧ (u.core t.core).rbuf = [] ∧ (u.core t.core).ahead = [] ∧ u.net = s.net.erase k)
    ∧ (s.net.get? k = some (.travel t) → s.Passes (.travel t) → t.slot = none → ∃ u,
      exec (.fibreArrival k) s = .next (s.crossed u k (.travel t))
      ∧ u.pool = s.pool ++ [{ t with f := { t.f with st := .transit, wait := 8 } }] ∧ u.fibres = s.fibres)
    ∧ (s.pool = [t] → s.poolFor t.core = [0] → (∃ j, j < 256 ∧ (s.fib t.core j).st = .free) →
      ∃ j, (s.fib t.core j).st = .free ∧ ∃ u, exec (.poolPlacement t.core) s = .next u ∧ u.pool = []
        ∧ u.fib t.core j = { t.f with st := .ready, wait := 0, need := .none })

/-- The statements above of Spawns, Placements, together. -/
def Obligations.SpawnsAndPlacements : Prop := Parts.Spawns ∧ Parts.Placements

/-! ## Stream ports (R297 to R304) -/

/-- R297, R302: SBIND of an unbound port to an aligned descriptor that keeps R297, read from a local STRICT or RELEASE page,
binds the port as the descriptor says; an output port's register is FULL with zeros. R303: SFREE of an unbound port completes; that
of an output port waits for its stores, and that of an input port cancels what it has queued and waits for the homes' answers; then
the port is unbound and its register zero, FULL. R304: SSTAT completes with the port's status, zero when it is not bound. -/
def Parts.StreamPorts : Prop :=
  ∀ (s u v : State) (sp : Fin 4) (xa xd : XR) (x : Site),
    let d := s.rx xa
    let bs := v.bytes x.pa 32
    let word := fun i : Nat => natOfBytes ((bs.drop (8 * i)).take 8)
    (s.mayAccess (.sbind sp xa) → (s.port s.cur.core sp).bound = false → d.toNat % 32 = 0 →
      s.openReqs s.cur.core s.cur.slot = [] → s.locate { acc := { rd := true }, n := 32, conv := false } d = (.ok x, u) →
      u.mayGo (x.cls true false false false) [x] → x.remote = false → (x.ty = .strict ∨ x.ty = .release) →
      u.siteFault x none .none = (none, v) → v.wakeStuck (blkOf x.pa) = false →
      word 1 / 2 ^ 56 % 2 ^ 7 = 0 → word 1 % 2 ^ 16 = 0 → word 1 / 2 ^ 40 % 2 ^ 16 ≠ 0 → word 1 / 2 ^ 16 % 2 ^ 24 ≠ 0 →
      word 2 / 2 ^ 48 = 0 → word 3 / 2 ^ 48 = 0 →
      let w := v.hearMe.setPort v.cur.core sp
        { bound := true, out := (word 1).testBit 63, n1 := word 1 / 2 ^ 40 % 2 ^ 16, n0 := word 1 / 2 ^ 16 % 2 ^ 24
          base := BitVec.ofNat 64 (word 0), s0 := BitVec.ofNat 48 (word 2), s1 := BitVec.ofNat 48 (word 3)
          wf := v.myCore.wf, ctx := v.myCore.ctxid.toNat, slot := v.cur.slot }
      ((word 1).testBit 63 = true →
        exec (.sbind sp xa) s = .next (w.fillV v.cur.core (portReg sp) (Vector.replicate 4 0)).wentOn)
      ∧ ((word 1).testBit 63 = false → exec (.sbind sp xa) s = .next ((w.emptyV (portReg sp) 0xF).pump sp 4).wentOn))
    ∧ (s.mayAccess (.sbind sp xa) → (s.port s.cur.core sp).bound = true →
      exec (.sbind sp xa) s = .next (s.trapEntry false 0x18 0))
    ∧ (s.ready (.sfree sp) = .go → s.cResume = .none → (s.port s.cur.core sp).bound = false →
      exec (.sfree sp) s = .next s.wentOn)
    ∧ (s.ready (.sfree sp) = .go → s.cResume = .none → (s.port s.cur.core sp).out = true →
      (∀ p ∈ s.openReqs s.cur.core s.cur.slot, p.2.cls.st = false) → s.Inv →
      ∃ t : State, exec (.sfree sp) s = .next t.wentOn ∧ (t.port s.cur.core sp).bound = false)
    ∧ (s.ready (.sfree sp) = .go →
      let w := s.outWaits [sp]
      let p := s.stopPorts [sp]
      (s.cResume = .none → w ≠ [] → exec (.sfree sp) s = .next (s.parkMe 7 (.performed w)))
      ∧ (s.cResume = .none → w = [] → p.2 = [] → exec (.sfree sp) s = .next (p.1.unbindAll [sp]).wentOn)
      ∧ (s.cResume = .none → w = [] → p.2 ≠ [] → exec (.sfree sp) s = p.1.awaitIds 50 p.2 none)
      ∧ (∀ ids fl, s.cResume = .stage 50 ids fl → exec (.sfree sp) s = .next (s.unbindAll [sp]).wentOn))
    ∧ ((s.port s.cur.core sp).bound = true → s.Inv →
      let p := s.stopPorts [sp]
      let t := s.unbindAll [sp]
      (t.port s.cur.core sp).bound = false
      ∧ (∀ k : Fin 4, ((t.core s.cur.core).v.get (portReg sp)).get k = { val := 0, full := true })
      ∧ ((s.port s.cur.core sp).out = false →
        p.2.length = (((s.port s.cur.core sp).queued.map fun q => blkOf q.2).eraseDups).length
        ∧ (∀ m ∈ p.1.net, m.2.ofPort s.cur.core sp.val = false)
        ∧ ∀ id ∈ p.2, ∃ a, p.1.net.get? id = some (.req a) ∧ a.op = .cancel s.cur.core sp.val))
    ∧ (s.ready (.sstat xd sp) = .go → (s.port s.cur.core sp).bound = false →
      exec (.sstat xd sp) s = .next (s.setX xd 0).wentOn)
    ∧ (s.ready (.sstat xd sp) = .go → (s.port s.cur.core sp).bound = true →
      let p := s.port s.cur.core sp
      let ahead := if p.out then 0
        else p.got.length + (if p.pos < p.n0 * p.n1 ∧ vAllFull s.myCore.v [portReg sp] = true then 1 else 0)
      p.pos < 2 ^ 52 → p.cause < 64 → ahead < 8 →
      exec (.sstat xd sp) s = .next (s.setX xd (BitVec.ofNat 64 (2 ^ 63 + (if p.failed = none then 0 else 2 ^ 62) + p.cause * 2 ^ 56
        + (if p.out then 2 ^ 55 else 0) + ahead * 2 ^ 52 + p.pos))).wentOn)

/-- R297, R299, R301: a vector instruction that writes the register of a bound output port sends its enabled lanes as the port's
next element, at the element's address, and counts the element, also when no lane is enabled; a fault of the element is a stream
fault with the element's address. A vector load into such a register notes where the element's lanes go, a store each that keeps its
place among the fibre's accesses, and they are stored once every lane has come. -/
def Parts.StreamOutputs : Prop :=
  (∀ (s : State) (sp : Fin 4) (rm : Rm) (va vb vc : VR) (mk : Option MR) (m : MR) (op : VintOp) (q : PermOp) (k : VcvtKind),
    let vd := portReg sp
    s.isOutV vd = true →
    let mode := RMode.ofRm (fld s.rfsw.toNat 5 2) rm
    let en := s.enabled mk
    let res (f : Fin 4 → FpRes) : Fin 4 → Lane × Flags := fun k => ((f k).bits, (f k).flags)
    let ends := fun (i : Instr) (en : BitVec 4) (r : Fin 4 → Lane × Flags) => s.ready i = .go → VecEndsOut i sp en r s
    ends (.vadd rm vd va vb mk) en (res fun k => fpAdd mode (s.rv va k) (s.rv vb k))
    ∧ ends (.vsub rm vd va vb mk) en (res fun k => fpSub mode (s.rv va k) (s.rv vb k))
    ∧ ends (.vmul rm vd va vb mk) en (res fun k => fpMul mode (s.rv va k) (s.rv vb k))
    ∧ ends (.vfma rm vd va vb vc mk) en (res fun k => fpFma mode (s.rv va k) (s.rv vb k) (s.rv vc k))
    ∧ ends (.vdiv rm vd va vb mk) en (res fun k => fpDiv mode (s.rv va k) (s.rv vb k))
    ∧ ends (.vsqrt rm vd va mk) en (res fun k => fpSqrt mode (s.rv va k))
    ∧ ends (.vexp2 rm vd va mk) en (res fun k => fpExp2 mode (s.rv va k))
    ∧ ends (.vlog2 rm vd va mk) en (res fun k => fpLog2 mode (s.rv va k))
    ∧ ends (.vmin vd va vb mk) en (res fun k => fpMin (s.rv va k) (s.rv vb k))
    ∧ ends (.vmax vd va vb mk) en (res fun k => fpMax (s.rv va k) (s.rv vb k))
    ∧ ends (.vint op vd va vb mk) en (fun k => (vintLane op (s.rv va k) (s.rv vb k), 0))
    ∧ ends (.vselm vd va vb m) 0xF (fun k => (if (s.rm m).getLsbD k.val then s.rv va k else s.rv vb k, 0))
    ∧ ends (.vperm q vd va mk) en (fun k => (s.rv va (permLane q k), 0))
    ∧ ends (.vcvt k rm vd va mk) en (fun j =>
        let r := fpCvt (VcvtKind.scalar k) mode ((s.rv va j).setWidth 64)
        (r.1.setWidth 32, r.2)))
  ∧ (∀ (s u : State) (a : Bool) (sp : Fin 4) (en : BitVec 4) (vals : Fin 4 → Lane) (xs : List (Nat × Site)) (z : Nat) (w : Word),
    let p := s.port s.cur.core sp
    let ws := xs.map fun x => putAt x.2 ((vals (Fin.ofNat 4 x.1)).setWidth 64)
    let cls := clsAll false true false false (xs.map (·.2))
    let free := (∀ x ∈ xs, (u.writeFault x.2).1 = none) ∧ u.me.recs = 0 ∧ u.elemWaits cls (xs.map (·.2)) = []
    (∀ k, p.elemAddr k = p.base + BitVec.ofNat 64 (k % p.n0) * p.s0.signExtend 64 + BitVec.ofNat 64 (k / p.n0) * p.s1.signExtend 64)
    ∧ (s.ops.f.resume = .none →
      (en = 0 → s.storeElem a sp en vals = .done (s.advancePort sp))
      ∧ (en ≠ 0 → s.locateElem p true p.pos en = (.ok xs, u) → free →
        ((∀ x ∈ xs, x.2.ty ≠ .once) → s.storeElem a sp en vals = .done ((u.startWrites cls ws).advancePort sp))
        ∧ ((∀ x ∈ xs, x.2.ty = .once) → u.myCore.completed ws = [] →
          (u.myCore.babNew (ws.map fun w => blkOf w.site.pa)).length ≤ 8 - u.myCore.bab.length →
          s.storeElem a sp en vals = .done ((u.babStores ws).advancePort sp)))
      ∧ (en ≠ 0 → s.locateElem p true p.pos en = (.fault z w, u) →
        let o := u.port u.cur.core sp
        s.storeElem a sp en vals = .stop (.next ((u.setPort u.cur.core sp { o with cause := z }).trapEntry a 0x18 (o.elemAddr o.pos)))))
    ∧ (∀ ids, s.ops.f.resume = .stage 100 ids none → s.storeElem a sp en vals = .done (s.advancePort sp)))
  ∧ (∀ (s u v w : State) (sp : Fin 4) (vi : VR) (xa xb : XR) (mk : Option MR) (sh : Fin 4) (o12 : BitVec 12) (o32 : BitVec 32)
    (xs ys : List (Nat × Site)) (x : Site),
    let vd := portReg sp
    let en := s.enabled mk
    let cls := clsAll true false false false (xs.map (·.2))
    let q : Want := { acc := { rd := true }, n := 4 }
    let fine := u.mayGo cls (xs.map (·.2)) ∧ u.lanesFault vd xs = (none, v) ∧ v.isOutV vd = true ∧ v.noteElem sp en = .done w
    let lanes := fun la : Nat → Word => ((List.range 4).filter fun k => en.getLsbD k).map fun k => (k, la k)
    let ends := fun (i : Instr) (at_ : Loc (List (Nat × Site)) × State) (start : State) => s.mayAccess i → s.isOutV vd = true →
      (en = 0 → exec i s = .next (s.advancePort sp).wentOn)
      ∧ (en ≠ 0 → at_ = (.ok xs, u) → fine → exec i s = .next start.wentOn)
    (spanSite xs = some x → ends (.vld vd xa mk o12) (s.locateQuad q (s.at xa o12.toInt) en)
      ((w.pendV vd xs).startRead x cls none (.v vd en x.fmt)).1)
    ∧ ends (.vlds vd xa xb mk o32) (s.locateLanes q (lanes fun k => s.at xa o32.toInt + BitVec.ofNat 64 k * s.rx xb))
      ((w.pendV vd xs).startLanes cls vd xs)
    ∧ ends (.vgath vd xa vi sh mk o32) (s.locateLanes q (lanes fun k =>
        s.at xa o32.toInt + BitVec.ofInt 64 ((s.rv vi (Fin.ofNat 4 k)).toInt * 2 ^ sh.val)))
      ((w.pendV vd xs).startLanes cls vd xs)
    ∧ (let p := v.port v.cur.core sp
      let c := clsAll false true false false (ys.map (·.2))
      v.locateElem p true p.pos en = (.ok ys, u) → (∀ y ∈ ys, (u.writeFault y.2).1 = none ∧ y.2.ty ≠ .once) →
      u.elemWaits c (ys.map (·.2)) = [] →
      let r := u.sendAwaits sp p.pos ys
      v.noteElem sp en = .done (r.1.modPort r.1.cur.core sp fun o => { o with pos := o.pos + 1, lanes := r.2 })
      ∧ r.2.map (fun l => (l.lane, l.va, l.pa)) = ys.map (fun y => (y.1, y.2.va, y.2.pa))))
  ∧ (∀ (s : State) (c : Nat) (sp : Fin 4) (l : PortLane) (a : Acc), (s.port c sp).bound = true → (s.port c sp).out = true →
    (s.port c sp).lanes = [l] → (l.ty = .strict ∨ l.ty = .release) → s.net.get? l.id = some (.req a) →
    (((s.core c).v.get (portReg sp)).get (Fin.ofNat 4 l.lane)).full = true → ∃ t, s.portLoaded c (portReg sp) = t
      ∧ t.net.get? l.id = some (.req { a with op := .write (l.put (((s.core c).v.get (portReg sp)).get (Fin.ofNat 4 l.lane)).val).data })
      ∧ (t.port c sp).lanes = [])

/-- R215, R298: the element that a port reads next, arriving without a flag, fills the port's register; one that a port no
longer reads changes no register; a cancel that reaches its home is answered, and leaves a block on which no read of the
port waits as it is. -/
def Parts.StreamArrivals : Prop :=
  ∀ (s : State) (k c e : Nat) (sp : Fin 4) (data : List Byte) (a : Acc),
    let dst := Dst.v (portReg sp) 0xF 0
    let p := s.port c sp
    (s.net = [(k, .reply (.port c sp.val e) dst data .none)] → p.bound = true → p.out = false → e = p.pos → e < p.asked →
      s.Inv → data.length = 16 → ∃ t, exec (.inputElementArrival c sp.val) s = .next t ∧ t.net = []
        ∧ ∀ i : Fin 4, ((t.core c).v.get (portReg sp)).get i =
          { val := BitVec.ofNat 32 (natOfBytes ((data.drop (4 * i.val)).take 4)) })
    ∧ (s.net = [(k, .reply (.port c sp.val e) dst data .none)] → p.bound = false →
      exec (.inputElementArrival c sp.val) s = .next (s.dropMsg k))
    ∧ (s.net.get? k = some (.req a) → a.op = .cancel c sp.val → s.wakeStuck (blkOf a.pa) = false →
      (s.blkMeta a.pa).pres ≠ .deferred → ∃ t, exec (.cancel k) s = .next t ∧ t.net.get? k = some (.ack a.owner) ∧ SameModule s t)

/-- The statements above of StreamPorts, StreamOutputs, StreamArrivals, together. -/
def Obligations.Streams : Prop := Parts.StreamPorts ∧ Parts.StreamOutputs ∧ Parts.StreamArrivals

/-! ## The ends of waits (R143, R144, R193, R205, R208, R270, R382, R461) -/

/-- R193, R196, R270: an arithmetic result fills its register with its flags; an acknowledgement, or a home's answer that
something was performed, ends; an answer that it was not brings its cause to the bundle that waits for it: 0x07 for a
second write, 0x09 for a RETIRED block, 0x03 for an extent that is gone; a fibre that waits for its core's block-assembly buffer goes on once it has room. -/
def Parts.AnswersArrive : Prop :=
  ∀ (s : State) (k c j : Nat) (xd : XR) (vd : VR) (lanes : BitVec 4) (val : Word) (vals : Vector Lane 4) (fl : Flags)
    (o : Owner) (code : Nat) (va : Word),
    (s.net.get? k = some (.arithX c j xd val fl) → exec (.arithmeticResult k) s =
      .next ((s.modFib c j fun f => { f.fill xd val with fsw := fswOr f.fsw fl }).dropMsg k).settle)
    ∧ (s.net.get? k = some (.arithV c j vd lanes vals fl) → exec (.arithmeticResult k) s =
      .next (((s.modCore c fun r => r.modV vd lanes fun i _ => { val := vals.get i }).modFib c j fun f =>
        { f with fsw := fswOr f.fsw fl }).dropMsg k).settle)
    ∧ (s.net.get? k = some (.ack o) → exec (.acknowledgement k) s = .next (s.dropMsg k).settle)
    ∧ (s.net.get? k = some (.answer (.fibre c j) 0 va) → exec (.acknowledgement k) s = .next (s.dropMsg k).settle)
    ∧ (s.net.get? k = some (.answer (.fibre c j) code va) → code ≠ 0 →
      ∀ n ids, (s.fib c j).resume = .stage n ids none → k ∈ ids → exec (.acknowledgement k) s =
        .next ((s.modFib c j fun f => { f with
          resume := .stage n ids (some (if code = 1 then 0x07 else if code = 3 then 0x03 else 0x09, va)) }).dropMsg k).settle)
    ∧ ((s.fib c j).need = .assembly → (s.core c).bab.length < 8 → j < 256 →
      exec (.blockAssemblyResume c j) s =
        .next (s.wakeWhere fun c' j' f => c' == c && j' == j && f.need == .assembly))
    ∧ ((s.fib c j).need = .assembly → 8 ≤ (s.core c).bab.length → exec (.blockAssemblyResume c j) s = .next s)

/-- R205, R208, R495: of a wake that no router discards: one of a scalar load that reaches its resident fibre fills the register
with the little-endian number in its bytes, and the fibre counts one record less; one of a BWAIT lets its bundle go on; one
whose context has a new instance is discarded; one whose context is not resident waits in the context's pool when a group of
that is free, and otherwise on its way. -/
def Parts.WakesArrive : Prop :=
  ∀ (s : State) (k blk g : Nat) (r : Aster) (data : List Byte) (fl : RFlag) (xd : XR) (ids : List Nat) (fail : Option (Nat × Word)),
    let m := Msg.wake blk r data fl
    let c := r.core.toNat
    let j := r.slot.toNat
    let less := fun f : Fibre => { f with recs := f.recs - 1 }
    s.net.get? k = some m → s.Passes m →
    (s.stale r = true → exec (.wake k) s = .next (s.crossed (s.dropMsg k) k m))
    ∧ (s.stale r = false → s.reachable r = true → r.kind = 1 → r.dst = .x xd .d false 0 → fl = .none → data.length = 8 →
      exec (.wake k) s = .next (s.crossed ((((s.dropMsg k).hear c j).modFib c j fun f =>
        f.fill xd (BitVec.ofNat 64 (natOfBytes data))).modFib c j less).settle k m))
    ∧ (s.stale r = false → s.reachable r = true → r.kind = 3 → fl = .none →
      (s.fib c j).resume = .stage 0 ids fail →
      exec (.wake k) s = .next (s.crossed (((((s.dropMsg k).hear c j).modFib c j fun f =>
        { less f with resume := .stage 1 [] none }).wakeWhere fun c' j' f => c' == c && j' == j && f.need == .block).settle) k m))
    ∧ (s.stale r = false → s.reachable r = false → s.poolGroup r.ctx.toNat = some g →
      ∃ t, exec (.wake k) s = .next (s.crossed t k m) ∧ t.net = s.net.erase k ∧ t.groups.get? g = some ()
        ∧ t.fibres = s.fibres ∧ t.heldWakes = s.heldWakes ++ [{ blk := blk, ast := r, data := data, flag := fl, group := g }])
    ∧ (s.stale r = false → s.reachable r = false → s.poolGroup r.ctx.toNat = none → exec (.wake k) s = .next s)

/-- The statements above of AnswersArrive, WakesArrive, together. -/
def Obligations.AnswersAndWakes : Prop := Parts.AnswersArrive ∧ Parts.WakesArrive

/-- R144, R300, R382, R428: a fibre whose access has been held too long traps with cause 0x17 at its bundle; a stream port whose
read has been fails at that element, and an engine command whose access has been ends in error, both with cause 0x17; a host
read that has been is aborted; a fibre that has issued its
quantum gives its hot slot up when another of its priority is READY, and keeps it when none is; a fetch that faults traps
with the fault's cause, and one of a held page parks. -/
def Obligations.TimersAndFetches : Prop :=
  ∀ (s u : State) (c j k page cause tile p pa n : Nat) (va val : Word) (sp : Fin 4) (conv : Bool),
    ((s.fib c j).need = .hold page va → exec (.holdTimeout (.fibre c j)) s =
      .next (let w := (s.modFib c j Fibre.ready).rearm c
        { { w with cur := { core := c, slot := j } }.trapEntry false 0x17 va with cur := w.cur }))
    ∧ ((s.port c sp).held = some (page, va) → (s.port c sp).failed = none → AMap.wf {} s.cores = true →
      ∃ t, exec (.holdTimeout (.port c sp.val)) s = .next t ∧ (t.port c sp).cause = 0x17
        ∧ (t.port c sp).failed = some ((s.port c sp).asked, va) ∧ (t.port c sp).held = none ∧ SameModule s t)
    ∧ ((s.chan tile conv p).wait = .hold page va → p < (if conv then 4 else 8) → AMap.wf {} s.tiles = true →
      ∃ t, exec (.holdTimeout (.channel tile conv p)) s = .next t ∧ (t.chan tile conv p).st = .error
        ∧ (t.chan tile conv p).status = BitVec.ofNat 64 (2 ^ 62 + 0x17 * 2 ^ 56 + va.toNat % 2 ^ 55))
    ∧ (s.hostHeld = [{ k := k, pa := pa, n := n, data := none }] → s.isHeld pa = true →
      exec (.holdTimeout (.host k)) s = .next { s with hostHeld := [], toHost := .abort k :: s.toHost })
    ∧ (s.quantumOver c true = false → s.quantumOver c false = false → exec (.quantumExpiry c) s = .next s)
    ∧ (s.quantumOver c true = false → s.quantumOver c false = true → ((s.core c).hotN).slot = some j → j < 256 →
      (s.fib c j).st = .running → s.Inv → ∃ t, exec (.quantumExpiry c) s = .next t
        ∧ t.fib c j = { s.fib c j with st := .ready } ∧ ((t.core c).hotN).slot = none
        ∧ ((t.core c).hotN).start = (j + 1) % 256 ∧ SameModule s t)
    ∧ (s.fetchAt s.cur.core s.me.pc = (.fault cause val, u) →
      exec .instructionFetchFault s = .next (u.trapEntry false cause val))
    ∧ (s.fetchAt s.cur.core s.me.pc = (.hold page val, u) →
      exec .instructionFetchFault s = .next (u.parkMe 3 (.hold page val)))

/-! ## The matrix unit (R308 to R328) -/

/-- R308, R319, R323, R325, R326: on an accumulator that its fibre may change and on which no MMA is outstanding, MBEGIN opens
a group with zero cells and the bound 0, MZERO leaves zero cells and the bound 0, MSCL sets the scale slots, MVA writes four
cells and sets the bound to unlimited, and MRV reads four cells into a register, or sends them as the element of an output port;
each completes, and every other accumulator but a claimed partner is as before. On one that it may not change, and for MBEGIN on
one that is open or claimed or whose partner, which it would claim, is, the trap has cause 0x0E and the accumulator's number. On a
core that is no matrix core, or without the anchor, each traps with cause 0x0F. -/
def Parts.Accumulators : Prop :=
  ∀ (s : State) (act : Act) (wide : Bool) (p q : Fin 8) (k : BitVec 8) (rs cs : Fin 16) (vd : VR) (row : Fin 32)
    (grp : Fin 8) (sp : Fin 4),
    let t := s.myTile
    let a := s.acc t p
    let idle := (s.tile t).busy p = false
    let claims := wide = true ∨ act = .reissue
    let cell := fun l : Fin 4 => 32 * row.val + 4 * grp.val + l.val
    AMap.wf {} s.tiles = true → AMap.wf (0 : Lane) a.cells = true →
    (s.ready (.mbegin act wide p k) = .go → a.isOpen = false → a.pair = false → idle →
      (claims → (s.acc t (p + 1)).isOpen = false ∧ (s.acc t (p + 1)).pair = false ∧ (s.tile t).busy (p + 1) = false) →
      ∃ u : State, exec (.mbegin act wide p k) s = .next u.wentOn ∧ (u.acc t p).isOpen = true ∧ (u.acc t p).cells = []
        ∧ (u.acc t p).bound = 0 ∧ (u.acc t p).tid = s.me.tid ∧ (u.acc t p).start = s.me.pc + 8
        ∧ (u.acc t p).act = act ∧ (u.acc t p).k = k ∧ (u.acc t p).wide = wide
        ∧ ((u.acc t (p + 1)).pair = true ↔ claims ∨ (s.acc t (p + 1)).pair = true)
        ∧ (wide = true → (u.acc t (p + 1)).cells = [])
        ∧ (claims → (u.acc t (p + 1)).bound = (s.acc t (p + 1)).bound
          ∧ (wide = false → (u.acc t (p + 1)).cells = (s.acc t (p + 1)).cells))
        ∧ (¬ claims → u.acc t (p + 1) = s.acc t (p + 1))
        ∧ (q ≠ p → q ≠ p + 1 → u.acc t q = s.acc t q) ∧ u.fibres = s.fibres)
    ∧ (s.ready (.mzero p) = .go → s.foreign p = false → a.isOpen = false → idle →
      exec (.mzero p) s = .next (s.setAcc t p { a with cells := [], bound := 0, scl := false, count := 0 }).wentOn)
    ∧ (s.ready (.mscl p rs cs) = .go → s.foreign p = false → idle →
      exec (.mscl p rs cs) s = .next (s.setAcc t p { a with scl := true, rs := rs, cs := cs }).wentOn)
    ∧ (s.ready (.mva p vd row grp) = .go → s.foreign p = false → a.isOpen = false → idle →
      ∃ u : State, exec (.mva p vd row grp) s = .next u.wentOn ∧ (u.acc t p).bound = 0xFFFF
        ∧ (∀ l : Fin 4, (u.acc t p).cells.getD (cell l) 0 = s.rv vd l)
        ∧ (∀ i, (∀ l : Fin 4, i ≠ cell l) → (u.acc t p).cells.getD i 0 = a.cells.getD i 0)
        ∧ (q ≠ p → u.acc t q = s.acc t q) ∧ u.fibres = s.fibres ∧ u.cores = s.cores)
    ∧ (s.ready (.mrv vd p row grp) = .go → s.isOutV vd = false → idle →
      exec (.mrv vd p row grp) s = .next (s.setV vd 0xF fun l => a.cells.getD (cell l) 0).wentOn)
    ∧ (s.ready (.mrv (portReg sp) p row grp) = .go → s.isOutV (portReg sp) = true → idle → ∀ u,
      s.storeElem false sp 0xF (fun l => a.cells.getD (cell l) 0) = .done u → exec (.mrv (portReg sp) p row grp) s = .next u.wentOn)
    ∧ (let refused := Host.Outcome.next (s.trapEntry false 0x0E (BitVec.ofNat 64 p.val))
      (s.ready (.mbegin act wide p k) = .go → (a.isOpen = true ∨ a.pair = true
        ∨ claims ∧ ((s.acc t (p + 1)).isOpen = true ∨ (s.acc t (p + 1)).pair = true)) → exec (.mbegin act wide p k) s = refused)
      ∧ (s.ready (.mzero p) = .go → (s.foreign p = true ∨ a.isOpen = true) → exec (.mzero p) s = refused)
      ∧ (s.ready (.mscl p rs cs) = .go → s.foreign p = true → exec (.mscl p rs cs) s = refused)
      ∧ (s.ready (.mva p vd row grp) = .go → (s.foreign p = true ∨ a.isOpen = true) → exec (.mva p vd row grp) s = refused))
    ∧ (coreInTile s.cur.core ≠ 2 ∨ s.ops.f.anc = false →
      let lost := Host.Outcome.next (s.trapEntry false 0x0F 0)
      exec (.mbegin act wide p k) s = lost ∧ exec (.mzero p) s = lost ∧ exec (.mscl p rs cs) s = lost
      ∧ exec (.mva p vd row grp) s = lost ∧ exec (.mrv vd p row grp) s = lost)

/-- R327, R340, R341: MSTAT completes with the accumulator's status word, BGET with its bound, BSET with the bound set, 0xFFFF
for an unlimited one, and BTHR with the action and the threshold set, on an accumulator with no MMA outstanding that the
fibre may change. -/
def Parts.AccumulatorBounds : Prop :=
  ∀ (s : State) (act : Act) (p : Fin 8) (k : BitVec 8) (xr xa : XR),
    let t := s.myTile
    let a := s.acc t p
    let idle := (s.tile t).busy p = false
    let code := match act with
      | .none => 0
      | .reissue => 1
      | .trap => 2
    (s.ready (.mstat xr p) = .go → idle → ∃ v : Word, exec (.mstat xr p) s = .next (s.setX xr v).wentOn
      ∧ (a.act = act → a.count < 65536 → v.getLsbD 63 = a.isOpen ∧ v.getLsbD 62 = (a.isOpen && a.wide) ∧ v.getLsbD 61 = a.pair
        ∧ v.getLsbD 60 = a.scl ∧ v.toNat / 2 ^ 58 % 4 = code ∧ v.getLsbD 57 = (a.isOpen && a.reis)
        ∧ v.toNat / 2 ^ 48 % 256 = a.k.toNat ∧ v.toNat / 2 ^ 44 % 16 = a.rs.val ∧ v.toNat / 2 ^ 40 % 16 = a.cs.val
        ∧ v.toNat / 2 ^ 16 % 65536 = a.count ∧ v.toNat % 65536 = a.bound.toNat))
    ∧ (s.ready (.bget xr p) = .go → idle → exec (.bget xr p) s = .next (s.setX xr (a.bound.setWidth 64)).wentOn)
    ∧ (s.ready (.bset p xa) = .go → a.isOpen = false → a.pair = false → idle →
      exec (.bset p xa) s = .next (s.setAcc t p { a with bound :=
        if 0xFF00 ≤ (s.rx xa).toNat % 65536 then 0xFFFF else (s.rx xa).setWidth 16 }).wentOn)
    ∧ (s.ready (.bthr act p k) = .go → s.foreign p = false → idle →
      (act = .reissue → p.val % 2 = 0 ∧ (a.isOpen = true → a.claim = true)) →
      exec (.bthr act p k) s = .next (s.setAcc t p { a with act := act, k := k }).wentOn)
    ∧ (s.ready (.bset p xa) = .go → a.isOpen = true →
      exec (.bset p xa) s = .next (s.trapEntry false 0x0E (BitVec.ofNat 64 p.val)))

/-- The statements above of Accumulators, AccumulatorBounds, together. -/
def Obligations.AccumulatorsAndBounds : Prop := Parts.Accumulators ∧ Parts.AccumulatorBounds

/-- R309 to R316, R320, R322, R331, R332: MMA begins the reads of its rows once they are located and nothing keeps them back; with
the rows read, B sound and room for it, it retires: the group's count grows by one. An accumulation adds the products of
the oldest retired MMA, in the fixed order, to the cells, and grows the bound; one of a wide group keeps its low words in the next
accumulator. MEND of a group whose bound does not exceed its threshold, or has no action, closes it and completes, that of a wide
group with the low words folded in and gone; one that exceeds it traps, or runs the group again wide. -/
def Obligations.MatrixProducts : Prop :=
  ∀ (s u v : State) (p : Fin 8) (xa xb : XR) (stride : BitVec 20) (fmt : FmtCode) (rows : List Site)
    (got : AMap (List Byte × BitVec 16 × BitVec 8)) (f : MmaFetch) (ids : List Nat) (fail : Option (Nat × Word)) (j : MmaJob)
    (js : List MmaJob) (tile : Nat),
    let t := s.myTile
    let a := s.acc t p
    (s.mayAccess (.mma p xa xb stride) → s.me.resume = .none → s.foreign p = false →
      s.locateRows { rd := true } (s.rx xa) stride mmaFmt
        (fun s k f pa ty => s.rowBad k f (a.isOpen && a.act == .reissue) pa ty) id = (.ok (fmt, rows), u) →
      (s.rx xa).toNat % (32 * fmtBytes fmt) = 0 → stride.toNat % (32 * fmtBytes fmt) = 0 → (s.rx xb).toNat % 32 = 0 →
      (s.rx xb).toNat + 32 * fmtBytes fmt ≤ 8192 → (u.tile t).mmas.length < 2 →
      u.mayGo (clsAll true false false false rows) rows → u.ownRows (rows.zipIdx) [] = (.inr got, v) →
      let f0 : MmaFetch :=
        { core := v.cur.core, slot := v.cur.slot, p := p, fmt := fmt, len := 32 * fmtBytes fmt, got := got,
          rows := rows.map fun x => { va := x.va, pa := x.pa, ty := x.ty, msg := !x.remote && x.ty != .priv } }
      exec (.mma p xa xb stride) s = .next ((((v.modTile t fun k => { k with fetch := some f0 }).sendRows t).modMe fun g =>
        { g with resume := .stage 50 [] none }).withDisp .stalled))
    ∧ (s.mayAccess (.mma p xa xb stride) → s.me.resume = .stage 50 ids fail → (s.tile t).fetch = some f → s.rowsOpen t = false →
      f.fail = none → f.queued = [] →
      s.readRuns (((List.range 32).map fun i => runAddr t i (s.rx xb).toNat).flatMap fun b => runParts b f.len) = (none, u) →
      (u.acc t f.p).count < 65535 → AMap.wf {} u.tiles = true → ∃ w : State, exec (.mma p xa xb stride) s = .next w.wentOn
        ∧ (w.tile t).fetch = none ∧ (w.tile t).mmas.length = (u.tile t).mmas.length + 1
        ∧ (w.acc t f.p).count = (u.acc t f.p).count + 1 ∧ (w.acc t f.p).cells = (u.acc t f.p).cells)
    ∧ ((s.tile tile).mmas = j :: js → AMap.wf {} s.tiles = true →
      let low := s.acc tile (j.p + 1)
      let r := mmaSteps j.wide ((List.range 32).map fun k =>
          ((List.range 32).map fun i => elemAt (elemsOf j.fmt 1024 j.a) (32 * i + k),
            (List.range 32).map fun i => elemAt (elemsOf j.fmt 1024 j.b) (32 * i + k)))
        ((s.acc tile j.p).all.zip (if j.wide then low.all else List.replicate 1024 0))
        (growBound (s.acc tile j.p).bound (propTerm j.ea j.eb j.ma j.mb))
      ∃ w, exec (.mmaAccumulation tile) s = .next w ∧ (w.tile tile).mmas = js ∧ (w.acc tile j.p).bound = r.2
        ∧ (w.acc tile j.p).cells = cellMap (r.1.map (·.1)) ∧ w.fibres = s.fibres ∧ w.cores = s.cores
        ∧ w.acc tile (j.p + 1) = (if j.wide then { low with cells := cellMap (r.1.map (·.2)) } else low))
    ∧ (s.ready (.mend p) = .go → s.foreign p = false → a.isOpen = true → (s.tile t).busy p = false → a.wide = true →
      let low := s.acc t (p + 1)
      let cc := (a.all.zip low.all).map fun c => cellPlus c.1 (Fx.ofLane c.2)
      let bb := if low.all.all fun l => (Fx.ofLane l).isZero then a.bound else growBound a.bound (roundTerm (topExp cc) 24)
      ((a.act = .none ∨ exceeds cc bb a.k.toNat = false) → AMap.wf {} s.tiles = true → ∃ w : State,
        exec (.mend p) s = .next w.wentOn ∧ (w.acc t p).isOpen = false ∧ (w.acc t p).bound = bb ∧ (w.acc t p).cells = cellMap cc
        ∧ (w.acc t (p + 1)).cells = [] ∧ (a.claim = true → (w.acc t (p + 1)).pair = false))
      ∧ (a.act ≠ .none → exceeds cc bb a.k.toNat = true →
        exec (.mend p) s = .next (s.trapEntry false 0x0D (BitVec.ofNat 64 (bb.toNat + p.val * 2 ^ 16 + 2 ^ 19)))))
    ∧ (s.ready (.mend p) = .go → s.foreign p = false → a.isOpen = true → (s.tile t).busy p = false → a.wide = false →
      (a.act = .none ∨ exceeds a.all a.bound a.k.toNat = false) → AMap.wf {} s.tiles = true →
      ∃ w : State, exec (.mend p) s = .next w.wentOn ∧ (w.acc t p).isOpen = false ∧ (w.acc t p).bound = a.bound
        ∧ (w.acc t p).cells = cellMap a.all)
    ∧ (s.ready (.mend p) = .go → s.foreign p = false → a.isOpen = true → (s.tile t).busy p = false → a.act = .trap →
      a.wide = false → exceeds a.all a.bound a.k.toNat = true →
      exec (.mend p) s = .next (s.trapEntry false 0x0D (BitVec.ofNat 64 (a.bound.toNat + p.val * 2 ^ 16))))
    ∧ (s.ready (.mend p) = .go → s.foreign p = false → a.isOpen = true → (s.tile t).busy p = false → a.act = .reissue →
      a.wide = false → exceeds a.all a.bound a.k.toNat = true → AMap.wf {} s.tiles = true →
      ∃ w : State, exec (.mend p) s = .next (w.jumped a.start) ∧ (w.acc t p).isOpen = true ∧ (w.acc t p).wide = true
        ∧ (w.acc t p).cells = [] ∧ (w.acc t p).bound = 0)

/-- R324, R338: MST, once its rows are located and aligned and nothing keeps them back, sends the writes of its rows, to
local pages of one type one for each block, and parks for their answers; on a PRIVATE page what the core's write buffer holds for
those bytes is gone first; to a ONCE page, where its rows must follow each other from a block's first byte, it commits the blocks in
ascending order, or traps at the first that a home refuses; when the answers have come without a failure it completes. -/
def Obligations.MatrixStore : Prop :=
  ∀ (s u v : State) (p : Fin 8) (xa : XR) (stride : BitVec 20) (fmt : FmtCode) (rows : List Site) (n : Nat) (ids : List Nat)
    (cause : Nat) (val : Word) (ty : PageType),
    let t := s.myTile
    let a := s.acc t p
    let r := 32 * fmtBytes fmt
    let k := u.tile t
    let ys := scaledCells a (k.scale.get a.rs) (k.scale.get a.cs)
    let ws : List Put := (rows.zipIdx).map fun x => { site := x.1, data := rowData fmt ys x.2 }
    (s.mayAccess (.mst p xa stride) → s.me.resume = .none → s.foreign p = false → a.isOpen = false →
      (s.tile t).busy p = false → u.acc t p = a →
      s.locateRows { wr := true } (s.rx xa) stride fmtOk
        (fun _ k f pa _ => !(fmtOk f && (k.map fun k => inWindow k pa).getD false)) (fun _ => s.rx xa) = (.ok (fmt, rows), u) →
      ty ≠ .once → (∀ x ∈ rows, x.ty = ty ∧ x.remote = false ∧ (u.rowRefusal x).1 = none) → rows ≠ [] →
      (s.rx xa).toNat % r = 0 → stride.toNat % r = 0 → stride ≠ 0 →
      u.mayGo (clsAll false true false false rows) rows →
      let w := if ty = .priv then ws.foldl (fun s w => s.privClear s.cur.core w.site.pa w.site.len) u else u
      let m := w.sendMstWrites fmt (mstBound a.bound a.scl (k.scale.get a.rs) (k.scale.get a.cs) ys fmt)
        (clsAll false true false false rows) ty (rowsByBlock ws)
      exec (.mst p xa stride) s = m.1.awaitIds 51 m.2 none)
    ∧ (s.mayAccess (.mst p xa stride) → s.me.resume = .none → s.foreign p = false → a.isOpen = false →
      (s.tile t).busy p = false → u.acc t p = a →
      s.locateRows { wr := true } (s.rx xa) stride fmtOk
        (fun _ k f pa _ => !(fmtOk f && (k.map fun k => inWindow k pa).getD false)) (fun _ => s.rx xa) = (.ok (fmt, rows), u) →
      (∀ x ∈ rows, x.ty = .once ∧ x.remote = false) → rows ≠ [] → (s.rx xa).toNat % 512 = 0 → (s.rx xa).toNat % r = 0 →
      stride.toNat = r → stride ≠ 0 → (∀ b ∈ rowsByBlock ws, u.reserved b.1 = false ∧ u.wakeStuck b.1 = false) →
      u.mayGo (clsAll false true false true rows) rows →
      (u.reserveBlocks (rowsByBlock ws) = (none, v) →
        let m := v.sendMstCommits fmt (mstBound a.bound a.scl (k.scale.get a.rs) (k.scale.get a.cs) ys fmt) (rowsByBlock ws)
        exec (.mst p xa stride) s = m.1.awaitIds 51 m.2 none)
      ∧ (u.reserveBlocks (rowsByBlock ws) = (some (cause, val), v) →
        exec (.mst p xa stride) s = .next (v.trapEntry false cause val)))
    ∧ (s.mayAccess (.mst p xa stride) → s.me.resume = .stage 51 ids none → exec (.mst p xa stride) s = .next s.wentOn)
    ∧ (s.mayAccess (.mst p xa stride) → s.me.resume = .stage n ids (some (cause, val)) → n = 51 →
      exec (.mst p xa stride) s = .next (s.trapEntry false cause val))
    ∧ (s.mayAccess (.mst p xa stride) → s.me.resume = .none → a.isOpen = true →
      exec (.mst p xa stride) s = .next (s.trapEntry false 0x0E (BitVec.ofNat 64 p.val)))

/-- R342, R343: once its block has been located and nothing keeps it back, BBLK completes with the bound and the magnitude of
the block; BBLK.set to a STRICT or RELEASE block sets both, and BMARK sets the bound and the magnitude that the block's
elements have in the format named; BMARK of a ONCE block marks the core's entry for it. No byte of memory changes. -/
def Obligations.BlockBounds : Prop :=
  ∀ (s u : State) (xr xa xb : XR) (x : Site) (e : BabEntry),
    let b := x.block
    let n : BitVec 16 := if 0xFF00 ≤ (s.rx xb).toNat % 65536 then 0xFFFF else (s.rx xb).setWidth 16
    let fmt : FmtCode := (s.rx xb >>> 16).setWidth 6
    let h := if x.ty = .strict then u.hearMe else u
    let w := fun wr => (h.touchLines x.pa 1 wr).meet b.pa 0
    let m := fun wr => (w wr).blkMeta b.pa
    let fine := fun wr => x.remote = false ∧ h.wakeStuck b.pa = false ∧ (w wr).isRetired b.pa = false
    let plain := (x.ty = .strict ∨ x.ty = .release) ∧ (w true).guardsOf (blkOf x.pa) true = []
      ∧ hasMeta b.pa = true
    (s.mayAccess (.bblk xr xa) → s.locateBound false (s.rx xa) = (.ok x, u) → fine false →
      u.mayGo { strict := x.ty == .strict, ld := true } [b] →
      exec (.bblk xr xa) s = .next ((w false).setX xr (BitVec.ofNat 64
        ((m false).bound.toNat + (m false).maxe.toNat * 2 ^ 16))).wentOn)
    ∧ (s.mayAccess (.bblkSet xa xb) → s.locateBound true (s.rx xa) = (.ok x, u) → fine true → plain →
      u.mayGo (b.cls false true false false) [b] →
      ∃ v : State, exec (.bblkSet xa xb) s = .next v.wentOn ∧ v.mem = (w true).mem
        ∧ v.blkMeta b.pa = { m true with dsc := true, bound := n, maxe := (s.rx xb >>> 16).setWidth 8 })
    ∧ (s.mayAccess (.bmark xa xb) → fmtOk fmt = true → s.locateBound true (s.rx xa) = (.ok x, u) → fine true → plain →
      u.mayGo (b.cls false true false false) [b] →
      ∃ v : State, exec (.bmark xa xb) s = .next v.wentOn ∧ v.mem = (w true).mem
        ∧ v.blkMeta b.pa = { m true with
            dsc := true, bound := n, maxe := maxeOf (elemsOf fmt 512 ((w true).bytes b.pa 512)) })
    ∧ (s.mayAccess (.bmark xa xb) → fmtOk fmt = true → s.locateBound true (s.rx xa) = (.ok x, u) → x.ty = .once →
      u.myCore.babOf b.pa = some e → exec (.bmark xa xb) s = .next (u.modCore u.cur.core fun c =>
        { c with bab := c.bab.map fun e => if e.blk = b.pa then { e with mark := some (fmt, n) } else e }).wentOn)

/-! ## The engines (R245 to R266) -/

/-- R237, R246, R248, R258 to R263, R265: an engine command whose operands are aligned, whose limits are kept, whose channel is
IDLE and that no earlier access keeps back completes: the channel is BUSY with the command, its first read and its first
write are on their way, and its completion register, if it names one, is EMPTY. A CPY to a BUSY channel parks, and one whose
source address is misaligned, its destination aligned, traps with that address (log 60 orders the checks of one command). -/
def Parts.EngineCommands : Prop :=
  ∀ (s : State) (ch : Fin 8) (cv : Fin 4) (xa xb xc : XR) (len : BitVec 21) (rows : BitVec 9) (atoms : BitVec 12)
    (n : BitVec 16) (slot : Fin 16) (f g : B8) (gen : GenArg) (done : Option XR),
    let t := s.myTile
    let a := s.rx xa
    let b := s.rx xb
    let c := s.rx xc
    let by_ := fun (x : Word) (n : Nat) => x.toNat % n = 0
    let free := fun (conv : Bool) (p : Nat) => (s.chan t conv p).st = .idle ∧ s.mustWait { rel := true } 0 0 false = []
    let begun := fun (conv : Bool) (p : Nat) (op : EngOp) (src dst aux : Word) =>
      let cmd : EngCmd :=
        { op := op, src := src, dst := dst, aux := aux, gen := gen, done := done, core := s.cur.core, slot := s.cur.slot,
          tid := s.me.tid, ctx := s.myCore.ctxid.toNat }
      let u := s.modChan t conv p fun _ => { st := .busy, cmd := some cmd }
      let v := match done with
        | some xd => u.emptyX xd
        | none => u
      ((v.chanSend t conv p .chanRead).chanSend t conv p .chanWrite).wentOn
    (s.mayAccess (.cpy ch xb xa len gen done) → by_ a 32 → by_ b 32 → len.toNat % 32 = 0 →
      overlapVa a len.toNat b len.toNat = false → free false ch.val →
      exec (.cpy ch xb xa len gen done) s = .next (begun false ch.val (.cpy len.toNat) a b 0))
    ∧ (s.mayAccess (.cpyg ch xb xa xc rows atoms gen done) → by_ a 32 → by_ b 32 → by_ c 4 → free false ch.val →
      exec (.cpyg ch xb xa xc rows atoms gen done) s =
        .next (begun false ch.val (.cpyg rows.toNat (32 * atoms.toNat)) a b c))
    ∧ (s.mayAccess (.cpys ch xb xa xc rows atoms gen done) → by_ a 32 → by_ b 32 → by_ c 4 → free false ch.val →
      exec (.cpys ch xb xa xc rows atoms gen done) s =
        .next (begun false ch.val (.cpys rows.toNat (32 * atoms.toNat)) a b c))
    ∧ (s.mayAccess (.cpyt ch xb xa xc len gen done) → by_ b 32 → by_ c 128 → free false ch.val →
      exec (.cpyt ch xb xa xc len gen done) s = .next (begun false ch.val (.cpyt len.toNat) a b c))
    ∧ (s.mayAccess (.cpyc ch xb xa len gen done) → by_ a 32 → by_ b 32 → len.toNat % 1024 = 0 → free false ch.val →
      exec (.cpyc ch xb xa len gen done) s = .next (begun false ch.val (.cpyc len.toNat) a b 0))
    ∧ (s.mayAccess (.cpyk ch slot xa xc gen done) → by_ c 128 → free false ch.val →
      exec (.cpyk ch slot xa xc gen done) s = .next (begun false ch.val (.cpyk slot) a 0 c))
    ∧ (s.mayAccess (.cvq f cv xb xa xc n gen done) → by_ a 128 → by_ b 32 →
      overlapVa a (128 * n.toNat) b (32 * n.toNat) = false → free true cv.val →
      exec (.cvq f cv xb xa xc n gen done) s = .next (begun true cv.val (.cvq f n.toNat) a b c))
    ∧ (s.mayAccess (.cvd f cv xb xa xc n gen done) → by_ a 32 → by_ b 128 →
      overlapVa a (32 * n.toNat) b (128 * n.toNat) = false → free true cv.val →
      exec (.cvd f cv xb xa xc n gen done) s = .next (begun true cv.val (.cvd f n.toNat) a b c))
    ∧ (s.mayAccess (.cvr f g cv xb xa xc n gen done) → by_ a 32 → by_ b 32 →
      overlapVa a (32 * n.toNat) b (32 * n.toNat) = false → free true cv.val →
      exec (.cvr f g cv xb xa xc n gen done) s = .next (begun true cv.val (.cvr f g n.toNat) a b c))
    ∧ (s.mayAccess (.cpy ch xb xa len gen done) → by_ a 32 → by_ b 32 → len.toNat % 32 = 0 →
      overlapVa a len.toNat b len.toNat = false → (s.chan t false ch.val).st = .busy →
      exec (.cpy ch xb xa len gen done) s = .next (s.parkMe 5 (.channel t false ch.val)))
    ∧ (s.mayAccess (.cpy ch xb xa len gen done) → a.toNat % 32 ≠ 0 → by_ b 32 →
      exec (.cpy ch xb xa len gen done) s = .next (s.trapEntry false 0x0A a))

/-- R247, R253, R255, R264: CPYW and CVW with .query complete with the channel's status word, and leave a channel in error
IDLE; with .wait they do so on an IDLE channel, park on a busy one, and trap with the word of one in error. A command whose
every write has been performed leaves its channel IDLE with a word that counts its bytes, sends that word to its completion
register, and lets the fibres that wait for the channel go on. A CPYC that waited for a group goes on. -/
def Parts.EngineStatus : Prop :=
  ∀ (s : State) (ch : Fin 8) (cv : Fin 4) (xr : XR) (k tile p : Nat) (conv : Bool) (a : Acc) (cmd : EngCmd) (xd : XR)
    (len : Nat),
    let t := s.myTile
    let busy := fun c : Chan => c.st = .busy ∨ c.st = .parked
    let word := fun c : Chan => if busy c then BitVec.ofNat 64 (2 ^ 63 + c.bytes) else c.status
    let query := fun (conv : Bool) (p : Nat) =>
      let c := s.chan t conv p
      let u := if c.st = .error then s.modChan t conv p fun c => { c with st := .idle, status := BitVec.ofNat 64 c.bytes } else s
      (u.setX xr (word c)).wentOn
    let wait := fun (conv : Bool) (p : Nat) (i : Instr) =>
      let c := s.chan t conv p
      (c.st = .idle → exec i s = .next (s.setX xr c.status).wentOn)
      ∧ (busy c → exec i s = .next (s.parkMe 5 (.channel t conv p)))
      ∧ (c.st = .error → exec i s = .next ((s.modChan t conv p fun c =>
        { c with st := .idle, status := BitVec.ofNat 64 c.bytes }).trapEntry false 0x0E c.status))
    (s.ready (.cpywQuery ch xr) = .go → exec (.cpywQuery ch xr) s = .next (query false ch.val))
    ∧ (s.ready (.cvwQuery cv xr) = .go → exec (.cvwQuery cv xr) s = .next (query true cv.val))
    ∧ (s.ready (.cpywWait ch xr) = .go → wait false ch.val (.cpywWait ch xr))
    ∧ (s.ready (.cvwWait cv xr) = .go → wait true cv.val (.cvwWait cv xr))
    ∧ (s.net.get? k = some (.req a) → a.owner = .channel tile conv p → a.op = .chanEnd →
      (s.chan tile conv p).cmd = some cmd → cmd.done = some xd → AMap.wf {} s.tiles = true → p < (if conv then 4 else 8) →
      let word := BitVec.ofNat 64 (s.chan tile conv p).bytes
      ∃ u, exec (.channelCompletion k) s = .next u ∧ (u.chan tile conv p).st = .idle ∧ (u.chan tile conv p).status = word
        ∧ u.net.get? s.nextId = some (.done cmd.core cmd.slot cmd.tid xd word)
        ∧ ∀ c j, j < 256 → (s.fib c j).st = .parked → (s.fib c j).need = .channel tile conv p →
          AMap.wf {} s.fibres = true → (u.fib c j).st = .ready)
    ∧ ((s.chan tile false p).wait = .group → (s.chan tile false p).cmd = some cmd → cmd.op = .cpyc len →
      AMap.wf {} s.tiles = true → p < 8 →
      ∃ u, exec (.channelResume tile p) s = .next u ∧ (u.chan tile false p).st = .busy
        ∧ (u.chan tile false p).wait = .none ∧ u.fibres = s.fibres)

/-- The statements above of EngineCommands, EngineStatus, together. -/
def Obligations.EngineChannels : Prop := Parts.EngineCommands ∧ Parts.EngineStatus

/-! ## The core plane (R345 to R376) -/

/-- R367 to R371: CARM with a good descriptor, of a row, a column or a list of packages, and with a good DEST where its rank has
one, adds an ARMED entry to its tile's table, which then may fire; CDIS removes an entry that is not firing, and does nothing
where there is none; CABT sends an abort to the root of the entry's group (that of another package's root is log 8's); CSTAT
completes with an entry's status, or 0; MCAST parks for the answers of its copies and then completes. -/
def Obligations.CollectiveInstructions : Prop :=
  ∀ (s u l v z : State) (xa xb xr : XR) (bs : List Byte) (list ds : List Nat) (xs ys : List Site) (x : Site) (e : Coll)
    (seq : BitVec 16) (col : Bool) (first last : BitVec 9) (b : Nat) (ids : List Nat),
    let va := s.rx xa &&& ~~~511#64
    let kind := fld (recWord bs 0) 12 2
    let entry := l.collEntryOf bs list
    let armed := { entry with blk := x.pa }
    let mine := { armed with dest := ds }
    let dest := BitVec.ofNat 64 (recWord bs 2)
    (s.mayAccess (.carm xa xb) → (s.rx xb).toNat % 32 = 0 → s.syncRead .plain (s.rx xb) 32 = .data bs u →
      collDescOk bs = true →
      (kind ≠ 2 ∧ list = [] ∧ l = u ∧ (Geometry.ofNat (recWord bs 1)).has u.cur.core = true
        ∨ kind = 2 ∧ (∀ g, readList (BitVec.ofNat 64 (recWord bs 3)) (recWord bs 1) [] g u = g list l)
          ∧ listOk list = true ∧ l.myPkg ∈ list) →
      l.locateBlocks { rd := true } va entry.nb = (.ok (x :: xs), v) →
      (∀ y ∈ x :: xs, v.inMyScratch y = true) → va.toNat % 65536 + 512 * entry.nb ≤ 65536 →
      (kind ≠ 2 → ∀ i, i < entry.n → v.samePart v.cur.core (entry.root + i * entry.step) = true) →
      (entry.allred = false ∧ entry.rank ≠ 0 ∧ ds = [] ∧ z = v
        ∨ (entry.allred = true ∨ entry.rank = 0) ∧ dest.toNat % 512 = 0
          ∧ v.locateBlocks { wr := true } dest entry.nb = (.ok ys, z)
          ∧ (∀ y ∈ ys, y.remote = false ∧ armed.covers y.pa = false) ∧ ds = ys.map (·.pa)) →
      (∀ o ∈ (z.tile z.myTile).coll, o.blk ≠ x.pa ∧ (o.live = true → mine.inputs.any o.covers = false)) →
      (z.tile z.myTile).coll.length < 32 → (mine.cid, mine.seq) ∉ (z.tile z.myTile).aborts →
      mine.st = .armed ∧ exec (.carm xa xb) s = .next
        (((z.modTile z.myTile fun k => { k with coll := (z.tile z.myTile).coll ++ [mine] }).fireAt x.pa).wentOn))
    ∧ (s.ready (.cdis xa) = .go → s.locateEntry (s.rx xa) = (.ok (some b), u) → entryAt (u.tile u.myTile).coll b = none →
      exec (.cdis xa) s = .next u.wentOn)
    ∧ (s.ready (.cdis xa) = .go → s.locateEntry (s.rx xa) = (.ok (some b), u) → entryAt (u.tile u.myTile).coll b = some e →
      e.st ≠ .firing → e.st ≠ .preempted → AMap.wf {} u.tiles = true →
      ∃ w : State, exec (.cdis xa) s = .next w.wentOn
        ∧ (w.tile u.myTile).coll = (u.tile u.myTile).coll.filter fun o => o.blk != e.blk)
    ∧ (s.ready (.cdis xa) = .go → s.locateEntry (s.rx xa) = (.ok (some b), u) → entryAt (u.tile u.myTile).coll b = some e →
      e.st = .firing → exec (.cdis xa) s = .next (u.parkMe 6 (.coll u.myTile e.blk)))
    ∧ (s.ready (.cabt xa seq) = .go → s.locateEntry (s.rx xa) = (.ok (some b), u) →
      entryAt (u.tile u.myTile).coll b = some e → e.pkind ≠ 2 →
      exec (.cabt xa seq) s = .next
        (u.send (.abort u.cur.core e.root e.cid seq ((u.partOf u.cur.core).getD 0) e.group e.n e.step false)).1.wentOn)
    ∧ (s.ready (.cabt xa seq) = .go → s.locateEntry (s.rx xa) = (.ok (some b), u) →
      entryAt (u.tile u.myTile).coll b = some e → e.pkind = 2 →
      ∃ w : State, exec (.cabt xa seq) s = .next w.wentOn ∧ SameModule u w)
    ∧ (s.ready (.cabt xa seq) = .go → s.locateEntry (s.rx xa) = (.ok (some b), u) →
      entryAt (u.tile u.myTile).coll b = none → exec (.cabt xa seq) s = .next (u.trapEntry false 0x0E (s.rx xa)))
    ∧ (s.ready (.cstat xr xa) = .go → s.locateEntry (s.rx xa) = (.ok (some b), u) →
      entryAt (u.tile u.myTile).coll b = none → exec (.cstat xr xa) s = .next (u.setX xr 0).wentOn)
    ∧ (s.ready (.cstat xr xa) = .go → s.locateEntry (s.rx xa) = (.ok (some b), u) →
      entryAt (u.tile u.myTile).coll b = some e → e.nb ≤ 64 → ∃ w : Word, exec (.cstat xr xa) s = .next (u.setX xr w).wentOn
        ∧ w.toNat / 2 ^ 61 = (match e.st with
          | .armed => 1
          | .firing => 2
          | .done => 3
          | .aborted => 4
          | .mismatch => 5
          | .preempted => 6)
        ∧ w.toNat / 2 ^ 32 % 2 ^ 16 = e.seq.toNat ∧ w.toNat / 2 ^ 16 % 2 ^ 16 = e.cid.toNat
        ∧ w.toNat / 2 ^ 6 % 2 ^ 10 = e.rank % 1024)
    ∧ (s.mayAccess (.mcast col xa first last) → s.me.resume = .none →
      s.locateByte { rd := true } (s.rx xa) = (.ok x, u) → u.inMyScratch x = true → x.ty ≠ .priv →
      let once := x.ty == .once
      let cs := mcastTargets u.cur.core col first.toNat last.toNat
      let dsts := cs.map fun c => scratchBlk c (blkOf x.pa % 0x10000)
      let cls : Cls := { strict := x.ty == .strict, acq := once, rel := once, ld := true, st := true }
      (∀ c ∈ cs, u.samePart u.cur.core c = true) → (∀ d ∈ dsts, pptType (u.typeByte d) = x.ty) →
      u.mayGo cls (x.block :: dsts.map fun d => { x.block with pa := d }) →
      u.readFault x.block none [(x.block.pa, 512)] = (none, v) → (x.ty = .once → (v.blkMeta x.block.pa).pres = .full) →
      v.wakeStuck x.block.pa = false → (∀ d ∈ dsts, v.reserved d = false ∧ v.wakeStuck d = false) → ∀ w, v.mcastRefusal once dsts = (none, w) →
      let m := w.blkMeta x.block.pa
      let r := w.mcastSend x cls { data := w.bytes x.block.pa 512, bound := m.bound, maxe := m.maxe, poison := [] } dsts dsts
      (cs = [] → exec (.mcast col xa first last) s = .next w.wentOn)
      ∧ (cs ≠ [] → exec (.mcast col xa first last) s = r.1.awaitIds 52 r.2 none))
    ∧ (s.mayAccess (.mcast col xa first last) → s.me.resume = .stage 52 ids none →
      exec (.mcast col xa first last) s = .next s.wentOn)

/-- R372, R373: BARRIER over one core completes with 0 and the other epoch; over more cores, its register is EMPTY until the
last round. A signal that reaches a core is noted in its barrier's entry; one that finds the core's table full waits. -/
def Parts.Barriers : Prop :=
  ∀ (s u : State) (xa xr : XR) (bs : List Byte) (k c src rnd tenant : Nat) (epoch : Bool) (b : Barrier),
    let w := natOfBytes bs
    let g := Geometry.ofNat w
    let bid := w / 2 ^ 48 % 2 ^ 16
    let m := Msg.signal c src b.bid epoch rnd tenant
    let good := s.mayAccess (.barrier xa xr) ∧ (s.rx xa).toNat % 8 = 0 ∧ s.syncRead .plain (s.rx xa) 8 = .data bs u
      ∧ geometryOk w = true ∧ w / 2 ^ 42 % 2 ^ 6 = 0 ∧ g.has u.cur.core = true
      ∧ (∀ i, i < g.width * g.height →
        u.samePart u.cur.core ((g.row0 + i / g.width) * 512 + g.col0 + i % g.width) = true)
      ∧ u.me.recs = 0 ∧ u.mustWait { rel := true } 0 0 false = [] ∧ AMap.wf {} u.cores = true ∧ AMap.wf {} u.fibres = true
    (good → u.myCore.bars = [] → g.width * g.height = 1 → ∃ t : State, exec (.barrier xa xr) s = .next (t.setX xr 0).wentOn
      ∧ (t.core u.cur.core).bars = [{ bid := bid, epoch := true }] ∧ t.fibres = u.fibres)
    ∧ (good → u.myCore.bars = [] → g.width * g.height ≠ 1 → ∃ t : State, exec (.barrier xa xr) s = .next t.wentOn
      ∧ ((t.fib u.cur.core u.cur.slot).x.get xr).full = false ∧ SameModule u t)
    ∧ (s.net.get? k = some m → s.Passes m → (s.core c).bars = [b] → b.run = none →
      AMap.wf {} s.cores = true → ∃ t, exec (.barrierSignal k) s = .next (s.crossed t k m)
        ∧ (t.core c).bars = [{ b with got := b.got ++ [(epoch, rnd)] }] ∧ t.net = s.net.erase k ∧ t.fibres = s.fibres)
    ∧ (s.net.get? k = some m → s.Passes m → (∀ o ∈ (s.core c).bars, o.bid ≠ b.bid) →
      16 ≤ (s.core c).bars.length → exec (.barrierSignal k) s = .next s)

/-- R345, R348, R349, R355, R358 to R360, R374, R436: of the messages that no router discards: a partial at a router waits there for
its partner, or combines with it, the lower rank on the left, and goes on; a decision without blocks leaves its entry DONE; an
abort or mismatch that reaches a root with no entry of its tag is noted, and one that reaches a live entry ends it; so at the
ranks; every router on its way has noted its tag, and a partial of a tag that a router of its way has noted goes no further. A message that has arrived changes, as such, only the counters of links and
cores. One that a router of its way discards, for its tenant is not in its bitmap, is gone; another one is not touched. -/
def Parts.CorePlaneMessages : Prop :=
  ∀ (s t : State) (k c src root tenant group n step : Nat) (p q : Partial) (cid seq : BitVec 16) (e : Coll) (m : Msg) (mis : Bool)
    (r : Route) (at_ : Nat),
    let d := s.dropMsg k
    let here := p.root + p.rank * p.step
    let w := s.routers.getD here {}
    let mine := fun x => (s.tile (tileOf x)).coll.filter fun e => e.core == x && e.cid == cid && e.seq == seq && e.group == group
    let ended := if mis then CollState.mismatch else .aborted
    let ask := Msg.abort src root cid seq tenant group n step mis
    let tell := Msg.aborted c root cid seq tenant group mis
    AMap.wf {} s.tiles = true → AMap.wf {} s.routers = true →
    (s.net.get? k = some (.part p) → s.Passes (.part p) → s.tagStop (.part p) (s.routesOf (.part p)) = some (r, at_) →
      ∃ t, exec (.partialArrival k) s = .next t ∧ t.net = s.net.erase k ∧ t.fibres = s.fibres)
    ∧ (s.net.get? k = some (.part p) → s.Passes (.part p) → s.tagStop (.part p) (s.routesOf (.part p)) = none →
      2 ^ p.level < p.n → (p.tenant, p.cid, p.seq, p.group) ∉ w.tags → d.heldAt here = [] → ∃ t, exec (.partialArrival k) s = .next (s.crossed t k (.part p))
        ∧ t.routers.getD here {} = { w with slots := [p] } ∧ t.net = s.net.erase k ∧ t.fibres = s.fibres)
    ∧ (s.net.get? k = some (.part p) → s.Passes (.part p) → s.tagStop (.part p) (s.routesOf (.part p)) = none →
      2 ^ p.level < p.n → (p.tenant, p.cid, p.seq, p.group) ∉ w.tags → d.heldAt here = [q] → q.partner p = true → exec (.partialArrival k) s = .next (s.crossed
        ((d.unhold here q).send (.part ((if q.right then p.plus q else q.plus p).placed 11))).1 k (.part p)))
    ∧ (s.net.get? k = some (.result c root cid seq tenant group []) → s.Passes (.result c root cid seq tenant group []) →
      mine c = [e] → e.st = .firing →
      ∃ t, exec (.resultArrival k) s = .next (s.crossed t k (.result c root cid seq tenant group []))
        ∧ ∀ o ∈ (t.tile (tileOf c)).coll, o.blk = e.blk → o.st = .done)
    ∧ (s.net.get? k = some ask → s.Passes ask → mine root = [] →
      ∃ t, exec (.abortRequest k) s = .next (s.crossed t k ask) ∧ (cid, seq) ∈ (t.tile (tileOf root)).aborts
        ∧ t.fibres = s.fibres ∧ ∀ x ∈ path src root, (tenant, cid, seq, group) ∈ (t.routers.getD x {}).tags)
    ∧ (s.net.get? k = some ask → s.Passes ask → mine root = [e] → e.live = true → e.decided = false → e.dest = [] →
      ∃ t, exec (.abortRequest k) s = .next (s.crossed t k ask)
        ∧ ∀ o ∈ (t.tile (tileOf root)).coll, o.blk = e.blk → o.st = ended)
    ∧ (s.net.get? k = some tell → s.Passes tell → mine c = [] →
      ∃ t, exec (.abortBroadcastArrival k) s = .next (s.crossed t k tell) ∧ (cid, seq) ∈ (t.tile (tileOf c)).aborts
        ∧ t.fibres = s.fibres ∧ ∀ x ∈ path root c, (tenant, cid, seq, group) ∈ (t.routers.getD x {}).tags)
    ∧ (s.net.get? k = some tell → s.Passes tell → mine c = [e] → e.live = true → e.dest = [] →
      ∃ t, exec (.abortBroadcastArrival k) s = .next (s.crossed t k tell)
        ∧ ∀ o ∈ (t.tile (tileOf c)).coll, o.blk = e.blk → o.st = ended)
    ∧ (AMap.wf {} t.cores = true → ∃ f l i, s.crossed t k m = { t with fresh := f, links := l, cores := i } ∧ ∀ x, ∃ a b,
      (s.crossed t k m).core x = { t.core x with sent := a, rcvd := b })
    ∧ (s.net.get? k = some m → s.routesOf m ≠ [] → s.Passes m → exec (.corePlaneDiscard k) s = .next s)
    ∧ (s.net.get? k = some m → s.planeStop (s.routesOf m) = some (r, at_) →
      ∃ t, exec (.corePlaneDiscard k) s = .next t ∧ t.net = s.net.erase k ∧ t.fibres = s.fibres)

/-- The statements above of CorePlaneMessages, Barriers, together. -/
def Obligations.CorePlane : Prop := Parts.CorePlaneMessages ∧ Parts.Barriers

/-! ## Dimus (R109 to R121) -/

/-- R114, R118, R120, R121: SHIP and SHIPR of a valid routine to an aligned, located block that nothing keeps back send the
request; SHIP completes, and SHIPR empties its register, parks for its reply, and then completes. A run without poison in its block writes its
atoms at once and sends its last reply value to SHIPR's register; a valid image whose entry has no run left is installed by
DLOAD. A command to a routine that is not valid traps with cause 0x0E. -/
def Parts.Routines : Prop :=
  ∀ (s u v : State) (n : Fin 64) (xr xa xb xc : XR) (e : DRoutine) (x : Site) (m : Nat) (ids : List Nat) (k c j : Nat) (a : Acc)
    (pay : List Byte) (z : Word) (bs : List Byte) (r : Routine) (fs : AMap Frame),
    let va := s.rx xa
    let sent := fun (reply : Option XR) => u.send (.req
      { owner := .fibre u.cur.core u.cur.slot, tid := u.me.tid, ctx := u.myCore.ctxid.toNat, va := va, pa := x.block.pa,
        len := 512, ty := x.ty, cls := x.cls reply.isSome true false false, gen := none,
        op := .dimus n.val (s.rx xb) (s.rx xc) [] reply })
    let fine := fun (reply : Bool) => s.me.resume = .none ∧ s.routineValid n.val = true ∧ s.routine n.val = some e
      ∧ e.pay = false ∧ va.toNat % e.align = 0 ∧ s.locateShip e reply va = (.ok x, u)
      ∧ u.mayGo (x.cls reply true false false) [x.block] ∧ x.remote = false
    (s.mayAccess (.ship n xa xb xc) → fine false → exec (.ship n xa xb xc) s = .next (sent none).1.wentOn)
    ∧ (s.mayAccess (.shipr n xr xa xb xc) → fine true → exec (.shipr n xr xa xb xc) s =
      .next ((((sent (some xr)).1.pendX xr va).modMe fun f => { f with resume := .stage 1 [(sent (some xr)).2] none }).parkMe 1
        (.gone [(sent (some xr)).2])))
    ∧ (s.mayAccess (.shipr n xr xa xb xc) → s.me.resume = .stage m ids none →
      exec (.shipr n xr xa xb xc) s = .next s.wentOn)
    ∧ (s.mayAccess (.ship n xa xb xc) → s.me.resume = .none → s.routineValid n.val = false →
      exec (.ship n xa xb xc) s = .next (s.trapEntry false 0x0E (BitVec.ofNat 64 n.val)))
    ∧ (s.net.get? k = some (.req a) → a.op = .dimus n.val (s.rx xb) (s.rx xc) pay (some xr) → a.owner = .fibre c j →
      s.wakeStuck (blkOf a.pa) = false → s.routine n.val = some e → s.dimusRun e (a.pa + a.va.toNat % 512) (s.rx xb) (s.rx xc) pay = (v, some z) →
      exec (.dimusRun k) s = .next (v.putMsg k (.fill c j xr z .none none)))
    ∧ (s.net.get? k = some (.req a) → a.op = .dimus n.val (s.rx xb) (s.rx xc) pay none → a.owner = .fibre c j →
      s.wakeStuck (blkOf a.pa) = false → s.routine n.val = some e → s.dimusRun e (a.pa + a.va.toNat % 512) (s.rx xb) (s.rx xc) pay = (v, some z) →
      exec (.dimusRun k) s = .next (v.dropMsg k).settle)
    ∧ (s.mayAccess (.dload n xa) → s.me.resume = .none → va.toNat % 128 = 0 →
      s.xlateMine { rd := true } [{ va := va, len := 128 }] = (.ok fs, u) → (frameOf fs va).ty ≠ .once →
      (frameOf fs va).ty ≠ .priv → u.syncRead .plain va 128 = .data bs v → readImage bs = .inl r → v.dloading = [] →
      v.runsOfRoutine n.val = [] → ∃ t : State, exec (.dload n xa) s = .next t.wentOn
        ∧ t.routines.get? n.val = some r ∧ t.dloading = [] ∧ t.mem = v.mem)

/-- R112, R113, R116: built-in routine 2 adds its operand to the 32-bit lane at its address modulo 2^32 and replies with
the old lane; every other byte of memory is as before. -/
def Parts.RoutineAdds : Prop :=
  ∀ (s : State) (e : DRoutine) (a : Nat) (p q : Word), builtin 2 = some e → a % 4 = 0 →
    let u := ((s.writeBackBlock a).demand (s.redirected a)).meet a 1
    u.isRetired a = false → u.ecc (a / 32 * 32) = .clean → isDram a = true → Memory.wf u.mem = true →
    ∃ v, s.dimusRun e a p q [] = (v, some (BitVec.ofNat 64 (u.nat a 4))) ∧ v.nat a 4 = (u.nat a 4 + p.toNat) % 2 ^ 32
      ∧ u.keepsBytes v a 4

/-- The statements above of Routines, RoutineAdds, together. -/
def Obligations.RoutinesAndAdds : Prop := Parts.Routines ∧ Parts.RoutineAdds

/-! ## Translation tables and pages (R129 to R157) -/

/-- R142, R155 to R157: MAP of an entry that its checks pass stores it whole where the tables have it, and no other byte; UNMAP
stores zero there and drops the page's translations; the TLBI instructions drop the translations that they name. WATCH.on sets
the W bit of the page's leaf and the enable bit of the filter. -/
def Obligations.TableEntries : Prop :=
  ∀ (s u : State) (lvl : Fin 3) (xa xb : XR) (addr cause : Nat) (va : Word) (filter : Fin 8) (l : Leaf) (n : Nat)
    (ids : List Nat) (fail : Option (Nat × Word)),
    let a := s.rx xa
    let touch := fun w : State => (w.touchLines addr 8 true).meet addr 8
    let w := touch (touch u)
    let sound := (touch u).isRetired addr = false ∧ w.Sound addr 8 ∧ Memory.wf w.mem = true
      ∧ ((touch u).nat addr 8).testBit 7 = false
    let quiet := fun t : State => t.openWhere (fun _ => true) = []
    let ctx := s.myCore.ctxid.toNat
    let gone := fun (t : State) (d : TlbEntry → Bool) => ∀ p ∈ t.tlbs, ∀ e ∈ p.2, d e = false
    (s.ready (.map lvl xa xb) = .go → s.entryOf lvl.val a = (.ok addr, u) → u.mapFault lvl.val (s.rx xb).toNat = none →
      u.me.recs = 0 → u.mustWait { strict := true, st := true } addr 8 false = [] → sound →
      ∃ t : State, exec (.map lvl xa xb) s = .next t.wentOn ∧ t.nat addr 8 = (s.rx xb).toNat ∧ w.keepsBytes t addr 8)
    ∧ (s.ready (.map lvl xa xb) = .go → s.entryOf lvl.val a = (.ok addr, u) →
      u.mapFault lvl.val (s.rx xb).toNat = some cause → exec (.map lvl xa xb) s = .next (u.trapEntry false cause a))
    ∧ (s.ready (.unmap lvl xa) = .go → s.me.resume = .none → s.entryOf lvl.val a = (.ok addr, u) → u.me.recs = 0 →
      quiet w → u.openReqs u.cur.core u.cur.slot = [] → sound →
      ∃ t : State, exec (.unmap lvl xa) s = .next t.wentOn ∧ t.nat addr 8 = 0 ∧ w.keepsBytes t addr 8
        ∧ gone t fun e => e.hits u.myCore.ctxid.toNat a.toNat)
    ∧ (s.ready (.unmap lvl xa) = .go → s.me.resume = .stage n ids fail → exec (.unmap lvl xa) s = .next s.wentOn)
    ∧ (s.ready (.map lvl xa xb) = .go → s.entryOf lvl.val a = (.fault cause va, u) →
      exec (.map lvl xa xb) s = .next (u.trapEntry false cause va))
    ∧ (s.ready (.tlbiVa xa) = .go → s.me.resume = .none → quiet s → ∃ t : State, exec (.tlbiVa xa) s = .next t.wentOn
      ∧ gone t fun e => e.hits ctx a.toNat)
    ∧ (s.ready (.tlbiCtx xb) = .go → s.me.resume = .none → quiet s → ∃ t : State, exec (.tlbiCtx xb) s = .next t.wentOn
      ∧ gone t fun e => !e.g && e.ctx == (s.rx xb).toNat % 1024)
    ∧ (s.ready .tlbiAll = .go → s.me.resume = .none → quiet s → ∃ t : State, exec .tlbiAll s = .next t.wentOn ∧ t.tlbs = [])
    ∧ (s.ready (.watchOn filter xa) = .go → s.leafOf true a = (.ok l, u) →
      let v := u.setLeaf u.me.tid l.addr (withBit l.e 8 true)
      exec (.watchOn filter xa) s = .next ((v.dropPageTlb v.myCtx a).setFilter filter true).wentOn)
    ∧ (s.ready (.watchOff filter xa) = .go → s.leafOf true a = (.ok l, u) →
      let v := u.setFilter filter false
      exec (.watchOff filter xa) s = .next (if v.pageWatched a then v.wentOn
        else ((v.setLeaf v.me.tid l.addr (withBit l.e 8 false)).dropPageTlb v.myCtx a).wentOn))
    ∧ (∀ e i on, (withBit e i on).testBit i = on ∧ ∀ b, b ≠ i → (withBit e i on).testBit b = e.testBit b)

/-- R145 to R149, R154: RETYPE that names nothing to convert completes with its status, or traps; one that converts holds the page,
whose PRIVATE lines every core has pushed, and completes with its register EMPTY, or parks for the answer. The conversion of a drained page reports 0, or 2 where a DEFERRED block refuses
it. ZERO of pages that may be zeroed and that nothing keeps back zeroes them when it issues (the model's choice, log 41), and
reports how many they are. -/
def Parts.PageOperations : Prop :=
  ∀ (s u : State) (ty : PageType) (empty : Bool) (xa xd : XR) (l : Leaf) (st : Nat) (k c j leaf page addr n : Nat)
    (tid : BitVec 48) (pages : BitVec 16) (ids : List Nat),
    let a := s.rx xa
    let mine := pageOf (rawOf (localOf (l.page a)))
    let base := if l.pte.ty = .priv then u.pushPage mine else u
    let held := (base.setLeaf base.me.tid l.addr (withBit l.e 7 true)).setHeld mine true
    let req := fun done => Msg.retype held.cur.core held.cur.slot held.me.tid done ty empty l.addr mine
    let met := (s.touchLines leaf 8 false).meet leaf 8
    let src := (Pte.ofNat (met.nat leaf 8)).ty
    let pgs := zeroPages a.toNat pages.toNat
    let may := a.toNat % 65536 = 0 ∧ (∀ p ∈ pgs, s.zeroable p = true ∧ s.isHeld p = false)
      ∧ s.me.recs = 0 ∧ s.mustWait { st := true } (rawOf a.toNat) (65536 * pages.toNat) false = []
      ∧ (pgs.any fun p => s.pageStuck (pageOf (rawOf p))) = false
    (s.ready (.retype ty empty xa (some xd)) = .go → s.me.resume = .none → s.leafOf false a = (.ok l, u) →
      u.isRemote (l.page a) = false → u.retypeStatus l a ty empty = some st →
      exec (.retype ty empty xa (some xd)) s =
        .next ((u.emptyX xd).send (.done u.cur.core u.cur.slot u.me.tid xd (BitVec.ofNat 64 st))).1.wentOn)
    ∧ (s.ready (.retype ty empty xa none) = .go → s.me.resume = .none → s.leafOf false a = (.ok l, u) →
      u.isRemote (l.page a) = false → u.retypeStatus l a ty empty = some st →
      exec (.retype ty empty xa none) s = .next (if 2 ≤ st then u.trapEntry false 0x05 (BitVec.ofNat 64 st) else u.wentOn))
    ∧ (s.ready (.retype ty empty xa (some xd)) = .go → s.me.resume = .none → s.leafOf false a = (.ok l, u) →
      u.isRemote (l.page a) = false → u.retypeStatus l a ty empty = none →
      exec (.retype ty empty xa (some xd)) s = .next ((held.emptyX xd).send (req (some xd))).1.wentOn)
    ∧ (s.ready (.retype ty empty xa none) = .go → s.me.resume = .none → s.leafOf false a = (.ok l, u) →
      u.isRemote (l.page a) = false → u.retypeStatus l a ty empty = none →
      exec (.retype ty empty xa none) s = (held.send (req none)).1.awaitIds 1 [(held.send (req none)).2] none)
    ∧ (s.ready (.retype ty empty xa none) = .go → s.me.resume = .stage n ids none →
      exec (.retype ty empty xa none) s = .next s.wentOn)
    ∧ (s.net.get? k = some (.retype c j tid (some xd) ty empty leaf page) → s.pageOpen page = [] →
      s.pageStuck page = false →
      ∃ t, exec (.retypeComplete k) s = .next t ∧ t.net.get? k = some (.done c j tid xd
        (if src = .once ∧ met.anyDeferred page = true then 2 else 0)))
    ∧ (s.net.get? k = some (.retype c j tid (some xd) ty empty leaf page) → s.pageOpen page ≠ [] →
      exec (.retypeComplete k) s = .next s)
    ∧ (s.ready (.zero xa pages (some xd)) = .go → s.me.resume = .none → may →
      let z := pgs.foldl State.zeroPage s
      exec (.zero xa pages (some xd)) s = .next
        ((z.emptyX xd).send (.zero z.cur.core z.cur.slot z.me.tid (some xd) a.toNat pages.toNat)).1.wentOn)
    ∧ (s.ready (.zero xa pages none) = .go → s.me.resume = .stage st ids none →
      exec (.zero xa pages none) s = .next s.wentOn)
    ∧ (s.net.get? k = some (.zero c j tid (some xd) addr n) → exec (.zeroComplete k) s =
      .next (s.putMsg k (.done c j tid xd (BitVec.ofNat 64 n))))

/-- R146, R154: what a conversion makes of a block with metadata that is not RETIRED: becoming ONCE, it is FULL with its data, or
EMPTY and zero where asked, with the next generation; asked so, a ONCE block that stays ONCE is EMPTY and zero too; ceasing to be ONCE, it is EMPTY, and zero
unless it was FULL; a block that changes is dirty since the last copy (the model's reading, log 120); between the other types it
is as before, and without a change of type where not asked. A block that ZERO names is zero with fresh metadata. -/
def Parts.BlockConversions : Prop :=
  ∀ (s : State) (src dst : PageType) (empty : Bool) (blk : Nat), blk % 512 = 0 → hasMeta blk = true → s.isRetired blk = false →
    Memory.wf s.mem = true → AMap.wf {} s.bmeta = true →
    let t := s.retypeBlock src dst empty blk
    let m := s.blkMeta blk
    let zero := t.bytes blk 512 = List.replicate 512 0
    let same := ∀ x, t.byte x = s.byte x
    (dst = .once → src ≠ .once → empty = false → t.blkMeta blk = { m with dsc := true, pres := .full, gen := m.gen + 1 } ∧ same)
    ∧ (dst = .once → empty = true → t.blkMeta blk = { m with dsc := true, pres := .empty, gen := m.gen + 1 } ∧ zero)
    ∧ (dst ≠ .once → src = .once → t.blkMeta blk = { m with dsc := true, pres := .empty } ∧ (if m.pres = .full then same else zero))
    ∧ (dst ≠ .once → src ≠ .once → t = s)
    ∧ (src = dst → empty = false → t = s)
    ∧ ((s.zeroBlock blk).blkMeta blk = {} ∧ (s.zeroBlock blk).bytes blk 512 = List.replicate 512 0)

/-- The statements above of PageOperations, BlockConversions, together. -/
def Obligations.PagesAndConversions : Prop := Parts.PageOperations ∧ Parts.BlockConversions

/-- R130, R131, R150, R151: the host's write of PPT_SET sets the type of a page that is neither held nor retired and drops the page's
translations, and is ignored for another; PPT_BASE keeps its base while it is valid. A move that its checks refuse reports their code; one that starts copies
every block; when its passes have ended both pages are held, once no RETYPE holds one (log 143); the last pass waits for their
drain; command 2 then ends it, and command 3 ends it while the passes run, with code 6. That a pass copies all its blocks in the
event that starts it is the model's choice (log 42). -/
def Obligations.PageTypesAndMoves : Prop :=
  ∀ (s : State) (val : Word) (b e p : Nat) (m : Move),
    let page := val.toNat / 2 ^ 16 % 2 ^ 30
    let pa := page * 65536
    let ty := PageType.ofCode (val.toNat % 4)
    let up := s.isReady = true ∧ s.hostBehind = false ∧ s.summary = none ∧ AMap.rising none s.regs = true
    let src := (s.reg 0x1A0010).toNat / 2 ^ 16 % 2 ^ 30 * 65536
    let dst := (s.reg 0x1A0018).toNat / 2 ^ 16 % 2 ^ 30 * 65536
    let met := (s.writeField 0x1A0008 val).meetPpt (pageAddr (pageOf (rawOf pa)))
    let found := met.typeByte (pageAddr (pageOf (rawOf pa)))
    let w := (met.touchLines p 1 true).meet p 1
    (up → s.ppt pa = some b → b.testBit 2 = false → b.testBit 3 = false → ¬ (ty = .once ∧ regionOf pa = .pooled) →
      vaultTypeOk pa ty = true → s.pptAddr pa = some p → w.Sound p 1 → Memory.wf w.mem = true →
      ∃ t, exec (.pptSet val) s = .next t ∧ t.ppt pa = some ((found / 4 * 4 + PageType.code ty) % 16)
        ∧ (∀ p ∈ t.tlbs, ∀ x ∈ p.2, x.maps (pageOf (rawOf pa)) = false) ∧ t.fibres = s.fibres ∧ t.cores = s.cores)
    ∧ (up → s.ppt pa = some b → (b.testBit 2 = true ∨ b.testBit 3 = true ∨ ty = .once ∧ regionOf pa = .pooled
      ∨ vaultTypeOk pa ty = false) → exec (.pptSet val) s = .next s)
    ∧ (up → (s.reg 0x1A0000).getLsbD 0 = true → ∃ t, exec (.pptBase val) s = .next t
      ∧ (t.reg 0x1A0000).toNat / 2 = (s.reg 0x1A0000).toNat / 2 ∧ (t.reg 0x1A0000).getLsbD 0 = val.getLsbD 0 ∧ t.mem = s.mem)
    ∧ (s.isReady = false → exec (.pptSet val) s = .next s ∧ exec (.pptBase val) s = .next s)
    ∧ (up → s.move = none → s.moveFault src dst = some e → e < 16 → ∃ t, exec .moveStart s = .next t ∧ t.move = none
      ∧ t.regF moveStatOff 56 4 = e ∧ t.mem = s.mem)
    ∧ (up → s.move = none → s.moveFault src dst = none → ∃ t, exec .moveStart s = .next t
      ∧ t.move = some { src := pageOf (rawOf src), dst := pageOf (rawOf dst), copied := 128 })
    ∧ (s.move = some m → s.regF moveStatOff 60 3 = 1 → s.passesEnded m = true → s.retyping m.src = false →
      s.retyping m.dst = false → ∃ t, exec .moveCut s = .next t ∧ t.move = some m ∧ t.fibres = s.fibres)
    ∧ (s.move = some m → s.regF moveStatOff 60 3 = 1 → s.passesEnded m = true → (s.retyping m.src || s.retyping m.dst) = true →
      exec .moveCut s = .next s)
    ∧ (s.move = some m → s.regF moveStatOff 60 3 = 1 → s.passesEnded m = false → ∃ t, exec .moveCut s = .next t
      ∧ t.move = some { m with copied := (s.blocksTo m.src fun b => b.dsc).length })
    ∧ (s.move = some m → s.regF moveStatOff 60 3 = 2 → s.pageOpen m.src = [] → s.pageOpen m.dst = [] →
      s.pageStuck m.src = false → s.pageStuck m.dst = false →
      ∃ t, exec .moveFinalPass s = .next t ∧ t.move = some { m with copied := (s.blocksTo m.src fun b => b.dsc).length })
    ∧ (s.move = some m → s.regF moveStatOff 60 3 = 2 → s.pageOpen m.src ≠ [] → exec .moveFinalPass s = .next s)
    ∧ (up → s.move = some m → s.regF moveStatOff 60 3 = 3 → ∃ t, exec .moveRelease s = .next t ∧ t.move = none)
    ∧ (up → s.move = some m → s.regF moveStatOff 60 3 = 1 → ∃ t, exec .moveAbort s = .next t ∧ t.move = none
      ∧ t.regF moveStatOff 56 4 = 6 ∧ t.mem = s.mem)

/-! ## Far memory (R98 to R108, R175) -/

/-- R98, R175: a patrol reads the next block of its controller, or the next word of its vault, and goes on to the one after it, and
from the last one to the first, also where accesses to its page are redirected; with RATE 0 a controller's patrol does not run. R99: the host's read of FMC_ERR returns it and clears
its counts. R101: a row that has been copied is counted among its bank's spares and its channel's remap entries, is forgotten among
the failing, and gives record 0x23. -/
def Obligations.Patrols : Prop :=
  ∀ (s : State) (c tile ch bank row : Nat),
    (c < 64 → s.regF (0x190000 + 0x40 * c) 0 8 = 0 → exec (.patrolRead c) s = .next s)
    ∧ (c < 64 → s.regF (0x190000 + 0x40 * c) 0 8 ≠ 0 →
      let blk := fmcBlock c (s.patrol.getD c 0)
      exec (.patrolRead c) s = .next (((s.atOwn blk fun s => s.readUnits blk 512).ownRetired blk).patrolNext c))
    ∧ (AMap.wf 0 s.patrol = true → (s.patrolNext c).patrol.getD c 0 = (s.patrol.getD c 0 + 1) % fmcBlocks c)
    ∧ ((s.patrolNext c).mem = s.mem ∧ (s.patrolNext c).fibres = s.fibres ∧ (s.patrolNext c).regs = s.regs)
    ∧ (tile < 16384 → AMap.wf 0 s.vpatrol = true → ∃ t, exec (.vaultPatrol tile) s = .next t
      ∧ t.vpatrol.getD tile 0 = (s.vpatrol.getD tile 0 + 1) % 131072 ∧ t.fibres = s.fibres ∧ t.cores = s.cores)
    ∧ (c < 64 → s.isReady = true → s.hostBehind = false → AMap.rising none s.regs = true → ∃ t, exec (.fmcErr c) s = .next t
      ∧ t.toHost = .bar0 (0x190008 + 0x40 * c) (s.reg (0x190008 + 0x40 * c)) :: s.toHost
      ∧ (t.reg (0x190008 + 0x40 * c)).toNat = (s.reg (0x190008 + 0x40 * c)).toNat % 2 ^ 24 ∧ t.mem = s.mem)
    ∧ ((c, ch, bank, row) ∈ s.rowFail → s.repairable (c, ch, bank, row) = true →
      ∃ u : State, exec (.rowSpareDone c ch bank row) s = .next (u.errRec 0x23 none
          [BitVec.ofNat 64 c, BitVec.ofNat 64 ch, BitVec.ofNat 64 bank, BitVec.ofNat 64 row])
        ∧ (c, ch, bank, row) ∉ u.rowFail
        ∧ u.rowsUsed.getD (rowKey c ch bank 0) 0 = s.rowsUsed.getD (rowKey c ch bank 0) 0 + 1
        ∧ u.remapUsed.getD (rowKey c ch 0 0) 0 = s.remapUsed.getD (rowKey c ch 0 0) 0 + 1)

/-- R102, R103: a page that must be retired waits for its accesses, for a move and for a RETYPE's hold; then, with a spare of its tier
listed and room in the table, it is redirected to the spare, which is listed no more, with record 0x24; otherwise its retirement is
pending, with record 0x25 once. That a page is retired in one event, and that the records name the pages by their addresses, are the
model's choices (logs 43 and 44). SPARE_ADD lists a page. R106 to R108: POOL_EXT sets an extent; POOL_REL unmaps one and begins its
release, unless one is running, and the release ends, its lines written back, when no access to the extent is open; a forced removal
unmaps an extent, marks it removed and gives record 0x26, and a release of it that is running ends. -/
def Obligations.PagesAndExtents : Prop :=
  ∀ (s : State) (page new i : Nat) (val : Word),
    let must := (s.mustRetire page = true ∨ page ∈ s.retirePend) ∧ s.redir.get? page = none
    let may := must ∧ s.move = none ∧ s.isHeld (pageAddr page) = false ∧ s.pageOpen page = []
      ∧ s.pageStuck page = false
    (must → (s.move.isSome = true ∨ s.isHeld (pageAddr page) = true ∨ s.pageOpen page ≠ [] ∨ s.pageStuck page = true) →
      exec (.pageRetirement page) s = .next s)
    ∧ (may → s.redir.length < 256 → s.spareFor page = some new → ∃ u : State, exec (.pageRetirement page) s = .next
        (u.errRec 0x24 none [BitVec.ofNat 64 (pageAddr page), BitVec.ofNat 64 (pageAddr new)])
      ∧ u.redir.get? page = some new ∧ u.spares = s.spares.erase new ∧ page ∉ u.retirePend)
    ∧ (may → (s.spareFor page = none ∨ 256 ≤ s.redir.length) → page ∉ s.retirePend → exec (.pageRetirement page) s = .next
        ({ s with retirePend := s.retirePend ++ [page] }.errRec 0x25 none [BitVec.ofNat 64 (pageAddr page)]))
    ∧ (may → (s.spareFor page = none ∨ 256 ≤ s.redir.length) → page ∈ s.retirePend → exec (.pageRetirement page) s = .next s)
    ∧ (s.hostOpen → s.regF spareOff 56 8 < 64 → isDram (pageAddr (val.toNat / 2 ^ 16 % 2 ^ 30)) = true →
      ∃ t, exec (.spareAdd val) s = .next t ∧ t.spares = s.spares ++ [val.toNat / 2 ^ 16 % 2 ^ 30] ∧ t.mem = s.mem
        ∧ t.regF spareOff 56 8 = s.regF spareOff 56 8 + 1)
    ∧ (s.hostOpen → (64 ≤ s.regF spareOff 56 8 ∨ isDram (pageAddr (val.toNat / 2 ^ 16 % 2 ^ 30)) = false) →
      exec (.spareAdd val) s = .next s)
    ∧ (s.hostOpen → i < 65536 → ∃ t, exec (.poolExt i val) s = .next t ∧ t.regF (extOff i) 63 1 = val.toNat / 2 ^ 63
      ∧ t.regF (extOff i) 29 23 = val.toNat / 2 ^ 29 % 2 ^ 23 ∧ (val.getLsbD 63 = true → t.regF (extOff i) 0 24 = 0) ∧ t.mem = s.mem)
    ∧ (s.hostOpen → s.regF rstatOff 63 1 = 0 → ∃ t, exec (.poolRel val) s = .next t
      ∧ t.regF (extOff (val.toNat % 65536)) 63 1 = 0 ∧ t.regF rstatOff 63 1 = 1 ∧ t.regF rstatOff 0 16 = val.toNat % 65536
      ∧ t.mem = s.mem)
    ∧ (s.hostOpen → s.regF rstatOff 63 1 = 1 → ∃ t, exec (.poolRel val) s = .next t ∧ t.regF rstatOff 61 1 = 1
      ∧ t.regF rstatOff 0 16 = s.regF rstatOff 0 16 ∧ (i < 65536 → t.reg (extOff i) = s.reg (extOff i)) ∧ t.mem = s.mem)
    ∧ (s.regF rstatOff 63 1 = 1 → (s.openWhere fun a => extentOf a.pa == some (s.regF rstatOff 0 16)) ≠ [] →
      exec .poolReleaseDone s = .next s)
    ∧ (s.regF rstatOff 63 1 = 1 → (s.openWhere fun a => extentOf a.pa == some (s.regF rstatOff 0 16)) = [] →
      exec .poolReleaseDone s = .next ((((s.extLines (s.regF rstatOff 0 16)).foldl (fun s l => s.writeBack l.1) s).setRegF
        rstatOff 63 1 0).setRegF rstatOff 62 1 1))
    ∧ (AMap.rising none s.regs = true → i < 65536 → ∃ u : State,
      let w := u.errRec 0x26 none [BitVec.ofNat 64 i, BitVec.ofNat 64 ((s.extLines i).filter fun l => l.2.dirty).length]
      exec (.forcedRemoval i) s = .next (if w.regF rstatOff 63 1 = 1 ∧ w.regF rstatOff 0 16 = i then
        (w.setRegF rstatOff 63 1 0).setRegF rstatOff 62 1 1 else w)
      ∧ u.regF (extOff i) 63 1 = 0 ∧ u.regF (extOff i) 61 1 = 1 ∧ u.fibres = s.fibres)

/-! ## Launches and contexts (R400 to R420, R435 to R441) -/

/-- R401 to R403: Q_WR and Q_CFG written through BAR0. A queue that is served, and whose write index runs further ahead than its ring,
overruns: record 0x30 and OVR in its context's status record. A queue that is served changes only its enable; one that is not takes
the fields, and is served when they allow it; an enable written 0 makes it OFF. That record 0x30 carries the queue's context and
tenant is the model's choice (log 89). -/
def Obligations.Queues : Prop :=
  ∀ (s : State) (q : Nat) (val : Word),
    let wr := s.setReg (qOff q 0x10) val
    let cfg := s.setReg (qOff q 0x08) ((RegName.qCfg q).written (s.reg (qOff q 0x08)) val)
    let overrun := fun v : State =>
      let w := v.errRec 0x30 (partCtx (v.qPart q) (v.qCtx q)) [BitVec.ofNat 64 q, v.qWr q, v.qRd q]
      w.noteStatus (w.qCtx q) { bits := 0x08 }
    (s.hostOpen → q < 512 → s.qEn q = false → exec (.qWr q val) s = .next wr)
    ∧ (s.hostOpen → q < 512 → s.qEn q = true → (val - s.qRd q).toNat ≤ 2 ^ s.qCfg q 55 5 → exec (.qWr q val) s = .next wr)
    ∧ (s.hostOpen → q < 512 → s.qEn q = true → 2 ^ s.qCfg q 55 5 < (val - s.qRd q).toNat →
      exec (.qWr q val) s = .next (overrun (wr.setQState q 2)))
    ∧ (AMap.rising none s.regs = true → (wr.setQState q 2).qState q = 2 ∧ (wr.setQState q 2).qWr q = val)
    ∧ (s.hostOpen → q < 512 → s.qEn q = true → val.getLsbD 63 = true → exec (.qCfg q val) s = .next s)
    ∧ (s.hostOpen → q < 512 → s.qEn q = true → val.getLsbD 63 = false → ∃ t, exec (.qCfg q val) s = .next t
      ∧ t.qEn q = false ∧ t.qState q = 0 ∧ (∀ lo n, lo + n ≤ 63 → t.qCfg q lo n = s.qCfg q lo n) ∧ t.mem = s.mem)
    ∧ (s.hostOpen → q < 512 → s.qEn q = false → val.getLsbD 63 = false →
      exec (.qCfg q val) s = .next (cfg.setQState q 0))
    ∧ (s.hostOpen → q < 512 → s.qEn q = false → val.getLsbD 63 = true → cfg.qValid q = false →
      exec (.qCfg q val) s = .next (cfg.setRegF (qOff q 0x08) 63 1 0))
    ∧ (s.hostOpen → q < 512 → s.qEn q = false → val.getLsbD 63 = true → cfg.qValid q = true → cfg.overruns q = false →
      exec (.qCfg q val) s = .next (cfg.setQState q 1))
    ∧ (s.hostOpen → q < 512 → s.qEn q = false → val.getLsbD 63 = true → cfg.qValid q = true → cfg.overruns q = true →
      exec (.qCfg q val) s = .next (overrun ((cfg.setQState q 1).setQState q 2)))
    ∧ (s.qValid q = true ↔ 4 ≤ s.qCfg q 55 5 ∧ s.qCfg q 55 5 ≤ 20 ∧ s.qCfg q 26 8 ≠ 0 ∧ s.partEn (s.qPart q) = true
      ∧ (s.qCfg q 62 1 = 1 ∨ s.ringStrict q = true))
    ∧ (s.overruns q = true ↔ 2 ^ s.qCfg q 55 5 < (s.qWr q - s.qRd q).toNat)

/-- R413, R465: PART written through BAR0. A partition that is disabled takes the rectangle and EVDL, and is enabled when the
rectangle lies in the package, meets no other one that is enabled, and EVDL (bits 31 to 16) is not zero; its tiles are then not gated
(the model's choice, log 96). One that is enabled takes nothing but a disabling while it is IDLE and holds no context, which changes
EN alone. -/
def Obligations.Partitions : Prop :=
  ∀ (s : State) (t : Nat) (val : Word),
    let set := s.setRegF (partOff t) 0 32 (val.toNat % 2 ^ 32)
    (s.hostOpen → t < 64 → s.partEn t = true → val.getLsbD 63 = true → exec (.part t val) s = .next s)
    ∧ (s.hostOpen → t < 64 → s.partEn t = true → val.getLsbD 63 = false → (s.partState t ≠ 0 ∨ s.resident t ≠ none) →
      exec (.part t val) s = .next s)
    ∧ (s.hostOpen → t < 64 → s.partEn t = true → val.getLsbD 63 = false → s.partState t = 0 → s.resident t = none →
      ∃ u : State, exec (.part t val) s = .next u ∧ u = s.setRegF (partOff t) 63 1 0 ∧ u.partEn t = false
        ∧ ∀ lo n, lo + n ≤ 63 → u.regF (partOff t) lo n = s.regF (partOff t) lo n)
    ∧ (s.hostOpen → t < 64 → s.partEn t = false → (val.getLsbD 63 = false ∨ set.partValid t = false) →
      exec (.part t val) s = .next set)
    ∧ (s.hostOpen → t < 64 → s.partEn t = false → val.getLsbD 63 = true → set.partValid t = true →
      ∃ u : State, exec (.part t val) s = .next u ∧ u.partEn t = true ∧ u.regF (partOff t) 0 32 = val.toNat % 2 ^ 32
        ∧ u.mem = s.mem ∧ u.fibres = s.fibres ∧ u.cores = s.cores
        ∧ (AMap.wf {} s.tiles = true → ∀ k ∈ set.partTiles t, (u.tile k).gated = false))
    ∧ (s.partValid t = true ↔ s.partRow t + s.partHeight t ≤ 16 ∧ s.partCol t + s.partWidth t ≤ 16
      ∧ s.regF (partOff t) 16 16 ≠ 0 ∧ ∀ o, o < 64 → o ≠ t → s.partEn o = true → s.partsMeet t o = false)

/-- R405 to R409, R414, R415: the launch unit grants nothing to a partition that is not enabled, or while it is evicted, stopped or
reset, while a context comes in, or while a state summary runs. What it grants is a context that comes back, or a packet: a held one
is left, a bad one gives record 0x31, a NOP is counted, and a launch is dispatched where its context is resident or may be
switched in at once, and otherwise waits for the resident context to leave. Roots that found no place are tried again, those of a
context that is not resident wait. A completed launch counts in Q_DONE, and sends its queue's vector where it asks for that. That a
NOP uses a grant, and that each level of a partition has a pointer of its own, are the model's choices (log 80), as is the context that
record 0x31 carries (log 89). -/
def Parts.LaunchDispatches : Prop :=
  ∀ (s u v w : State) (q t k blk left ctx num byte cn d : Nat) (l : Launch) (r r' : Travel) (bs : List Byte) (pk : Packet)
    (g : Taken),
    let may := t < 64 ∧ s.partEn t = true ∧ s.partState t < 2 ∧ s.summary = none ∧ s.incoming.get? t = none
    let taken := may ∧ s.grant t = (some (.queue q left), u) ∧ u.readPacket q = (bs, v)
    let y := w.setReg (qOff q 0x18) (w.qRd q + 1)
    let x : State := { y with arb := y.arb.insert (32 * t + y.qPrio q) (q, if y.qWr q = y.qRd q then 0 else left) }
    let ended : State := ({ s.dropMsg k with launches := [], evicted := [] } : State).countDone l.q
    (t < 64 → (s.partEn t = false ∨ 2 ≤ s.partState t ∨ s.summary.isSome = true ∨ (s.incoming.get? t).isSome = true) →
      exec (.launchDispatch t) s = .next s)
    ∧ (may → s.grant t = (none, u) → exec (.launchDispatch t) s = .next u)
    ∧ (may → s.grant t = (some (.back ctx), u) → u.resident t = none →
      exec (.launchDispatch t) s = .next { u with incoming := u.incoming.insert t (.back ctx) })
    ∧ (may → s.grant t = (some (.back ctx), u) → u.resident t ≠ none →
      exec (.launchDispatch t) s = .next (State.startEviction { u with incoming := u.incoming.insert t (.back ctx) } t))
    ∧ (taken → v.checkPacket t (u.qCtx q) bs = (g, w) → (g = .held ∨ g = .bad byte) → exec (.launchDispatch t) s = .next
      (if g = .held then w else (w.setQState q 3).errRec 0x31 (partCtx t (u.qCtx q))
        [BitVec.ofNat 64 q, BitVec.ofNat 64 (u.qRd q).toNat, BitVec.ofNat 64 byte]))
    ∧ (taken → v.checkPacket t (u.qCtx q) bs = (.nop, w) → exec (.launchDispatch t) s = .next (x.countDone q))
    ∧ (taken → v.checkPacket t (u.qCtx q) bs = (.launch pk cn d, w) → x.resident t = some (x.qCtx q) →
      exec (.launchDispatch t) s = .next (x.dispatch t q (u.qRd q).toNat (x.qCtx q) cn d pk))
    ∧ (taken → v.checkPacket t (u.qCtx q) bs = (.launch pk cn d, w) → x.resident t = none → x.saved.get? (x.qCtx q) = none →
      exec (.launchDispatch t) s = .next ((x.switchIn t (x.qCtx q)).dispatch t q (u.qRd q).toNat (x.qCtx q) cn d pk))
    ∧ (taken → v.checkPacket t (u.qCtx q) bs = (.launch pk cn d, w) → x.resident t ≠ some (x.qCtx q) →
      (x.resident t ≠ none ∨ x.saved.get? (x.qCtx q) ≠ none) →
      exec (.launchDispatch t) s = .next (x.switchTo t (.fresh q (u.qRd q).toNat pk (x.qCtx q) cn d)))
    ∧ (∃ l', (s.dispatch t q num ctx cn d pk).launches.get? t = some l' ∧ l'.q = q ∧ l'.ctx = ctx ∧ l'.done = d ∧ l'.irq = pk.irq)
    ∧ (s.partState t ≠ 1 → exec (.rootPlacementRetry t) s = .next s)
    ∧ (s.partState t = 1 → s.roots = [r] → s.rootWaits t r = false → exec (.rootPlacementRetry t) s = .next s)
    ∧ (s.partState t = 1 → s.roots = [r] → s.rootWaits t r = true → ({ s with roots := [] } : State).reserveOne r = some (u, r') →
      exec (.rootPlacementRetry t) s = .next (u.send (.travel r')).1)
    ∧ (s.partState t = 1 → s.roots = [r] → s.rootWaits t r = true → ({ s with roots := [] } : State).reserveOne r = none →
      exec (.rootPlacementRetry t) s = .next s)
    ∧ (∃ u : State, exec (.rootPlacementRetry t) s = .next u ∧ u.mem = s.mem ∧ u.regs = s.regs)
    ∧ (s.net.get? k = some (.launchDone blk) → s.summary.isSome = true → exec (.launchCompletion k) s = .next s)
    ∧ (s.net.get? k = some (.launchDone blk) → s.summary = none → s.evicted = [] → s.launches = [(t, l)] → l.done = blk →
      l.notified = true → (l.irq = false ∨ ended.qCfg l.q 60 1 = 0) → exec (.launchCompletion k) s = .next (ended.setQRun l.q false))
    ∧ (s.net.get? k = some (.launchDone blk) → s.summary = none → s.evicted = [] → s.launches = [(t, l)] → l.done = blk →
      l.notified = true → l.irq = true → ended.qCfg l.q 60 1 = 1 →
      exec (.launchCompletion k) s = .next ((ended.msix (ended.qCfg l.q 15 11)).setQRun l.q false))
    ∧ (AMap.rising none s.regs = true → (ended.setQRun l.q false).reg (qOff l.q 0x20) = s.reg (qOff l.q 0x20) + 1
      ∧ (ended.setQRun l.q false).regF (qOff l.q 0x28) 60 1 = 0)

/-- R404, R405, R407, R408: the fields of a packet as its bytes hold them; the grid of a launch; the share of a dimension at a grid
core; and a root fibre: its registers, PC, TID and FSW. -/
def Parts.LaunchPackets : Prop :=
  ∀ (bs : List Byte) (pk : Packet) (w h rank : Nat) (g : Nat × Nat) (gx gy : Nat) (d : Nat × Nat),
    let word := fun i : Nat => natOfBytes ((bs.drop (8 * i)).take 8)
    (let p := Packet.ofBytes bs;
      p.irq = (word 0).testBit 55 ∧ p.ox = word 0 / 2 ^ 48 % 16 ∧ p.sx = word 0 / 2 ^ 44 % 16 + 1
      ∧ p.oy = word 0 / 2 ^ 40 % 16 ∧ p.sy = word 0 / 2 ^ 36 % 16 + 1 ∧ p.entry = BitVec.ofNat 48 (word 1)
      ∧ p.param = BitVec.ofNat 64 (word 2) ∧ p.tid0 = word 3 % 2 ^ 48 ∧ p.counter = BitVec.ofNat 64 (word 4)
      ∧ p.done = BitVec.ofNat 64 (word 5) ∧ p.dims.length = word 0 / 2 ^ 52 % 8)
    ∧ (0 < pk.sx → 0 < pk.sy → pk.ox ≤ 32 * w → pk.oy ≤ 16 * h →
      (∀ x, x < (pk.grid w h).1 ↔ pk.ox + x * pk.sx < 32 * w) ∧ (∀ y, y < (pk.grid w h).2 ↔ pk.oy + y * pk.sy < 16 * h))
    ∧ (let c := fun parts : Nat => (d.2 + parts - 1) / parts;
      dimShare g gx gy d = (if d.1 = 1 then (gx * c g.1, min (c g.1) (d.2 - gx * c g.1))
        else if d.1 = 2 then (gy * c g.2, min (c g.2) (d.2 - gy * c g.2)) else (0, d.2)))
    ∧ (let f := pk.rootFibre rank;
      (∀ i, (f.x.get i).full = true ∧ (f.x.get i).flag = .none) ∧ (f.x.get 0).val = pk.param ∧ (f.x.get 1).val = pk.counter
      ∧ (f.x.get 2).val = pk.done ∧ (f.x.get 3).val = BitVec.ofNat 64 rank ∧ (∀ i, 4 ≤ i.val → (f.x.get i).val = 0)
      ∧ f.pc = pk.entry ∧ f.tid = BitVec.ofNat 48 (pk.tid0 + rank) ∧ f.fsw = 0x00010000#32)

/-- The statements above of LaunchDispatches, LaunchPackets, together. -/
def Obligations.LaunchRules : Prop := Parts.LaunchDispatches ∧ Parts.LaunchPackets

/-- R414 to R416, R438, R441: an eviction waits for its drain; then the write buffers are pushed, or the context is saved and gone, or,
without an image, killed. Its deadline kills a context whose drain has not ended. A context that comes in is switched in, or restored
from its image, or killed where its image may not be restored; then its launch goes on or is dispatched. That an image goes back into
the partition that it was saved from alone, and a context is killed for reason 5 otherwise, is the model's choice (log 75). All this
waits while a state summary runs (R454). -/
def Obligations.Evictions : Prop :=
  ∀ (s : State) (t ctx q num cn d : Nat) (pk : Packet) (sv : Saved),
    let left := s.resident t = some ctx ∧ s.partState t = 2 ∧ s.kills.get? t = none
    let evicting := left ∧ s.summary = none
    let full := (s.partCores t).any fun c => !(s.core c).wbuf.isEmpty
    let w : State := { s with incoming := s.incoming.erase t }
    let place := s.resident t = none ∧ s.kills.get? t = none ∧ s.partEn t = true
    let comes := place ∧ s.summary = none
    let on := fun x : State => match x.evicted.get? ctx with
      | some (_, l) => { x with launches := x.launches.insert t l, evicted := x.evicted.erase ctx }
      | none => x
    (left → s.summary.isSome = true → exec (.evictionSave t) s = .next s ∧ exec (.evictionDeadline t) s = .next s)
    ∧ ((s.incoming.get? t).isSome = true → place → s.summary.isSome = true → exec (.contextRestore t) s = .next s)
    ∧ (evicting → s.drained t = false → exec (.evictionSave t) s = .next s)
    ∧ (evicting → s.drained t = true → s.regF (imgOff ctx) 0 1 = 0 →
      exec (.evictionSave t) s = .next (s.startKill t { ctx := ctx, reason := 5 }))
    ∧ (evicting → s.drained t = true → s.regF (imgOff ctx) 0 1 = 1 → full = true →
      exec (.evictionSave t) s = .next (State.pushPart { s with saving := s.saving ++ [t] } t))
    ∧ (evicting → s.drained t = true → s.regF (imgOff ctx) 0 1 = 1 → full = false →
      exec (.evictionSave t) s = .next (s.saveOut t ctx)
        ∧ ∃ sv, (s.saveOut t ctx).saved.get? ctx = some sv ∧ sv.part = t)
    ∧ (s.resident t = some ctx → s.partState t = 2 → (t ∈ s.saving ∨ s.drained t = true) →
      exec (.evictionDeadline t) s = .next s)
    ∧ (evicting → t ∉ s.saving → s.drained t = false →
      exec (.evictionDeadline t) s = .next (s.startKill t { ctx := ctx, reason := 2 }))
    ∧ (s.incoming.get? t = some (.back ctx) → comes → s.saved.get? ctx = none →
      exec (.contextRestore t) s = .next (on (w.switchIn t ctx)))
    ∧ (s.incoming.get? t = some (.back ctx) → comes → s.saved.get? ctx = some sv → w.restorable t ctx sv = true →
      exec (.contextRestore t) s = .next (on (w.restoreIn t ctx sv)))
    ∧ (s.incoming.get? t = some (.fresh q num pk ctx cn d) → comes → s.saved.get? ctx = none →
      exec (.contextRestore t) s = .next ((w.switchIn t ctx).dispatch t q num ctx cn d pk))
    ∧ (s.incoming.get? t = some (.fresh q num pk ctx cn d) → comes → s.saved.get? ctx = some sv → w.restorable t ctx sv = true →
      exec (.contextRestore t) s = .next ((w.restoreIn t ctx sv).dispatch t q num ctx cn d pk))
    ∧ ((s.incoming.get? t = some (.back ctx) ∨ s.incoming.get? t = some (.fresh q num pk ctx cn d)) → comes →
      s.saved.get? ctx = some sv → w.restorable t ctx sv = false →
      exec (.contextRestore t) s = .next ((w.setResident t (some ctx)).startKill t { ctx := ctx, reason := 5 }))
    ∧ (s.restorable t ctx sv = true ↔ s.regF (imgOff ctx) 0 1 = 1 ∧ s.regF (imgOff ctx) 1 1 = 1 ∧ sv.part = t
      ∧ ∀ i, i < (s.partTiles t).length → s.imgBad ctx i = false)

/-- R419, R424, R435, R436: a watchdog, of the launch that runs or of an evicted one, starts a kill, or ends what an evicted launch's
context has left (log 76 says what that is). A kill stops the partition: its
number is counted, BUSY is set, and the partition is STOPPING. It waits for its accesses and for a state summary; then the
context's messages, image and fibres are gone and the partition is RESETTING; and then the kill ends with the partition IDLE and
the context gone. A command of LARK_CTL stops a partition, kills its context (or, where there is none, acts as a stop: log 88), or is
ignored with its fields while a stop writes its records; a stop is under way until its records are done. Lost progress is reported
once, in the status record and with record 0x32, which carries the context (log 89). -/
def Obligations.Kills : Prop :=
  ∀ (s : State) (t n ctx : Nat) (kl : Kill) (l : Launch),
    let num := (s.regF larkStatOff 0 32 + 1) % 2 ^ 32
    let cmd := fun c : Nat => s.writeField larkCtlOff (BitVec.ofNat 64 (c * 64 + t))
    let stops := s.kills.get? t = some kl ∧ s.summary = none
    let open_ := s.net.any fun m => s.msgIn t m.2 && m.2.finishes
    (t < 64 → s.kills.get? t = none → AMap.rising none s.regs = true →
      (s.startKill t kl).kills.get? t = some { kl with seq := num } ∧ (s.startKill t kl).partState t = 3
      ∧ (s.startKill t kl).regF larkStatOff 63 1 = 1 ∧ (s.startKill t kl).regF larkStatOff 0 32 = num
      ∧ (s.startKill t kl).fibres = s.fibres ∧ (s.startKill t kl).cores = s.cores ∧ (s.startKill t kl).mem = s.mem)
    ∧ (l ∈ s.watched t ↔ l.win ≠ 0 ∧ (s.launches.get? t = some l ∨ ∃ c, (c, t, l) ∈ s.evicted))
    ∧ (s.watched t = [l] → s.summary = none → s.resident t = some l.ctx → exec (.watchdogExpiry t) s =
      .next (s.startKill t { ctx := l.ctx, reason := 3, queue := l.q }))
    ∧ (2 ≤ (s.watched t).length → s.summary = none → ∃ w ∈ s.watched t,
      exec (.watchdogExpiry t) s = .next (State.expire { s with fresh := s.fresh + 1 } t w))
    ∧ (s.watched t ≠ [] → s.summary.isSome = true → exec (.watchdogExpiry t) s = .next s)
    ∧ (s.launches.get? t = none → s.evicted = [(l.ctx, (t, l))] → l.win ≠ 0 → s.summary = none → s.resident t ≠ some l.ctx →
      AMap.rising none s.saved = true →
      ∃ u : State, exec (.watchdogExpiry t) s = .next (u.killRecords t { ctx := l.ctx, reason := 3, queue := l.q })
        ∧ u.evicted = [] ∧ u.saved.get? l.ctx = none ∧ (∀ r ∈ u.roots, r.ctx ≠ l.ctx) ∧ (∀ r ∈ u.pool, r.ctx ≠ l.ctx)
        ∧ u.fibres = s.fibres ∧ u.mem = s.mem)
    ∧ (s.kills.get? t = some kl → s.summary.isSome = true → exec (.contextKillComplete t) s = .next s)
    ∧ (stops → s.partState t ≠ 4 → open_ = true → exec (.contextKillComplete t) s = .next s)
    ∧ (stops → s.partState t ≠ 4 → open_ = false → AMap.rising none s.saved = true → AMap.rising none s.inst = true →
      ∃ u : State, exec (.contextKillComplete t) s = .next (u.setPartState t 4) ∧ (∀ m ∈ u.net, s.msgIn t m.2 = false)
        ∧ u.saved.get? kl.ctx = none ∧ u.inst.getD kl.ctx 0 = s.inst.getD kl.ctx 0 + 1
        ∧ (∀ r ∈ u.pool, r.ctx ≠ kl.ctx) ∧ (∀ r ∈ u.roots, r.ctx ≠ kl.ctx))
    ∧ (stops → s.partState t = 4 → AMap.rising none s.kills = true → AMap.rising none s.launches = true →
      AMap.rising none s.evicted = true →
      ∃ u : State, exec (.contextKillComplete t) s = .next ((u.setResident t none).setPartState t 0) ∧ u.kills.get? t = none
        ∧ u.launches.get? t = none ∧ u.evicted.get? kl.ctx = none ∧ u.fibres = s.fibres ∧ u.cores = s.cores)
    ∧ (s.hostOpen → t < 64 → s.regF larkStatOff 63 1 = 0 → s.partEn t = true → ∃ u : State, exec (.larkStopResume t) s = .next u
      ∧ u.lark = some (t, num) ∧ u.regF larkStatOff 63 1 = 1 ∧ u.regF larkStatOff 0 32 = num ∧ u.mem = s.mem
      ∧ u.fibres = s.fibres)
    ∧ (s.hostOpen → t < 64 → (s.regF larkStatOff 63 1 = 1 ∨ s.partEn t = false) →
      exec (.larkStopResume t) s = .next s ∧ exec (.larkStopKill t) s = .next s)
    ∧ (s.hostOpen → t < 64 → s.regF larkStatOff 63 1 = 0 → s.partEn t = true → s.resident t = some ctx →
      exec (.larkStopKill t) s = .next ((cmd 2).startKill t { ctx := ctx, reason := 4 }))
    ∧ (s.hostOpen → t < 64 → s.regF larkStatOff 63 1 = 0 → s.partEn t = true → s.resident t = none →
      exec (.larkStopKill t) s = .next ((cmd 2).larkStop t))
    ∧ (s.lark = some (t, n) → ∃ u : State, exec .larkResume s = .next u ∧ u.lark = none ∧ u.fibres = s.fibres ∧ u.cores = s.cores)
    ∧ (s.lark = some (t, n) → s.regF larkBaseOff 0 1 = 0 → exec .larkResume s = .next
      { (s.setRegF larkStatOff 63 1 (!(s.stops.erase n).isEmpty).toNat).setRegF larkStatOff 62 1 1 with
        lark := none, stops := s.stops.erase n })
    ∧ (s.resident t = some ctx → t ∉ s.asleep → s.partEn t = true → s.allAsleep t ctx = true → exec (.deadlockEvent t) s =
      .next ((State.noteStatus { s with asleep := s.asleep ++ [t] } ctx { bits := 0x01 }).errRec 0x32 (partCtx t ctx)
        [BitVec.ofNat 64 ctx, BitVec.ofNat 64 t]))

/-- R417, R418, R465: a refill, a measurement of power and a throttling complete, and change no fibre, no byte of memory and no core's
registers. Every factor of which the power loop chooses one leaves the energy that the allotments admit below 4,400 W. When the
temperature action ends is the model's choice (log 136): a measurement between the limits changes nothing while it is off. -/
def Parts.Energy : Prop :=
  ∀ (s : State) (mw f : Nat),
    (∃ t, exec .ebudRefill s = .next t ∧ t.fibres = s.fibres ∧ t.mem = s.mem ∧ t.regs = s.regs
      ∧ (AMap.wf {} s.cores = true → ∀ c, (t.core c).v = (s.core c).v ∧ (t.core c).ident = (s.core c).ident))
    ∧ (∃ t, exec (.powerMeasurement mw) s = .next t ∧ t.fibres = s.fibres ∧ t.cores = s.cores ∧ t.mem = s.mem)
    ∧ (f < s.powerFactors → s.admitted * f < 4400000000 * 65536)
    ∧ (3900000 ≤ mw → mw ≤ 4200000 → s.isHot = false → ∃ t, exec (.powerMeasurement mw) s = .next t ∧ t.regs = s.regs)
    ∧ (∃ t, exec .thermalThrottle s = .next t ∧ t.fibres = s.fibres ∧ t.cores = s.cores ∧ t.mem = s.mem
      ∧ (AMap.rising none s.regs = true → t.regF 0x210100 61 1 = 1))

/-! ## The host and the module (R444 to R465) -/

/-- R445, R446, R448, R465: an access of BAR0 that no register takes completes as unsupported. A register write of the host is ignored
until the module is READY; behind a posted write, and while a state summary runs, it waits; otherwise it has its effect: a register
with no rule of its own takes the value as its field table says, and one that has a row of its own in the opcode table does what that
row does. HCB_STAT is read, and its count clears. Unmasking a vector sends its pending message. -/
def Obligations.HostRegisters : Prop :=
  ∀ (s : State) (off len vec q : Nat) (wr : Bool) (val : Word) (r : RegName),
    let same := fun (o : Nat) (i : Instr) => exec (.registerWrite o val) s = exec i s
    (barOk off len = false → exec (.bar0UnsupportedRequest off len wr) s = .next (s.tellHost (.bar0Unsupported off)))
    ∧ (s.isReady = false → regName off = some r → exec (.registerWrite off val) s = .next s)
    ∧ (s.isReady = true → (s.hostBehind = true ∨ s.summary.isSome = true) → regName off = some r →
      exec (.registerWrite off val) s = .next (s.hostArrives (sysBase + off) 8 (some (wordBytes val)) true))
    ∧ (s.hostOpen → regName off = some r → r.plain = true →
      exec (.registerWrite off val) s = .next (s.setReg off (r.written (s.reg off) val)))
    ∧ (AMap.rising none s.regs = true → (s.setReg off val).reg off = val)
    ∧ (s.hostOpen → q < 512 → s.qEn q = true →
      exec (.registerWrite (qOff q 0x00) val) s = .next s ∧ exec (.registerWrite (qOff q 0x18) val) s = .next s)
    ∧ (s.hostOpen → q < 512 → s.qEn q = false →
      exec (.registerWrite (qOff q 0x00) val) s = .next (s.writeField (qOff q 0x00) val)
      ∧ exec (.registerWrite (qOff q 0x18) val) s = .next (s.writeField (qOff q 0x18) val))
    ∧ (same 0x1A0000 (.pptBase val) ∧ same 0x1A0008 (.pptSet val) ∧ same 0x180000 (.poolRel val) ∧ same 0x180010 (.spareAdd val)
      ∧ same 0x1D0000 (.zinCtl val) ∧ same 0x210008 (.hseal val) ∧ same 0x211008 (.errCfg (.write val))
      ∧ same 0x212008 (.resyncCtl val) ∧ same 0x213000 (.fabId val) ∧ same 0x216218 (.measExt val) ∧ same 0x216028 (.attCtl val))
    ∧ (q < 512 → same (qOff q 0x08) (.qCfg q val) ∧ same (qOff q 0x10) (.qWr q val))
    ∧ (q < 64 → same (partOff q) (.part q val))
    ∧ (q < 65536 → same (extOff q) (.poolExt q val))
    ∧ (s.isReady = true → s.hostBehind = false → ∃ t v, exec .hcbStat s = .next t ∧ t.toHost = .bar0 0x210010 v :: s.toHost
      ∧ (s.hcb.length < 256 → v.toNat / 2 ^ 56 = s.hcb.length) ∧ v.toNat % 2 ^ 56 = (s.reg 0x210010).toNat % 2 ^ 56
      ∧ (AMap.rising none s.regs = true → t.regF 0x210010 0 32 = 0) ∧ t.mem = s.mem)
    ∧ (s.hostOpen → vec < 2048 → s.regF (0x308000 + vec / 64 * 8) (vec % 64) 1 = 1 → ∃ t, exec (.msixUnmask vec) s = .next t
      ∧ t.regF (0x300008 + 16 * vec) 32 1 = 0 ∧ t.regF (0x308000 + vec / 64 * 8) (vec % 64) 1 = 0
      ∧ t.toHost = .msix vec (s.reg (0x300000 + 16 * vec)) ((s.reg (0x300008 + 16 * vec)).setWidth 32) :: s.toHost)
    ∧ (s.hostOpen → vec < 2048 → s.regF (0x308000 + vec / 64 * 8) (vec % 64) 1 = 0 → ∃ t, exec (.msixUnmask vec) s = .next t
      ∧ t.regF (0x300008 + 16 * vec) 32 1 = 0 ∧ t.toHost = s.toHost)

/-- R144, R214, R446, R447: the accesses of the host through BAR2, with no earlier one waiting. One whose target it may not reach
completes as unsupported; one whose page is held waits, and so does one whose block a wake holds (log 94) or MST has reserved (log 64);
a read completes with the block's bytes, with zeros where a ONCE block is not FULL, and says whether they are poisoned; a write is
performed. A posted write that has been held too long is dropped with record 0x44. HSEAL of a block that is neither held, which it
waits for (log 93), nor reserved commits what the host has combined of it, and is refused with record 0x45 where the block lies on no
ONCE page. -/
def Obligations.HostAccesses : Prop :=
  ∀ (s : State) (off n k : Nat) (val : Word) (data : List Byte) (w : HostWait),
    let alone := s.hostHeld = [] ∧ s.hostRegBusy = false
    let pa := s.apAddr off
    let got : State := { s with hostReqs := s.hostReqs + 1, hostHeld := [] }
    let kept := fun m (bs : Option (List Byte)) =>
      ({ k := s.hostReqs, pa := pa, n := m, data := bs, reg := false } : HostWait)
    let queued := fun m (bs : Option (List Byte)) => ({ s with hostReqs := s.hostReqs + 1, hostHeld := [kept m bs] } : State)
    (off + n ≤ 2 ^ 36 → exec (.bar2Read off n) s = .next (s.hostArrives pa n none false))
    ∧ (off + data.length ≤ 2 ^ 36 → exec (.bar2Write off data) s = .next (s.hostArrives pa data.length (some data) false))
    ∧ (alone → off + n ≤ 2 ^ 36 → s.hostTarget pa n false = false →
      exec (.bar2Read off n) s = .next (got.tellHost (.unsupported s.hostReqs)))
    ∧ (alone → off + n ≤ 2 ^ 36 → s.hostTarget pa n false = true → (s.isHeld pa = true ∨ s.wakeStuck (blkOf pa) = true) →
      exec (.bar2Read off n) s = .next (queued n none))
    ∧ (alone → off + n ≤ 2 ^ 36 → s.hostTarget pa n false = true → s.isHeld pa = false → s.wakeStuck (blkOf pa) = false →
      exec (.bar2Read off n) s = .next { (queued n none).hostRead s.hostReqs pa n with hostHeld := [] })
    ∧ (let m := ((s.touchLines pa n false).meet pa n).meetPpt pa
      let ep := m.isRetired pa || (m.firstPoison pa n).isSome
      (pptType (m.typeByte pa) ≠ .once ∨ (m.blkMeta pa).pres = .full ∨ m.isRetired pa = true →
        s.hostRead k pa n = m.tellHost (.read k (m.bytes pa n) ep))
      ∧ (pptType (m.typeByte pa) = .once → (m.blkMeta pa).pres ≠ .full → m.isRetired pa = false →
        s.hostRead k pa n = m.tellHost (.read k (List.replicate n 0) false)))
    ∧ (alone → off + data.length ≤ 2 ^ 36 → s.hostTarget pa data.length true = false →
      exec (.bar2Write off data) s = .next (got.tellHost (.unsupported s.hostReqs)))
    ∧ (alone → off + data.length ≤ 2 ^ 36 → s.hostTarget pa data.length true = true →
      (s.isHeld pa = true ∨ s.wakeStuck (blkOf pa) = true ∨ s.reserved (blkOf pa) = true) →
      exec (.bar2Write off data) s = .next (queued data.length (some data)))
    ∧ (alone → off + data.length ≤ 2 ^ 36 → s.hostTarget pa data.length true = true → s.isHeld pa = false →
      s.wakeStuck (blkOf pa) = false → s.reserved (blkOf pa) = false →
      exec (.bar2Write off data) s = .next { (queued data.length (some data)).hostWrite pa data with hostHeld := [] })
    ∧ (let m := (s.touchLines pa data.length true).meet pa data.length
      pptType (s.typeByte pa) ≠ .once → s.hostWrite pa data =
        if m.isRetired pa = true then m.errRec 0x22 none [BitVec.ofNat 64 (blkOf pa)] else m.performWrite 0 pa data)
    ∧ (s.hostHeld = [w] → w.k = k → w.data = some data → w.reg = false → s.isHeld w.pa = true → exec (.hostWriteDrop k) s =
      .next (State.errRec { s with hostHeld := [] } 0x44 none [BitVec.ofNat 64 w.pa]).pumpHost)
    ∧ (s.hostOpen → s.sealWaits val = true →
      exec (.hseal val) s = .next (s.hostArrives (sysBase + hsealOff) 8 (some (wordBytes val)) true))
    ∧ (s.hostOpen → s.sealWaits val = false → exec (.hseal val) s =
      .next ((s.writeField hsealOff val).hcbSeal (val.toNat / 2 ^ 9 % 2 ^ 37 * 512)))
    ∧ (pptType (s.typeByte pa) ≠ .once → s.hcbSeal pa = s.errRec 0x45 none [BitVec.ofNat 64 pa])

/-- R374 to R376, R449, R450, R453 to R456: ERR_CFG is written and stays disabled with a ring of a size that it may not have; while records
are unread, the ring's interrupt is sent; a state summary is taken, or refused where its room is too small, and when it has been
written the records raised meanwhile follow, each with the time of its event; FAB_ID is locked once LOCK is set; a port is read, which clears its count of retries, and its link comes up and goes down; ZIN_CTL stays disabled
with an interval or a number of slots that it may not have, and a snapshot is taken while it is enabled. -/
def Obligations.HostUnits : Prop :=
  ∀ (s : State) (val : Word) (i peer : Nat) (bs : List Byte),
    let size := val.toNat / 2 ^ 56 % 32
    let zin := RegName.zinCtl.written (s.reg zinOff) val
    let zinBad := val.toNat / 2 ^ 32 % 2 ^ 20 < 100 ∨ val.toNat % 256 = 0
    let st := zinOff + 0x10
    let down := s.setRegF (portOff i) 62 1 0
    let summed := ((({ s with summary := none } : State).setHostBytes (s.regF 0x212000 6 58 * 64) bs).setRegF resyncOff 63 1 0).setRegF
      resyncOff 62 1 1
    (s.hostOpen → (size < 4 ∨ 16 < size) → ∃ t, exec (.errCfg (.write val)) s = .next t ∧ t.regF errCfgOff 63 1 = 0 ∧ t.mem = s.mem)
    ∧ (s.hostOpen → 4 ≤ size → size ≤ 16 → exec (.errCfg (.write val)) s = .next (s.writeField errCfgOff val)
      ∧ (s.writeField errCfgOff val).regF errCfgOff 63 1 = val.toNat / 2 ^ 63
      ∧ (s.writeField errCfgOff val).regF errCfgOff 56 5 = size)
    ∧ (s.isReady = true → s.hostBehind = false → ∃ t, exec (.errCfg .read) s = .next t
      ∧ t.toHost = .bar0 errCfgOff (s.reg errCfgOff) :: s.toHost ∧ (AMap.rising none s.regs = true → t.regF errCfgOff 0 32 = 0))
    ∧ ((s.reg 0x211010 = s.reg 0x211018 ∨ s.regF errCfgOff 61 1 = 0) → exec .errorInterrupt s = .next s)
    ∧ (s.regF errCfgOff 61 1 = 1 → s.reg 0x211010 ≠ s.reg 0x211018 →
      exec .errorInterrupt s = .next (s.msix (s.regF errCfgOff 45 11)))
    ∧ (s.hostOpen → val.getLsbD 63 = true → (s.regF resyncOff 63 1 = 1 ∨ val.toNat % 2 ^ 32 < 102400) →
      ∃ t, exec (.resyncCtl val) s = .next t ∧ t.summary = none ∧ t.regF resyncOff 61 1 = 1 ∧ t.mem = s.mem)
    ∧ (s.hostOpen → val.getLsbD 63 = true → s.regF resyncOff 63 1 = 0 → 102400 ≤ val.toNat % 2 ^ 32 →
      ∃ t, exec (.resyncCtl val) s = .next t ∧ t.summary.isSome = true ∧ t.regF resyncOff 63 1 = 1 ∧ t.mem = s.mem)
    ∧ (s.hostOpen → val.getLsbD 63 = false → ∃ t, exec (.resyncCtl val) s = .next t ∧ t.summary = none
      ∧ t.regF resyncOff 0 32 = val.toNat % 2 ^ 32 ∧ t.regF resyncOff 63 1 = s.regF resyncOff 63 1 ∧ t.mem = s.mem)
    ∧ (s.summary = some bs → s.errHeld = [] → s.hostHeld = [] → exec .resyncDone s = .next summed)
    ∧ (s.summary = some bs → exec .resyncDone s = .next ((s.errHeld.foldl (fun s r =>
        s.errNow r.kind (r.rc.map fun p => { ctx := p.1, tenant := p.2 }) r.payload (some r.time)) ({ summed with errHeld := [] } : State)).pumpHost))
    ∧ (AMap.rising none s.regs = true → summed.regF resyncOff 63 1 = 0 ∧ summed.regF resyncOff 62 1 = 1)
    ∧ (s.hostOpen → s.regF fabIdOff 63 1 = 1 → exec (.fabId val) s = .next s)
    ∧ (s.hostOpen → s.regF fabIdOff 63 1 = 0 → ∃ t, exec (.fabId val) s = .next t ∧ t.regF fabIdOff 0 10 = val.toNat % 2 ^ 10
      ∧ t.regF fabIdOff 63 1 = val.toNat / 2 ^ 63 ∧ t.mem = s.mem)
    ∧ (s.isReady = true → s.hostBehind = false → i < 16 → AMap.rising none s.regs = true → ∃ t v, exec (.fabPort i) s = .next t
      ∧ t.toHost = .bar0 (portOff i) v :: s.toHost ∧ v.toNat / 2 ^ 32 = (s.reg (portOff i)).toNat / 2 ^ 32
      ∧ s.regF (portOff i) 0 32 ≤ v.toNat % 2 ^ 32 ∧ (s.regF (portOff i) 62 1 = 0 → v = s.reg (portOff i))
      ∧ t.regF (portOff i) 0 32 = 0)
    ∧ (i < 16 → peer < 1024 → s.regF (portOff i) 63 1 = 1 → s.regF (portOff i) 62 1 = 0 →
      exec (.fabricPortTrained i peer) s = .next
        (((s.setRegF (portOff i) 62 1 1).setRegF (portOff i) 32 10 peer).releaseHolds fun p => decide (fabricHold 0 ≤ p)))
    ∧ (i < 16 → s.regF (portOff i) 62 1 = 1 → exec (.fabricPortDown i) s = .next
      (down.errRec 0x41 none [BitVec.ofNat 64 i, BitVec.ofNat 64 (down.regF (portOff i) 32 10)]))
    ∧ (s.hostOpen → (val.getLsbD 63 = false ∨ ¬ zinBad) → exec (.zinCtl val) s = .next (s.setReg zinOff zin))
    ∧ (s.hostOpen → val.getLsbD 63 = true → zinBad → exec (.zinCtl val) s = .next (s.setReg zinOff (withField zin 63 1 0)))
    ∧ (fld zin.toNat 63 1 = val.toNat / 2 ^ 63 ∧ fld zin.toNat 32 20 = val.toNat / 2 ^ 32 % 2 ^ 20 ∧ fld zin.toNat 0 8 = val.toNat % 256
      ∧ fld (withField zin 63 1 0).toNat 63 1 = 0)
    ∧ (s.regF zinOff 63 1 = 0 → exec .zinniaSnapshot s = .next s)
    ∧ (s.regF zinOff 63 1 = 1 → ∃ u : State,
      let v := u.setRegF st 32 32 (s.regF st 32 32 + 1)
      exec .zinniaSnapshot s = .next (if Config.freeBool s.fresh = true then State.setRegF { s with fresh := s.fresh + 1 } st 31 1 1
          else v.setRegF st 0 8 ((s.regF st 0 8 + 1) % v.regF zinOff 0 8))
        ∧ u.fibres = s.fibres ∧ u.cores = s.cores)

/-- R457 to R459, R462, R464, R465: a module reset with an image that is verified comes up READY, and with one that is refused reports it;
either way the memory of the host stays and the module's is empty (the model's choice, logs 3 and 95). The last word of MEAS_EXT extends MEAS[3]. A report is made, and
when it has been signed it has been written to the host and DONE is set. A trace buffer that is half full loses its 128 oldest records,
each of which goes into the ring segment of its context and tile, at the place that the tile has reached there. A tile that no
partition uses is gated, and so are the hottest tiles in an emergency, unless a state summary runs (R454). -/
def Parts.ModuleEvents : Prop :=
  ∀ (s : State) (img : FwImage) (val x y : Word) (head : List Byte) (tile ctx : Nat),
    let buf := s.traceBuf tile
    let seg := s.regF (0x228000 + 16 * ctx) 0 5
    let pos := buf.pos.getD ctx 0
    let a := s.regF (0x228000 + 16 * ctx + 8) 12 34 * 4096 + tile * 2 ^ seg + pos % 2 ^ seg
    let w := (s.touchLines a 16 true).meet a 16
    (∃ t, exec (.moduleReset img) s = .next t ∧ t.hostMem = s.hostMem ∧ t.mem = [] ∧ t.fibres = [] ∧ t.cores = []
      ∧ t.regF 0x210100 63 1 = (s.rebooted.accepts img).toNat ∧ t.regF 0x210100 62 1 = (!s.rebooted.accepts img).toNat)
    ∧ (s.hostOpen → exec (.measExt val) s = .next ((s.setReg 0x216218 val).extendMeas 3 ((s.setReg 0x216218 val).regBytes 0x216200)))
    ∧ (s.hostOpen → val.getLsbD 63 = true → s.regF attCtlOff 63 1 = 0 → ∃ t, exec (.attCtl val) s = .next t
      ∧ t.report = some (s.writeField attCtlOff val).reportHead ∧ t.regF attCtlOff 63 1 = 1 ∧ t.mem = s.mem)
    ∧ (s.report = some head → AMap.rising none s.regs = true → ∃ t, exec .attestationDone s = .next t ∧ t.report = none
      ∧ t.regF attCtlOff 63 1 = 0 ∧ t.regF attCtlOff 62 1 = 1 ∧ t.mem = s.mem
      ∧ t.hostMem = (s.setHostBytes (s.regF 0x216020 6 58 * 64)
        (head ++ (padTo 7856 (Config.attSign head)).take 7856)).hostMem)
    ∧ (128 ≤ buf.recs.length → AMap.rising none s.trace = true → ∃ t, exec (.traceDrain tile) s = .next t
      ∧ t = (buf.recs.take 128).foldl (fun s r => s.drainRec tile r) (s.setTrace tile { buf with recs := buf.recs.drop 128 })
      ∧ (t.traceBuf tile).recs = buf.recs.drop 128 ∧ t.fibres = s.fibres ∧ t.cores = s.cores)
    ∧ (12 ≤ seg → w.Sound a 16 → Memory.wf w.mem = true → let t := s.drainRec tile (ctx, x, y)
      t.nat a 8 = x.toNat ∧ t.nat (a + 8) 8 = y.toNat ∧ w.keepsBytes t a 16
      ∧ t.traceBuf tile = { buf with pos := buf.pos.insert ctx (pos + 16) })
    ∧ (tile < 16384 → s.tileUsed tile = false → (s.tile tile).gated = false → ∃ t, exec (.tilePowerGate tile) s = .next t
      ∧ (t.tile tile).gated = true ∧ t.fibres = s.fibres ∧ t.cores = s.cores)
    ∧ (tile < 16384 → s.summary.isSome = true → exec (.thermalEmergency [tile]) s = .next s)
    ∧ (tile < 16384 → s.summary = none → ∃ t, exec (.thermalEmergency [tile]) s = .next t
      ∧ (t.tile tile).gated = true ∧ t.fibres = s.fibres ∧ t.cores = s.cores)

/-- The statements above of ModuleEvents, Energy, together. -/
def Obligations.ModuleEventsAndEnergy : Prop := Parts.ModuleEvents ∧ Parts.Energy

/-! ## The machine as a whole -/

/-- What module reset leaves: every slot FREE with a fibre record of zeros (R377), a quantum of 1,024 (R383), the reset
values of the system registers (R7), no context status record (R420), instance numbers of 0 (R495), routines 16 to 63
invalid (R116), no page redirected (R102). The x registers' values come with R377; the vector file, the masks and memory
have no reset value in the spec: zero there is the model's choice (log 3, log 4). -/
def Obligations.ResetState : Prop :=
  let s := State.reset
  (∀ c k, s.fib c k = {} ∧ (s.fib c k).st = .free ∧ (s.fib c k).fsw = 0 ∧ (s.fib c k).pc = 0)
    ∧ (∀ c, (s.core c).qtm = 1024 ∧ (s.core c).anchor = none ∧ (s.core c).ctxid = 0
      ∧ ∀ p, ((s.core c).sp.get p).bound = false)
    ∧ (∀ c r k, (((s.core c).v.get r).get k).val = 0) ∧ (∀ c m, (s.core c).m.get m = 0)
    ∧ (∀ c, c < 64 → s.reg (0x190000 + 0x40 * c) = 0x1004)
    ∧ (∀ q, q < 512 → s.reg (0x1E0000 + 64 * q + 8) = 0x04000000 ∧ s.reg (0x1E0000 + 64 * q) = 0)
    ∧ (∀ t, t < 64 → s.reg (0x1F0000 + 8 * t) = 0x03E80000 ∧ s.partEn t = false ∧ s.resident t = none)
    ∧ (∀ ctx, ctx < 1024 → s.reg (0x1F1000 + 16 * ctx) = 0x0080000280000400
      ∧ s.reg (0x1F1008 + 16 * ctx) = 0x0004190002000040 ∧ s.reg (0x1F6000 + 8 * ctx) = 0
      ∧ s.inst.getD ctx 0 = 0 ∧ (s.tvec ctx 1).getLsbD 0 = false ∧ (s.tvec ctx 2).getLsbD 0 = false)
    ∧ (∀ i, i < 2048 → (s.reg (0x300000 + 16 * i + 8)).getLsbD 32 = true)
    ∧ s.routines = [] ∧ s.redir = [] ∧ s.net = [] ∧ s.clk = 0 ∧ s.errLost = 0
    ∧ ∀ a, s.byte a = 0

/-- Words written out from the encoding tables of R41 to R48, and the example of the spec's own pair; words that R50 and R51
keep reserved are rejected. -/
def Obligations.SpecWordsDecode : Prop :=
  decodeWords 0xA0EDC010 0x04A82000
      = .ok (.pair (.ld .w true (some .package) 3 5 16) (.add .d 1 2 4))
    ∧ decodeWords 0x8E400002 0x6C9FFFFF = .ok (.pair (.bz 1 2) (.addi .d 1 1 0x7FFFF))
    ∧ decodeWords 0x93FFFFFF 0x00000000 = .ok (.pair (.j 0x1FFFFFF) .nopa)
    ∧ decodeWords 0x00200000 0x00000003 = .ok (.long (.movi 1 3))
    ∧ decodeWords 0x00000000 0x00000000 = .ok (.long (.movi 0 0))
    ∧ decodeWords 0x21D28000 0x00000200 = .ok (.long (.mma 2 2 4 0x200))
    ∧ decodeWords 0x384B2080 0 = .reject .badLong
    ∧ decodeWords 0x70000000 0 = .reject .badLong
    ∧ decodeWords 0xFE000000 0 = .reject .badC
    ∧ decodeWords 0x80000000 0xFC000000 = .reject .badA
    ∧ decodeWords 0xD0000000 0x04000000 = .reject .badPair

/-- R41 to R48, R56: every well-formed instruction has words, and the decoder reads it back from them: alone, as a long
bundle, or in any pair that R37 allows. -/
def Obligations.EncodingsRoundTrip : Prop :=
  (∀ i : Instr, i.wf = true → i.slotKind ≠ .event → ∃ w, encode i = some w ∧ decodeOne w = some i)
    ∧ (∀ (c a : Instr) (w0 w1 : Nat), c.wf = true → a.wf = true → encode c = some (.c w0) → encode a = some (.a w1) →
      pairAllowed c a = true → decodeWords w0 w1 = .ok (.pair c a))
    ∧ (∀ (c a : Instr) (w0 w1 : Nat), c.wf = true → a.wf = true → encode c = some (.c w0) → encode a = some (.a w1) →
      pairAllowed c a = false → decodeWords w0 w1 = .reject .badPair)
    ∧ (∀ (i : Instr) (w0 w1 : Nat), i.wf = true → encode i = some (.long w0 w1) → decodeWords w0 w1 = .ok (.long i))

/-- R48, R50: a word of 32 bits that the decoder accepts is the word of its instruction: no reserved field is ignored, and no two words
mean the same instruction, but for a copy or conversion command whose gv is 0: its gen is not checked, and any gen means the same
command. -/
def Obligations.EncodingsUnique : Prop :=
  (∀ (w : Nat) (i : Instr), w < 2 ^ 32 → decodeOne (.c w) = some i → i.wf = true ∧ encode i = some (.c w))
    ∧ (∀ (w : Nat) (i : Instr), w < 2 ^ 32 → decodeOne (.a w) = some i → i.wf = true ∧ encode i = some (.a w))
    ∧ (∀ (w0 w1 : Nat) (i : Instr), w0 < 2 ^ 32 → w1 < 2 ^ 32 → decodeOne (.long w0 w1) = some i →
      i.wf = true ∧ (encode i = some (.long w0 w1)
        ∨ i.uncheckedGen = true ∧ w1.testBit 21 = false ∧ encode i = some (.long w0 (w1 % 2 ^ 21))))

/-- The core's bookkeeping after a bundle of the fibre in a hot slot (R382): it counts while the fibre keeps the slot. -/
def Parts.counted (p : State) (c k : Nat) (high : Bool) : State :=
  if ((p.core c).hot high).slot = some k then
    p.modCore c fun r => r.setHot high { (p.core c).hot high with count := ((p.core c).hot high).count + 1 }
  else p

/-- The core and its fibre after a bundle that has begun in `g` and ended in `t`: the core's budget is debited, once, when the bundle has
issued (R417), and a bundle that has retired has consumed the elements that it has read (R298). -/
def Parts.ended (g t : State) (b : Bundle) : State :=
  let d := t.debit g.cur.core g.cur.slot (g.bundleCost g.cur.core b) g.me.paid
  if d.cur.disp = .retired then d.consumePorts g.cur.core (g.usedVs b) else d

/-- What the step of a core answers whose fibre has ended its bundle in `p` (R382). -/
def Parts.EndsStep (s : State) (c k : Nat) (high : Bool) (p : State) : Prop :=
  let q := Parts.counted p c k high
  p.cur.disp ≠ .stalled → q.quantumOver c true = false → q.quantumOver c false = false → step s = .next q

/-- A step runs the decoded instruction. The plan names a core (log 1), the core is not stopped, a fibre holds the hot slot
that issues, no vector load and no breakpoint keeps its bundle back, and the fetch gives two words: then the step is exec of the
long instruction, or of the C slot and then the A slot, or of the trap of an illegal encoding; around it, the debit of the core, the
stream elements that retirement consumes, and the count of the quantum. A bundle that costs energy, on a core whose budget is
spent, stalls instead, unless it has been paid for. An event in the plan is exec of the event. -/
def Obligations.StepRunsTheDecodedInstruction : Prop :=
  (∀ (s : State) (i : Instr) (ts : List Turn), s.plan = .event i :: ts → step s = exec i { s with plan := ts })
    ∧ ∀ (s : State) (c k : Nat) (ts : List Turn) (high : Bool), s.plan = .core c :: ts →
      let s0 : State := { s with plan := ts }
      let s1 := (s0.choose c true).choose c false
      let u : State := { s1 with cur := { core := c, slot := k, wf := (s1.fib c k).wf } }
      s0.isStopped c = false →
      (if high then (s1.core c).hotH.slot = some k else (s1.core c).hotH.slot = none ∧ (s1.core c).hotN.slot = some k) →
      u.me.vrecs = 0 →
      (∀ i, u.breakpoint = some i → ∀ t, exec (.taskBreakpoint i) u = .next t → Parts.EndsStep s c k high t)
      ∧ (u.breakpoint = none → ∀ (w0 w1 : Nat) (f : State), u.fetchAt c u.me.pc = (.words w0 w1, f) →
        let g : State := { f with cur := { f.cur with word := BitVec.ofNat 64 (w0 + w1 * 2 ^ 32) } }
        (∀ r, decodeWords w0 w1 = .reject r → ∀ t,
          exec (.illegalEncoding (BitVec.ofNat 32 w0) (BitVec.ofNat 32 w1)) g = .next t → Parts.EndsStep s c k high t)
        ∧ (∀ i, decodeWords w0 w1 = .ok (.long i) → (g.starved (.long i) = false ∨ g.me.paid = true) → ∀ t, exec i g = .next t →
          Parts.EndsStep s c k high (Parts.ended g t (.long i)))
        ∧ (∀ b, decodeWords w0 w1 = .ok b → g.starved b = true → g.me.paid = false → high = false → g.readySlots c high = [] →
          g.quantumOver c true = false → g.quantumOver c false = false → step s = .next (g.withDisp .stalled))
        ∧ (∀ x y, decodeWords w0 w1 = .ok (.pair x y) → (g.starved (.pair x y) = false ∨ g.me.paid = true) →
          g.latched.earlyFault x = false → g.latched.earlyFault y = false → g.latched.waits y = false →
          ∀ t t' r, exec x g.latched = .next t → t.cur.disp = .retired →
            exec y g.latched = .next t' → t'.cur.disp = .retired →
            exec y t = .next r → r.cur.disp = .retired →
            Parts.EndsStep s c k high (Parts.ended g r.unlatched (.pair x y))))

/-- The machine after reset has the canonical form. -/
def Obligations.InvariantAtReset : Prop := State.reset.Inv

/-- Every step keeps the canonical form of memory, host memory, the fibres and the cores: their entries rise strictly, and no
entry equals what an unlisted one reads as (log 3). -/
def Obligations.InvariantIsKept : Prop := ∀ s t : State, step s = .next t → s.Inv → t.Inv

/-- R38, R52, R212, R269, R274: when an instruction acts, waits or traps before its own entry's checks. Clear operands let it
act. A privileged instruction in user mode traps with cause 0x02; one that needs the anchor or another core, with cause 0x0F and
value 0; a flagged register with the flag's cause and address; and what `ready` says is how the instruction ends. That the checks of
privilege and anchor come before the waits for EMPTY registers, and these before the flags, is the model's choice (log 13). -/
def Obligations.OperandChecks : Prop :=
  ∀ (s : State) (i : Instr), i.slotKind ≠ .event →
    (s.Clear i → s.ready i = .go)
    ∧ (i.userFault = true → s.ops.f.sys = false → s.ready i = .trap 0x02 0)
    ∧ ((i.userFault = false ∨ s.ops.f.sys = true) →
      (i.anchored = true ∧ s.ops.f.anc = false ∨ ∃ r, i.role = some r ∧ coreInTile s.cur.core ≠ r) →
      s.ready i = .trap 0x0F 0)
    ∧ (∀ a ∈ i.regUse.rx, (i.userFault = true → s.ops.f.sys = true) → (i.anchored = true → s.ops.f.anc = true) →
      (∀ r, i.role = some r → coreInTile s.cur.core = r) → (∀ r ∈ i.regUse.vs, s.vClear r) →
      (∀ x ∈ i.regUse.xs, (s.ops.f.x.get x).full = true) →
      (s.ops.f.x.get a).flag ≠ .none → (∀ x ∈ i.regUse.rx, x ≠ a → (s.ops.f.x.get x).flag = .none) →
      s.ready i = .trap (s.ops.f.x.get a).flag.cause (s.ops.f.x.get a).va)
    ∧ (∀ a ∈ i.regUse.xs, (i.userFault = true → s.ops.f.sys = true) → (i.anchored = true → s.ops.f.anc = true) →
      (∀ r, i.role = some r → coreInTile s.cur.core = r) → (∀ r ∈ i.regUse.vs, s.vClear r) →
      (s.ops.f.x.get a).full = false →
      ∃ n p, s.ready i = .wait n p)
    ∧ (∀ c v, s.ready i = .trap c v →
      exec i s = .next (s.trapEntry (decide (i.slotKind = .a)) c (if c = 0x02 then s.bundleWord else v)))
    ∧ (∀ n, s.ready i = .wait n true → exec i s = .next (s.parkMe (s.waitCode n) n))
    ∧ (∀ n, s.ready i = .wait n false → exec i s = .next (s.withDisp .stalled))

/-- What an A-slot instruction leaves unchanged when it retires, where no output port is bound to the v register that it writes:
every x, v and mask register but those it writes, FSW but the flags that it can raise, the fibre's other fields and trap banks,
every other fibre and core, all of memory and the module's other state. And what a C-slot or long instruction that only writes
an x register, or only transfers control, leaves unchanged (R35, R67, R268). -/
def Obligations.RegisterFrames : Prop :=
  (∀ (s t : State) (i : Instr), s.Inv → i.slotKind = .a →
    (∀ r ∈ i.regUse.wv, ∀ p, s.portV r = some p → p.bound = false) →
    exec i s = .next t → t.cur.disp = .retired →
    (∀ j, j ∉ i.regUse.wx → t.me.x.get j = s.me.x.get j)
    ∧ (∀ r, r ∉ i.regUse.wv → t.myCore.v.get r = s.myCore.v.get r)
    ∧ (∀ m, m ∉ i.regUse.wm → t.myCore.m.get m = s.myCore.m.get m)
    ∧ (i.raisesFlags = false → t.me.fsw = s.me.fsw)
    ∧ (∀ k, 5 ≤ k → t.me.fsw.getLsbD k = s.me.fsw.getLsbD k)
    ∧ (∀ k, s.me.fsw.getLsbD k = true → t.me.fsw.getLsbD k = true)
    ∧ { t.me with x := s.me.x, fsw := s.me.fsw } = s.me
    ∧ { t.myCore with v := s.myCore.v, m := s.myCore.m } = s.myCore
    ∧ (∀ c k, fibKey c k ≠ fibKey s.cur.core s.cur.slot → t.fib c k = s.fib c k)
    ∧ (∀ c, c ≠ s.cur.core → t.core c = s.core c)
    ∧ SameModule s t)
  ∧ ∀ (s : State) (xd : XR) (v : Word) (pc : Pc), s.Inv →
    let t := (s.setX xd v).jumped pc
    let u := s.jumped pc
    t.me.x.get xd = { val := v, full := true } ∧ (∀ j, j ≠ xd → t.me.x.get j = s.me.x.get j) ∧ t.me.fsw = s.me.fsw
    ∧ t.me.pc = pc ∧ t.me.bank1 = s.me.bank1 ∧ t.me.bank2 = s.me.bank2 ∧ t.me.tid = s.me.tid ∧ t.me.save = s.me.save
    ∧ t.me.anc = s.me.anc ∧ t.cores = s.cores ∧ t.net = s.net ∧ SameModule s t
    ∧ (∀ c k, fibKey c k ≠ fibKey s.cur.core s.cur.slot → t.fib c k = s.fib c k)
    ∧ u.me.x = s.me.x ∧ u.me.fsw = s.me.fsw ∧ u.me.pc = pc ∧ u.me.bank1 = s.me.bank1 ∧ u.me.bank2 = s.me.bank2
    ∧ u.cores = s.cores ∧ u.net = s.net ∧ SameModule s u
    ∧ ∀ c k, fibKey c k ≠ fibKey s.cur.core s.cur.slot → u.fib c k = s.fib c k
end

