-- ==== Sys2Proof/Laws/AMap.lean ====
section
/-!
SUPPORT. Finite maps: reading after writing, and that every operation keeps the canonical form.
-/

namespace Sys2Proof.Machine

variable {α : Type}

/-! ## Reading after writing -/

@[simp] theorem AMap.get?_insert_self (m : AMap α) (i : Nat) (v : α) : (AMap.insert m i v).get? i = some v := by
  induction m with
  | nil => simp [AMap.insert, AMap.get?]
  | cons p m ih =>
    obtain ⟨k, w⟩ := p
    unfold AMap.insert
    split
    · simp [AMap.get?]
    · split
      · simp [AMap.get?]
      · simp only [AMap.get?]
        rw [if_neg (by assumption), if_neg (by assumption)]
        exact ih

theorem AMap.get?_insert_other (m : AMap α) (i j : Nat) (v : α) (h : j ≠ i) :
    (AMap.insert m i v).get? j = AMap.get? m j := by
  induction m with
  | nil => simp [AMap.insert, AMap.get?, h]
  | cons p m ih =>
    obtain ⟨k, w⟩ := p
    unfold AMap.insert
    split
    · simp only [AMap.get?, if_neg h]
      split
      · split
        · omega
        · rw [if_pos (by omega)]
      · rfl
    · split
      · subst_vars
        simp [AMap.get?, h]
      · simp only [AMap.get?, ih]

@[simp] theorem AMap.getD_insert_self (m : AMap α) (i : Nat) (v d : α) : (AMap.insert m i v).getD i d = v := by
  simp [AMap.getD]

theorem AMap.getD_insert_other (m : AMap α) (i j : Nat) (v d : α) (h : j ≠ i) :
    (AMap.insert m i v).getD j d = AMap.getD m j d := by
  simp [AMap.getD, AMap.get?_insert_other m i j v h]

/-- Below the first key nothing is listed. -/
theorem AMap.get?_low (b i : Nat) (m : AMap α) (h : AMap.rising (some b) m = true) (hi : i ≤ b) :
    AMap.get? m i = none := by
  cases m with
  | nil => rfl
  | cons p m =>
    obtain ⟨k, w⟩ := p
    simp only [AMap.rising, Bool.and_eq_true, decide_eq_true_eq] at h
    simp only [AMap.get?]
    rw [if_neg (by omega), if_pos (by omega)]

/-- The tail of a rising map rises above its first key. -/
theorem AMap.rising_tail (b : Option Nat) (k : Nat) (w : α) (m : AMap α)
    (h : AMap.rising b ((k, w) :: m) = true) : AMap.rising (some k) m = true := by
  cases b <;> simp_all [AMap.rising]

theorem AMap.get?_erase_self (b : Option Nat) (m : AMap α) (i : Nat) (h : AMap.rising b m = true) :
    (AMap.erase m i).get? i = none := by
  induction m generalizing b with
  | nil => rfl
  | cons p m ih =>
    obtain ⟨k, w⟩ := p
    have ht := AMap.rising_tail b k w m h
    unfold AMap.erase
    split
    · simp only [AMap.get?]
      rw [if_neg (by omega), if_pos (by omega)]
    · split
      · subst_vars
        exact AMap.get?_low k k m ht (Nat.le_refl k)
      · simp only [AMap.get?]
        rw [if_neg (by assumption), if_neg (by assumption)]
        exact ih (some k) ht

theorem AMap.get?_erase_other (b : Option Nat) (m : AMap α) (i j : Nat) (h : AMap.rising b m = true) (hj : j ≠ i) :
    (AMap.erase m i).get? j = AMap.get? m j := by
  induction m generalizing b with
  | nil => rfl
  | cons p m ih =>
    obtain ⟨k, w⟩ := p
    have ht := AMap.rising_tail b k w m h
    unfold AMap.erase
    split
    · rfl
    · split
      · subst_vars
        simp only [AMap.get?, if_neg hj]
        split
        · exact AMap.get?_low k j m ht (by omega)
        · rfl
      · simp only [AMap.get?, ih (some k) ht]

/-! ## The canonical form is kept -/

/-- Keys above a bound rise above every smaller one. -/
theorem AMap.rising_weaken (b c : Nat) (m : AMap α) (h : AMap.rising (some b) m = true) (hc : c ≤ b) :
    AMap.rising (some c) m = true := by
  cases m with
  | nil => rfl
  | cons p m =>
    obtain ⟨k, w⟩ := p
    simp only [AMap.rising, Bool.and_eq_true, decide_eq_true_eq] at h ⊢
    exact ⟨by omega, h.2⟩

theorem AMap.rising_insert_some (b : Nat) (m : AMap α) (i : Nat) (v : α) (h : AMap.rising (some b) m = true)
    (hi : b < i) : AMap.rising (some b) (AMap.insert m i v) = true := by
  induction m generalizing b with
  | nil => simp [AMap.insert, AMap.rising, hi]
  | cons p m ih =>
    obtain ⟨k, w⟩ := p
    simp only [AMap.rising, Bool.and_eq_true, decide_eq_true_eq] at h
    unfold AMap.insert
    split
    · simp only [AMap.rising, Bool.and_eq_true, decide_eq_true_eq]
      exact ⟨hi, by assumption, h.2⟩
    · split
      · subst_vars
        simp only [AMap.rising, Bool.and_eq_true, decide_eq_true_eq]
        exact ⟨hi, h.2⟩
      · simp only [AMap.rising, Bool.and_eq_true, decide_eq_true_eq]
        exact ⟨h.1, ih k h.2 (by omega)⟩

theorem AMap.rising_insert (m : AMap α) (i : Nat) (v : α) (h : AMap.rising none m = true) :
    AMap.rising none (AMap.insert m i v) = true := by
  cases m with
  | nil => rfl
  | cons p m =>
    obtain ⟨k, w⟩ := p
    simp only [AMap.rising] at h
    unfold AMap.insert
    split
    · simp only [AMap.rising, Bool.and_eq_true, decide_eq_true_eq]
      exact ⟨by assumption, h⟩
    · split
      · subst_vars
        exact h
      · exact AMap.rising_insert_some k m i v h (by omega)

theorem AMap.rising_erase_some (b : Nat) (m : AMap α) (i : Nat) (h : AMap.rising (some b) m = true) :
    AMap.rising (some b) (AMap.erase m i) = true := by
  induction m generalizing b with
  | nil => rfl
  | cons p m ih =>
    obtain ⟨k, w⟩ := p
    simp only [AMap.rising, Bool.and_eq_true, decide_eq_true_eq] at h
    unfold AMap.erase
    split
    · simp only [AMap.rising, Bool.and_eq_true, decide_eq_true_eq]
      exact h
    · split
      · exact AMap.rising_weaken k b m h.2 (by omega)
      · simp only [AMap.rising, Bool.and_eq_true, decide_eq_true_eq]
        exact ⟨h.1, ih k h.2⟩

/-- A map that rises above a bound rises. -/
theorem AMap.rising_none (b : Nat) (m : AMap α) (h : AMap.rising (some b) m = true) : AMap.rising none m = true := by
  cases m with
  | nil => rfl
  | cons p m => exact AMap.rising_tail (some b) p.1 p.2 m h

theorem AMap.rising_erase (m : AMap α) (i : Nat) (h : AMap.rising none m = true) :
    AMap.rising none (AMap.erase m i) = true := by
  cases m with
  | nil => rfl
  | cons p m =>
    obtain ⟨k, w⟩ := p
    simp only [AMap.rising] at h
    unfold AMap.erase
    split
    · exact h
    · split
      · exact AMap.rising_none k m h
      · exact AMap.rising_erase_some k m i h

/-- Entries that stand after an insertion stood before it, or are the one inserted. -/
theorem AMap.mem_insert (m : AMap α) (i : Nat) (v : α) (p : Nat × α) (h : p ∈ AMap.insert m i v) :
    p = (i, v) ∨ p ∈ m := by
  induction m with
  | nil => simpa [AMap.insert] using h
  | cons q m ih =>
    obtain ⟨k, w⟩ := q
    unfold AMap.insert at h
    split at h
    · simpa using h
    · split at h
      · rcases List.mem_cons.1 h with h | h
        · exact .inl h
        · exact .inr (List.mem_cons_of_mem _ h)
      · rcases List.mem_cons.1 h with h | h
        · exact .inr (h ▸ List.mem_cons_self)
        · rcases ih h with h | h
          · exact .inl h
          · exact .inr (List.mem_cons_of_mem _ h)

/-- Entries that stand after a removal stood before it. -/
theorem AMap.mem_erase (m : AMap α) (i : Nat) (p : Nat × α) (h : p ∈ AMap.erase m i) : p ∈ m := by
  induction m with
  | nil => simp [AMap.erase] at h
  | cons q m ih =>
    obtain ⟨k, w⟩ := q
    unfold AMap.erase at h
    split at h
    · exact h
    · split at h
      · exact List.mem_cons_of_mem _ h
      · rcases List.mem_cons.1 h with h | h
        · exact h ▸ List.mem_cons_self
        · exact List.mem_cons_of_mem _ (ih h)

/-- Removing entries keeps the keys rising. -/
theorem AMap.rising_filter_some (b : Nat) (m : AMap α) (f : Nat × α → Bool) (h : AMap.rising (some b) m = true) :
    AMap.rising (some b) (m.filter f) = true := by
  induction m generalizing b with
  | nil => rfl
  | cons p m ih =>
    obtain ⟨k, w⟩ := p
    simp only [AMap.rising, Bool.and_eq_true, decide_eq_true_eq] at h
    rw [List.filter_cons]
    split
    · simp only [AMap.rising, Bool.and_eq_true, decide_eq_true_eq]
      exact ⟨h.1, ih k h.2⟩
    · exact ih b (AMap.rising_weaken k b m h.2 (by omega))

variable [DecidableEq α]

/-- Writing keeps the canonical form. -/
theorem AMap.wf_setD (d : α) (m : AMap α) (i : Nat) (v : α) (h : AMap.wf d m = true) :
    AMap.wf d (AMap.setD m i v d) = true := by
  simp only [AMap.wf, Bool.and_eq_true, List.all_eq_true, decide_eq_true_eq] at h ⊢
  unfold AMap.setD
  split
  · exact ⟨AMap.rising_erase m i h.1, fun p hp => h.2 p (AMap.mem_erase m i p hp)⟩
  · refine ⟨AMap.rising_insert m i v h.1, fun p hp => ?_⟩
    rcases AMap.mem_insert m i v p hp with rfl | hp
    · assumption
    · exact h.2 p hp

/-- Removing entries keeps the canonical form. -/
theorem AMap.wf_filter (d : α) (m : AMap α) (f : Nat × α → Bool) (h : AMap.wf d m = true) :
    AMap.wf d (m.filter f) = true := by
  simp only [AMap.wf, Bool.and_eq_true, List.all_eq_true, decide_eq_true_eq] at h ⊢
  refine ⟨?_, fun p hp => h.2 p ((List.mem_filter.1 hp).1)⟩
  cases m with
  | nil => rfl
  | cons p m =>
    obtain ⟨k, w⟩ := p
    have h1 : AMap.rising (some k) m = true := h.1
    rw [List.filter_cons]
    split
    · exact AMap.rising_filter_some k m f h1
    · exact AMap.rising_none k _ (AMap.rising_filter_some k m f h1)

theorem AMap.getD_setD_self (d : α) (m : AMap α) (i : Nat) (v : α) (h : AMap.wf d m = true) :
    (AMap.setD m i v d).getD i d = v := by
  simp only [AMap.wf, Bool.and_eq_true] at h
  unfold AMap.setD
  split
  · simp [AMap.getD, AMap.get?_erase_self none m i h.1, *]
  · simp

theorem AMap.getD_setD_other (d : α) (m : AMap α) (i j : Nat) (v : α) (h : AMap.wf d m = true) (hj : j ≠ i) :
    (AMap.setD m i v d).getD j d = AMap.getD m j d := by
  simp only [AMap.wf, Bool.and_eq_true] at h
  unfold AMap.setD
  split
  · simp [AMap.getD, AMap.get?_erase_other none m i j h.1 hj]
  · exact AMap.getD_insert_other m i j v d hj

/-- A value that is not the default is read back whatever the map's form. -/
theorem AMap.getD_setD_ne (d : α) (m : AMap α) (i : Nat) (v : α) (hv : v ≠ d) : (AMap.setD m i v d).getD i d = v := by
  simp [AMap.setD, hv]

end Sys2Proof.Machine
end

