-- ==== Sys2Proof/Laws/Ecc.lean ====
section
/-!
SUPPORT. The check bits that stand beside an atom or a vault word show the syndrome that the state keeps (R88, R92, R172, R173).
-/

namespace Sys2Proof.Machine

theorem parityOf_lt (n w : Nat) : parityOf n w < 2 := Nat.mod_lt _ (by decide)

theorem parityOf_congr {n v w : Nat} (h : ∀ i < n, v.testBit i = w.testBit i) : parityOf n v = parityOf n w := by
  unfold parityOf
  rw [List.filter_congr fun i hi => h i (List.mem_range.1 hi)]

theorem parityOf_succ (n w : Nat) : parityOf (n + 1) w = (parityOf n w + (w.testBit n).toNat) % 2 := by
  unfold parityOf
  rw [List.range_succ, List.filter_append, List.length_append]
  cases h : w.testBit n <;> simp [h]

/-- Reading back check bits shows the syndrome for which they were made. -/
theorem codeSyndrome_codeCheck (k n w x : Nat) : codeSyndrome k n w (codeCheck k n w x) = x % 2 ^ (k + 1) := by
  simp only [codeSyndrome, codeCheck]
  generalize hh : (codeXor n w ^^^ x) % 2 ^ k = h
  have hlt : h < 2 ^ k := hh ▸ Nat.mod_lt _ (Nat.two_pow_pos k)
  generalize hp : (parityOf n w + parityOf k h + x / 2 ^ k) % 2 = p
  have hp2 : p < 2 := hp ▸ Nat.mod_lt _ (by decide)
  have hc : parityOf (k + 1) (h + 2 ^ k * p) = (parityOf k h + p) % 2 := by
    rw [parityOf_succ, parityOf_congr (w := h) fun i hi => ?_]
    · have : (h + 2 ^ k * p).testBit k = decide (p = 1) := by
        rw [Nat.add_comm, Nat.testBit_two_pow_mul_add _ hlt]
        rcases (by omega : p = 0 ∨ p = 1) with rfl | rfl <;> simp
      rw [this]
      rcases (by omega : p = 0 ∨ p = 1) with rfl | rfl <;> simp
    · rw [Nat.add_comm, Nat.testBit_two_pow_mul_add _ hlt]
      simp [hi]
  have hlow : (h + 2 ^ k * p ^^^ codeXor n w) % 2 ^ k = x % 2 ^ k := by
    rw [Nat.xor_mod_two_pow, Nat.add_mul_mod_self_left, Nat.mod_eq_of_lt hlt, ← hh, ← Nat.xor_mod_two_pow,
      Nat.xor_comm (codeXor n w) x, Nat.xor_assoc, Nat.xor_self, Nat.xor_zero]
  rw [hlow, hc, Nat.mod_pow_succ]
  congr 2
  omega

/-- The check bits beside an atom or a word show its syndrome. -/
theorem State.syndrome_checkBits (s : State) (a : Nat) :
    (if isVault a then codeSyndrome 7 95 (s.protected_ a) (s.checkBits a) else codeSyndrome 9 262 (s.protected_ a) (s.checkBits a))
      = s.syndrome a % 2 ^ (if isVault a then 8 else 10) := by
  unfold State.checkBits
  split <;> exact codeSyndrome_codeCheck ..

end Sys2Proof.Machine
end

