-- ==== Sys2Proof/Laws/State.lean ====
section
/-!
SUPPORT. What the updates of the state leave as it was: one lemma for each field and each update, and what the fields
that an update writes then hold.
-/

namespace Sys2Proof.Machine

/-! ## State.withDisp -/

@[simp] theorem State.withDisp_plan (s : State) (d : Disp) : (s.withDisp d).plan = s.plan := rfl
@[simp] theorem State.withDisp_fresh (s : State) (d : Disp) : (s.withDisp d).fresh = s.fresh := rfl
@[simp] theorem State.withDisp_clk (s : State) (d : Disp) : (s.withDisp d).clk = s.clk := rfl
@[simp] theorem State.withDisp_net (s : State) (d : Disp) : (s.withDisp d).net = s.net := rfl
@[simp] theorem State.withDisp_nextId (s : State) (d : Disp) : (s.withDisp d).nextId = s.nextId := rfl
@[simp] theorem State.withDisp_fibres (s : State) (d : Disp) : (s.withDisp d).fibres = s.fibres := rfl
@[simp] theorem State.withDisp_cores (s : State) (d : Disp) : (s.withDisp d).cores = s.cores := rfl
@[simp] theorem State.withDisp_regs (s : State) (d : Disp) : (s.withDisp d).regs = s.regs := rfl
@[simp] theorem State.withDisp_mem (s : State) (d : Disp) : (s.withDisp d).mem = s.mem := rfl
@[simp] theorem State.withDisp_bmeta (s : State) (d : Disp) : (s.withDisp d).bmeta = s.bmeta := rfl
@[simp] theorem State.withDisp_synd (s : State) (d : Disp) : (s.withDisp d).synd = s.synd := rfl
@[simp] theorem State.withDisp_vsynd (s : State) (d : Disp) : (s.withDisp d).vsynd = s.vsynd := rfl
@[simp] theorem State.withDisp_badMeta (s : State) (d : Disp) : (s.withDisp d).badMeta = s.badMeta := rfl
@[simp] theorem State.withDisp_redir (s : State) (d : Disp) : (s.withDisp d).redir = s.redir := rfl
@[simp] theorem State.withDisp_rowCnt (s : State) (d : Disp) : (s.withDisp d).rowCnt = s.rowCnt := rfl
@[simp] theorem State.withDisp_rowFail (s : State) (d : Disp) : (s.withDisp d).rowFail = s.rowFail := rfl
@[simp] theorem State.withDisp_l2 (s : State) (d : Disp) : (s.withDisp d).l2 = s.l2 := rfl
@[simp] theorem State.withDisp_tlbs (s : State) (d : Disp) : (s.withDisp d).tlbs = s.tlbs := rfl
@[simp] theorem State.withDisp_walks (s : State) (d : Disp) : (s.withDisp d).walks = s.walks := rfl
@[simp] theorem State.withDisp_groups (s : State) (d : Disp) : (s.withDisp d).groups = s.groups := rfl
@[simp] theorem State.withDisp_heldWakes (s : State) (d : Disp) : (s.withDisp d).heldWakes = s.heldWakes := rfl
@[simp] theorem State.withDisp_inst (s : State) (d : Disp) : (s.withDisp d).inst = s.inst := rfl
@[simp] theorem State.withDisp_hostMem (s : State) (d : Disp) : (s.withDisp d).hostMem = s.hostMem := rfl
@[simp] theorem State.withDisp_kills (s : State) (d : Disp) : (s.withDisp d).kills = s.kills := rfl
@[simp] theorem State.withDisp_lark (s : State) (d : Disp) : (s.withDisp d).lark = s.lark := rfl
@[simp] theorem State.withDisp_errLost (s : State) (d : Disp) : (s.withDisp d).errLost = s.errLost := rfl
@[simp] theorem State.withDisp_errHeld (s : State) (d : Disp) : (s.withDisp d).errHeld = s.errHeld := rfl
@[simp] theorem State.withDisp_trace (s : State) (d : Disp) : (s.withDisp d).trace = s.trace := rfl
@[simp] theorem State.withDisp_tiles (s : State) (d : Disp) : (s.withDisp d).tiles = s.tiles := rfl
@[simp] theorem State.withDisp_routers (s : State) (d : Disp) : (s.withDisp d).routers = s.routers := rfl
@[simp] theorem State.withDisp_routines (s : State) (d : Disp) : (s.withDisp d).routines = s.routines := rfl
@[simp] theorem State.withDisp_dloading (s : State) (d : Disp) : (s.withDisp d).dloading = s.dloading := rfl
@[simp] theorem State.withDisp_pool (s : State) (d : Disp) : (s.withDisp d).pool = s.pool := rfl
@[simp] theorem State.withDisp_poolResv (s : State) (d : Disp) : (s.withDisp d).poolResv = s.poolResv := rfl
@[simp] theorem State.withDisp_launches (s : State) (d : Disp) : (s.withDisp d).launches = s.launches := rfl
@[simp] theorem State.withDisp_arb (s : State) (d : Disp) : (s.withDisp d).arb = s.arb := rfl
@[simp] theorem State.withDisp_roots (s : State) (d : Disp) : (s.withDisp d).roots = s.roots := rfl
@[simp] theorem State.withDisp_evicted (s : State) (d : Disp) : (s.withDisp d).evicted = s.evicted := rfl
@[simp] theorem State.withDisp_incoming (s : State) (d : Disp) : (s.withDisp d).incoming = s.incoming := rfl
@[simp] theorem State.withDisp_asleep (s : State) (d : Disp) : (s.withDisp d).asleep = s.asleep := rfl
@[simp] theorem State.withDisp_saving (s : State) (d : Disp) : (s.withDisp d).saving = s.saving := rfl
@[simp] theorem State.withDisp_thermal (s : State) (d : Disp) : (s.withDisp d).thermal = s.thermal := rfl
@[simp] theorem State.withDisp_saved (s : State) (d : Disp) : (s.withDisp d).saved = s.saved := rfl
@[simp] theorem State.withDisp_hcb (s : State) (d : Disp) : (s.withDisp d).hcb = s.hcb := rfl
@[simp] theorem State.withDisp_toHost (s : State) (d : Disp) : (s.withDisp d).toHost = s.toHost := rfl
@[simp] theorem State.withDisp_hostHeld (s : State) (d : Disp) : (s.withDisp d).hostHeld = s.hostHeld := rfl
@[simp] theorem State.withDisp_hostReqs (s : State) (d : Disp) : (s.withDisp d).hostReqs = s.hostReqs := rfl
@[simp] theorem State.withDisp_patrol (s : State) (d : Disp) : (s.withDisp d).patrol = s.patrol := rfl
@[simp] theorem State.withDisp_vpatrol (s : State) (d : Disp) : (s.withDisp d).vpatrol = s.vpatrol := rfl
@[simp] theorem State.withDisp_spares (s : State) (d : Disp) : (s.withDisp d).spares = s.spares := rfl
@[simp] theorem State.withDisp_rowsUsed (s : State) (d : Disp) : (s.withDisp d).rowsUsed = s.rowsUsed := rfl
@[simp] theorem State.withDisp_remapUsed (s : State) (d : Disp) : (s.withDisp d).remapUsed = s.remapUsed := rfl
@[simp] theorem State.withDisp_retirePend (s : State) (d : Disp) : (s.withDisp d).retirePend = s.retirePend := rfl
@[simp] theorem State.withDisp_move (s : State) (d : Disp) : (s.withDisp d).move = s.move := rfl
@[simp] theorem State.withDisp_summary (s : State) (d : Disp) : (s.withDisp d).summary = s.summary := rfl
@[simp] theorem State.withDisp_report (s : State) (d : Disp) : (s.withDisp d).report = s.report := rfl
@[simp] theorem State.withDisp_fwVersion (s : State) (d : Disp) : (s.withDisp d).fwVersion = s.fwVersion := rfl
@[simp] theorem State.withDisp_minSvn (s : State) (d : Disp) : (s.withDisp d).minSvn = s.minSvn := rfl
@[simp] theorem State.withDisp_links (s : State) (d : Disp) : (s.withDisp d).links = s.links := rfl
@[simp] theorem State.withDisp_past (s : State) (d : Disp) : (s.withDisp d).past = s.past := rfl
@[simp] theorem State.withDisp_quietAt (s : State) (d : Disp) : (s.withDisp d).quietAt = s.quietAt := rfl
@[simp] theorem State.withDisp_stops (s : State) (d : Disp) : (s.withDisp d).stops = s.stops := rfl

/-! ## State.setFib -/

@[simp] theorem State.setFib_plan (s : State) (c k : Nat) (f : Fibre) : (s.setFib c k f).plan = s.plan := rfl
@[simp] theorem State.setFib_cur (s : State) (c k : Nat) (f : Fibre) : (s.setFib c k f).cur = s.cur := rfl
@[simp] theorem State.setFib_fresh (s : State) (c k : Nat) (f : Fibre) : (s.setFib c k f).fresh = s.fresh := rfl
@[simp] theorem State.setFib_clk (s : State) (c k : Nat) (f : Fibre) : (s.setFib c k f).clk = s.clk := rfl
@[simp] theorem State.setFib_net (s : State) (c k : Nat) (f : Fibre) : (s.setFib c k f).net = s.net := rfl
@[simp] theorem State.setFib_nextId (s : State) (c k : Nat) (f : Fibre) : (s.setFib c k f).nextId = s.nextId := rfl
@[simp] theorem State.setFib_cores (s : State) (c k : Nat) (f : Fibre) : (s.setFib c k f).cores = s.cores := rfl
@[simp] theorem State.setFib_regs (s : State) (c k : Nat) (f : Fibre) : (s.setFib c k f).regs = s.regs := rfl
@[simp] theorem State.setFib_mem (s : State) (c k : Nat) (f : Fibre) : (s.setFib c k f).mem = s.mem := rfl
@[simp] theorem State.setFib_bmeta (s : State) (c k : Nat) (f : Fibre) : (s.setFib c k f).bmeta = s.bmeta := rfl
@[simp] theorem State.setFib_synd (s : State) (c k : Nat) (f : Fibre) : (s.setFib c k f).synd = s.synd := rfl
@[simp] theorem State.setFib_vsynd (s : State) (c k : Nat) (f : Fibre) : (s.setFib c k f).vsynd = s.vsynd := rfl
@[simp] theorem State.setFib_badMeta (s : State) (c k : Nat) (f : Fibre) : (s.setFib c k f).badMeta = s.badMeta := rfl
@[simp] theorem State.setFib_redir (s : State) (c k : Nat) (f : Fibre) : (s.setFib c k f).redir = s.redir := rfl
@[simp] theorem State.setFib_rowCnt (s : State) (c k : Nat) (f : Fibre) : (s.setFib c k f).rowCnt = s.rowCnt := rfl
@[simp] theorem State.setFib_rowFail (s : State) (c k : Nat) (f : Fibre) : (s.setFib c k f).rowFail = s.rowFail := rfl
@[simp] theorem State.setFib_l2 (s : State) (c k : Nat) (f : Fibre) : (s.setFib c k f).l2 = s.l2 := rfl
@[simp] theorem State.setFib_tlbs (s : State) (c k : Nat) (f : Fibre) : (s.setFib c k f).tlbs = s.tlbs := rfl
@[simp] theorem State.setFib_walks (s : State) (c k : Nat) (f : Fibre) : (s.setFib c k f).walks = s.walks := rfl
@[simp] theorem State.setFib_groups (s : State) (c k : Nat) (f : Fibre) : (s.setFib c k f).groups = s.groups := rfl
@[simp] theorem State.setFib_heldWakes (s : State) (c k : Nat) (f : Fibre) : (s.setFib c k f).heldWakes = s.heldWakes := rfl
@[simp] theorem State.setFib_inst (s : State) (c k : Nat) (f : Fibre) : (s.setFib c k f).inst = s.inst := rfl
@[simp] theorem State.setFib_hostMem (s : State) (c k : Nat) (f : Fibre) : (s.setFib c k f).hostMem = s.hostMem := rfl
@[simp] theorem State.setFib_kills (s : State) (c k : Nat) (f : Fibre) : (s.setFib c k f).kills = s.kills := rfl
@[simp] theorem State.setFib_lark (s : State) (c k : Nat) (f : Fibre) : (s.setFib c k f).lark = s.lark := rfl
@[simp] theorem State.setFib_errLost (s : State) (c k : Nat) (f : Fibre) : (s.setFib c k f).errLost = s.errLost := rfl
@[simp] theorem State.setFib_errHeld (s : State) (c k : Nat) (f : Fibre) : (s.setFib c k f).errHeld = s.errHeld := rfl
@[simp] theorem State.setFib_trace (s : State) (c k : Nat) (f : Fibre) : (s.setFib c k f).trace = s.trace := rfl
@[simp] theorem State.setFib_tiles (s : State) (c k : Nat) (f : Fibre) : (s.setFib c k f).tiles = s.tiles := rfl
@[simp] theorem State.setFib_routers (s : State) (c k : Nat) (f : Fibre) : (s.setFib c k f).routers = s.routers := rfl
@[simp] theorem State.setFib_routines (s : State) (c k : Nat) (f : Fibre) : (s.setFib c k f).routines = s.routines := rfl
@[simp] theorem State.setFib_dloading (s : State) (c k : Nat) (f : Fibre) : (s.setFib c k f).dloading = s.dloading := rfl
@[simp] theorem State.setFib_pool (s : State) (c k : Nat) (f : Fibre) : (s.setFib c k f).pool = s.pool := rfl
@[simp] theorem State.setFib_poolResv (s : State) (c k : Nat) (f : Fibre) : (s.setFib c k f).poolResv = s.poolResv := rfl
@[simp] theorem State.setFib_launches (s : State) (c k : Nat) (f : Fibre) : (s.setFib c k f).launches = s.launches := rfl
@[simp] theorem State.setFib_arb (s : State) (c k : Nat) (f : Fibre) : (s.setFib c k f).arb = s.arb := rfl
@[simp] theorem State.setFib_roots (s : State) (c k : Nat) (f : Fibre) : (s.setFib c k f).roots = s.roots := rfl
@[simp] theorem State.setFib_evicted (s : State) (c k : Nat) (f : Fibre) : (s.setFib c k f).evicted = s.evicted := rfl
@[simp] theorem State.setFib_incoming (s : State) (c k : Nat) (f : Fibre) : (s.setFib c k f).incoming = s.incoming := rfl
@[simp] theorem State.setFib_asleep (s : State) (c k : Nat) (f : Fibre) : (s.setFib c k f).asleep = s.asleep := rfl
@[simp] theorem State.setFib_saving (s : State) (c k : Nat) (f : Fibre) : (s.setFib c k f).saving = s.saving := rfl
@[simp] theorem State.setFib_thermal (s : State) (c k : Nat) (f : Fibre) : (s.setFib c k f).thermal = s.thermal := rfl
@[simp] theorem State.setFib_saved (s : State) (c k : Nat) (f : Fibre) : (s.setFib c k f).saved = s.saved := rfl
@[simp] theorem State.setFib_hcb (s : State) (c k : Nat) (f : Fibre) : (s.setFib c k f).hcb = s.hcb := rfl
@[simp] theorem State.setFib_toHost (s : State) (c k : Nat) (f : Fibre) : (s.setFib c k f).toHost = s.toHost := rfl
@[simp] theorem State.setFib_hostHeld (s : State) (c k : Nat) (f : Fibre) : (s.setFib c k f).hostHeld = s.hostHeld := rfl
@[simp] theorem State.setFib_hostReqs (s : State) (c k : Nat) (f : Fibre) : (s.setFib c k f).hostReqs = s.hostReqs := rfl
@[simp] theorem State.setFib_patrol (s : State) (c k : Nat) (f : Fibre) : (s.setFib c k f).patrol = s.patrol := rfl
@[simp] theorem State.setFib_vpatrol (s : State) (c k : Nat) (f : Fibre) : (s.setFib c k f).vpatrol = s.vpatrol := rfl
@[simp] theorem State.setFib_spares (s : State) (c k : Nat) (f : Fibre) : (s.setFib c k f).spares = s.spares := rfl
@[simp] theorem State.setFib_rowsUsed (s : State) (c k : Nat) (f : Fibre) : (s.setFib c k f).rowsUsed = s.rowsUsed := rfl
@[simp] theorem State.setFib_remapUsed (s : State) (c k : Nat) (f : Fibre) : (s.setFib c k f).remapUsed = s.remapUsed := rfl
@[simp] theorem State.setFib_retirePend (s : State) (c k : Nat) (f : Fibre) : (s.setFib c k f).retirePend = s.retirePend := rfl
@[simp] theorem State.setFib_move (s : State) (c k : Nat) (f : Fibre) : (s.setFib c k f).move = s.move := rfl
@[simp] theorem State.setFib_summary (s : State) (c k : Nat) (f : Fibre) : (s.setFib c k f).summary = s.summary := rfl
@[simp] theorem State.setFib_report (s : State) (c k : Nat) (f : Fibre) : (s.setFib c k f).report = s.report := rfl
@[simp] theorem State.setFib_fwVersion (s : State) (c k : Nat) (f : Fibre) : (s.setFib c k f).fwVersion = s.fwVersion := rfl
@[simp] theorem State.setFib_minSvn (s : State) (c k : Nat) (f : Fibre) : (s.setFib c k f).minSvn = s.minSvn := rfl
@[simp] theorem State.setFib_links (s : State) (c k : Nat) (f : Fibre) : (s.setFib c k f).links = s.links := rfl
@[simp] theorem State.setFib_past (s : State) (c k : Nat) (f : Fibre) : (s.setFib c k f).past = s.past := rfl
@[simp] theorem State.setFib_quietAt (s : State) (c k : Nat) (f : Fibre) : (s.setFib c k f).quietAt = s.quietAt := rfl
@[simp] theorem State.setFib_stops (s : State) (c k : Nat) (f : Fibre) : (s.setFib c k f).stops = s.stops := rfl

/-! ## State.setCore -/

@[simp] theorem State.setCore_plan (s : State) (c : Nat) (r : Core) : (s.setCore c r).plan = s.plan := rfl
@[simp] theorem State.setCore_cur (s : State) (c : Nat) (r : Core) : (s.setCore c r).cur = s.cur := rfl
@[simp] theorem State.setCore_fresh (s : State) (c : Nat) (r : Core) : (s.setCore c r).fresh = s.fresh := rfl
@[simp] theorem State.setCore_clk (s : State) (c : Nat) (r : Core) : (s.setCore c r).clk = s.clk := rfl
@[simp] theorem State.setCore_net (s : State) (c : Nat) (r : Core) : (s.setCore c r).net = s.net := rfl
@[simp] theorem State.setCore_nextId (s : State) (c : Nat) (r : Core) : (s.setCore c r).nextId = s.nextId := rfl
@[simp] theorem State.setCore_fibres (s : State) (c : Nat) (r : Core) : (s.setCore c r).fibres = s.fibres := rfl
@[simp] theorem State.setCore_regs (s : State) (c : Nat) (r : Core) : (s.setCore c r).regs = s.regs := rfl
@[simp] theorem State.setCore_mem (s : State) (c : Nat) (r : Core) : (s.setCore c r).mem = s.mem := rfl
@[simp] theorem State.setCore_bmeta (s : State) (c : Nat) (r : Core) : (s.setCore c r).bmeta = s.bmeta := rfl
@[simp] theorem State.setCore_synd (s : State) (c : Nat) (r : Core) : (s.setCore c r).synd = s.synd := rfl
@[simp] theorem State.setCore_vsynd (s : State) (c : Nat) (r : Core) : (s.setCore c r).vsynd = s.vsynd := rfl
@[simp] theorem State.setCore_badMeta (s : State) (c : Nat) (r : Core) : (s.setCore c r).badMeta = s.badMeta := rfl
@[simp] theorem State.setCore_redir (s : State) (c : Nat) (r : Core) : (s.setCore c r).redir = s.redir := rfl
@[simp] theorem State.setCore_rowCnt (s : State) (c : Nat) (r : Core) : (s.setCore c r).rowCnt = s.rowCnt := rfl
@[simp] theorem State.setCore_rowFail (s : State) (c : Nat) (r : Core) : (s.setCore c r).rowFail = s.rowFail := rfl
@[simp] theorem State.setCore_l2 (s : State) (c : Nat) (r : Core) : (s.setCore c r).l2 = s.l2 := rfl
@[simp] theorem State.setCore_tlbs (s : State) (c : Nat) (r : Core) : (s.setCore c r).tlbs = s.tlbs := rfl
@[simp] theorem State.setCore_walks (s : State) (c : Nat) (r : Core) : (s.setCore c r).walks = s.walks := rfl
@[simp] theorem State.setCore_groups (s : State) (c : Nat) (r : Core) : (s.setCore c r).groups = s.groups := rfl
@[simp] theorem State.setCore_heldWakes (s : State) (c : Nat) (r : Core) : (s.setCore c r).heldWakes = s.heldWakes := rfl
@[simp] theorem State.setCore_inst (s : State) (c : Nat) (r : Core) : (s.setCore c r).inst = s.inst := rfl
@[simp] theorem State.setCore_hostMem (s : State) (c : Nat) (r : Core) : (s.setCore c r).hostMem = s.hostMem := rfl
@[simp] theorem State.setCore_kills (s : State) (c : Nat) (r : Core) : (s.setCore c r).kills = s.kills := rfl
@[simp] theorem State.setCore_lark (s : State) (c : Nat) (r : Core) : (s.setCore c r).lark = s.lark := rfl
@[simp] theorem State.setCore_errLost (s : State) (c : Nat) (r : Core) : (s.setCore c r).errLost = s.errLost := rfl
@[simp] theorem State.setCore_errHeld (s : State) (c : Nat) (r : Core) : (s.setCore c r).errHeld = s.errHeld := rfl
@[simp] theorem State.setCore_trace (s : State) (c : Nat) (r : Core) : (s.setCore c r).trace = s.trace := rfl
@[simp] theorem State.setCore_tiles (s : State) (c : Nat) (r : Core) : (s.setCore c r).tiles = s.tiles := rfl
@[simp] theorem State.setCore_routers (s : State) (c : Nat) (r : Core) : (s.setCore c r).routers = s.routers := rfl
@[simp] theorem State.setCore_routines (s : State) (c : Nat) (r : Core) : (s.setCore c r).routines = s.routines := rfl
@[simp] theorem State.setCore_dloading (s : State) (c : Nat) (r : Core) : (s.setCore c r).dloading = s.dloading := rfl
@[simp] theorem State.setCore_pool (s : State) (c : Nat) (r : Core) : (s.setCore c r).pool = s.pool := rfl
@[simp] theorem State.setCore_poolResv (s : State) (c : Nat) (r : Core) : (s.setCore c r).poolResv = s.poolResv := rfl
@[simp] theorem State.setCore_launches (s : State) (c : Nat) (r : Core) : (s.setCore c r).launches = s.launches := rfl
@[simp] theorem State.setCore_arb (s : State) (c : Nat) (r : Core) : (s.setCore c r).arb = s.arb := rfl
@[simp] theorem State.setCore_roots (s : State) (c : Nat) (r : Core) : (s.setCore c r).roots = s.roots := rfl
@[simp] theorem State.setCore_evicted (s : State) (c : Nat) (r : Core) : (s.setCore c r).evicted = s.evicted := rfl
@[simp] theorem State.setCore_incoming (s : State) (c : Nat) (r : Core) : (s.setCore c r).incoming = s.incoming := rfl
@[simp] theorem State.setCore_asleep (s : State) (c : Nat) (r : Core) : (s.setCore c r).asleep = s.asleep := rfl
@[simp] theorem State.setCore_saving (s : State) (c : Nat) (r : Core) : (s.setCore c r).saving = s.saving := rfl
@[simp] theorem State.setCore_thermal (s : State) (c : Nat) (r : Core) : (s.setCore c r).thermal = s.thermal := rfl
@[simp] theorem State.setCore_saved (s : State) (c : Nat) (r : Core) : (s.setCore c r).saved = s.saved := rfl
@[simp] theorem State.setCore_hcb (s : State) (c : Nat) (r : Core) : (s.setCore c r).hcb = s.hcb := rfl
@[simp] theorem State.setCore_toHost (s : State) (c : Nat) (r : Core) : (s.setCore c r).toHost = s.toHost := rfl
@[simp] theorem State.setCore_hostHeld (s : State) (c : Nat) (r : Core) : (s.setCore c r).hostHeld = s.hostHeld := rfl
@[simp] theorem State.setCore_hostReqs (s : State) (c : Nat) (r : Core) : (s.setCore c r).hostReqs = s.hostReqs := rfl
@[simp] theorem State.setCore_patrol (s : State) (c : Nat) (r : Core) : (s.setCore c r).patrol = s.patrol := rfl
@[simp] theorem State.setCore_vpatrol (s : State) (c : Nat) (r : Core) : (s.setCore c r).vpatrol = s.vpatrol := rfl
@[simp] theorem State.setCore_spares (s : State) (c : Nat) (r : Core) : (s.setCore c r).spares = s.spares := rfl
@[simp] theorem State.setCore_rowsUsed (s : State) (c : Nat) (r : Core) : (s.setCore c r).rowsUsed = s.rowsUsed := rfl
@[simp] theorem State.setCore_remapUsed (s : State) (c : Nat) (r : Core) : (s.setCore c r).remapUsed = s.remapUsed := rfl
@[simp] theorem State.setCore_retirePend (s : State) (c : Nat) (r : Core) : (s.setCore c r).retirePend = s.retirePend := rfl
@[simp] theorem State.setCore_move (s : State) (c : Nat) (r : Core) : (s.setCore c r).move = s.move := rfl
@[simp] theorem State.setCore_summary (s : State) (c : Nat) (r : Core) : (s.setCore c r).summary = s.summary := rfl
@[simp] theorem State.setCore_report (s : State) (c : Nat) (r : Core) : (s.setCore c r).report = s.report := rfl
@[simp] theorem State.setCore_fwVersion (s : State) (c : Nat) (r : Core) : (s.setCore c r).fwVersion = s.fwVersion := rfl
@[simp] theorem State.setCore_minSvn (s : State) (c : Nat) (r : Core) : (s.setCore c r).minSvn = s.minSvn := rfl
@[simp] theorem State.setCore_links (s : State) (c : Nat) (r : Core) : (s.setCore c r).links = s.links := rfl
@[simp] theorem State.setCore_past (s : State) (c : Nat) (r : Core) : (s.setCore c r).past = s.past := rfl
@[simp] theorem State.setCore_quietAt (s : State) (c : Nat) (r : Core) : (s.setCore c r).quietAt = s.quietAt := rfl
@[simp] theorem State.setCore_stops (s : State) (c : Nat) (r : Core) : (s.setCore c r).stops = s.stops := rfl

/-! ## State.putMsg -/

@[simp] theorem State.putMsg_plan (s : State) (k : Nat) (m : Msg) : (s.putMsg k m).plan = s.plan := rfl
@[simp] theorem State.putMsg_cur (s : State) (k : Nat) (m : Msg) : (s.putMsg k m).cur = s.cur := rfl
@[simp] theorem State.putMsg_fresh (s : State) (k : Nat) (m : Msg) : (s.putMsg k m).fresh = s.fresh := rfl
@[simp] theorem State.putMsg_clk (s : State) (k : Nat) (m : Msg) : (s.putMsg k m).clk = s.clk := rfl
@[simp] theorem State.putMsg_nextId (s : State) (k : Nat) (m : Msg) : (s.putMsg k m).nextId = s.nextId := rfl
@[simp] theorem State.putMsg_fibres (s : State) (k : Nat) (m : Msg) : (s.putMsg k m).fibres = s.fibres := rfl
@[simp] theorem State.putMsg_cores (s : State) (k : Nat) (m : Msg) : (s.putMsg k m).cores = s.cores := rfl
@[simp] theorem State.putMsg_regs (s : State) (k : Nat) (m : Msg) : (s.putMsg k m).regs = s.regs := rfl
@[simp] theorem State.putMsg_mem (s : State) (k : Nat) (m : Msg) : (s.putMsg k m).mem = s.mem := rfl
@[simp] theorem State.putMsg_bmeta (s : State) (k : Nat) (m : Msg) : (s.putMsg k m).bmeta = s.bmeta := rfl
@[simp] theorem State.putMsg_synd (s : State) (k : Nat) (m : Msg) : (s.putMsg k m).synd = s.synd := rfl
@[simp] theorem State.putMsg_vsynd (s : State) (k : Nat) (m : Msg) : (s.putMsg k m).vsynd = s.vsynd := rfl
@[simp] theorem State.putMsg_badMeta (s : State) (k : Nat) (m : Msg) : (s.putMsg k m).badMeta = s.badMeta := rfl
@[simp] theorem State.putMsg_redir (s : State) (k : Nat) (m : Msg) : (s.putMsg k m).redir = s.redir := rfl
@[simp] theorem State.putMsg_rowCnt (s : State) (k : Nat) (m : Msg) : (s.putMsg k m).rowCnt = s.rowCnt := rfl
@[simp] theorem State.putMsg_rowFail (s : State) (k : Nat) (m : Msg) : (s.putMsg k m).rowFail = s.rowFail := rfl
@[simp] theorem State.putMsg_l2 (s : State) (k : Nat) (m : Msg) : (s.putMsg k m).l2 = s.l2 := rfl
@[simp] theorem State.putMsg_tlbs (s : State) (k : Nat) (m : Msg) : (s.putMsg k m).tlbs = s.tlbs := rfl
@[simp] theorem State.putMsg_walks (s : State) (k : Nat) (m : Msg) : (s.putMsg k m).walks = s.walks := rfl
@[simp] theorem State.putMsg_groups (s : State) (k : Nat) (m : Msg) : (s.putMsg k m).groups = s.groups := rfl
@[simp] theorem State.putMsg_heldWakes (s : State) (k : Nat) (m : Msg) : (s.putMsg k m).heldWakes = s.heldWakes := rfl
@[simp] theorem State.putMsg_inst (s : State) (k : Nat) (m : Msg) : (s.putMsg k m).inst = s.inst := rfl
@[simp] theorem State.putMsg_hostMem (s : State) (k : Nat) (m : Msg) : (s.putMsg k m).hostMem = s.hostMem := rfl
@[simp] theorem State.putMsg_kills (s : State) (k : Nat) (m : Msg) : (s.putMsg k m).kills = s.kills := rfl
@[simp] theorem State.putMsg_lark (s : State) (k : Nat) (m : Msg) : (s.putMsg k m).lark = s.lark := rfl
@[simp] theorem State.putMsg_errLost (s : State) (k : Nat) (m : Msg) : (s.putMsg k m).errLost = s.errLost := rfl
@[simp] theorem State.putMsg_errHeld (s : State) (k : Nat) (m : Msg) : (s.putMsg k m).errHeld = s.errHeld := rfl
@[simp] theorem State.putMsg_trace (s : State) (k : Nat) (m : Msg) : (s.putMsg k m).trace = s.trace := rfl
@[simp] theorem State.putMsg_tiles (s : State) (k : Nat) (m : Msg) : (s.putMsg k m).tiles = s.tiles := rfl
@[simp] theorem State.putMsg_routers (s : State) (k : Nat) (m : Msg) : (s.putMsg k m).routers = s.routers := rfl
@[simp] theorem State.putMsg_routines (s : State) (k : Nat) (m : Msg) : (s.putMsg k m).routines = s.routines := rfl
@[simp] theorem State.putMsg_dloading (s : State) (k : Nat) (m : Msg) : (s.putMsg k m).dloading = s.dloading := rfl
@[simp] theorem State.putMsg_pool (s : State) (k : Nat) (m : Msg) : (s.putMsg k m).pool = s.pool := rfl
@[simp] theorem State.putMsg_poolResv (s : State) (k : Nat) (m : Msg) : (s.putMsg k m).poolResv = s.poolResv := rfl
@[simp] theorem State.putMsg_launches (s : State) (k : Nat) (m : Msg) : (s.putMsg k m).launches = s.launches := rfl
@[simp] theorem State.putMsg_arb (s : State) (k : Nat) (m : Msg) : (s.putMsg k m).arb = s.arb := rfl
@[simp] theorem State.putMsg_roots (s : State) (k : Nat) (m : Msg) : (s.putMsg k m).roots = s.roots := rfl
@[simp] theorem State.putMsg_evicted (s : State) (k : Nat) (m : Msg) : (s.putMsg k m).evicted = s.evicted := rfl
@[simp] theorem State.putMsg_incoming (s : State) (k : Nat) (m : Msg) : (s.putMsg k m).incoming = s.incoming := rfl
@[simp] theorem State.putMsg_asleep (s : State) (k : Nat) (m : Msg) : (s.putMsg k m).asleep = s.asleep := rfl
@[simp] theorem State.putMsg_saving (s : State) (k : Nat) (m : Msg) : (s.putMsg k m).saving = s.saving := rfl
@[simp] theorem State.putMsg_thermal (s : State) (k : Nat) (m : Msg) : (s.putMsg k m).thermal = s.thermal := rfl
@[simp] theorem State.putMsg_saved (s : State) (k : Nat) (m : Msg) : (s.putMsg k m).saved = s.saved := rfl
@[simp] theorem State.putMsg_hcb (s : State) (k : Nat) (m : Msg) : (s.putMsg k m).hcb = s.hcb := rfl
@[simp] theorem State.putMsg_toHost (s : State) (k : Nat) (m : Msg) : (s.putMsg k m).toHost = s.toHost := rfl
@[simp] theorem State.putMsg_hostHeld (s : State) (k : Nat) (m : Msg) : (s.putMsg k m).hostHeld = s.hostHeld := rfl
@[simp] theorem State.putMsg_hostReqs (s : State) (k : Nat) (m : Msg) : (s.putMsg k m).hostReqs = s.hostReqs := rfl
@[simp] theorem State.putMsg_patrol (s : State) (k : Nat) (m : Msg) : (s.putMsg k m).patrol = s.patrol := rfl
@[simp] theorem State.putMsg_vpatrol (s : State) (k : Nat) (m : Msg) : (s.putMsg k m).vpatrol = s.vpatrol := rfl
@[simp] theorem State.putMsg_spares (s : State) (k : Nat) (m : Msg) : (s.putMsg k m).spares = s.spares := rfl
@[simp] theorem State.putMsg_rowsUsed (s : State) (k : Nat) (m : Msg) : (s.putMsg k m).rowsUsed = s.rowsUsed := rfl
@[simp] theorem State.putMsg_remapUsed (s : State) (k : Nat) (m : Msg) : (s.putMsg k m).remapUsed = s.remapUsed := rfl
@[simp] theorem State.putMsg_retirePend (s : State) (k : Nat) (m : Msg) : (s.putMsg k m).retirePend = s.retirePend := rfl
@[simp] theorem State.putMsg_move (s : State) (k : Nat) (m : Msg) : (s.putMsg k m).move = s.move := rfl
@[simp] theorem State.putMsg_summary (s : State) (k : Nat) (m : Msg) : (s.putMsg k m).summary = s.summary := rfl
@[simp] theorem State.putMsg_report (s : State) (k : Nat) (m : Msg) : (s.putMsg k m).report = s.report := rfl
@[simp] theorem State.putMsg_fwVersion (s : State) (k : Nat) (m : Msg) : (s.putMsg k m).fwVersion = s.fwVersion := rfl
@[simp] theorem State.putMsg_minSvn (s : State) (k : Nat) (m : Msg) : (s.putMsg k m).minSvn = s.minSvn := rfl
@[simp] theorem State.putMsg_links (s : State) (k : Nat) (m : Msg) : (s.putMsg k m).links = s.links := rfl
@[simp] theorem State.putMsg_past (s : State) (k : Nat) (m : Msg) : (s.putMsg k m).past = s.past := rfl
@[simp] theorem State.putMsg_quietAt (s : State) (k : Nat) (m : Msg) : (s.putMsg k m).quietAt = s.quietAt := rfl
@[simp] theorem State.putMsg_stops (s : State) (k : Nat) (m : Msg) : (s.putMsg k m).stops = s.stops := rfl

/-! ## State.dropMsg -/

@[simp] theorem State.dropMsg_plan (s : State) (k : Nat) : (s.dropMsg k).plan = s.plan := rfl
@[simp] theorem State.dropMsg_cur (s : State) (k : Nat) : (s.dropMsg k).cur = s.cur := rfl
@[simp] theorem State.dropMsg_fresh (s : State) (k : Nat) : (s.dropMsg k).fresh = s.fresh := rfl
@[simp] theorem State.dropMsg_clk (s : State) (k : Nat) : (s.dropMsg k).clk = s.clk := rfl
@[simp] theorem State.dropMsg_nextId (s : State) (k : Nat) : (s.dropMsg k).nextId = s.nextId := rfl
@[simp] theorem State.dropMsg_fibres (s : State) (k : Nat) : (s.dropMsg k).fibres = s.fibres := rfl
@[simp] theorem State.dropMsg_cores (s : State) (k : Nat) : (s.dropMsg k).cores = s.cores := rfl
@[simp] theorem State.dropMsg_regs (s : State) (k : Nat) : (s.dropMsg k).regs = s.regs := rfl
@[simp] theorem State.dropMsg_mem (s : State) (k : Nat) : (s.dropMsg k).mem = s.mem := rfl
@[simp] theorem State.dropMsg_bmeta (s : State) (k : Nat) : (s.dropMsg k).bmeta = s.bmeta := rfl
@[simp] theorem State.dropMsg_synd (s : State) (k : Nat) : (s.dropMsg k).synd = s.synd := rfl
@[simp] theorem State.dropMsg_vsynd (s : State) (k : Nat) : (s.dropMsg k).vsynd = s.vsynd := rfl
@[simp] theorem State.dropMsg_badMeta (s : State) (k : Nat) : (s.dropMsg k).badMeta = s.badMeta := rfl
@[simp] theorem State.dropMsg_redir (s : State) (k : Nat) : (s.dropMsg k).redir = s.redir := rfl
@[simp] theorem State.dropMsg_rowCnt (s : State) (k : Nat) : (s.dropMsg k).rowCnt = s.rowCnt := rfl
@[simp] theorem State.dropMsg_rowFail (s : State) (k : Nat) : (s.dropMsg k).rowFail = s.rowFail := rfl
@[simp] theorem State.dropMsg_l2 (s : State) (k : Nat) : (s.dropMsg k).l2 = s.l2 := rfl
@[simp] theorem State.dropMsg_tlbs (s : State) (k : Nat) : (s.dropMsg k).tlbs = s.tlbs := rfl
@[simp] theorem State.dropMsg_walks (s : State) (k : Nat) : (s.dropMsg k).walks = s.walks := rfl
@[simp] theorem State.dropMsg_groups (s : State) (k : Nat) : (s.dropMsg k).groups = s.groups := rfl
@[simp] theorem State.dropMsg_heldWakes (s : State) (k : Nat) : (s.dropMsg k).heldWakes = s.heldWakes := rfl
@[simp] theorem State.dropMsg_inst (s : State) (k : Nat) : (s.dropMsg k).inst = s.inst := rfl
@[simp] theorem State.dropMsg_hostMem (s : State) (k : Nat) : (s.dropMsg k).hostMem = s.hostMem := rfl
@[simp] theorem State.dropMsg_kills (s : State) (k : Nat) : (s.dropMsg k).kills = s.kills := rfl
@[simp] theorem State.dropMsg_lark (s : State) (k : Nat) : (s.dropMsg k).lark = s.lark := rfl
@[simp] theorem State.dropMsg_errLost (s : State) (k : Nat) : (s.dropMsg k).errLost = s.errLost := rfl
@[simp] theorem State.dropMsg_errHeld (s : State) (k : Nat) : (s.dropMsg k).errHeld = s.errHeld := rfl
@[simp] theorem State.dropMsg_trace (s : State) (k : Nat) : (s.dropMsg k).trace = s.trace := rfl
@[simp] theorem State.dropMsg_tiles (s : State) (k : Nat) : (s.dropMsg k).tiles = s.tiles := rfl
@[simp] theorem State.dropMsg_routers (s : State) (k : Nat) : (s.dropMsg k).routers = s.routers := rfl
@[simp] theorem State.dropMsg_routines (s : State) (k : Nat) : (s.dropMsg k).routines = s.routines := rfl
@[simp] theorem State.dropMsg_dloading (s : State) (k : Nat) : (s.dropMsg k).dloading = s.dloading := rfl
@[simp] theorem State.dropMsg_pool (s : State) (k : Nat) : (s.dropMsg k).pool = s.pool := rfl
@[simp] theorem State.dropMsg_poolResv (s : State) (k : Nat) : (s.dropMsg k).poolResv = s.poolResv := rfl
@[simp] theorem State.dropMsg_launches (s : State) (k : Nat) : (s.dropMsg k).launches = s.launches := rfl
@[simp] theorem State.dropMsg_arb (s : State) (k : Nat) : (s.dropMsg k).arb = s.arb := rfl
@[simp] theorem State.dropMsg_roots (s : State) (k : Nat) : (s.dropMsg k).roots = s.roots := rfl
@[simp] theorem State.dropMsg_evicted (s : State) (k : Nat) : (s.dropMsg k).evicted = s.evicted := rfl
@[simp] theorem State.dropMsg_incoming (s : State) (k : Nat) : (s.dropMsg k).incoming = s.incoming := rfl
@[simp] theorem State.dropMsg_asleep (s : State) (k : Nat) : (s.dropMsg k).asleep = s.asleep := rfl
@[simp] theorem State.dropMsg_saving (s : State) (k : Nat) : (s.dropMsg k).saving = s.saving := rfl
@[simp] theorem State.dropMsg_thermal (s : State) (k : Nat) : (s.dropMsg k).thermal = s.thermal := rfl
@[simp] theorem State.dropMsg_saved (s : State) (k : Nat) : (s.dropMsg k).saved = s.saved := rfl
@[simp] theorem State.dropMsg_hcb (s : State) (k : Nat) : (s.dropMsg k).hcb = s.hcb := rfl
@[simp] theorem State.dropMsg_toHost (s : State) (k : Nat) : (s.dropMsg k).toHost = s.toHost := rfl
@[simp] theorem State.dropMsg_hostHeld (s : State) (k : Nat) : (s.dropMsg k).hostHeld = s.hostHeld := rfl
@[simp] theorem State.dropMsg_hostReqs (s : State) (k : Nat) : (s.dropMsg k).hostReqs = s.hostReqs := rfl
@[simp] theorem State.dropMsg_patrol (s : State) (k : Nat) : (s.dropMsg k).patrol = s.patrol := rfl
@[simp] theorem State.dropMsg_vpatrol (s : State) (k : Nat) : (s.dropMsg k).vpatrol = s.vpatrol := rfl
@[simp] theorem State.dropMsg_spares (s : State) (k : Nat) : (s.dropMsg k).spares = s.spares := rfl
@[simp] theorem State.dropMsg_rowsUsed (s : State) (k : Nat) : (s.dropMsg k).rowsUsed = s.rowsUsed := rfl
@[simp] theorem State.dropMsg_remapUsed (s : State) (k : Nat) : (s.dropMsg k).remapUsed = s.remapUsed := rfl
@[simp] theorem State.dropMsg_retirePend (s : State) (k : Nat) : (s.dropMsg k).retirePend = s.retirePend := rfl
@[simp] theorem State.dropMsg_move (s : State) (k : Nat) : (s.dropMsg k).move = s.move := rfl
@[simp] theorem State.dropMsg_summary (s : State) (k : Nat) : (s.dropMsg k).summary = s.summary := rfl
@[simp] theorem State.dropMsg_report (s : State) (k : Nat) : (s.dropMsg k).report = s.report := rfl
@[simp] theorem State.dropMsg_fwVersion (s : State) (k : Nat) : (s.dropMsg k).fwVersion = s.fwVersion := rfl
@[simp] theorem State.dropMsg_minSvn (s : State) (k : Nat) : (s.dropMsg k).minSvn = s.minSvn := rfl
@[simp] theorem State.dropMsg_links (s : State) (k : Nat) : (s.dropMsg k).links = s.links := rfl
@[simp] theorem State.dropMsg_past (s : State) (k : Nat) : (s.dropMsg k).past = s.past := rfl
@[simp] theorem State.dropMsg_quietAt (s : State) (k : Nat) : (s.dropMsg k).quietAt = s.quietAt := rfl
@[simp] theorem State.dropMsg_stops (s : State) (k : Nat) : (s.dropMsg k).stops = s.stops := rfl

/-! ## State.setReg -/

@[simp] theorem State.setReg_plan (s : State) (off : Nat) (v : Word) : (s.setReg off v).plan = s.plan := rfl
@[simp] theorem State.setReg_cur (s : State) (off : Nat) (v : Word) : (s.setReg off v).cur = s.cur := rfl
@[simp] theorem State.setReg_fresh (s : State) (off : Nat) (v : Word) : (s.setReg off v).fresh = s.fresh := rfl
@[simp] theorem State.setReg_clk (s : State) (off : Nat) (v : Word) : (s.setReg off v).clk = s.clk := rfl
@[simp] theorem State.setReg_net (s : State) (off : Nat) (v : Word) : (s.setReg off v).net = s.net := rfl
@[simp] theorem State.setReg_nextId (s : State) (off : Nat) (v : Word) : (s.setReg off v).nextId = s.nextId := rfl
@[simp] theorem State.setReg_fibres (s : State) (off : Nat) (v : Word) : (s.setReg off v).fibres = s.fibres := rfl
@[simp] theorem State.setReg_cores (s : State) (off : Nat) (v : Word) : (s.setReg off v).cores = s.cores := rfl
@[simp] theorem State.setReg_mem (s : State) (off : Nat) (v : Word) : (s.setReg off v).mem = s.mem := rfl
@[simp] theorem State.setReg_bmeta (s : State) (off : Nat) (v : Word) : (s.setReg off v).bmeta = s.bmeta := rfl
@[simp] theorem State.setReg_synd (s : State) (off : Nat) (v : Word) : (s.setReg off v).synd = s.synd := rfl
@[simp] theorem State.setReg_vsynd (s : State) (off : Nat) (v : Word) : (s.setReg off v).vsynd = s.vsynd := rfl
@[simp] theorem State.setReg_badMeta (s : State) (off : Nat) (v : Word) : (s.setReg off v).badMeta = s.badMeta := rfl
@[simp] theorem State.setReg_redir (s : State) (off : Nat) (v : Word) : (s.setReg off v).redir = s.redir := rfl
@[simp] theorem State.setReg_rowCnt (s : State) (off : Nat) (v : Word) : (s.setReg off v).rowCnt = s.rowCnt := rfl
@[simp] theorem State.setReg_rowFail (s : State) (off : Nat) (v : Word) : (s.setReg off v).rowFail = s.rowFail := rfl
@[simp] theorem State.setReg_l2 (s : State) (off : Nat) (v : Word) : (s.setReg off v).l2 = s.l2 := rfl
@[simp] theorem State.setReg_tlbs (s : State) (off : Nat) (v : Word) : (s.setReg off v).tlbs = s.tlbs := rfl
@[simp] theorem State.setReg_walks (s : State) (off : Nat) (v : Word) : (s.setReg off v).walks = s.walks := rfl
@[simp] theorem State.setReg_groups (s : State) (off : Nat) (v : Word) : (s.setReg off v).groups = s.groups := rfl
@[simp] theorem State.setReg_heldWakes (s : State) (off : Nat) (v : Word) : (s.setReg off v).heldWakes = s.heldWakes := rfl
@[simp] theorem State.setReg_inst (s : State) (off : Nat) (v : Word) : (s.setReg off v).inst = s.inst := rfl
@[simp] theorem State.setReg_hostMem (s : State) (off : Nat) (v : Word) : (s.setReg off v).hostMem = s.hostMem := rfl
@[simp] theorem State.setReg_kills (s : State) (off : Nat) (v : Word) : (s.setReg off v).kills = s.kills := rfl
@[simp] theorem State.setReg_lark (s : State) (off : Nat) (v : Word) : (s.setReg off v).lark = s.lark := rfl
@[simp] theorem State.setReg_errLost (s : State) (off : Nat) (v : Word) : (s.setReg off v).errLost = s.errLost := rfl
@[simp] theorem State.setReg_errHeld (s : State) (off : Nat) (v : Word) : (s.setReg off v).errHeld = s.errHeld := rfl
@[simp] theorem State.setReg_trace (s : State) (off : Nat) (v : Word) : (s.setReg off v).trace = s.trace := rfl
@[simp] theorem State.setReg_tiles (s : State) (off : Nat) (v : Word) : (s.setReg off v).tiles = s.tiles := rfl
@[simp] theorem State.setReg_routers (s : State) (off : Nat) (v : Word) : (s.setReg off v).routers = s.routers := rfl
@[simp] theorem State.setReg_routines (s : State) (off : Nat) (v : Word) : (s.setReg off v).routines = s.routines := rfl
@[simp] theorem State.setReg_dloading (s : State) (off : Nat) (v : Word) : (s.setReg off v).dloading = s.dloading := rfl
@[simp] theorem State.setReg_pool (s : State) (off : Nat) (v : Word) : (s.setReg off v).pool = s.pool := rfl
@[simp] theorem State.setReg_poolResv (s : State) (off : Nat) (v : Word) : (s.setReg off v).poolResv = s.poolResv := rfl
@[simp] theorem State.setReg_launches (s : State) (off : Nat) (v : Word) : (s.setReg off v).launches = s.launches := rfl
@[simp] theorem State.setReg_arb (s : State) (off : Nat) (v : Word) : (s.setReg off v).arb = s.arb := rfl
@[simp] theorem State.setReg_roots (s : State) (off : Nat) (v : Word) : (s.setReg off v).roots = s.roots := rfl
@[simp] theorem State.setReg_evicted (s : State) (off : Nat) (v : Word) : (s.setReg off v).evicted = s.evicted := rfl
@[simp] theorem State.setReg_incoming (s : State) (off : Nat) (v : Word) : (s.setReg off v).incoming = s.incoming := rfl
@[simp] theorem State.setReg_asleep (s : State) (off : Nat) (v : Word) : (s.setReg off v).asleep = s.asleep := rfl
@[simp] theorem State.setReg_saving (s : State) (off : Nat) (v : Word) : (s.setReg off v).saving = s.saving := rfl
@[simp] theorem State.setReg_thermal (s : State) (off : Nat) (v : Word) : (s.setReg off v).thermal = s.thermal := rfl
@[simp] theorem State.setReg_saved (s : State) (off : Nat) (v : Word) : (s.setReg off v).saved = s.saved := rfl
@[simp] theorem State.setReg_hcb (s : State) (off : Nat) (v : Word) : (s.setReg off v).hcb = s.hcb := rfl
@[simp] theorem State.setReg_toHost (s : State) (off : Nat) (v : Word) : (s.setReg off v).toHost = s.toHost := rfl
@[simp] theorem State.setReg_hostHeld (s : State) (off : Nat) (v : Word) : (s.setReg off v).hostHeld = s.hostHeld := rfl
@[simp] theorem State.setReg_hostReqs (s : State) (off : Nat) (v : Word) : (s.setReg off v).hostReqs = s.hostReqs := rfl
@[simp] theorem State.setReg_patrol (s : State) (off : Nat) (v : Word) : (s.setReg off v).patrol = s.patrol := rfl
@[simp] theorem State.setReg_vpatrol (s : State) (off : Nat) (v : Word) : (s.setReg off v).vpatrol = s.vpatrol := rfl
@[simp] theorem State.setReg_spares (s : State) (off : Nat) (v : Word) : (s.setReg off v).spares = s.spares := rfl
@[simp] theorem State.setReg_rowsUsed (s : State) (off : Nat) (v : Word) : (s.setReg off v).rowsUsed = s.rowsUsed := rfl
@[simp] theorem State.setReg_remapUsed (s : State) (off : Nat) (v : Word) : (s.setReg off v).remapUsed = s.remapUsed := rfl
@[simp] theorem State.setReg_retirePend (s : State) (off : Nat) (v : Word) : (s.setReg off v).retirePend = s.retirePend := rfl
@[simp] theorem State.setReg_move (s : State) (off : Nat) (v : Word) : (s.setReg off v).move = s.move := rfl
@[simp] theorem State.setReg_summary (s : State) (off : Nat) (v : Word) : (s.setReg off v).summary = s.summary := rfl
@[simp] theorem State.setReg_report (s : State) (off : Nat) (v : Word) : (s.setReg off v).report = s.report := rfl
@[simp] theorem State.setReg_fwVersion (s : State) (off : Nat) (v : Word) : (s.setReg off v).fwVersion = s.fwVersion := rfl
@[simp] theorem State.setReg_minSvn (s : State) (off : Nat) (v : Word) : (s.setReg off v).minSvn = s.minSvn := rfl
@[simp] theorem State.setReg_links (s : State) (off : Nat) (v : Word) : (s.setReg off v).links = s.links := rfl
@[simp] theorem State.setReg_past (s : State) (off : Nat) (v : Word) : (s.setReg off v).past = s.past := rfl
@[simp] theorem State.setReg_quietAt (s : State) (off : Nat) (v : Word) : (s.setReg off v).quietAt = s.quietAt := rfl
@[simp] theorem State.setReg_stops (s : State) (off : Nat) (v : Word) : (s.setReg off v).stops = s.stops := rfl

/-! ## State.setByte -/

@[simp] theorem State.setByte_plan (s : State) (a : Nat) (b : Byte) : (s.setByte a b).plan = s.plan := rfl
@[simp] theorem State.setByte_cur (s : State) (a : Nat) (b : Byte) : (s.setByte a b).cur = s.cur := rfl
@[simp] theorem State.setByte_fresh (s : State) (a : Nat) (b : Byte) : (s.setByte a b).fresh = s.fresh := rfl
@[simp] theorem State.setByte_clk (s : State) (a : Nat) (b : Byte) : (s.setByte a b).clk = s.clk := rfl
@[simp] theorem State.setByte_net (s : State) (a : Nat) (b : Byte) : (s.setByte a b).net = s.net := rfl
@[simp] theorem State.setByte_nextId (s : State) (a : Nat) (b : Byte) : (s.setByte a b).nextId = s.nextId := rfl
@[simp] theorem State.setByte_fibres (s : State) (a : Nat) (b : Byte) : (s.setByte a b).fibres = s.fibres := rfl
@[simp] theorem State.setByte_cores (s : State) (a : Nat) (b : Byte) : (s.setByte a b).cores = s.cores := rfl
@[simp] theorem State.setByte_regs (s : State) (a : Nat) (b : Byte) : (s.setByte a b).regs = s.regs := rfl
@[simp] theorem State.setByte_bmeta (s : State) (a : Nat) (b : Byte) : (s.setByte a b).bmeta = s.bmeta := rfl
@[simp] theorem State.setByte_synd (s : State) (a : Nat) (b : Byte) : (s.setByte a b).synd = s.synd := rfl
@[simp] theorem State.setByte_vsynd (s : State) (a : Nat) (b : Byte) : (s.setByte a b).vsynd = s.vsynd := rfl
@[simp] theorem State.setByte_badMeta (s : State) (a : Nat) (b : Byte) : (s.setByte a b).badMeta = s.badMeta := rfl
@[simp] theorem State.setByte_redir (s : State) (a : Nat) (b : Byte) : (s.setByte a b).redir = s.redir := rfl
@[simp] theorem State.setByte_rowCnt (s : State) (a : Nat) (b : Byte) : (s.setByte a b).rowCnt = s.rowCnt := rfl
@[simp] theorem State.setByte_rowFail (s : State) (a : Nat) (b : Byte) : (s.setByte a b).rowFail = s.rowFail := rfl
@[simp] theorem State.setByte_l2 (s : State) (a : Nat) (b : Byte) : (s.setByte a b).l2 = s.l2 := rfl
@[simp] theorem State.setByte_tlbs (s : State) (a : Nat) (b : Byte) : (s.setByte a b).tlbs = s.tlbs := rfl
@[simp] theorem State.setByte_walks (s : State) (a : Nat) (b : Byte) : (s.setByte a b).walks = s.walks := rfl
@[simp] theorem State.setByte_groups (s : State) (a : Nat) (b : Byte) : (s.setByte a b).groups = s.groups := rfl
@[simp] theorem State.setByte_heldWakes (s : State) (a : Nat) (b : Byte) : (s.setByte a b).heldWakes = s.heldWakes := rfl
@[simp] theorem State.setByte_inst (s : State) (a : Nat) (b : Byte) : (s.setByte a b).inst = s.inst := rfl
@[simp] theorem State.setByte_hostMem (s : State) (a : Nat) (b : Byte) : (s.setByte a b).hostMem = s.hostMem := rfl
@[simp] theorem State.setByte_kills (s : State) (a : Nat) (b : Byte) : (s.setByte a b).kills = s.kills := rfl
@[simp] theorem State.setByte_lark (s : State) (a : Nat) (b : Byte) : (s.setByte a b).lark = s.lark := rfl
@[simp] theorem State.setByte_errLost (s : State) (a : Nat) (b : Byte) : (s.setByte a b).errLost = s.errLost := rfl
@[simp] theorem State.setByte_errHeld (s : State) (a : Nat) (b : Byte) : (s.setByte a b).errHeld = s.errHeld := rfl
@[simp] theorem State.setByte_trace (s : State) (a : Nat) (b : Byte) : (s.setByte a b).trace = s.trace := rfl
@[simp] theorem State.setByte_tiles (s : State) (a : Nat) (b : Byte) : (s.setByte a b).tiles = s.tiles := rfl
@[simp] theorem State.setByte_routers (s : State) (a : Nat) (b : Byte) : (s.setByte a b).routers = s.routers := rfl
@[simp] theorem State.setByte_routines (s : State) (a : Nat) (b : Byte) : (s.setByte a b).routines = s.routines := rfl
@[simp] theorem State.setByte_dloading (s : State) (a : Nat) (b : Byte) : (s.setByte a b).dloading = s.dloading := rfl
@[simp] theorem State.setByte_pool (s : State) (a : Nat) (b : Byte) : (s.setByte a b).pool = s.pool := rfl
@[simp] theorem State.setByte_poolResv (s : State) (a : Nat) (b : Byte) : (s.setByte a b).poolResv = s.poolResv := rfl
@[simp] theorem State.setByte_launches (s : State) (a : Nat) (b : Byte) : (s.setByte a b).launches = s.launches := rfl
@[simp] theorem State.setByte_arb (s : State) (a : Nat) (b : Byte) : (s.setByte a b).arb = s.arb := rfl
@[simp] theorem State.setByte_roots (s : State) (a : Nat) (b : Byte) : (s.setByte a b).roots = s.roots := rfl
@[simp] theorem State.setByte_evicted (s : State) (a : Nat) (b : Byte) : (s.setByte a b).evicted = s.evicted := rfl
@[simp] theorem State.setByte_incoming (s : State) (a : Nat) (b : Byte) : (s.setByte a b).incoming = s.incoming := rfl
@[simp] theorem State.setByte_asleep (s : State) (a : Nat) (b : Byte) : (s.setByte a b).asleep = s.asleep := rfl
@[simp] theorem State.setByte_saving (s : State) (a : Nat) (b : Byte) : (s.setByte a b).saving = s.saving := rfl
@[simp] theorem State.setByte_thermal (s : State) (a : Nat) (b : Byte) : (s.setByte a b).thermal = s.thermal := rfl
@[simp] theorem State.setByte_saved (s : State) (a : Nat) (b : Byte) : (s.setByte a b).saved = s.saved := rfl
@[simp] theorem State.setByte_hcb (s : State) (a : Nat) (b : Byte) : (s.setByte a b).hcb = s.hcb := rfl
@[simp] theorem State.setByte_toHost (s : State) (a : Nat) (b : Byte) : (s.setByte a b).toHost = s.toHost := rfl
@[simp] theorem State.setByte_hostHeld (s : State) (a : Nat) (b : Byte) : (s.setByte a b).hostHeld = s.hostHeld := rfl
@[simp] theorem State.setByte_hostReqs (s : State) (a : Nat) (b : Byte) : (s.setByte a b).hostReqs = s.hostReqs := rfl
@[simp] theorem State.setByte_patrol (s : State) (a : Nat) (b : Byte) : (s.setByte a b).patrol = s.patrol := rfl
@[simp] theorem State.setByte_vpatrol (s : State) (a : Nat) (b : Byte) : (s.setByte a b).vpatrol = s.vpatrol := rfl
@[simp] theorem State.setByte_spares (s : State) (a : Nat) (b : Byte) : (s.setByte a b).spares = s.spares := rfl
@[simp] theorem State.setByte_rowsUsed (s : State) (a : Nat) (b : Byte) : (s.setByte a b).rowsUsed = s.rowsUsed := rfl
@[simp] theorem State.setByte_remapUsed (s : State) (a : Nat) (b : Byte) : (s.setByte a b).remapUsed = s.remapUsed := rfl
@[simp] theorem State.setByte_retirePend (s : State) (a : Nat) (b : Byte) : (s.setByte a b).retirePend = s.retirePend := rfl
@[simp] theorem State.setByte_move (s : State) (a : Nat) (b : Byte) : (s.setByte a b).move = s.move := rfl
@[simp] theorem State.setByte_summary (s : State) (a : Nat) (b : Byte) : (s.setByte a b).summary = s.summary := rfl
@[simp] theorem State.setByte_report (s : State) (a : Nat) (b : Byte) : (s.setByte a b).report = s.report := rfl
@[simp] theorem State.setByte_fwVersion (s : State) (a : Nat) (b : Byte) : (s.setByte a b).fwVersion = s.fwVersion := rfl
@[simp] theorem State.setByte_minSvn (s : State) (a : Nat) (b : Byte) : (s.setByte a b).minSvn = s.minSvn := rfl
@[simp] theorem State.setByte_links (s : State) (a : Nat) (b : Byte) : (s.setByte a b).links = s.links := rfl
@[simp] theorem State.setByte_past (s : State) (a : Nat) (b : Byte) : (s.setByte a b).past = s.past := rfl
@[simp] theorem State.setByte_quietAt (s : State) (a : Nat) (b : Byte) : (s.setByte a b).quietAt = s.quietAt := rfl
@[simp] theorem State.setByte_stops (s : State) (a : Nat) (b : Byte) : (s.setByte a b).stops = s.stops := rfl

/-! ## State.setTile -/

@[simp] theorem State.setTile_plan (s : State) (k : Nat) (d : Tile) : (s.setTile k d).plan = s.plan := rfl
@[simp] theorem State.setTile_cur (s : State) (k : Nat) (d : Tile) : (s.setTile k d).cur = s.cur := rfl
@[simp] theorem State.setTile_fresh (s : State) (k : Nat) (d : Tile) : (s.setTile k d).fresh = s.fresh := rfl
@[simp] theorem State.setTile_clk (s : State) (k : Nat) (d : Tile) : (s.setTile k d).clk = s.clk := rfl
@[simp] theorem State.setTile_net (s : State) (k : Nat) (d : Tile) : (s.setTile k d).net = s.net := rfl
@[simp] theorem State.setTile_nextId (s : State) (k : Nat) (d : Tile) : (s.setTile k d).nextId = s.nextId := rfl
@[simp] theorem State.setTile_fibres (s : State) (k : Nat) (d : Tile) : (s.setTile k d).fibres = s.fibres := rfl
@[simp] theorem State.setTile_cores (s : State) (k : Nat) (d : Tile) : (s.setTile k d).cores = s.cores := rfl
@[simp] theorem State.setTile_regs (s : State) (k : Nat) (d : Tile) : (s.setTile k d).regs = s.regs := rfl
@[simp] theorem State.setTile_mem (s : State) (k : Nat) (d : Tile) : (s.setTile k d).mem = s.mem := rfl
@[simp] theorem State.setTile_bmeta (s : State) (k : Nat) (d : Tile) : (s.setTile k d).bmeta = s.bmeta := rfl
@[simp] theorem State.setTile_synd (s : State) (k : Nat) (d : Tile) : (s.setTile k d).synd = s.synd := rfl
@[simp] theorem State.setTile_vsynd (s : State) (k : Nat) (d : Tile) : (s.setTile k d).vsynd = s.vsynd := rfl
@[simp] theorem State.setTile_badMeta (s : State) (k : Nat) (d : Tile) : (s.setTile k d).badMeta = s.badMeta := rfl
@[simp] theorem State.setTile_redir (s : State) (k : Nat) (d : Tile) : (s.setTile k d).redir = s.redir := rfl
@[simp] theorem State.setTile_rowCnt (s : State) (k : Nat) (d : Tile) : (s.setTile k d).rowCnt = s.rowCnt := rfl
@[simp] theorem State.setTile_rowFail (s : State) (k : Nat) (d : Tile) : (s.setTile k d).rowFail = s.rowFail := rfl
@[simp] theorem State.setTile_l2 (s : State) (k : Nat) (d : Tile) : (s.setTile k d).l2 = s.l2 := rfl
@[simp] theorem State.setTile_tlbs (s : State) (k : Nat) (d : Tile) : (s.setTile k d).tlbs = s.tlbs := rfl
@[simp] theorem State.setTile_walks (s : State) (k : Nat) (d : Tile) : (s.setTile k d).walks = s.walks := rfl
@[simp] theorem State.setTile_groups (s : State) (k : Nat) (d : Tile) : (s.setTile k d).groups = s.groups := rfl
@[simp] theorem State.setTile_heldWakes (s : State) (k : Nat) (d : Tile) : (s.setTile k d).heldWakes = s.heldWakes := rfl
@[simp] theorem State.setTile_inst (s : State) (k : Nat) (d : Tile) : (s.setTile k d).inst = s.inst := rfl
@[simp] theorem State.setTile_hostMem (s : State) (k : Nat) (d : Tile) : (s.setTile k d).hostMem = s.hostMem := rfl
@[simp] theorem State.setTile_kills (s : State) (k : Nat) (d : Tile) : (s.setTile k d).kills = s.kills := rfl
@[simp] theorem State.setTile_lark (s : State) (k : Nat) (d : Tile) : (s.setTile k d).lark = s.lark := rfl
@[simp] theorem State.setTile_errLost (s : State) (k : Nat) (d : Tile) : (s.setTile k d).errLost = s.errLost := rfl
@[simp] theorem State.setTile_errHeld (s : State) (k : Nat) (d : Tile) : (s.setTile k d).errHeld = s.errHeld := rfl
@[simp] theorem State.setTile_trace (s : State) (k : Nat) (d : Tile) : (s.setTile k d).trace = s.trace := rfl
@[simp] theorem State.setTile_routers (s : State) (k : Nat) (d : Tile) : (s.setTile k d).routers = s.routers := rfl
@[simp] theorem State.setTile_routines (s : State) (k : Nat) (d : Tile) : (s.setTile k d).routines = s.routines := rfl
@[simp] theorem State.setTile_dloading (s : State) (k : Nat) (d : Tile) : (s.setTile k d).dloading = s.dloading := rfl
@[simp] theorem State.setTile_pool (s : State) (k : Nat) (d : Tile) : (s.setTile k d).pool = s.pool := rfl
@[simp] theorem State.setTile_poolResv (s : State) (k : Nat) (d : Tile) : (s.setTile k d).poolResv = s.poolResv := rfl
@[simp] theorem State.setTile_launches (s : State) (k : Nat) (d : Tile) : (s.setTile k d).launches = s.launches := rfl
@[simp] theorem State.setTile_arb (s : State) (k : Nat) (d : Tile) : (s.setTile k d).arb = s.arb := rfl
@[simp] theorem State.setTile_roots (s : State) (k : Nat) (d : Tile) : (s.setTile k d).roots = s.roots := rfl
@[simp] theorem State.setTile_evicted (s : State) (k : Nat) (d : Tile) : (s.setTile k d).evicted = s.evicted := rfl
@[simp] theorem State.setTile_incoming (s : State) (k : Nat) (d : Tile) : (s.setTile k d).incoming = s.incoming := rfl
@[simp] theorem State.setTile_asleep (s : State) (k : Nat) (d : Tile) : (s.setTile k d).asleep = s.asleep := rfl
@[simp] theorem State.setTile_saving (s : State) (k : Nat) (d : Tile) : (s.setTile k d).saving = s.saving := rfl
@[simp] theorem State.setTile_thermal (s : State) (k : Nat) (d : Tile) : (s.setTile k d).thermal = s.thermal := rfl
@[simp] theorem State.setTile_saved (s : State) (k : Nat) (d : Tile) : (s.setTile k d).saved = s.saved := rfl
@[simp] theorem State.setTile_hcb (s : State) (k : Nat) (d : Tile) : (s.setTile k d).hcb = s.hcb := rfl
@[simp] theorem State.setTile_toHost (s : State) (k : Nat) (d : Tile) : (s.setTile k d).toHost = s.toHost := rfl
@[simp] theorem State.setTile_hostHeld (s : State) (k : Nat) (d : Tile) : (s.setTile k d).hostHeld = s.hostHeld := rfl
@[simp] theorem State.setTile_hostReqs (s : State) (k : Nat) (d : Tile) : (s.setTile k d).hostReqs = s.hostReqs := rfl
@[simp] theorem State.setTile_patrol (s : State) (k : Nat) (d : Tile) : (s.setTile k d).patrol = s.patrol := rfl
@[simp] theorem State.setTile_vpatrol (s : State) (k : Nat) (d : Tile) : (s.setTile k d).vpatrol = s.vpatrol := rfl
@[simp] theorem State.setTile_spares (s : State) (k : Nat) (d : Tile) : (s.setTile k d).spares = s.spares := rfl
@[simp] theorem State.setTile_rowsUsed (s : State) (k : Nat) (d : Tile) : (s.setTile k d).rowsUsed = s.rowsUsed := rfl
@[simp] theorem State.setTile_remapUsed (s : State) (k : Nat) (d : Tile) : (s.setTile k d).remapUsed = s.remapUsed := rfl
@[simp] theorem State.setTile_retirePend (s : State) (k : Nat) (d : Tile) : (s.setTile k d).retirePend = s.retirePend := rfl
@[simp] theorem State.setTile_move (s : State) (k : Nat) (d : Tile) : (s.setTile k d).move = s.move := rfl
@[simp] theorem State.setTile_summary (s : State) (k : Nat) (d : Tile) : (s.setTile k d).summary = s.summary := rfl
@[simp] theorem State.setTile_report (s : State) (k : Nat) (d : Tile) : (s.setTile k d).report = s.report := rfl
@[simp] theorem State.setTile_fwVersion (s : State) (k : Nat) (d : Tile) : (s.setTile k d).fwVersion = s.fwVersion := rfl
@[simp] theorem State.setTile_minSvn (s : State) (k : Nat) (d : Tile) : (s.setTile k d).minSvn = s.minSvn := rfl
@[simp] theorem State.setTile_links (s : State) (k : Nat) (d : Tile) : (s.setTile k d).links = s.links := rfl
@[simp] theorem State.setTile_past (s : State) (k : Nat) (d : Tile) : (s.setTile k d).past = s.past := rfl
@[simp] theorem State.setTile_quietAt (s : State) (k : Nat) (d : Tile) : (s.setTile k d).quietAt = s.quietAt := rfl
@[simp] theorem State.setTile_stops (s : State) (k : Nat) (d : Tile) : (s.setTile k d).stops = s.stops := rfl

/-! ## State.setTrace -/

@[simp] theorem State.setTrace_plan (s : State) (k : Nat) (b : TraceBuf) : (s.setTrace k b).plan = s.plan := rfl
@[simp] theorem State.setTrace_cur (s : State) (k : Nat) (b : TraceBuf) : (s.setTrace k b).cur = s.cur := rfl
@[simp] theorem State.setTrace_fresh (s : State) (k : Nat) (b : TraceBuf) : (s.setTrace k b).fresh = s.fresh := rfl
@[simp] theorem State.setTrace_clk (s : State) (k : Nat) (b : TraceBuf) : (s.setTrace k b).clk = s.clk := rfl
@[simp] theorem State.setTrace_net (s : State) (k : Nat) (b : TraceBuf) : (s.setTrace k b).net = s.net := rfl
@[simp] theorem State.setTrace_nextId (s : State) (k : Nat) (b : TraceBuf) : (s.setTrace k b).nextId = s.nextId := rfl
@[simp] theorem State.setTrace_fibres (s : State) (k : Nat) (b : TraceBuf) : (s.setTrace k b).fibres = s.fibres := rfl
@[simp] theorem State.setTrace_cores (s : State) (k : Nat) (b : TraceBuf) : (s.setTrace k b).cores = s.cores := rfl
@[simp] theorem State.setTrace_regs (s : State) (k : Nat) (b : TraceBuf) : (s.setTrace k b).regs = s.regs := rfl
@[simp] theorem State.setTrace_mem (s : State) (k : Nat) (b : TraceBuf) : (s.setTrace k b).mem = s.mem := rfl
@[simp] theorem State.setTrace_bmeta (s : State) (k : Nat) (b : TraceBuf) : (s.setTrace k b).bmeta = s.bmeta := rfl
@[simp] theorem State.setTrace_synd (s : State) (k : Nat) (b : TraceBuf) : (s.setTrace k b).synd = s.synd := rfl
@[simp] theorem State.setTrace_vsynd (s : State) (k : Nat) (b : TraceBuf) : (s.setTrace k b).vsynd = s.vsynd := rfl
@[simp] theorem State.setTrace_badMeta (s : State) (k : Nat) (b : TraceBuf) : (s.setTrace k b).badMeta = s.badMeta := rfl
@[simp] theorem State.setTrace_redir (s : State) (k : Nat) (b : TraceBuf) : (s.setTrace k b).redir = s.redir := rfl
@[simp] theorem State.setTrace_rowCnt (s : State) (k : Nat) (b : TraceBuf) : (s.setTrace k b).rowCnt = s.rowCnt := rfl
@[simp] theorem State.setTrace_rowFail (s : State) (k : Nat) (b : TraceBuf) : (s.setTrace k b).rowFail = s.rowFail := rfl
@[simp] theorem State.setTrace_l2 (s : State) (k : Nat) (b : TraceBuf) : (s.setTrace k b).l2 = s.l2 := rfl
@[simp] theorem State.setTrace_tlbs (s : State) (k : Nat) (b : TraceBuf) : (s.setTrace k b).tlbs = s.tlbs := rfl
@[simp] theorem State.setTrace_walks (s : State) (k : Nat) (b : TraceBuf) : (s.setTrace k b).walks = s.walks := rfl
@[simp] theorem State.setTrace_groups (s : State) (k : Nat) (b : TraceBuf) : (s.setTrace k b).groups = s.groups := rfl
@[simp] theorem State.setTrace_heldWakes (s : State) (k : Nat) (b : TraceBuf) : (s.setTrace k b).heldWakes = s.heldWakes := rfl
@[simp] theorem State.setTrace_inst (s : State) (k : Nat) (b : TraceBuf) : (s.setTrace k b).inst = s.inst := rfl
@[simp] theorem State.setTrace_hostMem (s : State) (k : Nat) (b : TraceBuf) : (s.setTrace k b).hostMem = s.hostMem := rfl
@[simp] theorem State.setTrace_kills (s : State) (k : Nat) (b : TraceBuf) : (s.setTrace k b).kills = s.kills := rfl
@[simp] theorem State.setTrace_lark (s : State) (k : Nat) (b : TraceBuf) : (s.setTrace k b).lark = s.lark := rfl
@[simp] theorem State.setTrace_errLost (s : State) (k : Nat) (b : TraceBuf) : (s.setTrace k b).errLost = s.errLost := rfl
@[simp] theorem State.setTrace_errHeld (s : State) (k : Nat) (b : TraceBuf) : (s.setTrace k b).errHeld = s.errHeld := rfl
@[simp] theorem State.setTrace_tiles (s : State) (k : Nat) (b : TraceBuf) : (s.setTrace k b).tiles = s.tiles := rfl
@[simp] theorem State.setTrace_routers (s : State) (k : Nat) (b : TraceBuf) : (s.setTrace k b).routers = s.routers := rfl
@[simp] theorem State.setTrace_routines (s : State) (k : Nat) (b : TraceBuf) : (s.setTrace k b).routines = s.routines := rfl
@[simp] theorem State.setTrace_dloading (s : State) (k : Nat) (b : TraceBuf) : (s.setTrace k b).dloading = s.dloading := rfl
@[simp] theorem State.setTrace_pool (s : State) (k : Nat) (b : TraceBuf) : (s.setTrace k b).pool = s.pool := rfl
@[simp] theorem State.setTrace_poolResv (s : State) (k : Nat) (b : TraceBuf) : (s.setTrace k b).poolResv = s.poolResv := rfl
@[simp] theorem State.setTrace_launches (s : State) (k : Nat) (b : TraceBuf) : (s.setTrace k b).launches = s.launches := rfl
@[simp] theorem State.setTrace_arb (s : State) (k : Nat) (b : TraceBuf) : (s.setTrace k b).arb = s.arb := rfl
@[simp] theorem State.setTrace_roots (s : State) (k : Nat) (b : TraceBuf) : (s.setTrace k b).roots = s.roots := rfl
@[simp] theorem State.setTrace_evicted (s : State) (k : Nat) (b : TraceBuf) : (s.setTrace k b).evicted = s.evicted := rfl
@[simp] theorem State.setTrace_incoming (s : State) (k : Nat) (b : TraceBuf) : (s.setTrace k b).incoming = s.incoming := rfl
@[simp] theorem State.setTrace_asleep (s : State) (k : Nat) (b : TraceBuf) : (s.setTrace k b).asleep = s.asleep := rfl
@[simp] theorem State.setTrace_saving (s : State) (k : Nat) (b : TraceBuf) : (s.setTrace k b).saving = s.saving := rfl
@[simp] theorem State.setTrace_thermal (s : State) (k : Nat) (b : TraceBuf) : (s.setTrace k b).thermal = s.thermal := rfl
@[simp] theorem State.setTrace_saved (s : State) (k : Nat) (b : TraceBuf) : (s.setTrace k b).saved = s.saved := rfl
@[simp] theorem State.setTrace_hcb (s : State) (k : Nat) (b : TraceBuf) : (s.setTrace k b).hcb = s.hcb := rfl
@[simp] theorem State.setTrace_toHost (s : State) (k : Nat) (b : TraceBuf) : (s.setTrace k b).toHost = s.toHost := rfl
@[simp] theorem State.setTrace_hostHeld (s : State) (k : Nat) (b : TraceBuf) : (s.setTrace k b).hostHeld = s.hostHeld := rfl
@[simp] theorem State.setTrace_hostReqs (s : State) (k : Nat) (b : TraceBuf) : (s.setTrace k b).hostReqs = s.hostReqs := rfl
@[simp] theorem State.setTrace_patrol (s : State) (k : Nat) (b : TraceBuf) : (s.setTrace k b).patrol = s.patrol := rfl
@[simp] theorem State.setTrace_vpatrol (s : State) (k : Nat) (b : TraceBuf) : (s.setTrace k b).vpatrol = s.vpatrol := rfl
@[simp] theorem State.setTrace_spares (s : State) (k : Nat) (b : TraceBuf) : (s.setTrace k b).spares = s.spares := rfl
@[simp] theorem State.setTrace_rowsUsed (s : State) (k : Nat) (b : TraceBuf) : (s.setTrace k b).rowsUsed = s.rowsUsed := rfl
@[simp] theorem State.setTrace_remapUsed (s : State) (k : Nat) (b : TraceBuf) : (s.setTrace k b).remapUsed = s.remapUsed := rfl
@[simp] theorem State.setTrace_retirePend (s : State) (k : Nat) (b : TraceBuf) : (s.setTrace k b).retirePend = s.retirePend := rfl
@[simp] theorem State.setTrace_move (s : State) (k : Nat) (b : TraceBuf) : (s.setTrace k b).move = s.move := rfl
@[simp] theorem State.setTrace_summary (s : State) (k : Nat) (b : TraceBuf) : (s.setTrace k b).summary = s.summary := rfl
@[simp] theorem State.setTrace_report (s : State) (k : Nat) (b : TraceBuf) : (s.setTrace k b).report = s.report := rfl
@[simp] theorem State.setTrace_fwVersion (s : State) (k : Nat) (b : TraceBuf) : (s.setTrace k b).fwVersion = s.fwVersion := rfl
@[simp] theorem State.setTrace_minSvn (s : State) (k : Nat) (b : TraceBuf) : (s.setTrace k b).minSvn = s.minSvn := rfl
@[simp] theorem State.setTrace_links (s : State) (k : Nat) (b : TraceBuf) : (s.setTrace k b).links = s.links := rfl
@[simp] theorem State.setTrace_past (s : State) (k : Nat) (b : TraceBuf) : (s.setTrace k b).past = s.past := rfl
@[simp] theorem State.setTrace_quietAt (s : State) (k : Nat) (b : TraceBuf) : (s.setTrace k b).quietAt = s.quietAt := rfl
@[simp] theorem State.setTrace_stops (s : State) (k : Nat) (b : TraceBuf) : (s.setTrace k b).stops = s.stops := rfl

/-! ## State.send -/

@[simp] theorem State.send_plan (s : State) (m : Msg) : (s.send m).1.plan = s.plan := rfl
@[simp] theorem State.send_cur (s : State) (m : Msg) : (s.send m).1.cur = s.cur := rfl
@[simp] theorem State.send_fresh (s : State) (m : Msg) : (s.send m).1.fresh = s.fresh := rfl
@[simp] theorem State.send_clk (s : State) (m : Msg) : (s.send m).1.clk = s.clk := rfl
@[simp] theorem State.send_fibres (s : State) (m : Msg) : (s.send m).1.fibres = s.fibres := rfl
@[simp] theorem State.send_cores (s : State) (m : Msg) : (s.send m).1.cores = s.cores := rfl
@[simp] theorem State.send_regs (s : State) (m : Msg) : (s.send m).1.regs = s.regs := rfl
@[simp] theorem State.send_mem (s : State) (m : Msg) : (s.send m).1.mem = s.mem := rfl
@[simp] theorem State.send_bmeta (s : State) (m : Msg) : (s.send m).1.bmeta = s.bmeta := rfl
@[simp] theorem State.send_synd (s : State) (m : Msg) : (s.send m).1.synd = s.synd := rfl
@[simp] theorem State.send_vsynd (s : State) (m : Msg) : (s.send m).1.vsynd = s.vsynd := rfl
@[simp] theorem State.send_badMeta (s : State) (m : Msg) : (s.send m).1.badMeta = s.badMeta := rfl
@[simp] theorem State.send_redir (s : State) (m : Msg) : (s.send m).1.redir = s.redir := rfl
@[simp] theorem State.send_rowCnt (s : State) (m : Msg) : (s.send m).1.rowCnt = s.rowCnt := rfl
@[simp] theorem State.send_rowFail (s : State) (m : Msg) : (s.send m).1.rowFail = s.rowFail := rfl
@[simp] theorem State.send_l2 (s : State) (m : Msg) : (s.send m).1.l2 = s.l2 := rfl
@[simp] theorem State.send_tlbs (s : State) (m : Msg) : (s.send m).1.tlbs = s.tlbs := rfl
@[simp] theorem State.send_walks (s : State) (m : Msg) : (s.send m).1.walks = s.walks := rfl
@[simp] theorem State.send_groups (s : State) (m : Msg) : (s.send m).1.groups = s.groups := rfl
@[simp] theorem State.send_heldWakes (s : State) (m : Msg) : (s.send m).1.heldWakes = s.heldWakes := rfl
@[simp] theorem State.send_inst (s : State) (m : Msg) : (s.send m).1.inst = s.inst := rfl
@[simp] theorem State.send_hostMem (s : State) (m : Msg) : (s.send m).1.hostMem = s.hostMem := rfl
@[simp] theorem State.send_kills (s : State) (m : Msg) : (s.send m).1.kills = s.kills := rfl
@[simp] theorem State.send_lark (s : State) (m : Msg) : (s.send m).1.lark = s.lark := rfl
@[simp] theorem State.send_errLost (s : State) (m : Msg) : (s.send m).1.errLost = s.errLost := rfl
@[simp] theorem State.send_errHeld (s : State) (m : Msg) : (s.send m).1.errHeld = s.errHeld := rfl
@[simp] theorem State.send_trace (s : State) (m : Msg) : (s.send m).1.trace = s.trace := rfl
@[simp] theorem State.send_tiles (s : State) (m : Msg) : (s.send m).1.tiles = s.tiles := rfl
@[simp] theorem State.send_routers (s : State) (m : Msg) : (s.send m).1.routers = s.routers := rfl
@[simp] theorem State.send_routines (s : State) (m : Msg) : (s.send m).1.routines = s.routines := rfl
@[simp] theorem State.send_dloading (s : State) (m : Msg) : (s.send m).1.dloading = s.dloading := rfl
@[simp] theorem State.send_pool (s : State) (m : Msg) : (s.send m).1.pool = s.pool := rfl
@[simp] theorem State.send_poolResv (s : State) (m : Msg) : (s.send m).1.poolResv = s.poolResv := rfl
@[simp] theorem State.send_launches (s : State) (m : Msg) : (s.send m).1.launches = s.launches := rfl
@[simp] theorem State.send_arb (s : State) (m : Msg) : (s.send m).1.arb = s.arb := rfl
@[simp] theorem State.send_roots (s : State) (m : Msg) : (s.send m).1.roots = s.roots := rfl
@[simp] theorem State.send_evicted (s : State) (m : Msg) : (s.send m).1.evicted = s.evicted := rfl
@[simp] theorem State.send_incoming (s : State) (m : Msg) : (s.send m).1.incoming = s.incoming := rfl
@[simp] theorem State.send_asleep (s : State) (m : Msg) : (s.send m).1.asleep = s.asleep := rfl
@[simp] theorem State.send_saving (s : State) (m : Msg) : (s.send m).1.saving = s.saving := rfl
@[simp] theorem State.send_thermal (s : State) (m : Msg) : (s.send m).1.thermal = s.thermal := rfl
@[simp] theorem State.send_saved (s : State) (m : Msg) : (s.send m).1.saved = s.saved := rfl
@[simp] theorem State.send_hcb (s : State) (m : Msg) : (s.send m).1.hcb = s.hcb := rfl
@[simp] theorem State.send_toHost (s : State) (m : Msg) : (s.send m).1.toHost = s.toHost := rfl
@[simp] theorem State.send_hostHeld (s : State) (m : Msg) : (s.send m).1.hostHeld = s.hostHeld := rfl
@[simp] theorem State.send_hostReqs (s : State) (m : Msg) : (s.send m).1.hostReqs = s.hostReqs := rfl
@[simp] theorem State.send_patrol (s : State) (m : Msg) : (s.send m).1.patrol = s.patrol := rfl
@[simp] theorem State.send_vpatrol (s : State) (m : Msg) : (s.send m).1.vpatrol = s.vpatrol := rfl
@[simp] theorem State.send_spares (s : State) (m : Msg) : (s.send m).1.spares = s.spares := rfl
@[simp] theorem State.send_rowsUsed (s : State) (m : Msg) : (s.send m).1.rowsUsed = s.rowsUsed := rfl
@[simp] theorem State.send_remapUsed (s : State) (m : Msg) : (s.send m).1.remapUsed = s.remapUsed := rfl
@[simp] theorem State.send_retirePend (s : State) (m : Msg) : (s.send m).1.retirePend = s.retirePend := rfl
@[simp] theorem State.send_move (s : State) (m : Msg) : (s.send m).1.move = s.move := rfl
@[simp] theorem State.send_summary (s : State) (m : Msg) : (s.send m).1.summary = s.summary := rfl
@[simp] theorem State.send_report (s : State) (m : Msg) : (s.send m).1.report = s.report := rfl
@[simp] theorem State.send_fwVersion (s : State) (m : Msg) : (s.send m).1.fwVersion = s.fwVersion := rfl
@[simp] theorem State.send_minSvn (s : State) (m : Msg) : (s.send m).1.minSvn = s.minSvn := rfl
@[simp] theorem State.send_links (s : State) (m : Msg) : (s.send m).1.links = s.links := rfl
@[simp] theorem State.send_past (s : State) (m : Msg) : (s.send m).1.past = s.past := rfl
@[simp] theorem State.send_quietAt (s : State) (m : Msg) : (s.send m).1.quietAt = s.quietAt := rfl
@[simp] theorem State.send_stops (s : State) (m : Msg) : (s.send m).1.stops = s.stops := rfl
@[simp] theorem State.send_net (s : State) (m : Msg) : (s.send m).1.net = s.net.insert s.nextId m := rfl
@[simp] theorem State.send_nextId (s : State) (m : Msg) : (s.send m).1.nextId = s.nextId + 1 := rfl
@[simp] theorem State.send_id (s : State) (m : Msg) : (s.send m).2 = s.nextId := rfl

/-! ## The fields that are written -/

@[simp] theorem State.withDisp_disp (s : State) (d : Disp) : (s.withDisp d).cur.disp = d := rfl
@[simp] theorem State.withDisp_core (s : State) (d : Disp) : (s.withDisp d).cur.core = s.cur.core := rfl
@[simp] theorem State.withDisp_slot (s : State) (d : Disp) : (s.withDisp d).cur.slot = s.cur.slot := rfl
@[simp] theorem State.withDisp_latch (s : State) (d : Disp) : (s.withDisp d).cur.latch = s.cur.latch := rfl
@[simp] theorem State.withDisp_word (s : State) (d : Disp) : (s.withDisp d).cur.word = s.cur.word := rfl
@[simp] theorem State.setFib_fibres (s : State) (c k : Nat) (f : Fibre) :
    (s.setFib c k f).fibres = s.fibres.setD (fibKey c k) f {} := rfl
@[simp] theorem State.setCore_cores (s : State) (c : Nat) (r : Core) : (s.setCore c r).cores = s.cores.setD c r {} := rfl
@[simp] theorem State.putMsg_net (s : State) (k : Nat) (m : Msg) : (s.putMsg k m).net = s.net.insert k m := rfl
@[simp] theorem State.dropMsg_net (s : State) (k : Nat) : (s.dropMsg k).net = s.net.erase k := rfl
@[simp] theorem State.setReg_regs (s : State) (off : Nat) (v : Word) :
    (s.setReg off v).regs = s.regs.setD off v (regReset off) := rfl
@[simp] theorem State.setByte_mem (s : State) (a : Nat) (b : Byte) :
    (s.setByte a b).mem = s.mem.setD (s.placeOf a) b 0 := rfl
@[simp] theorem State.setTile_tiles (s : State) (k : Nat) (d : Tile) : (s.setTile k d).tiles = s.tiles.setD k d {} := rfl
@[simp] theorem State.setTrace_trace (s : State) (k : Nat) (b : TraceBuf) :
    (s.setTrace k b).trace = s.trace.setD k b {} := rfl

end Sys2Proof.Machine
end

