-- ==== Sys2Proof/Laws/Memory.lean ====
section
/-!
SUPPORT. Memory: its canonical form, which every operation keeps, and reading a byte after writing one.
-/

namespace Sys2Proof.Machine

/-! ## Places -/

@[simp] theorem State.setByte_placeOf (s : State) (a : Nat) (b : Byte) (x : Nat) :
    (s.setByte a b).placeOf x = s.placeOf x := rfl

@[simp] theorem State.setBytes_placeOf (s : State) (a : Nat) (bs : List Byte) (x : Nat) :
    (s.setBytes a bs).placeOf x = s.placeOf x := by
  induction bs generalizing s a with
  | nil => rfl
  | cons b bs ih => simp [State.setBytes, ih]

/-- Only memory is written. -/
theorem State.setBytes_eq (s : State) (a : Nat) (bs : List Byte) :
    s.setBytes a bs = { s with mem := (s.setBytes a bs).mem } := by
  induction bs generalizing s a with
  | nil => rfl
  | cons b bs ih =>
    show (s.setByte a b).setBytes (a + 1) bs = _
    rw [ih]
    rfl

/-- Only host memory is written. -/
theorem State.setHostBytes_eq (s : State) (a : Nat) (bs : List Byte) :
    s.setHostBytes a bs = { s with hostMem := (s.setHostBytes a bs).hostMem } := by
  induction bs generalizing s a with
  | nil => rfl
  | cons b bs ih =>
    show State.setHostBytes { s with hostMem := s.hostMem.setD a b 0 } (a + 1) bs = _
    rw [ih]
    rfl

/-! ## The canonical form -/

theorem Memory.wf_reset : Memory.wf State.reset.mem = true := rfl

theorem State.setByte_wf (s : State) (a : Nat) (b : Byte) (h : Memory.wf s.mem = true) :
    Memory.wf (s.setByte a b).mem = true :=
  AMap.wf_setD 0 s.mem (s.placeOf a) b h

theorem State.setBytes_wf (s : State) (a : Nat) (bs : List Byte) (h : Memory.wf s.mem = true) :
    Memory.wf (s.setBytes a bs).mem = true := by
  induction bs generalizing s a with
  | nil => exact h
  | cons b bs ih => exact ih (s.setByte a b) (a + 1) (s.setByte_wf a b h)

theorem State.setHostBytes_wf (s : State) (a : Nat) (bs : List Byte) (h : Memory.wf s.hostMem = true) :
    Memory.wf (s.setHostBytes a bs).hostMem = true := by
  induction bs generalizing s a with
  | nil => exact h
  | cons b bs ih =>
    exact ih { s with hostMem := s.hostMem.setD a b 0 } (a + 1) (AMap.wf_setD 0 s.hostMem a b h)

/-! ## Reading after writing -/

/-- The byte that was stored is read. -/
theorem State.setByte_byte_self (s : State) (a : Nat) (b : Byte) (h : Memory.wf s.mem = true) :
    (s.setByte a b).byte a = b :=
  AMap.getD_setD_self 0 s.mem (s.placeOf a) b h

/-- A byte at another place is as before. -/
theorem State.setByte_byte_other (s : State) (a x : Nat) (b : Byte) (h : Memory.wf s.mem = true)
    (hx : s.placeOf x ≠ s.placeOf a) : (s.setByte a b).byte x = s.byte x :=
  AMap.getD_setD_other 0 s.mem (s.placeOf a) (s.placeOf x) b h hx

/-- A byte outside those stored is as before. -/
theorem State.setBytes_byte_other (s : State) (a x : Nat) (bs : List Byte) (h : Memory.wf s.mem = true)
    (hx : ∀ i, i < bs.length → s.placeOf x ≠ s.placeOf (a + i)) : (s.setBytes a bs).byte x = s.byte x := by
  induction bs generalizing s a with
  | nil => rfl
  | cons b bs ih =>
    show ((s.setByte a b).setBytes (a + 1) bs).byte x = s.byte x
    rw [ih (s.setByte a b) (a + 1) (s.setByte_wf a b h)]
    · exact s.setByte_byte_other a x b h (by simpa using hx 0 (by simp))
    · intro i hi
      have := hx (i + 1) (by simpa using hi)
      simpa [Nat.add_assoc, Nat.add_comm 1 i] using this

/-- The bytes stored are read, when no two of them have one place. -/
theorem State.setBytes_byte_self (s : State) (a : Nat) (bs : List Byte) (h : Memory.wf s.mem = true)
    (hd : ∀ i j, i < bs.length → j < bs.length → i ≠ j → s.placeOf (a + i) ≠ s.placeOf (a + j))
    (k : Nat) (hk : k < bs.length) : (s.setBytes a bs).byte (a + k) = bs[k] := by
  induction bs generalizing s a k with
  | nil => simp at hk
  | cons b bs ih =>
    show ((s.setByte a b).setBytes (a + 1) bs).byte (a + k) = (b :: bs)[k]
    cases k with
    | zero =>
      rw [(s.setByte a b).setBytes_byte_other (a + 1) (a + 0) bs (s.setByte_wf a b h)]
      · simpa using s.setByte_byte_self a b h
      · intro i hi
        have := hd 0 (i + 1) (by simp) (by simpa using hi) (by omega)
        simpa [Nat.add_assoc, Nat.add_comm 1 i] using this
    | succ k =>
      have := ih (s.setByte a b) (a + 1) (s.setByte_wf a b h)
        (by
          intro i j hi hj hij
          have := hd (i + 1) (j + 1) (by simpa using hi) (by simpa using hj) (by omega)
          simpa [Nat.add_assoc, Nat.add_comm 1 i, Nat.add_comm 1 j] using this)
        k (by simpa using hk)
      simpa [Nat.add_assoc, Nat.add_comm 1 k] using this

end Sys2Proof.Machine
end

