-- ==== Sys2Proof/Laws/Slots.lean ====
section
/-!
SUPPORT. What the shared shapes of a slot do: when an instruction acts, waits or traps.
-/

namespace Sys2Proof.Machine

/-! ## A slot's three ends -/

theorem slotA_go (i : Instr) (s : State) (act : State → Out) (h : s.ready i = .go) : slotA i s act = act s := by
  simp [slotA, h]
theorem slotA_wait (i : Instr) (s : State) (act : State → Out) (n : Need) (p : Bool) (h : s.ready i = .wait n p) :
    slotA i s act = if p then s.endPark (s.waitCode n) n else s.endStall := by
  simp [slotA, h]
theorem slotA_trap (i : Instr) (s : State) (act : State → Out) (c : Nat) (v : Word) (h : s.ready i = .trap c v) :
    slotA i s act = s.endTrap true c (if c = 0x02 then s.bundleWord else v) := by
  simp [slotA, h]
theorem slotC_go (i : Instr) (s : State) (act : State → Out) (h : s.ready i = .go) : slotC i s act = act s := by
  simp [slotC, h]
theorem slotC_wait (i : Instr) (s : State) (act : State → Out) (n : Need) (p : Bool) (h : s.ready i = .wait n p) :
    slotC i s act = if p then s.endPark (s.waitCode n) n else s.endStall := by
  simp [slotC, h]
theorem slotC_trap (i : Instr) (s : State) (act : State → Out) (c : Nat) (v : Word) (h : s.ready i = .trap c v) :
    slotC i s act = s.endTrap false c (if c = 0x02 then s.bundleWord else v) := by
  simp [slotC, h]
theorem memSlot_go (i : Instr) (s : State) (act : State → Out) (h : s.ready i = .go) (hr : s.me.recs = 0) :
    memSlot i s act = act s := by
  simp [memSlot, slotC_go i s _ h, hr]

/-! ## The shapes of the A slot's instructions -/

theorem intNow_go (i : Instr) (xd : XR) (f : State → Word) (s : State) (h : s.ready i = .go) :
    intNow i xd f s = .next (s.wroteX xd (f s)) := by
  rw [intNow, slotA_go i s _ h]; rfl
theorem intLater_go (i : Instr) (xd : XR) (f : State → Word) (s : State) (h : s.ready i = .go) :
    intLater i xd f s = .next (s.sentX xd (f s) 0) := by
  rw [intLater, slotA_go i s _ h]; rfl

end Sys2Proof.Machine
end

