-- ==== Sys2Proof/Tests/Slice0.lean ====
section
/-!
SUPPORT. Tests: words of every instruction decoded, operands that are refused, single steps and the examples of the spec, and
for every statement in `Certificates/Slice0/Obligations.lean` concrete states that meet the hypotheses of its clauses.
-/

set_option Elab.async false
set_option linter.unusedVariables false

open Sys2Proof Sys2Proof.Machine

/-- The state with an x register of the running fibre set. -/
def Sys2Proof.Machine.State.x (s : State) (i : XR) (v : Word) : State := s.setX i v
/-- The state with a v register of the running core set. -/
def Sys2Proof.Machine.State.v4 (s : State) (r : VR) (a b c d : Lane) : State := s.setV r 0xF fun k => (#v[a, b, c, d] : Vector Lane 4).get k

namespace Sys2Proof.Tests

/-! ## Small states and values -/

/-- A site. -/
def dSite : Site := ⟨0, 0, 0, 0, .strict, false⟩
/-- An entry of a block-assembly buffer. -/
def dBabEntry : BabEntry := { blk := 0, bytes := [], mark := none }
/-- The fetch of an MMA. -/
def dMmaFetch : MmaFetch := { core := 2, slot := 0, p := 2, fmt := 0, len := 32, rows := [] }
/-- An MMA that accumulates. -/
def dMmaJob : MmaJob := { p := 2, wide := false, fmt := 0, a := [], b := [], ea := 0, eb := 0, ma := 0, mb := 0 }
/-- An access. -/
def dAcc : Acc :=
  { owner := .nobody, tid := 0, ctx := 0, va := 0, pa := 0, len := 8, ty := .release, cls := {}, op := .read .none }
/-- A collective entry. -/
def dColl : Coll :=
  { st := .armed, core := 0, slot := 0, tid := 0, ctx := 0, blk := 0, nb := 1, cid := 0, seq := 0, hash := 0, op := 0, etype := 0,
    allred := false, pkind := 0, group := 0, root := 0, step := 1, n := 1, rank := 0, dest := [] }
/-- A partial. -/
def dPartial : Partial :=
  { tenant := 0, cid := 1, seq := 2, group := 0, hash := 0, level := 0, chunk := 0, rank := 0, right := false,
    vals := List.replicate 16 0, eps := [], bad := false, inex := false, emax := none, root := 0, step := 1, n := 4, op := 0 }
/-- A message. -/
def dMsg : Msg := .ack .nobody
/-- A routine. -/
def dDRoutine : DRoutine := ⟨1, false, []⟩
/-- A loaded routine. -/
def dRoutine : Routine := ⟨1, false, []⟩
/-- A kill. -/
def dKill : Kill := { ctx := 3, reason := 1 }
/-- A launch. -/
def dLaunch : Launch := { q := 1, ctx := 3, level := 0, irq := false, done := 0x1000, win := 5, notified := true }
/-- A saved context. -/
def dSaved : Saved := { part := 0, tiles := [], cores := [], fibres := [], groups := [], words := [] }
/-- A fibre on its way. -/
def dTravel : Travel := { ctx := 0, core := 3, slot := none, f := { tid := 5 } }
/-- A leaf entry. -/
def dLeaf : Leaf := ⟨2, 0, 0⟩
/-- A launch packet. -/
def dPacket : Packet := Packet.ofBytes []
/-- The way of a message. -/
def dRoute : Route := { tenant := 0, src := 0, tap := 0, dst := 0, vc := 0 }
/-- A page move. -/
def dMove : Move := { src := 1, dst := 2 }
/-- What a translation gives, or a default. -/
def locD {α : Type} (d : α) (p : Loc α × State) : α := match p.1 with | .ok x => x | _ => d
/-- What a synchronous read gives. -/
def syncD (r : SyncRead) : List Byte × State := match r with | .data b s => (b, s) | .stop _ => ([], {})
/-- Core `c` with a fibre that holds the anchor, in system mode, and with pages of each type. -/
def tst (c : Nat) : State :=
  let s := State.reset.setFib c 0 { placedFibre with anc := true }
  let s := s.modCore c fun r => { r with hotH := { slot := some 0, qtm := 1024 }, anchor := some 0 }
  let page (n a : Nat) (ty : PageType) : TlbEntry := { placedPage with vpn := n, pa := a, ty := ty }
  let s := s.setTlb c [placedPage, page 1 0x10000 .once, page 2 0x20000 .strict, page 3 0x100400000000 .release,
    page 4 0x100400000000 .strict, page 5 0x100400000000 .once, page 6 0x100000000000 .strict, page 7 0x100000000000 .once]
  let s := s.setRegF 0x1B0000 0 1 1
  { s with cur := { core := c, slot := 0 } }
/-- A synchronous read that gives data gives what `syncD` takes from it. -/
theorem data_of (r : SyncRead) (h : (match r with | .data .. => true | .stop _ => false) = true) :
    r = .data (syncD r).1 (syncD r).2 := by
  cases r with
  | data b s => rfl
  | stop o => cases h
/-- A sum that is on the right is what its right side holds. -/
theorem inr_of {α β γ : Type} (o : (α ⊕ List β) × γ) (h : o.1.isRight = true) :
    o = (.inr (match o.1 with | .inr g => g | _ => []), o.2) := by
  obtain ⟨x | y, s⟩ := o
  · cases h
  · rfl

/-- What an outcome is when it is a next state. -/
def nextOf : Out → State
  | .next t => t
  | _ => {}
def isNext : Out → Bool
  | .next _ => true
  | _ => false

/-- The state in which core 0 executes the bundle of two words next. -/
def runs (w0 w1 : Nat) : State := { (tst 0).setBytes 0 (bytesOfNat 4 w0 ++ bytesOfNat 4 w1) with plan := [.core 0] }
/-- The state in which its fibre has been chosen. -/
def picked (s : State) : State :=
  { (({ s with plan := [] } : State).choose 0 true).choose 0 false with cur := { core := 0, slot := 0 } }
/-- The state in which its words have been fetched. -/
def fetched (s : State) (w0 w1 : Nat) : State :=
  let f := ((picked s).fetchAt 0 0).2
  { f with cur := { f.cur with word := BitVec.ofNat 64 (w0 + w1 * 2 ^ 32) } }
/-- What the statement about the step asks of the state after a bundle. -/
def ends (t : State) : Bool := t.cur.disp != .stalled && !t.quantumOver 0 true && !t.quantumOver 0 false


/-! ## Decoding: words written out from the encoding tables (R41 to R48) -/

/-- A C-slot word: bit 31 is 1, the opcode in 30:25, the format in 24:0 (R34, R41). -/
def wordC (op : BitVec 6) (f : BitVec 25) : Words := .c (1#1 ++ op ++ f).toNat
/-- An A-slot word: the opcode in 31:26, the format in 25:0 (R43). -/
def wordA (op : BitVec 6) (f : BitVec 26) : Words := .a (op ++ f).toNat
/-- A long bundle: bit 31 of W0 is 0, the opcode in 30:24, the format in 23:0 and W1 (R45). -/
def wordL (op : BitVec 7) (f : BitVec 24) (w1 : BitVec 32) : Words := .long (0#1 ++ op ++ f).toNat w1.toNat

theorem test_decode_branches :
    decodeOne (wordC 0x00 0) = some .nopc
      ∧ decodeOne (wordC 0x01 (3#3 ++ 5#3 ++ 0x40001#19)) = some (.beq 3 5 0x40001)
      ∧ decodeOne (wordC 0x02 (3#3 ++ 5#3 ++ 0x00002#19)) = some (.bne 3 5 2)
      ∧ decodeOne (wordC 0x03 (3#3 ++ 5#3 ++ 0x00002#19)) = some (.blt 3 5 2)
      ∧ decodeOne (wordC 0x04 (3#3 ++ 5#3 ++ 0x00002#19)) = some (.bge 3 5 2)
      ∧ decodeOne (wordC 0x05 (3#3 ++ 5#3 ++ 0x00002#19)) = some (.bltu 3 5 2)
      ∧ decodeOne (wordC 0x06 (3#3 ++ 5#3 ++ 0x00002#19)) = some (.bgeu 3 5 2)
      ∧ decodeOne (wordC 0x07 (6#3 ++ 0#3 ++ 0x7FFFF#19)) = some (.bz 6 0x7FFFF)
      ∧ decodeOne (wordC 0x08 (6#3 ++ 0#3 ++ 0x7FFFF#19)) = some (.bnz 6 0x7FFFF)
      ∧ decodeOne (wordC 0x09 0x1FFFFFE#25) = some (.j 0x1FFFFFE)
      ∧ decodeOne (wordC 0x0A 0x0000010#25) = some (.jal 16)
      ∧ decodeOne (wordC 0x0B (0#3 ++ 4#3 ++ 0#19)) = some (.jr 4) := by
  decide +kernel

theorem test_decode_loads_and_stores :
    decodeOne (wordC 0x10 (3#3 ++ 5#3 ++ 2#2 ++ 1#1 ++ 1#1 ++ 4#3 ++ 0x010#12)) = some (.ld .w true (some .package) 3 5 16)
      ∧ decodeOne (wordC 0x10 (3#3 ++ 5#3 ++ 3#2 ++ 0#1 ++ 0#1 ++ 0#3 ++ 0xFF8#12)) = some (.ld .d false none 3 5 0xFF8)
      ∧ decodeOne (wordC 0x11 (3#3 ++ 5#3 ++ 1#2 ++ 0#1 ++ 1#1 ++ 1#3 ++ 0x010#12)) = some (.st .h (some .tile) 3 5 16)
      ∧ decodeOne (wordC 0x12 (9#4 ++ 5#3 ++ 1#1 ++ 2#2 ++ 0#3 ++ 0x010#12)) = some (.vld 9 5 (some 2) 16)
      ∧ decodeOne (wordC 0x13 (9#4 ++ 5#3 ++ 0#1 ++ 0#2 ++ 0#3 ++ 0x010#12)) = some (.vst 9 5 none 16)
      ∧ decodeOne (wordC 0x14 (3#3 ++ 5#3 ++ 6#3 ++ 0#2 ++ 1#1 ++ 0#1 ++ 0x001#12)) = some (.ldg .b true 3 5 6 1)
      ∧ decodeOne (wordC 0x15 (5#3 ++ 0x301#10 ++ 0x008#12)) = some (.savem 5 0x301 8)
      ∧ decodeOne (wordC 0x16 (5#3 ++ 0x301#10 ++ 0x008#12)) = some (.loadm 5 0x301 8)
      ∧ decodeOne (wordC 0x17 (0#3 ++ 5#3 ++ 1#2 ++ 0#5 ++ 0x008#12)) = some (.pref true 5 8)
      ∧ decodeOne (wordC 0x18 (0#3 ++ 5#3 ++ 0#7 ++ 0x008#12)) = some (.sealb 5 8)
      ∧ decodeOne (wordC 0x19 (0#3 ++ 5#3 ++ 0#7 ++ 0x008#12)) = some (.clr 5 8)
      ∧ decodeOne (wordC 0x1A (3#3 ++ 5#3 ++ 0#7 ++ 0x008#12)) = some (.probe 3 5 8)
      ∧ decodeOne (wordC 0x1B (0#3 ++ 5#3 ++ 0#7 ++ 0x008#12)) = some (.bwait 5 8) := by
  decide +kernel

theorem test_decode_atomics_and_fibres :
    decodeOne (wordC 0x20 (1#3 ++ 2#3 ++ 3#3 ++ 8#4 ++ 1#1 ++ 3#2 ++ 2#3 ++ 1#1 ++ 0#5))
        = some (.amo .swap .d .ar .sector true 1 3 2)
      ∧ decodeOne (wordC 0x21 (1#3 ++ 2#3 ++ 3#3 ++ 2#4 ++ 0#1 ++ 1#2 ++ 4#3 ++ 0#1 ++ 0#5))
        = some (.famo .max .acq .package false 1 3 2)
      ∧ decodeOne (wordC 0x22 (1#3 ++ 2#3 ++ 3#3 ++ 0#4 ++ 1#1 ++ 0#2 ++ 4#3 ++ 0#1 ++ 0#5)) = some (.decj .d false 1 2 3)
      ∧ decodeOne (wordC 0x28 0) = some .exit ∧ decodeOne (wordC 0x29 0) = some .yield
      ∧ decodeOne (wordC 0x2A (0#3 ++ 4#3 ++ 1#19)) = some (.migrate true 4)
      ∧ decodeOne (wordC 0x2B (4#3 ++ 0#3 ++ 1#19)) = some (.anchorClaim 4)
      ∧ decodeOne (wordC 0x2B (4#3 ++ 0#3 ++ 0#19)) = some (.anchorFree 4)
      ∧ decodeOne (wordC 0x2C (4#3 ++ 0#3 ++ 3#19)) = some (.self .save 4)
      ∧ decodeOne (wordC 0x30 (0#3 ++ 0#3 ++ 0#12 ++ 5#3 ++ 9#4)) = some (.fence 9 .span)
      ∧ decodeOne (wordC 0x31 0) = some .push ∧ decodeOne (wordC 0x32 0) = some .pull
      ∧ decodeOne (wordC 0x38 (0#3 ++ 0#3 ++ 0#3 ++ 0x1234#16)) = some (.trap 0x1234)
      ∧ decodeOne (wordC 0x39 0) = some .rtt
      ∧ decodeOne (wordC 0x3A (4#3 ++ 0#3 ++ 0#7 ++ 0x021#12)) = some (.mfs 4 0x021)
      ∧ decodeOne (wordC 0x3B (0#3 ++ 4#3 ++ 0#7 ++ 0x004#12)) = some (.mts 4 4)
      ∧ decodeOne (wordC 0x3C (0#3 ++ 0#3 ++ 0#3 ++ 0x1234#16)) = some (.brk 0x1234)
      ∧ decodeOne (wordC 0x3D (4#3 ++ 0#3 ++ 0#15 ++ 8#4)) = some (.idr 4 8) := by
  decide +kernel

/-- An AR word: xd, xa, xb, xc, sz, fn, rm. -/
def ar (xd xa xb xc : BitVec 3) (sz : BitVec 1) (fn : BitVec 4) (rm : BitVec 3) : BitVec 26 :=
  xd ++ xa ++ xb ++ xc ++ sz ++ fn ++ rm ++ 0#6

theorem test_decode_integers :
    decodeOne (wordA 0x00 0) = some .nopa
      ∧ decodeOne (wordA 0x01 (ar 1 2 3 0 1 0 0)) = some (.add .d 1 2 3) ∧ decodeOne (wordA 0x02 (ar 1 2 3 0 0 0 0)) = some (.sub .w 1 2 3)
      ∧ decodeOne (wordA 0x03 (ar 1 2 3 0 1 0 0)) = some (.mul .d 1 2 3) ∧ decodeOne (wordA 0x04 (ar 1 2 3 0 1 1 0)) = some (.mulh true .d 1 2 3)
      ∧ decodeOne (wordA 0x05 (ar 1 2 3 0 0 0 0)) = some (.div false .w 1 2 3) ∧ decodeOne (wordA 0x06 (ar 1 2 3 0 0 1 0)) = some (.rem true .w 1 2 3)
      ∧ decodeOne (wordA 0x07 (ar 1 2 3 0 1 0 0)) = some (.and .d 1 2 3) ∧ decodeOne (wordA 0x08 (ar 1 2 3 0 1 0 0)) = some (.or .d 1 2 3)
      ∧ decodeOne (wordA 0x09 (ar 1 2 3 0 1 0 0)) = some (.xor .d 1 2 3) ∧ decodeOne (wordA 0x0A (ar 1 2 3 0 1 0 0)) = some (.andn .d 1 2 3)
      ∧ decodeOne (wordA 0x0B (ar 1 2 3 0 1 0 0)) = some (.shl .d 1 2 3) ∧ decodeOne (wordA 0x0C (ar 1 2 3 0 1 0 0)) = some (.shr .d 1 2 3)
      ∧ decodeOne (wordA 0x0D (ar 1 2 3 0 1 0 0)) = some (.sra .d 1 2 3) ∧ decodeOne (wordA 0x0E (ar 1 2 3 0 1 0 0)) = some (.rol .d 1 2 3)
      ∧ decodeOne (wordA 0x0F (ar 1 2 3 0 1 1 0)) = some (.min true .d 1 2 3) ∧ decodeOne (wordA 0x10 (ar 1 2 3 0 1 0 0)) = some (.max false .d 1 2 3)
      ∧ decodeOne (wordA 0x11 (ar 1 2 3 0 1 1 0)) = some (.slt true .d 1 2 3) ∧ decodeOne (wordA 0x12 (ar 1 2 3 0 1 0 0)) = some (.seteq .d 1 2 3)
      ∧ decodeOne (wordA 0x13 (ar 1 2 3 0 1 0 0)) = some (.setne .d 1 2 3) ∧ decodeOne (wordA 0x14 (ar 1 2 0 0 1 0 0)) = some (.clz .d 1 2)
      ∧ decodeOne (wordA 0x15 (ar 1 2 0 0 1 0 0)) = some (.ctz .d 1 2) ∧ decodeOne (wordA 0x16 (ar 1 2 0 0 1 0 0)) = some (.popc .d 1 2)
      ∧ decodeOne (wordA 0x17 (ar 1 2 0 0 0 2 0)) = some (.sext .w 1 2) ∧ decodeOne (wordA 0x18 (ar 1 2 0 0 0 1 0)) = some (.zext .h 1 2)
      ∧ decodeOne (wordA 0x19 (ar 1 2 3 4 1 0 0)) = some (.sel .d 1 2 3 4) ∧ decodeOne (wordA 0x1A (ar 1 2 0 0 0 0 0)) = some (.mov 1 2)
      ∧ decodeOne (wordA 0x1B (1#3 ++ 2#3 ++ 1#1 ++ 0x7FFFF#19)) = some (.addi .d 1 2 0x7FFFF)
      ∧ decodeOne (wordA 0x1C (1#3 ++ 2#3 ++ 0#1 ++ 0x00005#19)) = some (.andi .w 1 2 5)
      ∧ decodeOne (wordA 0x1D (1#3 ++ 2#3 ++ 1#1 ++ 0x00005#19)) = some (.ori .d 1 2 5)
      ∧ decodeOne (wordA 0x1E (1#3 ++ 2#3 ++ 1#1 ++ 0x00005#19)) = some (.xori .d 1 2 5)
      ∧ decodeOne (wordA 0x1F (1#3 ++ 2#3 ++ 1#1 ++ 0#10 ++ 2#2 ++ 0#1 ++ 63#6)) = some (.shi .sra .d 1 2 63) := by
  decide +kernel

/-- An AV word: vd, va, vb, vc, me, mk, rm, fn. -/
def av (vd va vb vc : BitVec 4) (me : BitVec 1) (mk : BitVec 2) (rm : BitVec 3) (fn : BitVec 4) : BitVec 26 :=
  vd ++ va ++ vb ++ vc ++ me ++ mk ++ rm ++ fn

theorem test_decode_floats_and_vectors :
    decodeOne (wordA 0x20 (ar 1 2 3 0 0 0 4)) = some (.fadd .rup 1 2 3) ∧ decodeOne (wordA 0x21 (ar 1 2 3 0 0 0 1)) = some (.fsub .rne 1 2 3)
      ∧ decodeOne (wordA 0x22 (ar 1 2 3 0 0 0 2)) = some (.fmul .rtz 1 2 3) ∧ decodeOne (wordA 0x23 (ar 1 2 3 0 0 0 3)) = some (.fdiv .rdn 1 2 3)
      ∧ decodeOne (wordA 0x24 (ar 1 2 0 0 0 0 0)) = some (.fsqrt .dyn 1 2) ∧ decodeOne (wordA 0x25 (ar 1 2 3 4 0 0 0)) = some (.fma .dyn 1 2 3 4)
      ∧ decodeOne (wordA 0x26 (ar 1 2 3 0 0 0 0)) = some (.fmin 1 2 3) ∧ decodeOne (wordA 0x27 (ar 1 2 3 0 0 0 0)) = some (.fmax 1 2 3)
      ∧ decodeOne (wordA 0x28 (ar 1 2 3 0 0 2 0)) = some (.fsgn .xor 1 2 3) ∧ decodeOne (wordA 0x29 (ar 1 2 3 0 0 3 0)) = some (.fcmp .un 1 2 3)
      ∧ decodeOne (wordA 0x2A (ar 1 2 0 0 0 11 0)) = some (.fcvt .fromf16 .dyn 1 2) ∧ decodeOne (wordA 0x2B (ar 1 2 0 0 0 0 0)) = some (.fclass 1 2)
      ∧ decodeOne (wordA 0x2C (av 1 2 3 0 1 2 1 0)) = some (.vadd .rne 1 2 3 (some 2)) ∧ decodeOne (wordA 0x2D (av 1 2 3 0 0 0 0 0)) = some (.vsub .dyn 1 2 3 none)
      ∧ decodeOne (wordA 0x2E (av 1 2 3 0 0 0 0 0)) = some (.vmul .dyn 1 2 3 none) ∧ decodeOne (wordA 0x2F (av 1 2 3 15 0 0 0 0)) = some (.vfma .dyn 1 2 3 15 none)
      ∧ decodeOne (wordA 0x30 (av 1 2 3 0 0 0 0 0)) = some (.vdiv .dyn 1 2 3 none) ∧ decodeOne (wordA 0x31 (av 1 2 0 0 0 0 0 0)) = some (.vsqrt .dyn 1 2 none)
      ∧ decodeOne (wordA 0x32 (av 1 2 3 0 0 0 0 0)) = some (.vmin 1 2 3 none) ∧ decodeOne (wordA 0x33 (av 1 2 3 0 0 0 0 0)) = some (.vmax 1 2 3 none)
      ∧ decodeOne (wordA 0x34 (av 1 2 0 0 0 0 0 0)) = some (.vexp2 .dyn 1 2 none) ∧ decodeOne (wordA 0x35 (av 1 2 0 0 0 0 0 0)) = some (.vlog2 .dyn 1 2 none)
      ∧ decodeOne (wordA 0x36 (av 1 2 3 0 0 0 0 12)) = some (.vint .maxu 1 2 3 none) ∧ decodeOne (wordA 0x37 (av 3 2 1 0 0 0 0 6)) = some (.vcmp .iltu 3 2 1 none)
      ∧ decodeOne (wordA 0x38 (av 1 2 3 0 1 3 0 0)) = some (.vselm 1 2 3 3) ∧ decodeOne (wordA 0x39 (av 7 2 0 0 0 0 2 0)) = some (.vred .add .rtz 7 2 none)
      ∧ decodeOne (wordA 0x3A (av 1 2 0 3 0 0 0 1)) = some (.vperm (.rot 3) 1 2 none) ∧ decodeOne (wordA 0x3B (av 1 2 0 0 0 0 0 2)) = some (.vcvt .touns .dyn 1 2 none)
      ∧ decodeOne (wordA 0x3C (av 1 2 3 0 0 0 0 3)) = some (.vmask .andn 1 2 3) ∧ decodeOne (wordA 0x3C (av 1 2 0 0 0 0 0 4)) = some (.vmaskNot 1 2)
      ∧ decodeOne (wordA 0x3C (av 3 7 0 0 0 0 0 5)) = some (.vmaskFromx 3 7) ∧ decodeOne (wordA 0x3C (av 7 3 0 0 0 0 0 6)) = some (.vmaskTox 7 3) := by
  decide +kernel

theorem test_decode_long_moves_and_memory :
    decodeOne (wordL 0x00 (1#3 ++ 0#5 ++ 0x8000#16) 0x00000003) = some (.movi 1 0x800000000003)
      ∧ decodeOne (wordL 0x01 (1#3 ++ 0#5 ++ 0x8000#16) 0) = some (.movhi 1 0x8000)
      ∧ decodeOne (wordL 0x02 (1#3 ++ 2#3 ++ 0#3 ++ 1#2 ++ 1#1 ++ 1#1 ++ 2#3 ++ 0#8) 0xFFFFFFF8) = some (.ldl .h true (some .sector) 1 2 0xFFFFFFF8)
      ∧ decodeOne (wordL 0x03 (0#3 ++ 2#3 ++ 1#3 ++ 3#2 ++ 0#1 ++ 0#1 ++ 0#3 ++ 0#8) 0xFFFFFFF8) = some (.stl .d none 1 2 0xFFFFFFF8)
      ∧ decodeOne (wordL 0x04 (0#11 ++ 0x1FFF#13) 0xFFFFFFFF) = some (.jl 0x1FFFFFFFFFFF)
      ∧ decodeOne (wordL 0x05 (0#11 ++ 0x0001#13) 0x00000002) = some (.calll 0x100000002)
      ∧ decodeOne (wordL 0x06 (1#3 ++ 2#3 ++ 3#3 ++ 0#4 ++ 1#1 ++ 2#2 ++ 4#3 ++ 1#1 ++ 0#4) 8) = some (.cas .d .rel .package true 1 3 2 8)
      ∧ decodeOne (wordL 0x07 (1#3 ++ 2#3 ++ 3#3 ++ 3#4 ++ 0#1 ++ 0#2 ++ 4#3 ++ 0#1 ++ 0#4) 8) = some (.amol .xor .w .relaxed .package false 1 3 2 8)
      ∧ decodeOne (wordL 0x10 (9#4 ++ 2#3 ++ 3#3 ++ 0#4 ++ 1#1 ++ 2#2 ++ 0#7) 16) = some (.vlds 9 2 3 (some 2) 16)
      ∧ decodeOne (wordL 0x11 (9#4 ++ 2#3 ++ 3#3 ++ 0#4 ++ 0#1 ++ 0#2 ++ 0#7) 16) = some (.vsts 9 2 3 none 16)
      ∧ decodeOne (wordL 0x12 (9#4 ++ 2#3 ++ 0#3 ++ 11#4 ++ 0#1 ++ 0#2 ++ 0#5 ++ 3#2) 16) = some (.vgath 9 2 11 3 none 16)
      ∧ decodeOne (wordL 0x13 (9#4 ++ 2#3 ++ 0#3 ++ 11#4 ++ 0#1 ++ 0#2 ++ 0#5 ++ 2#2) 16) = some (.vscat 9 2 11 2 none 16)
      ∧ decodeOne (wordL 0x14 (3#2 ++ 2#3 ++ 0#3 ++ 0#16) 0) = some (.sbind 3 2)
      ∧ decodeOne (wordL 0x15 (3#2 ++ 0#3 ++ 0#3 ++ 0#16) 0) = some (.sfree 3)
      ∧ decodeOne (wordL 0x16 (3#2 ++ 0#3 ++ 5#3 ++ 0#16) 0) = some (.sstat 5 3) := by
  decide +kernel

/-- An LE word: ec, p, xa, xb, xc, xr, rv, f. -/
def le (ec : BitVec 2) (p xa xb xc xr : BitVec 3) (rv : BitVec 1) (f : BitVec 6) : BitVec 24 :=
  ec ++ p ++ xa ++ xb ++ xc ++ xr ++ rv ++ f

theorem test_decode_matrix_and_bounds :
    decodeOne (wordL 0x20 (le 0 2 0 0 0 0 0 0x18) 200) = some (.mbegin .reissue true 2 200)
      ∧ decodeOne (wordL 0x21 (le 3 2 4 5 0 0 0 0) 0x40) = some (.mma 2 4 5 0x40)
      ∧ decodeOne (wordL 0x22 (le 0 7 0 0 0 0 0 0) 0) = some (.mend 7)
      ∧ decodeOne (wordL 0x23 (le 2 7 4 0 0 0 0 0) 0x80) = some (.mst 7 4 0x80)
      ∧ decodeOne (wordL 0x24 (le 0 7 0 0 0 0 0 0) 0) = some (.mzero 7)
      ∧ decodeOne (wordL 0x25 (le 0 7 0 0 0 0 0 (9#4 ++ 0#2)) (0#21 ++ 6#3 ++ 0#3 ++ 31#5)) = some (.mrv 9 7 31 6)
      ∧ decodeOne (wordL 0x26 (le 0 7 0 0 0 0 0 (9#4 ++ 0#2)) (0#21 ++ 6#3 ++ 0#3 ++ 31#5)) = some (.mva 7 9 31 6)
      ∧ decodeOne (wordL 0x27 (le 0 7 0 0 0 0 0 0) 0xE5) = some (.mscl 7 5 14)
      ∧ decodeOne (wordL 0x28 (le 0 7 0 0 0 3 1 0) 0) = some (.mstat 3 7)
      ∧ decodeOne (wordL 0x30 (le 0 7 0 0 0 3 1 0) 0) = some (.bget 3 7)
      ∧ decodeOne (wordL 0x31 (le 0 7 4 0 0 0 0 0) 0) = some (.bset 7 4)
      ∧ decodeOne (wordL 0x32 (le 0 7 0 0 0 0 0 0x20) 9) = some (.bthr .trap 7 9)
      ∧ decodeOne (wordL 0x33 (le 0 0 4 0 0 3 1 0) 0) = some (.bblk 3 4)
      ∧ decodeOne (wordL 0x33 (le 0 0 4 5 0 0 0 1) 0) = some (.bblkSet 4 5)
      ∧ decodeOne (wordL 0x34 (le 0 0 4 5 0 0 0 0) 0) = some (.bmark 4 5) := by
  decide +kernel

theorem test_decode_engines :
    decodeOne (wordL 0x38 (le 1 7 4 5 0 3 1 0) (0x3FF#10 ++ 1#1 ++ 0x000040#21)) = some (.cpy 7 5 4 0x40 (some 0x3FF) (some 3))
      ∧ decodeOne (wordL 0x39 (le 1 7 4 5 6 0 0 0) (0#10 ++ 0#1 ++ 5#9 ++ 7#12)) = some (.cpyg 7 5 4 6 5 7 none none)
      ∧ decodeOne (wordL 0x3A (le 1 7 4 5 6 0 0 0) (0#10 ++ 0#1 ++ 5#9 ++ 7#12)) = some (.cpys 7 5 4 6 5 7 none none)
      ∧ decodeOne (wordL 0x3B (le 1 7 4 5 6 0 0 0) (0#10 ++ 0#1 ++ 9#21)) = some (.cpyt 7 5 4 6 9 none none)
      ∧ decodeOne (wordL 0x3C (le 1 7 4 5 0 0 0 0) (0#10 ++ 0#1 ++ 0x40#21)) = some (.cpyc 7 5 4 0x40 none none)
      ∧ decodeOne (wordL 0x3D (le 1 7 4 0 6 0 0 15) (5#10 ++ 1#1 ++ 0#21)) = some (.cpyk 7 15 4 6 (some 5) none)
      ∧ decodeOne (wordL 0x3E (le 0 7 0 0 0 3 1 0) 0) = some (.cpywWait 7 3)
      ∧ decodeOne (wordL 0x3E (le 0 7 0 0 0 3 1 1) 0) = some (.cpywQuery 7 3)
      ∧ decodeOne (wordL 0x40 (le 2 3 4 5 6 0 0 0x13) (0#10 ++ 0#1 ++ 0#5 ++ 9#16)) = some (.cvq ⟨true, false, 3⟩ 3 5 4 6 9 none none)
      ∧ decodeOne (wordL 0x41 (le 2 3 4 5 6 0 0 0x0C) (0#10 ++ 0#1 ++ 0#5 ++ 9#16)) = some (.cvd ⟨false, true, 4⟩ 3 5 4 6 9 none none)
      ∧ decodeOne (wordL 0x42 (le 2 3 4 5 6 0 0 0x0C) (0#10 ++ 0#1 ++ 0x13#5 ++ 9#16))
        = some (.cvr ⟨true, false, 3⟩ ⟨false, true, 4⟩ 3 5 4 6 9 none none)
      ∧ decodeOne (wordL 0x43 (le 0 3 0 0 0 3 1 0) 0) = some (.cvwWait 3 3)
      ∧ decodeOne (wordL 0x43 (le 0 3 0 0 0 3 1 1) 0) = some (.cvwQuery 3 3) := by
  decide +kernel

theorem test_decode_collectives_fibres_and_system :
    decodeOne (wordL 0x48 (le 1 0 4 5 0 0 0 0) 0) = some (.carm 4 5) ∧ decodeOne (wordL 0x49 (le 0 0 4 0 0 0 0 0) 0) = some (.cdis 4)
      ∧ decodeOne (wordL 0x4A (le 0 0 4 0 0 0 0 0) 0xFFFF) = some (.cabt 4 0xFFFF)
      ∧ decodeOne (wordL 0x4B (le 1 0 4 0 0 0 0 1) (0#7 ++ 255#9 ++ 0#7 ++ 3#9)) = some (.mcast true 4 3 255)
      ∧ decodeOne (wordL 0x4C (le 1 0 4 0 0 3 1 0) 0) = some (.barrier 4 3) ∧ decodeOne (wordL 0x4D (le 0 0 4 0 0 3 1 0) 0) = some (.cstat 3 4)
      ∧ decodeOne (wordL 0x50 (le 1 0 4 5 6 0 0 63) 0) = some (.ship 63 4 5 6) ∧ decodeOne (wordL 0x51 (le 1 0 4 5 6 3 1 2) 0) = some (.shipr 2 3 4 5 6)
      ∧ decodeOne (wordL 0x52 (le 0 0 4 0 0 0 0 16) 0) = some (.dload 16 4)
      ∧ decodeOne (wordL 0x58 (le 0 0 4 5 6 3 1 3) 0) = some (.spawn true true 4 5 6 (some 3))
      ∧ decodeOne (wordL 0x59 (le 0 0 4 5 6 0 0 2) (0#6 ++ 256#10 ++ 0#6 ++ 512#10)) = some (.spawnr true 4 5 6 512 256 none)
      ∧ decodeOne (wordL 0x60 (le 0 0 4 5 0 0 0 2) 0) = some (.map 2 4 5) ∧ decodeOne (wordL 0x61 (le 0 0 4 0 0 0 0 1) 0) = some (.unmap 1 4)
      ∧ decodeOne (wordL 0x62 (le 0 0 4 0 0 0 0 0) 0) = some (.tlbiVa 4) ∧ decodeOne (wordL 0x62 (le 0 0 0 5 0 0 0 1) 0) = some (.tlbiCtx 5)
      ∧ decodeOne (wordL 0x62 (le 0 0 0 0 0 0 0 2) 0) = some .tlbiAll
      ∧ decodeOne (wordL 0x63 (le 0 0 4 0 0 3 1 6) 0) = some (.retype .once true 4 (some 3))
      ∧ decodeOne (wordL 0x64 (le 0 0 4 0 0 0 0 15) 0) = some (.watchOn 7 4) ∧ decodeOne (wordL 0x64 (le 0 0 4 0 0 0 0 7) 0) = some (.watchOff 7 4)
      ∧ decodeOne (wordL 0x67 (le 0 0 4 0 0 0 0 0) 0xFFFF) = some (.zero 4 0xFFFF none) := by
  decide +kernel

/-- Words that are no instructions (R50, R51): unassigned opcodes, reserved fields, reserved values, a wrong energy class. -/
theorem test_decode_rejects :
    decodeOne (wordC 0x3F 0) = none ∧ decodeOne (wordA 0x3F 0) = none ∧ decodeOne (wordL 0x70 0 0) = none ∧ decodeOne (wordL 0x08 0 0) = none
      ∧ decodeOne (wordC 0x00 1) = none ∧ decodeOne (wordA 0x1A (ar 1 2 1 0 0 0 0)) = none
      ∧ decodeOne (wordC 0x10 (3#3 ++ 5#3 ++ 3#2 ++ 1#1 ++ 0#1 ++ 0#3 ++ 0#12)) = none
      ∧ decodeOne (wordC 0x10 (3#3 ++ 5#3 ++ 3#2 ++ 0#1 ++ 0#1 ++ 1#3 ++ 0#12)) = none
      ∧ decodeOne (wordC 0x30 (0#3 ++ 0#3 ++ 0#12 ++ 6#3 ++ 1#4)) = none ∧ decodeOne (wordA 0x20 (ar 1 2 3 0 0 0 5)) = none
      ∧ decodeOne (wordL 0x21 (le 0 2 4 5 0 0 0 0) 0x40) = none ∧ decodeOne (wordL 0x28 (le 0 7 0 0 0 3 0 0) 0) = none := by
  decide +kernel

/-! ## Operands that are refused -/

/-- One ill-formed term for each check of `Instr.wf`. -/
theorem test_wf_refuses :
    (Instr.ld .d true none 1 2 0).wf = false ∧ (Instr.ldl .d true none 1 2 0).wf = false ∧ (Instr.ldg .d true 1 2 3 0).wf = false
      ∧ (Instr.savem 1 0 0).wf = false ∧ (Instr.loadm 1 0 0).wf = false ∧ (Instr.loadm 1 2 0).wf = false
      ∧ (Instr.fence 0 .tile).wf = false ∧ (Instr.mfs 1 7).wf = false ∧ (Instr.mts 0x018 1).wf = false
      ∧ (Instr.shi .shl .w 1 2 32).wf = false ∧ (Instr.vred .max .rne 1 2 none).wf = false
      ∧ (Instr.mbegin .reissue false 1 0).wf = false ∧ (Instr.mbegin .none true 1 0).wf = false
      ∧ (Instr.cpy 0 1 2 0 none none).wf = false ∧ (Instr.cpyc 0 1 2 0 none none).wf = false
      ∧ (Instr.cpyg 0 1 2 3 0 1 none none).wf = false ∧ (Instr.cpyg 0 1 2 3 1 0 none none).wf = false
      ∧ (Instr.cpys 0 1 2 3 0 1 none none).wf = false ∧ (Instr.cpys 0 1 2 3 1 0 none none).wf = false
      ∧ (Instr.cvq ⟨true, true, 0⟩ 0 1 2 3 1 none none).wf = false ∧ (Instr.cvd ⟨true, true, 1⟩ 0 1 2 3 0 none none).wf = false
      ∧ (Instr.cvr ⟨true, true, 0⟩ ⟨true, true, 1⟩ 0 1 2 3 1 none none).wf = false
      ∧ (Instr.cvr ⟨true, true, 1⟩ ⟨true, true, 0⟩ 0 1 2 3 1 none none).wf = false
      ∧ (Instr.mcast false 1 3 2).wf = false ∧ (Instr.mcast true 1 3 256).wf = false ∧ (Instr.dload 15 1).wf = false
      ∧ (Instr.spawn false false 1 2 3 none).wf = false ∧ (Instr.spawnr true 1 2 3 0 1 none).wf = false
      ∧ (Instr.spawnr true 1 2 3 513 1 none).wf = false ∧ (Instr.spawnr true 1 2 3 1 257 none).wf = false
      ∧ (Instr.spawnr false 1 2 3 1 1 none).wf = false ∧ (Instr.retype .strict true 1 none).wf = false
      ∧ (Instr.zero 1 0 none).wf = false := by
  decide +kernel

/-! ## One step, and the examples of the spec -/

/-- The word that an arithmetic instruction has on its way to a register. -/
def pending (o : Out) : Option (XR × Word × Flags) :=
  (nextOf o).net.findSome? fun m => match m.2 with
    | .arithX _ _ xd v fl => some (xd, v, fl)
    | _ => none
/-- An x register after an instruction of the running fibre. -/
def xAfter (o : Out) (i : XR) : Word := ((nextOf o).me.x.get i).val

/-- The example of the core at row 70 and column 300. -/
theorem test_core_numbers :
    tileOf 36140 = 4555 ∧ coreInTile 36140 = 0 ∧ sectorOf 36140 = 73 ∧ quadrantOf 36140 = 6 ∧ homeSector 0x009800012A00 = 121 := by
  decide +kernel

/-- The examples of binary8p4 and its relatives. -/
theorem test_binary8 :
    (⟨false, false, 4⟩ : B8).encode (Fx.ofLane 0x3E99999A) = 0x32 ∧ ((⟨false, false, 4⟩ : B8).decode 0x32).toLane = 0x3EA00000
      ∧ (⟨false, false, 4⟩ : B8).encode (.fin false 232 0) = 0x7E ∧ (⟨false, true, 4⟩ : B8).encode (.fin false 232 0) = 0x7E
      ∧ (⟨true, false, 4⟩ : B8).encode (.fin false 232 0) = 0xBE ∧ (⟨false, false, 4⟩ : B8).encode (.fin false 465 (-1)) = 0x7F
      ∧ (⟨false, true, 4⟩ : B8).encode (.fin false 465 (-1)) = 0x7F ∧ (⟨true, false, 4⟩ : B8).encode (.fin false 465 (-1)) = 0xBF
      ∧ (⟨false, false, 4⟩ : B8).encode (.fin false 1000 0) = 0x7F ∧ (⟨true, false, 4⟩ : B8).encode (.fin false 1000 0) = 0xD0 := by
  decide +kernel

/-- The examples of bounds. -/
theorem test_bounds :
    growBound 0x7507 (boundVal 0x7401) = 0x7588 ∧ roundUpBound (propTerm 0x7700 0 0x86 0x86) = 0x8400
      ∧ roundUpBound (propTerm 0x7700 0x7700 0x86 0x86) = 0x8501 := by
  decide +kernel

/-- The example of one CVQ row. -/
theorem test_cvq_row :
    let r := narrowRow ([Fx.ofLane 0x40400000, Fx.ofLane 0x3E99999A, Fx.ofLane 0xBF800000] ++ List.replicate 29 (.fin false 0 0))
      ⟨false, false, 4⟩ 0 127
    r.data = [0x7C, 0x62, 0xF0] ++ List.replicate 29 0 ∧ r.scale = 0x79 ∧ r.bound = 0x8200 := by
  decide +kernel

/-- The examples of FCVT. -/
theorem test_fcvt :
    let s := ((tst 0).x 2 0x3F808000).x 3 0x4F32D05E
    let e := s.modMe fun f => { f with fsw := f.fsw ||| 0x1000 }
    pending (exec (.fcvt .tobf16 .rne 1 2) s) = some (1, 0x3F80, 0x01)
      ∧ pending (exec (.fcvt .tobf16 .rup 1 2) s) = some (1, 0x3F81, 0x01)
      ∧ pending (exec (.fcvt .toint .rne 1 3) s) = some (1, 0x7FFFFFFF, 0x10)
      ∧ exec (.fcvt .toint .rne 1 3) e = .next (e.trapEntry true 0x0C 0x10) := by
  refine ⟨by decide +kernel, by decide +kernel, by decide +kernel, rfl⟩

/-- The example of a walk: the physical address, and the fault where the page's type byte differs. -/
theorem test_walk :
    let w (a v : Nat) (s : State) : State := s.setBytes a (bytesOfNat 8 v)
    let s := w 0x42A2B0 0x0000009800010640F (w 0x418488 0x420001 (w 0x400010 0x410001
      ((State.reset.setReg 0x1B0018 0x400001).setReg 0x1A0000 0x7F00000001)))
    let s := w 0x42A2B0 0x000000980001064F s
    let at_ (b : Byte) : Xl × State := (s.setByte 0x7F00980001 b).xlate (.core 0) 3 { rd := true } [{ va := 0x0A1234567890, len := 8 }]
    (match (at_ 2).1 with | .ok fs => physOf fs 0x0A1234567890 | _ => 0) = 0x009800017890
      ∧ (at_ 1).1 = .fault 0x06 0x0A1234567890 := by
  decide +kernel

/-- The example of `count_down`: in the bundle whose branch is taken the A slot runs too. -/
theorem test_pair_step :
    let s := runs 0x8E400002 0x6C9FFFFF
    let t := nextOf (step s)
    (t.fib 0 0).pc = 16 ∧ ((t.fib 0 0).x.get 1).val = 0xFFFFFFFFFFFFFFFF := by
  decide +kernel

/-- The example of MOVI and MOVHI. -/
theorem test_movi_movhi :
    let s := nextOf (exec (.movi 2 5) (tst 0))
    xAfter (exec (.movhi 2 0x1234) s) 2 = 0x1234000000000005 ∧ xAfter (exec (.movi 2 0xFFFFFFFFFFFF) (tst 0)) 2 = 0xFFFFFFFFFFFFFFFF := by
  decide +kernel

/-- The example of `div.w.u`; a quotient truncates toward zero, and the most negative number by -1 wraps. -/
theorem test_div :
    let s := (((tst 0).x 2 0xFFFFFFFF).x 3 1).x 4 0xFFFFFFFFFFFFFFF9
    let m := ((tst 0).x 2 0x8000000000000000).x 3 0xFFFFFFFFFFFFFFFF
    pending (exec (.div true .w 1 2 3) s) = some (1, 0xFFFFFFFFFFFFFFFF, 0)
      ∧ pending (exec (.div false .d 1 4 3) (s.x 3 2)) = some (1, 0xFFFFFFFFFFFFFFFD, 0)
      ∧ pending (exec (.rem false .d 1 4 3) (s.x 3 2)) = some (1, 0xFFFFFFFFFFFFFFFF, 0)
      ∧ pending (exec (.div false .d 1 2 3) m) = some (1, 0x8000000000000000, 0) := by
  decide +kernel

/-- R275: a .w result is extended with its sign; .d wraps at 64 bits. -/
theorem test_add_sub :
    let s := ((tst 0).x 2 0x7FFFFFFF).x 3 1
    xAfter (exec (.add .w 1 2 3) s) 1 = 0xFFFFFFFF80000000 ∧ xAfter (exec (.add .d 1 2 3) s) 1 = 0x80000000
      ∧ xAfter (exec (.sub .d 1 3 2) s) 1 = 0xFFFFFFFF80000002 ∧ xAfter (exec (.addi .w 1 3 0x7FFFE) s) 1 = 0xFFFFFFFFFFFFFFFF := by
  decide +kernel

theorem test_shifts :
    let s := ((tst 0).x 2 0x80000001).x 3 0x21
    xAfter (exec (.shl .w 1 2 3) s) 1 = 2 ∧ xAfter (exec (.shr .w 1 2 3) s) 1 = 0x40000000
      ∧ xAfter (exec (.sra .w 1 2 3) s) 1 = 0xFFFFFFFFC0000000 ∧ xAfter (exec (.rol .w 1 2 3) s) 1 = 3
      ∧ xAfter (exec (.shi .shl .d 1 2 33) s) 1 = 0x200000000 := by
  decide +kernel

theorem test_mul :
    let s := ((tst 0).x 2 0xFFFFFFFFFFFFFFFF).x 3 2
    pending (exec (.mul .d 1 2 3) s) = some (1, 0xFFFFFFFFFFFFFFFE, 0)
      ∧ pending (exec (.mulh false .d 1 2 3) s) = some (1, 0xFFFFFFFFFFFFFFFF, 0)
      ∧ pending (exec (.mulh true .d 1 2 3) s) = some (1, 1, 0) := by
  decide +kernel

theorem test_logic_and_comparisons :
    let s := ((tst 0).x 2 0xF0).x 3 0xFFFFFFFFFFFFFFFF
    xAfter (exec (.andn .d 1 3 2) s) 1 = 0xFFFFFFFFFFFFFF0F ∧ xAfter (exec (.xori .d 1 2 0x7FFFF) s) 1 = 0xFFFFFFFFFFFFFF0F
      ∧ xAfter (exec (.slt false .d 1 3 2) s) 1 = 1 ∧ xAfter (exec (.slt true .d 1 3 2) s) 1 = 0
      ∧ xAfter (exec (.min true .d 1 3 2) s) 1 = 0xF0 ∧ xAfter (exec (.max false .d 1 3 2) s) 1 = 0xF0
      ∧ xAfter (exec (.clz .w 1 2) s) 1 = 24 ∧ xAfter (exec (.ctz .d 1 2) s) 1 = 4 ∧ xAfter (exec (.popc .w 1 3) s) 1 = 32
      ∧ xAfter (exec (.clz .d 1 4) s) 1 = 64 ∧ xAfter (exec (.sext .b 1 2) s) 1 = 0xFFFFFFFFFFFFFFF0 := by
  decide +kernel

/-- 1.5 + 2.5 = 4; 1 / 3 rounds up under RUP and down under RTZ; 0 / 0 is the canonical NaN with NV; a signalling NaN too. -/
theorem test_floats :
    let s := (((tst 0).x 2 0x3FC00000).x 3 0x40200000).x 4 0x7F800001
    let t := ((tst 0).x 2 0x3F800000).x 3 0x40400000
    pending (exec (.fadd .rne 1 2 3) s) = some (1, 0x40800000, 0)
      ∧ pending (exec (.fdiv .rup 1 2 3) t) = some (1, 0x3EAAAAAB, 1) ∧ pending (exec (.fdiv .rtz 1 2 3) t) = some (1, 0x3EAAAAAA, 1)
      ∧ pending (exec (.fdiv .rne 1 5 6) t) = some (1, 0x7FC00000, 0x10) ∧ pending (exec (.fdiv .rne 1 2 6) t) = some (1, 0x7F800000, 0x08)
      ∧ pending (exec (.fadd .rne 1 2 4) s) = some (1, 0x7FC00000, 0x10)
      ∧ pending (exec (.fma .rne 1 2 3 5) s) = some (1, 0x40700000, 0)
      ∧ xAfter (exec (.fcmp .un 1 2 4) s) 1 = 1 ∧ xAfter (exec (.fclass 1 4) s) 1 = 2 ^ fpClass 0x7F800001 := by
  decide +kernel

theorem test_branches :
    let s := ((tst 0).x 2 1).x 3 0xFFFFFFFFFFFFFFFF
    (nextOf (exec (.blt 3 2 4) s)).me.pc = 32 ∧ (nextOf (exec (.bltu 3 2 4) s)).me.pc = 8
      ∧ (nextOf (exec (.jal 0x1FFFFFF) s)).me.pc = 0xFFFFFFFFFFF8 ∧ xAfter (exec (.jal 0x1FFFFFF) s) 7 = 8
      ∧ (nextOf (exec (.jr 2) (s.x 2 0x7008))).me.pc = 0x7008 := by
  decide +kernel

/-- A store and a load of a RELEASE page, at their home: the bytes lie with the lowest first, and the load extends its sign. -/
theorem test_store_and_load :
    let s := ((tst 0).x 2 0x100).x 3 0x80F1
    let w := nextOf (exec (.st .h none 3 2 2) s)
    let t := match w.net with
      | (k, _) :: _ => nextOf (exec (.homeAccess k) w)
      | [] => {}
    let l := nextOf (exec (.ld .h true none 4 2 2) t)
    let r := match l.net.reverse with
      | (k, _) :: _ => nextOf (exec (.homeAccess k) l)
      | [] => {}
    let a := match r.net.reverse with
      | (k, _) :: _ => nextOf (exec (.accessReply k) r)
      | [] => {}
    t.bytes 0x101 4 = [0, 0xF1, 0x80, 0] ∧ a.me.x.get 4 = { val := 0xFFFFFFFFFFFF80F1, full := true } := by
  decide +kernel

/-- R429: TRAP retires, and its entry saves the address after it; BRK saves its own. -/
theorem test_trap_and_brk :
    let s := ((tst 0).setReg (ctxTrapOff 0) 0x4001).modMe fun f => { f with fsw := 0x00010000, pc := 0x88 }
    let t := nextOf (exec (.trap 0x1234) s)
    let b := nextOf (exec (.brk 0x1234) s)
    t.me.pc = 0x4000 ∧ t.me.bank1.pc = 0x90 ∧ t.me.bank1.val = 0x1234 ∧ t.me.lvl = 1
      ∧ b.me.pc = 0x4000 ∧ b.me.bank1.pc = 0x88 ∧ b.me.bank1.val = 0x1234 := by
  decide +kernel

/-- The example of a clipped grid. -/
theorem test_clipped_grid :
    let pk := Packet.ofBytes (bytesOfNat 8 0x01A3301000000000 ++ bytesOfNat 24 0x400000000000000000000000000000000000
      ++ bytesOfNat 16 0 ++ bytesOfNat 4 0x40000064 ++ bytesOfNat 4 0x80000014 ++ bytesOfNat 8 0)
    let s := State.reset.setReg (partOff 5) 0x8000000003E81200
    let c := s.identAt 5 7 0 pk 12 31
    pk.grid 1 1 = (8, 8) ∧ (pk.roots (8, 8)).length = 56 ∧ c.get 0 = 14431 ∧ c.get 1 = 1815 ∧ c.get 2 = 0x51200
      ∧ c.get 3 = 0x0008000800060007 ∧ c.get 4 = 0x000000090000005B ∧ c.get 5 = 0x0000000200000012
      ∧ ((pk.rootFibre 55).x.get 3).val = 55 ∧ (pk.rootFibre 55).tid = 0x4037 := by
  decide +kernel

/-! ## Witnesses: what meets the hypotheses of the statements -/

namespace Integers

def s0 := ((tst 0).x 2 0x8000000080000005).x 3 0xFFFFFFFFFFFFFFF3

theorem witness_IntegerSums_1 :
  let s : State := s0
  let sz : Wd := .w
  let xd : XR := 1
  let xa : XR := 2
  let xb : XR := 3
  let imm : BitVec 19 := 5
  s.ready (.add sz xd xa xb) = .go ∧ s.ready (.sub sz xd xa xb) = .go ∧ s.ready (.addi sz xd xa imm) = .go := by
  decide +kernel

theorem witness_IntegerLogic_1 :
  let s : State := s0
  let sz : Wd := .w
  let xd : XR := 1
  let xa : XR := 2
  let xb : XR := 3
  let imm : BitVec 19 := (-3)
  s.ready (.and sz xd xa xb) = .go ∧ s.ready (.or sz xd xa xb) = .go ∧ s.ready (.xor sz xd xa xb) = .go
    ∧ s.ready (.andn sz xd xa xb) = .go ∧ s.ready (.andi sz xd xa imm) = .go ∧ s.ready (.ori sz xd xa imm) = .go
    ∧ s.ready (.xori sz xd xa imm) = .go := by
  decide +kernel

theorem witness_IntegerShifts_1 :
  let s : State := s0
  let sz : Wd := .w
  let xd : XR := 1
  let xa : XR := 2
  let xb : XR := 3
  let op : ShOp := .sra
  let n : BitVec 6 := 31
  s.ready (.shl sz xd xa xb) = .go ∧ s.ready (.shr sz xd xa xb) = .go ∧ s.ready (.sra sz xd xa xb) = .go
    ∧ s.ready (.rol sz xd xa xb) = .go ∧ s.ready (.shi op sz xd xa n) = .go ∧ n.toNat < widthBits sz := by
  decide +kernel

theorem witness_IntegerComparisons_1 :
  let s : State := s0
  let sz : Wd := .w
  let xd : XR := 1
  let xa : XR := 2
  let xb : XR := 3
  s.ready (.min false sz xd xa xb) = .go ∧ s.ready (.min true sz xd xa xb) = .go
    ∧ s.ready (.max false sz xd xa xb) = .go ∧ s.ready (.max true sz xd xa xb) = .go
    ∧ s.ready (.slt false sz xd xa xb) = .go ∧ s.ready (.slt true sz xd xa xb) = .go
    ∧ s.ready (.seteq sz xd xa xb) = .go ∧ s.ready (.setne sz xd xa xb) = .go := by
  decide +kernel

theorem witness_IntegerCounts_1 :
  let s : State := s0
  let sz : Wd := .w
  let xd : XR := 1
  let xa : XR := 2
  let a := opNat sz (s.rx xa)
  s.ready (.clz sz xd xa) = .go ∧ a ≠ 0 ∧ s.ready (.ctz sz xd xa) = .go := by
  decide +kernel

theorem witness_IntegerCounts_2 :
  let s : State := s0
  let sz : Wd := .w
  let xd : XR := 1
  let xa : XR := 2
  s.ready (.popc sz xd xa) = .go := by
  decide +kernel

theorem witness_IntegerCounts_3 :
  let s : State := s0
  let sz : Wd := .d
  let xd : XR := 1
  let xa : XR := 4
  let a := opNat sz (s.rx xa)
  s.ready (.clz sz xd xa) = .go ∧ a = 0 ∧ s.ready (.ctz sz xd xa) = .go := by
  decide +kernel

theorem witness_IntegerMoves_1 :
  let s : State := s0
  let sz : Wd := .w
  let xd : XR := 1
  let xa : XR := 2
  let xb : XR := 3
  let xc : XR := 4
  s.ready (.mov xd xa) = .go ∧ s.ready (.sext .b xd xa) = .go ∧ s.ready (.sext .h xd xa) = .go
    ∧ s.ready (.sext .w xd xa) = .go ∧ s.ready (.zext .b xd xa) = .go ∧ s.ready (.zext .h xd xa) = .go
    ∧ s.ready (.zext .w xd xa) = .go ∧ s.ready (.sel sz xd xa xb xc) = .go := by
  decide +kernel

theorem witness_IntegerProducts_1 :
  let s : State := s0
  let sz : Wd := .w
  let xd : XR := 1
  let xa : XR := 2
  let xb : XR := 3
  s.ready (.mul sz xd xa xb) = .go ∧ s.ready (.mulh false sz xd xa xb) = .go ∧ s.ready (.mulh true sz xd xa xb) = .go := by
  decide +kernel

theorem witness_IntegerQuotients_1 :
  let s : State := s0
  let u : Bool := false
  let sz : Wd := .w
  let xd : XR := 1
  let xa : XR := 2
  let xb : XR := 3
  let b : Int := if u then opNat sz (s.rx xb) else opInt sz (s.rx xb)
  s.ready (.div u sz xd xa xb) = .go ∧ b ≠ 0 ∧ s.ready (.rem u sz xd xa xb) = .go := by
  decide +kernel

theorem witness_IntegerQuotients_2 :
  let s : State := s0
  let u : Bool := true
  let sz : Wd := .d
  let xd : XR := 1
  let xa : XR := 2
  let xb : XR := 4
  let b : Int := if u then opNat sz (s.rx xb) else opInt sz (s.rx xb)
  s.ready (.div u sz xd xa xb) = .go ∧ b = 0 ∧ s.rfsw.getLsbD 16 = true ∧ s.ready (.rem u sz xd xa xb) = .go := by
  decide +kernel

theorem witness_IntegerQuotients_3 :
  let s : State := (s0.modMe fun f => {f with fsw := 0x00200000})
  let u : Bool := false
  let sz : Wd := .w
  let xd : XR := 1
  let xa : XR := 2
  let xb : XR := 4
  let b : Int := if u then opNat sz (s.rx xb) else opInt sz (s.rx xb)
  s.ready (.div u sz xd xa xb) = .go ∧ b = 0 ∧ s.rfsw.getLsbD 16 = false ∧ s.ready (.rem u sz xd xa xb) = .go := by
  decide +kernel

end Integers

namespace Floats

def f0 := ((((tst 0).x 2 0x3FC00000).x 3 0xC0490FDB).x 4 0x7F7FFFFF).modMe fun f => {f with fsw := 0x00210000}
def v0 := (f0.v4 1 0x3FC00000 0x40000000 0xC0490FDB 0).v4 2 0x3F800000 0x7F800001 0x80000000 0x7F800000
def v1 := (v0.setM 1 5).modMe fun f => {f with fsw := 0x00210000 + 0x1F00}

theorem witness_FloatComparisons_1 :
  let s : State := f0
  let xd : XR := 1
  let xa : XR := 2
  let xb : XR := 3
  let op : SgnOp := .xor
  let p : FPred := .lt
  s.ready (.fmin xd xa xb) = .go ∧ s.ready (.fmax xd xa xb) = .go ∧ s.ready (.fsgn op xd xa xb) = .go
    ∧ s.ready (.fcmp p xd xa xb) = .go ∧ s.ready (.fclass xd xa) = .go := by
  decide +kernel

theorem witness_FloatArithmetic_1 :
  let s : State := f0
  let rm : Rm := .dyn
  let xd : XR := 1
  let xa : XR := 2
  let xb : XR := 3
  let xc : XR := 4
  let k : CvtKind := .toint
  let op : RedOp := .add
  let va : VR := 1
  let mk : Option MR := none
  s.ready (.fadd rm xd xa xb) = .go ∧ s.ready (.fsub rm xd xa xb) = .go ∧ s.ready (.fmul rm xd xa xb) = .go
    ∧ s.ready (.fdiv rm xd xa xb) = .go ∧ s.ready (.fsqrt rm xd xa) = .go ∧ s.ready (.fma rm xd xa xb xc) = .go
    ∧ s.ready (.fcvt k rm xd xa) = .go ∧ s.ready (.vred op rm xd va mk) = .go := by
  decide +kernel

theorem witness_FloatExactThenRounded_1 :
  let a : Lane := 0x3FC00000
  let b : Lane := 0xBFC00000
  let c : Lane := 0x7F7FFFFF
  let x := Fx.ofLane a
  let y := Fx.ofLane b
  (Fx.ofLane a).isFin = true ∧ (Fx.ofLane b).isFin = true ∧ (Fx.ofLane c).isFin = true ∧ x.val + y.val = 0
    ∧ a.msb ≠ b.msb := by
  decide +kernel

theorem witness_FloatNanRule_1 :
  let a : Lane := 0x7FC00000
  let b : Lane := 0x3FC00000
  ((Fx.ofLane a).isNan = true ∨ (Fx.ofLane b).isNan = true) := by
  decide +kernel

theorem witness_RoundingKeepsRepresentable_1 :
  let a : Lane := 0x00000001
  (Fx.ofLane a).isFin = true := by
  decide +kernel

theorem witness_VectorMoves_1 :
  let s : State := v0
  let vd : VR := 3
  let va : VR := 1
  let vb : VR := 2
  let mk : Option MR := none
  let m : MR := 1
  let op : VintOp := .sra
  let p : PermOp := (.rot 3)
  s.isOutV vd = false ∧ s.ready (.vmin vd va vb mk) = .go ∧ s.ready (.vmax vd va vb mk) = .go
    ∧ s.ready (.vint op vd va vb mk) = .go ∧ op ≠ .mul ∧ s.ready (.vselm vd va vb m) = .go
    ∧ s.ready (.vperm p vd va mk) = .go := by
  decide +kernel

theorem witness_VectorArithmetic_1 :
  let s : State := v0
  let rm : Rm := .dyn
  let vd : VR := 3
  let va : VR := 1
  let vb : VR := 2
  let vc : VR := 1
  let mk : Option MR := none
  let k : VcvtKind := .toint
  s.isOutV vd = false ∧ s.ready (.vadd rm vd va vb mk) = .go ∧ s.ready (.vsub rm vd va vb mk) = .go
    ∧ s.ready (.vmul rm vd va vb mk) = .go ∧ s.ready (.vfma rm vd va vb vc mk) = .go
    ∧ s.ready (.vdiv rm vd va vb mk) = .go ∧ s.ready (.vsqrt rm vd va mk) = .go ∧ s.ready (.vexp2 rm vd va mk) = .go
    ∧ s.ready (.vlog2 rm vd va mk) = .go ∧ s.ready (.vint .mul vd va vb mk) = .go
    ∧ s.ready (.vcvt k rm vd va mk) = .go := by
  decide +kernel

theorem witness_MaskInstructions_1 :
  let s : State := v0
  let md : MR := 1
  let va : VR := 1
  let vb : VR := 2
  let mk : Option MR := none
  let p : VPred := .flt
  let r := fun k : Fin 4 => vcmpLane p (s.rv va k) (s.rv vb k)
  let fl := laneOr (s.enabled mk) fun k => (r k).2
  s.ready (.vcmp p md va vb mk) = .go ∧ fl &&& fswEnables s.rfsw = 0 := by
  decide +kernel

theorem witness_MaskInstructions_2 :
  let s : State := v0
  let md : MR := 1
  let ma : MR := 1
  let mb : MR := 2
  let op : MaskOp := .andn
  let xd : XR := 1
  let xa : XR := 2
  s.ready (.vmask op md ma mb) = .go ∧ s.ready (.vmaskNot md ma) = .go ∧ s.ready (.vmaskFromx md xa) = .go
    ∧ s.ready (.vmaskTox xd ma) = .go := by
  decide +kernel

theorem witness_MaskInstructions_3 :
  let s : State := v1
  let md : MR := 1
  let va : VR := 1
  let vb : VR := 2
  let mk : Option MR := none
  let p : VPred := .flt
  let r := fun k : Fin 4 => vcmpLane p (s.rv va k) (s.rv vb k)
  let fl := laneOr (s.enabled mk) fun k => (r k).2
  s.ready (.vcmp p md va vb mk) = .go ∧ fl &&& fswEnables s.rfsw ≠ 0 := by
  decide +kernel

end Floats

namespace Control

def c0 := ((((tst 0).x 2 0x1238).x 3 0xFFFFFFFFFFFFFFF3).modMe fun f => {f with pc := 0xFFFFFFFFFFF8, tid := 77, save := 3})
def vt (s : State) := (s.setReg (ctxTrapOff 0) 0x4001).setReg (ctxTrapOff 0 + 8) 0x8001
def tc (s : State) := ((s.emptyX 4).send (.arithX 0 0 4 9 0x11)).1
def r0 := (c0.modMe fun f => {f with fsw := 0x00610000, bank1 := {cause := 0x96, pc := 0x998, val := 3}})
def r1 := (c0.modMe fun f => {f with fsw := 0x00A10000, bank2 := {cause := 0x16, pc := 0x998, val := 3}})
def prt (s : State) (p : Port) : State := s.setPort 0 1 p

theorem witness_Branches_1 :
  let s : State := c0
  let xa : XR := 2
  let xb : XR := 3
  let off : BitVec 19 := (-5)
  s.ready (.beq xa xb off) = .go ∧ s.ready (.bne xa xb off) = .go ∧ s.ready (.blt xa xb off) = .go
    ∧ s.ready (.bge xa xb off) = .go ∧ s.ready (.bltu xa xb off) = .go ∧ s.ready (.bgeu xa xb off) = .go
    ∧ s.ready (.bz xa off) = .go ∧ s.ready (.bnz xa off) = .go := by
  decide +kernel

theorem witness_JumpsAndConstants_1 :
  let s : State := c0
  let xd : XR := 1
  let xa : XR := 2
  let o25 : BitVec 25 := (-1)
  let o45 : BitVec 45 := (-7)
  let i48 : BitVec 48 := (-3)
  let i16 : BitVec 16 := 0xFFFF
  s.ready (.j o25) = .go ∧ s.ready (.jl o45) = .go ∧ s.ready (.jal o25) = .go ∧ s.ready (.calll o45) = .go
    ∧ s.ready (.jr xa) = .go ∧ (s.rx xa).toNat < 2 ^ 48 ∧ (s.rx xa).toNat % 8 = 0 ∧ s.ready (.movi xd i48) = .go
    ∧ s.ready (.movhi xd i16) = .go := by
  decide +kernel

theorem witness_JumpsAndConstants_2 :
  let s : State := c0
  let xa : XR := 3
  s.ready (.jr xa) = .go ∧ 2 ^ 48 ≤ (s.rx xa).toNat := by
  decide +kernel

theorem witness_JumpsAndConstants_3 :
  let s : State := (c0.x 3 0xA)
  let xa : XR := 3
  s.ready (.jr xa) = .go ∧ (s.rx xa).toNat < 2 ^ 48 ∧ (s.rx xa).toNat % 8 ≠ 0 := by
  decide +kernel

theorem witness_IdentityAndAnchor_1 :
  let s : State := c0
  let xd : XR := 1
  let ix : Fin 9 := 4
  s.ready (.self .tid xd) = .go ∧ s.ready (.self .core xd) = .go ∧ s.ready (.self .slot xd) = .go
    ∧ s.ready (.self .save xd) = .go ∧ s.ready (.idr xd ix) = .go ∧ s.ready (.anchorClaim xd) = .go ∧ s.me.anc = true
    ∧ s.ready (.anchorFree xd) = .go ∧ s.cResume = .none ∧ (∀ sp, (s.port s.cur.core sp).bound = false)
    ∧ coreInTile s.cur.core ≠ 2 := by
  decide +kernel

theorem witness_IdentityAndAnchor_2 :
  let s : State := c0
  let xd : XR := 1
  let w := s.outWaits allPorts
  let p := s.stopPorts allPorts
  s.ready (.anchorFree xd) = .go ∧ s.me.anc = true ∧ s.cResume = .none ∧ w = [] ∧ p.2 = [] := by
  decide +kernel

theorem witness_IdentityAndAnchor_3 :
  let s : State := (c0.modMe fun f => {f with anc := false})
  let xd : XR := 1
  s.ready (.anchorClaim xd) = .go ∧ s.me.anc = false ∧ s.myCore.anchor ≠ none ∧ s.ready (.anchorFree xd) = .go := by
  decide +kernel

theorem witness_IdentityAndAnchor_4 :
  let s : State := ((c0.modMe fun f => {f with anc := false}).modCore 0 fun r => {r with anchor := none})
  let xd : XR := 1
  s.ready (.anchorClaim xd) = .go ∧ s.me.anc = false ∧ s.myCore.anchor = none := by
  decide +kernel

theorem witness_IdentityAndAnchor_5 :
  let s : State := (prt c0 { bound := true, n1 := 1, n0 := 4, queued := [(2, 0x10000)] })
  let xd : XR := 1
  let w := s.outWaits allPorts
  let p := s.stopPorts allPorts
  s.ready (.anchorFree xd) = .go ∧ s.me.anc = true ∧ s.cResume = .none ∧ w = [] ∧ p.2 ≠ [] := by
  decide +kernel

theorem witness_IdentityAndAnchor_6 :
  let s : State := ((prt c0 { bound := true, out := true, n1 := 1, n0 := 4 }).send (.req { dAcc with owner := .port 0 1 2, cls := { st := true }, op := .write [] })).1
  let xd : XR := 1
  let w := s.outWaits allPorts
  s.ready (.anchorFree xd) = .go ∧ s.me.anc = true ∧ s.cResume = .none ∧ w ≠ [] := by
  decide +kernel

theorem witness_IdentityAndAnchor_7 :
  let s : State := (tst 2)
  coreInTile s.cur.core = 2 ∧ AMap.rising none s.tiles = true := by
  decide +kernel

theorem witness_TrapsTaken_1 :
  let s : State := (vt c0)
  let code : BitVec 16 := 77
  s.ready (.trap code) = .go ∧ s.ready (.brk code) = .go := by
  decide +kernel

theorem witness_TrapEntryRule_1 :
  let s : State := (vt c0)
  let c : Nat := 0x0C
  let d := s.drainArith s.cur.core s.cur.slot
  let f := d.me
  let vec := d.tvec d.myCore.ctxid.toNat (f.lvl + 1)
  s.Inv ∧ c < 64 ∧ f.lvl < 2 ∧ vec.getLsbD 0 = true := by
  simp only [State.inv_iff]; decide +kernel

theorem witness_TrapReturnRule_1 :
  let s : State := r0
  s.Inv ∧ s.ready .rtt = .go ∧ s.me.lvl ≠ 0 ∧ s.me.lvl ≤ 2 := by
  simp only [State.inv_iff]; decide +kernel

theorem witness_SystemRegisters_1 :
  let s : State := r1
  let xd : XR := 1
  let xa : XR := 2
  let reg : BitVec 12 := 0
  s.ready (.mfs xd reg) = .go ∧ reg = 0x000 ∧ s.ready (.mts reg xa) = .go ∧ mtsRefuses reg.toNat (s.rx xa) = false := by
  decide +kernel

theorem witness_SystemRegisters_2 :
  let s : State := r1
  let xd : XR := 1
  let xa : XR := 2
  let reg : BitVec 12 := 1
  s.ready (.mfs xd reg) = .go ∧ reg = 0x001 ∧ s.ready (.mts reg xa) = .go ∧ mtsRefuses reg.toNat (s.rx xa) = false
    ∧ (reg = 0x001 ∨ reg = 0x002 ∨ reg = 0x003 ∨ reg = 0x005 ∨ reg = 0x006) := by
  decide +kernel

theorem witness_SystemRegisters_3 :
  let s : State := r1
  let xd : XR := 1
  let xa : XR := 2
  let reg : BitVec 12 := 0x21
  s.ready (.mfs xd reg) = .go ∧ reg = 0x021 ∧ s.ready (.mts reg xa) = .go ∧ mtsRefuses reg.toNat (s.rx xa) = false := by
  decide +kernel

theorem witness_SystemRegisters_4 :
  let s : State := r1
  let xd : XR := 1
  let xa : XR := 2
  let reg : BitVec 12 := 0x22
  s.ready (.mfs xd reg) = .go ∧ reg = 0x022 ∧ s.ready (.mts reg xa) = .go ∧ mtsRefuses reg.toNat (s.rx xa) = false := by
  decide +kernel

theorem witness_SystemRegisters_5 :
  let s : State := r1
  let xd : XR := 1
  let xa : XR := 2
  let reg : BitVec 12 := 0x2B
  s.ready (.mfs xd reg) = .go ∧ reg = 0x02B ∧ s.ready (.mts reg xa) = .go ∧ mtsRefuses reg.toNat (s.rx xa) = false := by
  decide +kernel

theorem witness_SystemRegisters_6 :
  let s : State := r1
  let xd : XR := 1
  let reg : BitVec 12 := 2
  s.ready (.mfs xd reg) = .go ∧ reg = 0x002 := by
  decide +kernel

theorem witness_SystemRegisters_7 :
  let s : State := r1
  let xa : XR := 2
  let reg : BitVec 12 := 4
  s.ready (.mts reg xa) = .go ∧ mtsRefuses reg.toNat (s.rx xa) = false ∧ reg = 0x004 := by
  decide +kernel

theorem witness_SystemRegisters_8 :
  let s : State := (r1.x 2 3)
  let xa : XR := 2
  let reg : BitVec 12 := 4
  s.ready (.mts reg xa) = .go ∧ mtsRefuses reg.toNat (s.rx xa) = true := by
  decide +kernel

theorem witness_SystemRegisters_9 :
  let s : State := (tc r1)
  let xa : XR := 2
  let reg : BitVec 12 := 0x24
  s.ready (.mts reg xa) = .go ∧ mtsRefuses reg.toNat (s.rx xa) = false ∧ reg = 0x024 := by
  decide +kernel

theorem witness_SystemRegisters_10 :
  let s : State := (r1.x 2 0x123456789)
  let xa : XR := 2
  let reg : BitVec 12 := 0x15
  let i : Fin 8 := 5
  s.ready (.mts reg xa) = .go ∧ mtsRefuses reg.toNat (s.rx xa) = false ∧ reg.toNat = 0x010 + i.val := by
  decide +kernel

theorem witness_SystemRegisters_11 :
  let s : State := r1
  let xa : XR := 2
  let reg : BitVec 12 := 0x29
  s.ready (.mts reg xa) = .go ∧ mtsRefuses reg.toNat (s.rx xa) = false ∧ reg = 0x029 := by
  decide +kernel

theorem witness_SystemRegisters_12 :
  let s : State := r1
  let xa : XR := 2
  let reg : BitVec 12 := 0x2A
  s.ready (.mts reg xa) = .go ∧ mtsRefuses reg.toNat (s.rx xa) = false ∧ reg = 0x02A := by
  decide +kernel

theorem witness_SystemRegisters_13 :
  let s : State := r1
  let xa : XR := 2
  let reg : BitVec 12 := 0x23
  s.ready (.mts reg xa) = .go ∧ mtsRefuses reg.toNat (s.rx xa) = false ∧ reg = 0x023 := by
  decide +kernel

theorem witness_SystemRegisters_14 :
  let s : State := r1
  let xa : XR := 2
  let reg : BitVec 12 := 0x2C
  s.ready (.mts reg xa) = .go ∧ mtsRefuses reg.toNat (s.rx xa) = false ∧ reg = 0x02C := by
  decide +kernel

theorem witness_SystemRegisters_15 :
  let s : State := r1
  let xa : XR := 2
  let reg : BitVec 12 := 0x20
  s.ready (.mts reg xa) = .go ∧ mtsRefuses reg.toNat (s.rx xa) = false ∧ reg = 0x020 := by
  decide +kernel

theorem witness_SystemRegisters_16 :
  let s : State := r1
  let xa : XR := 2
  let reg : BitVec 12 := 0x28
  s.ready (.mts reg xa) = .go ∧ mtsRefuses reg.toNat (s.rx xa) = false ∧ reg = 0x028 := by
  decide +kernel

theorem witness_SystemRegisters_17 :
  let s : State := r1
  let xa : XR := 2
  let reg : BitVec 12 := 0x30
  s.ready (.mts reg xa) = .go ∧ mtsRefuses reg.toNat (s.rx xa) = false ∧ reg = 0x030 := by
  decide +kernel

end Control

namespace Loads

def m0 := (((tst 0).x 2 0x100).x 3 0x1234567890ABCDEF).setBytes 0x100 (bytesOfNat 32 0x9989AB)
def acc0 : Acc := { owner := .fibre 0 0, tid := 0, ctx := 0, va := 0x100, pa := 0x100, len := 8, ty := .release, cls := {}, op := .read (.x 4 .d false 0) }
def acc1 := { acc0 with ty := .once, gen := some 3 }
def q1 := (((m0.emptyX 4).send (.req acc1)).1.setMeta 0 { gen := 3, pres := .full, dsc := true })
def acc2 : Acc := { acc0 with op := .write [1,2,3,4,5,6,7,8] }

theorem witness_ScalarLoads_1 :
  let s : State := (((m0.x 2 0x10000).x 3 0).setMeta (0x10000) {})
  let size : Size := .w
  let sgn : Bool := true
  let acq : Option Scope := none
  let xd : XR := 4
  let xa : XR := 2
  let xg : XR := 3
  let o : BitVec 12 := 8
  let o32 : BitVec 32 := 8
  let gq : Bool := true
  let need : XNeed := if gq then .block else if acq.isSome then .order else .plain
  let p := s.locate (if gq then loadWant size .block false else loadWant size need true) (s.at xa (if o = 0 then o32.toInt else o.toInt))
  let x : Site := locD dSite p
  let u : State := p.2
  let v : State := (u.siteFault x (if gq then some ((s.rx xg).setWidth 10) else none) (Dst.x xd size sgn x.fmt)).2
  let o12 : BitVec 12 := o
  let need := if acq.isSome then XNeed.order else .plain
  let cls := x.cls true false acq.isSome false
  let dst := Dst.x xd size sgn x.fmt
  s.mayAccess (.ld size sgn acq xd xa o12) ∧ s.locate (loadWant size need true) (s.at xa o12.toInt) = (.ok x, u)
    ∧ u.mayGo cls [x] ∧ u.siteFault x none dst = (none, v) ∧ s.mayAccess (.ldl size sgn acq xd xa o32)
    ∧ s.locate (loadWant size need true) (s.at xa o32.toInt) = (.ok x, u) := by
  decide +kernel

theorem witness_ScalarLoads_2 :
  let s : State := (((m0.x 2 0x10000).x 3 0).setMeta (0x10000) {})
  let size : Size := .w
  let sgn : Bool := true
  let acq : Option Scope := none
  let xd : XR := 4
  let xa : XR := 2
  let xg : XR := 3
  let o : BitVec 12 := 8
  let o32 : BitVec 32 := 8
  let gq : Bool := true
  let need : XNeed := if gq then .block else if acq.isSome then .order else .plain
  let p := s.locate (if gq then loadWant size .block false else loadWant size need true) (s.at xa (if o = 0 then o32.toInt else o.toInt))
  let x : Site := locD dSite p
  let u : State := p.2
  let v : State := (u.siteFault x (if gq then some ((s.rx xg).setWidth 10) else none) (Dst.x xd size sgn x.fmt)).2
  let o12 : BitVec 12 := o
  let cls := x.cls true false acq.isSome false
  let dst := Dst.x xd size sgn x.fmt
  let g := some ((s.rx xg).setWidth 10)
  let cls := x.cls true false true false
  s.mayAccess (.ldg size sgn xd xa xg o12) ∧ s.locate (loadWant size .block false) (s.at xa o12.toInt) = (.ok x, u)
    ∧ u.mayGo cls [x] ∧ u.siteFault x g dst = (none, v) := by
  decide +kernel

theorem witness_ScalarLoads_3 :
  let s : State := (((m0.x 2 0x10000).x 3 0).setMeta (0x10000) {})
  let size : Size := .w
  let acq : Option Scope := none
  let xa : XR := 2
  let o : BitVec 12 := 8
  let o32 : BitVec 32 := 8
  let gq : Bool := true
  let need : XNeed := if gq then .block else if acq.isSome then .order else .plain
  let p := s.locate (if gq then loadWant size .block false else loadWant size need true) (s.at xa (if o = 0 then o32.toInt else o.toInt))
  let x : Site := locD dSite p
  x.ty ≠ .priv ∧ x.remote = false ∧ x.isReg = false := by
  decide +kernel

theorem witness_ReadsAtHome_1 :
  let s : State := q1
  let k : Nat := 0
  let a : Acc := acc1
  let dst : Dst := (.x 4 .d false 0)
  let u := ((s.hearAcc a).touchLines a.pa a.len false).meet a.pa a.len
  s.Arrives k a ∧ a.op = .read dst ∧ (∀ t, a.owner ≠ .mma t) ∧ u.isRetired a.pa = false
    ∧ (∀ g, a.gen = some g → g = (u.blkMeta a.pa).gen) ∧ (a.ty = .once → (u.blkMeta a.pa).pres = .full)
    ∧ (∀ r ∈ readRanges dst a.pa a.len, u.firstPoison r.1 r.2 = none) ∧ u.superseded a = []
    ∧ (a.ty ≠ .release ∨ a.cls.acq = true) := by
  set_option simprocs false in dsimp only; and_intros <;> first | decide +kernel | exact Or.inl (by decide +kernel) | exact data_of _ (by decide +kernel) | (intro t h; cases h)

theorem witness_LoadReplies_1 :
  let s : State := ((m0.emptyX 4).send (.reply (.fibre 0 0) (.x 4 .h true 0) [0xFF, 0x80] .none)).1
  let k : Nat := 0
  let c : Nat := 0
  let j : Nat := 0
  let xd : XR := 4
  let size : Size := .h
  let sgn : Bool := true
  let data : List Byte := [0xFF, 0x80]
  s.net.get? k = some (.reply (.fibre c j) (.x xd size sgn 0) data .none) ∧ data.length = 2 ^ Size.code size := by
  decide +kernel

theorem witness_LoadReplies_2 :
  let s : State := ((m0.emptyX 4).send (.fill 0 0 4 5 .none none)).1
  let k : Nat := 0
  let c : Nat := 0
  let j : Nat := 0
  let xd : XR := 4
  let val : Word := 5
  s.net.get? k = some (.fill c j xd val .none none) := by
  decide +kernel

theorem witness_WritesAtHome_1 :
  let s : State := (m0.send (.req acc2)).1
  let k : Nat := 0
  let a : Acc := acc2
  let data : List Byte := [1,2,3,4,5,6,7,8]
  let u := ((s.hearAcc a).touchLines a.pa a.len true).meet a.pa a.len
  s.Arrives k a ∧ a.op = .write data ∧ data.length = a.len ∧ 0 < a.len ∧ Memory.wf u.mem = true ∧ u.Sound a.pa a.len
    ∧ hasMeta a.pa = true := by
  decide +kernel

theorem witness_VectorLoads_1 :
  let s : State := ((m0.x 3 8).v4 2 1 2 3 0xFFFFFFFF)
  let vd : VR := 1
  let vi : VR := 2
  let xa : XR := 2
  let xb : XR := 3
  let mk : Option MR := (some 1)
  let sh : Fin 4 := 2
  let o : BitVec 12 := 16
  let o32 : BitVec 32 := 16
  let en := s.enabled mk
  let o12 : BitVec 12 := o
  let en := s.enabled mk
  s.isOutV vd = false ∧ s.mayAccess (.vld vd xa mk o12) ∧ en = 0 ∧ s.mayAccess (.vlds vd xa xb mk o32)
    ∧ s.mayAccess (.vgath vd xa vi sh mk o32) := by
  decide +kernel

theorem witness_VectorLoads_2 :
  let s : State := (m0.x 3 8)
  let vd : VR := 1
  let vi : VR := 2
  let xa : XR := 2
  let xb : XR := 3
  let mk : Option MR := none
  let sh : Fin 4 := 2
  let o : BitVec 12 := 16
  let o32 : BitVec 32 := 16
  let k : Nat := 0
  let en := s.enabled mk
  let w : Want := { acc := { rd := true }, n := 4 }
  let lanes := fun la : Nat → Word => ((List.range 4).filter fun k => en.getLsbD k).map fun k => (k, la k)
  let p := match k with
   | 0 => s.locateQuad w (s.at xa o.toInt) en
   | 1 => s.locateLanes w (lanes fun k => s.at xa o32.toInt + BitVec.ofNat 64 k * s.rx xb)
   | _ => s.locateLanes w (lanes fun k =>
          s.at xa o32.toInt + BitVec.ofInt 64 ((s.rv vi (Fin.ofNat 4 k)).toInt * 2 ^ sh.val))
  let xs : List (Nat × Site) := locD [] p
  let u : State := p.2
  let v : State := (u.lanesFault vd xs).2
  let o12 : BitVec 12 := o
  let x : Site := ((spanSite xs).getD dSite)
  let en := s.enabled mk
  let cls := clsAll true false false false (xs.map (·.2))
  let w : Want := { acc := { rd := true }, n := 4 }
  let fine := en ≠ 0 ∧ u.mayGo cls (xs.map (·.2)) ∧ u.lanesFault vd xs = (none, v) ∧ v.isOutV vd = false
  s.isOutV vd = false ∧ s.mayAccess (.vld vd xa mk o12) ∧ s.locateQuad w (s.at xa o12.toInt) en = (.ok xs, u) ∧ fine
    ∧ spanSite xs = some x := by
  decide +kernel

theorem witness_VectorLoads_3 :
  let s : State := (m0.x 3 8)
  let vd : VR := 1
  let vi : VR := 2
  let xa : XR := 2
  let xb : XR := 3
  let mk : Option MR := none
  let sh : Fin 4 := 2
  let o : BitVec 12 := 16
  let o32 : BitVec 32 := 16
  let k : Nat := 1
  let en := s.enabled mk
  let w : Want := { acc := { rd := true }, n := 4 }
  let lanes := fun la : Nat → Word => ((List.range 4).filter fun k => en.getLsbD k).map fun k => (k, la k)
  let p := match k with
   | 0 => s.locateQuad w (s.at xa o.toInt) en
   | 1 => s.locateLanes w (lanes fun k => s.at xa o32.toInt + BitVec.ofNat 64 k * s.rx xb)
   | _ => s.locateLanes w (lanes fun k =>
          s.at xa o32.toInt + BitVec.ofInt 64 ((s.rv vi (Fin.ofNat 4 k)).toInt * 2 ^ sh.val))
  let xs : List (Nat × Site) := locD [] p
  let u : State := p.2
  let v : State := (u.lanesFault vd xs).2
  let en := s.enabled mk
  let cls := clsAll true false false false (xs.map (·.2))
  let w : Want := { acc := { rd := true }, n := 4 }
  let fine := en ≠ 0 ∧ u.mayGo cls (xs.map (·.2)) ∧ u.lanesFault vd xs = (none, v) ∧ v.isOutV vd = false
  let lanes := fun la : Nat → Word => ((List.range 4).filter fun k => en.getLsbD k).map fun k => (k, la k)
  s.isOutV vd = false ∧ s.mayAccess (.vlds vd xa xb mk o32)
    ∧ (s.locateLanes w (lanes fun k => s.at xa o32.toInt + BitVec.ofNat 64 k * s.rx xb) = (.ok xs, u)) ∧ fine := by
  decide +kernel

theorem witness_VectorLoads_4 :
  let s : State := ((m0.x 3 8).v4 2 1 2 3 0xFFFFFFFF)
  let vd : VR := 1
  let vi : VR := 2
  let xa : XR := 2
  let xb : XR := 3
  let mk : Option MR := none
  let sh : Fin 4 := 2
  let o : BitVec 12 := 16
  let o32 : BitVec 32 := 16
  let k : Nat := 2
  let en := s.enabled mk
  let w : Want := { acc := { rd := true }, n := 4 }
  let lanes := fun la : Nat → Word => ((List.range 4).filter fun k => en.getLsbD k).map fun k => (k, la k)
  let p := match k with
   | 0 => s.locateQuad w (s.at xa o.toInt) en
   | 1 => s.locateLanes w (lanes fun k => s.at xa o32.toInt + BitVec.ofNat 64 k * s.rx xb)
   | _ => s.locateLanes w (lanes fun k =>
          s.at xa o32.toInt + BitVec.ofInt 64 ((s.rv vi (Fin.ofNat 4 k)).toInt * 2 ^ sh.val))
  let xs : List (Nat × Site) := locD [] p
  let u : State := p.2
  let v : State := (u.lanesFault vd xs).2
  let en := s.enabled mk
  let cls := clsAll true false false false (xs.map (·.2))
  let w : Want := { acc := { rd := true }, n := 4 }
  let fine := en ≠ 0 ∧ u.mayGo cls (xs.map (·.2)) ∧ u.lanesFault vd xs = (none, v) ∧ v.isOutV vd = false
  let lanes := fun la : Nat → Word => ((List.range 4).filter fun k => en.getLsbD k).map fun k => (k, la k)
  s.isOutV vd = false ∧ s.mayAccess (.vgath vd xa vi sh mk o32)
    ∧ (s.locateLanes w (lanes fun k => s.at xa o32.toInt + BitVec.ofInt 64 ((s.rv vi (Fin.ofNat 4 k)).toInt * 2 ^ sh.val)) = (.ok xs, u))
    ∧ fine := by
  decide +kernel

end Loads

namespace Atomics

def m0 := (((tst 0).x 2 0x100).x 3 0x1234567890ABCDEF).setBytes 0x100 (bytesOfNat 32 0x9989AB)
def mo := (m0.x 2 0x10000).modCore 0 fun r => {r with bab := [{blk := 0x10000, bytes := [(1, 5)], mark := none}]}
def acc0 : Acc := { owner := .fibre 0 0, tid := 0, ctx := 0, va := 0x100, pa := 0x100, len := 8, ty := .release, cls := {}, op := .atomic (.amo .add) .d 77 4 false }
def q0 := ((m0.emptyX 4).send (.req acc0)).1
def dj := (m0.x 3 0x10234)
def acc3 := {acc0 with op := .decj .w 4 0x10200, len := 4 }
def accC : Acc := { acc0 with pa := 0x10000, va := 0x10000, len := 512, ty := .once, op := .commit {data := List.replicate 512 7, bound := 5, maxe := 6, poison := []}}

theorem witness_AtomicsIssue_1 :
  let s : State := m0
  let op : AmoOp := .add
  let fop : FamoOp := .max
  let sz : Wd := .w
  let ord : Ord2 := .ar
  let sc : Scope := .package
  let mg : Bool := false
  let xd : XR := 4
  let xs : XR := 3
  let xa : XR := 2
  let off : BitVec 32 := 8
  let k : Nat := 0
  let p := if k = 0 then s.locateAtom sz (s.rx xa) else s.locateAtom sz (s.at xa off.toInt)
  let x : Site := locD dSite p
  let u : State := p.2
  let v : State := (p.2.atomFault x).2
  let cls := fun ord : Ord2 => { x.cls true true (decide (ord = .acq ∨ ord = .ar)) (decide (ord = .rel ∨ ord = .ar)) with near := decide (ord = .rel ∨ ord = .ar) && sc != .span }
  let moves := mg && s.me.lvl == 0
  let found := fun (sz : Wd) (ord : Ord2) (a : Word) => s.locateAtom sz a = (.ok x, u) ∧ (moves = true → u.me.anc = false) ∧ u.mayGo (cls ord) [x] ∧ u.atomFault x = (false, v) ∧ x.remote = false
  s.mayAccess (.amo op sz ord sc mg xd xs xa) ∧ found sz ord (s.rx xa) ∧ s.mayAccess (.famo fop ord sc mg xd xs xa)
    ∧ found .w ord (s.rx xa) := by
  decide +kernel

theorem witness_AtomicsIssue_2 :
  let s : State := m0
  let op : AmoOp := .add
  let sz : Wd := .w
  let ord : Ord2 := .ar
  let sc : Scope := .package
  let mg : Bool := false
  let xd : XR := 4
  let xs : XR := 3
  let xa : XR := 2
  let off : BitVec 32 := 8
  let k : Nat := 1
  let p := if k = 0 then s.locateAtom sz (s.rx xa) else s.locateAtom sz (s.at xa off.toInt)
  let x : Site := locD dSite p
  let u : State := p.2
  let v : State := (p.2.atomFault x).2
  let cls := fun ord : Ord2 => { x.cls true true (decide (ord = .acq ∨ ord = .ar)) (decide (ord = .rel ∨ ord = .ar)) with near := decide (ord = .rel ∨ ord = .ar) && sc != .span }
  let moves := mg && s.me.lvl == 0
  let found := fun (sz : Wd) (ord : Ord2) (a : Word) => s.locateAtom sz a = (.ok x, u) ∧ (moves = true → u.me.anc = false) ∧ u.mayGo (cls ord) [x] ∧ u.atomFault x = (false, v) ∧ x.remote = false
  s.mayAccess (.amol op sz ord sc mg xd xs xa off) ∧ found sz ord (s.at xa off.toInt)
    ∧ s.mayAccess (.cas sz ord sc mg xd xs xa off) := by
  decide +kernel

theorem witness_AtomicResults_1 :
  let sz : Wd := .w
  let e : Nat := 0xFFFFFFFF
  let n := widthBits sz
  e < 2 ^ n := by
  decide +kernel

theorem witness_AtomicsAtHome_1 :
  let s : State := q0
  let k : Nat := 0
  let a : Acc := acc0
  let op : AtomOp := (.amo .add)
  let sz : Wd := .d
  let operand : Word := 77
  let xd : XR := 4
  let c : Nat := 0
  let j : Nat := 0
  let n := widthBits sz / 8
  let u := ((s.hearAcc a).touchLines a.pa n true).meet a.pa n
  s.Arrives k a ∧ a.op = .atomic op sz operand xd false ∧ a.owner = .fibre c j ∧ Memory.wf u.mem = true
    ∧ u.Sound a.pa n := by
  decide +kernel

theorem witness_DecrementAndJoin_1 :
  let p := dj.locateAtom .w (dj.rx 2)
  let b : Word := 0x10200
  let y : Site := locD dSite p
  let q := p.2.xlateMine { wr := true, need := .block } [{ va := b, len := 512 }]
  let s : State := dj
  let u : State := p.2
  let w : State := q.2
  let v : State := (q.2.atomFault y).2
  let sz : Wd := .w
  let span : Bool := false
  let xd : XR := 4
  let xa : XR := 2
  let xs : XR := 3
  let x : Site := y
  let fs : AMap Frame := (match q.1 with | .ok fs => fs | _ => [])
  let b := s.rx xs &&& ~~~511#64
  let cls : Cls := { st := true }
  s.mayAccess (.decj sz span xd xa xs) ∧ s.locateAtom sz (s.rx xa) = (.ok x, u)
    ∧ u.reach { acc := { wr := true, need := .block }, n := 512, own := true } [{ va := b, len := 512 }] = (.ok fs, w)
    ∧ x.remote = false ∧ w.isRemote (physOf fs b) = false ∧ w.mayGo cls [x] ∧ w.atomFault x = (false, v) := by
  decide +kernel

theorem witness_DecrementAndJoin_2 :
  let s : State := ((m0.emptyX 4).send (.req acc3)).1
  let u : State := m0
  let k : Nat := 0
  let a : Acc := acc3
  let sz : Wd := .w
  let xd : XR := 4
  let c : Nat := 0
  let j : Nat := 0
  let blk : Nat := 0x10200
  let n := widthBits sz / 8
  let u := ((s.hearAcc a).touchLines a.pa n true).meet a.pa n
  let old := u.nat a.pa n
  s.Arrives k a ∧ a.op = .decj sz xd blk ∧ a.owner = .fibre c j ∧ a.ty ≠ .once ∧ blk < 2 ^ 56 ∧ Memory.wf u.mem = true
    ∧ u.Sound a.pa n ∧ old ≠ 1 := by
  decide +kernel

theorem witness_DecrementAndJoin_3 :
  let s : State := (((m0.setBytes 0x100 [1,0,0,0]).emptyX 4).send (.req acc3)).1
  let u : State := m0
  let k : Nat := 0
  let a : Acc := acc3
  let sz : Wd := .w
  let xd : XR := 4
  let c : Nat := 0
  let j : Nat := 0
  let blk : Nat := 0x10200
  let n := widthBits sz / 8
  let u := ((s.hearAcc a).touchLines a.pa n true).meet a.pa n
  let old := u.nat a.pa n
  s.Arrives k a ∧ a.op = .decj sz xd blk ∧ a.owner = .fibre c j ∧ a.ty ≠ .once ∧ blk < 2 ^ 56 ∧ Memory.wf u.mem = true
    ∧ u.Sound a.pa n ∧ old = 1 := by
  decide +kernel

theorem witness_Seals_1 :
  let s : State := mo
  let off := 8
  let p := s.locateByte { wr := true, need := .block } (s.at 2 off)
  let u : State := p.2
  let xa : XR := 2
  let off : BitVec 12 := (BitVec.ofInt 12 off)
  let x : Site := (locD dSite p)
  s.mayAccess (.sealb xa off) ∧ s.cResume = .none
    ∧ s.locateByte { wr := true, need := .block } (s.at xa off.toInt) = (.ok x, u)
    ∧ u.mayGo (x.block.cls false true false true) [x.block] ∧ x.remote = false := by
  decide +kernel

theorem witness_Commits_1 :
  let s : State := (m0.send (.req accC)).1
  let k : Nat := 0
  let a : Acc := accC
  let c : CommitData := {data := List.replicate 512 7, bound := 5, maxe := 6, poison := []}
  let u := (s.touchLines a.pa 512 true).meet a.pa 0
  let m := u.blkMeta a.pa
  s.net.get? k = some (.req a) ∧ a.op = .commit c ∧ a.pa % 512 = 0 ∧ hasMeta a.pa = true ∧ s.reserved a.pa = false
    ∧ s.wakeStuck (blkOf a.pa) = false ∧ c.data.length = 512 ∧ Memory.wf u.mem = true ∧ u.isRetired a.pa = false
    ∧ m.pres = .empty ∧ c.poison = []
    ∧ (isVault a.pa = true → ∀ e ∈ (u.tile (vaultTile a.pa)).coll, e.st = .armed → e.covers a.pa = false) := by
  decide +kernel

theorem witness_Commits_2 :
  let s : State := ((m0.setMeta 0x10000 {pres := .full}).send (.req accC)).1
  let k : Nat := 0
  let a : Acc := accC
  let c : CommitData := {data := List.replicate 512 7, bound := 5, maxe := 6, poison := []}
  let u := (s.touchLines a.pa 512 true).meet a.pa 0
  let m := u.blkMeta a.pa
  s.net.get? k = some (.req a) ∧ a.op = .commit c ∧ a.pa % 512 = 0 ∧ hasMeta a.pa = true ∧ s.reserved a.pa = false
    ∧ s.wakeStuck (blkOf a.pa) = false ∧ c.data.length = 512 ∧ Memory.wf u.mem = true ∧ u.isRetired a.pa = false
    ∧ m.pres = .full := by
  decide +kernel

theorem witness_Commits_3 :
  let s : State := ((m0.setMeta 0x10000 {pres := .retired}).send (.req accC)).1
  let k : Nat := 0
  let a : Acc := accC
  let c : CommitData := {data := List.replicate 512 7, bound := 5, maxe := 6, poison := []}
  let u := (s.touchLines a.pa 512 true).meet a.pa 0
  s.net.get? k = some (.req a) ∧ a.op = .commit c ∧ a.pa % 512 = 0 ∧ hasMeta a.pa = true ∧ s.reserved a.pa = false
    ∧ s.wakeStuck (blkOf a.pa) = false ∧ c.data.length = 512 ∧ Memory.wf u.mem = true ∧ u.isRetired a.pa = true := by
  decide +kernel

theorem witness_Clears_1 :
  let s : State := (m0.x 2 0x10000)
  let off := 8
  let p := s.locateByte { wr := true, need := .block } (s.at 2 off)
  let u : State := p.2
  let xa : XR := 2
  let off : BitVec 12 := (BitVec.ofInt 12 off)
  let x : Site := (locD dSite p)
  let w := (u.touchLines (blkOf x.pa) 512 true).meet (blkOf x.pa) 0
  let m := w.blkMeta (blkOf x.pa)
  s.mayAccess (.clr xa off) ∧ s.locateByte { wr := true, need := .block } (s.at xa off.toInt) = (.ok x, u)
    ∧ u.mayGo (x.block.cls false true false false) [x.block] ∧ x.remote = false ∧ hasMeta (blkOf x.pa) = true
    ∧ u.wakeStuck (blkOf x.pa) = false ∧ w.reserved (blkOf x.pa) = false ∧ w.isRetired (blkOf x.pa) = false
    ∧ (m.pres = .full ∨ m.pres = .empty) ∧ w.guardsOf (blkOf x.pa) (m.pres == .full) = [] ∧ Memory.wf w.mem = true := by
  decide +kernel

theorem witness_ProbeAndWait_1 :
  let s : State := (m0.x 2 0x10000)
  let off := 8
  let p := s.locateByte { rd := true, need := .block } (s.at 2 off)
  let u : State := p.2
  let xd : XR := 4
  let xa : XR := 2
  let off : BitVec 12 := (BitVec.ofInt 12 off)
  let x : Site := (locD dSite p)
  let w := (u.touchLines x.pa 1 false).meet (blkOf x.pa) 0
  let q := if (w.blkMeta (blkOf x.pa)).pres = .deferred then w.readQueue (blkOf x.pa) else w
  s.mayAccess (.probe xd xa off) ∧ s.locateByte { rd := true, need := .block } (s.at xa off.toInt) = (.ok x, u)
    ∧ u.mayGo { ld := true } [x.block] ∧ x.remote = false ∧ u.wakeStuck (blkOf x.pa) = false
    ∧ q.isRetired (blkOf x.pa) = false := by
  decide +kernel

theorem witness_ProbeAndWait_2 :
  let s : State := (m0.x 2 0x10000)
  let off := 8
  let p := s.locateByte { rd := true, need := .block } (s.at 2 off)
  let u : State := p.2
  let xa : XR := 2
  let off : BitVec 12 := (BitVec.ofInt 12 off)
  let x : Site := (locD dSite p)
  let w := (u.touchLines x.pa 1 false).meet (blkOf x.pa) 0
  s.mayAccess (.bwait xa off) ∧ s.cResume = .none
    ∧ s.locateByte { rd := true, need := .block, watch := false } (s.at xa off.toInt) = (.ok x, u)
    ∧ u.mayGo (x.block.cls true false true false) [x.block] ∧ x.remote = false ∧ u.wakeStuck (blkOf x.pa) = false
    ∧ w.isRetired (blkOf x.pa) = false ∧ (w.blkMeta (blkOf x.pa)).pres ≠ .full := by
  decide +kernel

theorem witness_ProbeAndWait_3 :
  let s : State := (mo.setMeta 0x10000 {pres := .full, gen := 1023})
  let off := 8
  let p := s.locateByte { rd := true, need := .block } (s.at 2 off)
  let u : State := p.2
  let xa : XR := 2
  let off : BitVec 12 := (BitVec.ofInt 12 off)
  let x : Site := (locD dSite p)
  let w := (u.touchLines x.pa 1 false).meet (blkOf x.pa) 0
  s.mayAccess (.bwait xa off) ∧ s.cResume = .none
    ∧ s.locateByte { rd := true, need := .block, watch := false } (s.at xa off.toInt) = (.ok x, u)
    ∧ u.mayGo (x.block.cls true false true false) [x.block] ∧ x.remote = false ∧ u.wakeStuck (blkOf x.pa) = false
    ∧ w.isRetired (blkOf x.pa) = false ∧ (w.blkMeta (blkOf x.pa)).pres = .full := by
  decide +kernel

theorem witness_FencesAndBuffers_1 :
  let s : State := m0
  let kinds : BitVec 4 := 5
  let sc : Scope := .tile
  let tlb : Bool := true
  let xa : XR := 2
  let off : BitVec 12 := 8
  s.Inv ∧ s.ready (.fence kinds sc) = .go ∧ ((kinds.getLsbD 0 || kinds.getLsbD 1) = true → s.me.recs = 0)
    ∧ s.fenceWaits kinds sc = [] ∧ s.ready .push = .go ∧ s.cResume = .none
    ∧ (s.myCore.wbuf = [] ∨ s.me.recs = 0 ∧ s.pushWaits = []) ∧ (∀ l ∈ s.myCore.wbuf, l.1 < 2 ^ 56)
    ∧ s.ready .pull = .go ∧ s.me.recs = 0 ∧ s.openReqs s.cur.core s.cur.slot = [] ∧ s.ready (.pref tlb xa off) = .go := by
  simp only [State.inv_iff]; decide +kernel

theorem witness_FencesAndBuffers_2 :
  let s : State := m0
  let p := s.pushFree s.cur.core
  let held := (p.core s.cur.core).wbuf
  s.Inv ∧ s.ready .push = .go ∧ s.cResume = .none ∧ (s.myCore.wbuf = [] ∨ s.me.recs = 0 ∧ s.pushWaits = [])
    ∧ held = [] ∧ p.pushIds s.cur.core = [] := by
  simp only [State.inv_iff]; decide +kernel

theorem witness_FencesAndBuffers_3 :
  let s : State := (m0.modCore 0 fun r => {r with wbuf := [(4, [(1,2)])], rbuf := [(7, [])]})
  let p := s.pushFree s.cur.core
  let held := (p.core s.cur.core).wbuf
  s.Inv ∧ s.ready .push = .go ∧ s.cResume = .none ∧ (s.myCore.wbuf = [] ∨ s.me.recs = 0 ∧ s.pushWaits = [])
    ∧ held = [] ∧ p.pushIds s.cur.core ≠ [] := by
  simp only [State.inv_iff]; decide +kernel

theorem witness_SaveAndLoadWords_1 :
  let s : State := (m0.modMe fun f => {f with fsw := 0x00610000, resume := .stage 10 [] none})
  let list : BitVec 10 := 0x313
  let w : Nat := 9
  let xa : XR := 2
  let off : BitVec 12 := 8
  let a := s.at xa off.toInt
  let legal := (list.getLsbD 9 = true → s.me.lvl ≠ 0) ∧ a.toNat % 8 = 0
  let from_ := fun n : Nat => (List.range 10).filter fun w => decide (n ≤ w) && list.getLsbD w
  s.mayAccess (.savem xa list off) ∧ legal ∧ s.me.resume.word.2 = none ∧ from_ s.me.resume.word.1 = []
    ∧ s.mayAccess (.loadm xa list off) := by
  decide +kernel

theorem witness_SaveAndLoadWords_2 :
  let s : State := m0
  let list : BitVec 10 := 0x13
  let w : Nat := 0
  let ws : List Nat := [1,4]
  let d := s.drainArith 0 0
  let p := d.locate { acc := { rd := true }, n := 8 } (s.at 2 8 + BitVec.ofNat 64 (8*w))
  let u : State := p.2
  let xa : XR := 2
  let off : BitVec 12 := 8
  let x : Site := (locD dSite p)
  let a := s.at xa off.toInt
  let d := if list.getLsbD 8 then s.drainArith s.cur.core s.cur.slot else s
  let legal := (list.getLsbD 9 = true → s.me.lvl ≠ 0) ∧ a.toNat % 8 = 0
  let from_ := fun n : Nat => (List.range 10).filter fun w => decide (n ≤ w) && list.getLsbD w
  let va := a + BitVec.ofNat 64 (8 * w)
  s.mayAccess (.savem xa list off) ∧ legal ∧ s.me.resume.word.2 = none ∧ from_ s.me.resume.word.1 = w :: ws
    ∧ d.locate { acc := { wr := true }, n := 8 } va = (.ok x, u) ∧ (x.ty = .strict ∨ x.ty = .release)
    ∧ x.remote = false ∧ x.isReg = false ∧ u.mayGo (x.cls false true false false) [x] ∧ (u.writeFault x) = (none, u) := by
  decide +kernel

theorem witness_SaveAndLoadWords_3 :
  let s : State := m0
  let list : BitVec 10 := 0x13
  let w : Nat := 0
  let ws : List Nat := [1,4]
  let d := s.drainArith 0 0
  let p := d.locate { acc := { rd := true }, n := 8 } (s.at 2 8 + BitVec.ofNat 64 (8*w))
  let dst : Dst := if w < 8 then .x (Fin.ofNat 8 w) .d false 0 else if w = 8 then .fsw else .tpc
  let v : State := (p.2.siteFault (locD dSite p) none dst).2
  let u : State := p.2
  let xa : XR := 2
  let off : BitVec 12 := 8
  let x : Site := (locD dSite p)
  let a := s.at xa off.toInt
  let d := if list.getLsbD 8 then s.drainArith s.cur.core s.cur.slot else s
  let legal := (list.getLsbD 9 = true → s.me.lvl ≠ 0) ∧ a.toNat % 8 = 0
  let from_ := fun n : Nat => (List.range 10).filter fun w => decide (n ≤ w) && list.getLsbD w
  let va := a + BitVec.ofNat 64 (8 * w)
  let dst : Dst := if w < 8 then .x (Fin.ofNat 8 w) .d false 0 else if w = 8 then .fsw else .tpc
  s.mayAccess (.loadm xa list off) ∧ legal ∧ s.me.resume.word.2 = none ∧ from_ s.me.resume.word.1 = w :: ws
    ∧ d.locate { acc := { rd := true }, n := 8 } va = (.ok x, u) ∧ x.ty ≠ .once
    ∧ u.mayGo (x.cls true false false false) [x] ∧ u.siteFault x none dst = (none, v) := by
  decide +kernel

end Atomics

namespace Fibres

def m0 := (((tst 0).x 2 0x100).x 3 0x1234567890ABCDEF).setBytes 0x100 (bytesOfNat 32 0x9989AB)
def m1 := m0.modMe fun f => {f with anc := false}
def part0 (s : State) := s.setReg (partOff 0) 0x8000000000000000
def sp0 := part0 (((m0.x 4 0x1000).x 5 77).x 2 3)
def kid : Travel := {ctx := 0, core := 3, slot := none, f := {tid := 5, pc := 0x1000}}
def rq (m : ReqMode) (res : Option XR) : SpawnReq := {mode := m, core := 0, slot := 0, tid := 0, res := res, kids := [kid]}
def full (s : State) : State := { s with fibres := (List.range 256).map fun k => (3*256 + k, {tid := 9, st := .parked}) }
def mw : State := m1.modCore 0 fun r => {r with wbuf := [(4, [(1,2)])]}

theorem witness_FibreEnds_1 :
  let s : State := m0
  let v : Bool := true
  let xa : XR := 2
  s.Inv ∧ s.ready .yield = .go ∧ s.ready (.migrate v xa) = .go ∧ s.me.anc = true := by
  simp only [State.inv_iff]; decide +kernel

theorem witness_FibreEnds_2 :
  let s : State := m0
  let c := s.cur.core
  let k := s.cur.slot
  let d := s.drainArith c k
  let quiet := fun ships => d.me.recs = 0 ∧ d.leaveIds ships = [] ∧ d.me.resume = .none ∧ d.myCore.wbuf = [] ∧ d.pushIds c = []
  s.Inv ∧ s.ready .exit = .go ∧ quiet false ∧ s.me.anc = true ∧ (∀ sp : Fin 4, (d.port c sp).bound = false) := by
  simp only [State.inv_iff]; decide +kernel

theorem witness_FibreEnds_3 :
  let s : State := (part0 m1)
  let c := s.cur.core
  let k := s.cur.slot
  let d := s.drainArith c k
  let quiet := fun ships => d.me.recs = 0 ∧ d.leaveIds ships = [] ∧ d.me.resume = .none ∧ d.myCore.wbuf = [] ∧ d.pushIds c = []
  s.Inv ∧ s.ready .exit = .go ∧ quiet false ∧ s.me.anc = false := by
  simp only [State.inv_iff]; decide +kernel

theorem witness_FibreEnds_4 :
  let s : State := (part0 m1)
  let xa : XR := 2
  let c := s.cur.core
  s.Inv ∧ s.ready (.migrate false xa) = .go ∧ s.me.anc = false ∧ s.me.lvl = 0 ∧ s.samePart c (s.rx xa).toNat = false := by
  simp only [State.inv_iff]; decide +kernel

theorem witness_FibreEnds_5 :
  let s : State := (part0 (m1.x 2 3))
  let xa : XR := 2
  let c := s.cur.core
  let k := s.cur.slot
  let d := s.drainArith c k
  s.Inv ∧ s.ready (.migrate false xa) = .go ∧ s.me.anc = false ∧ s.me.lvl = 0 ∧ s.samePart c (s.rx xa).toNat = true
    ∧ (s.rx xa).toNat ≠ c ∧ d.me.recs = 0 ∧ d.me.resume = .none := by
  simp only [State.inv_iff]; decide +kernel

theorem witness_FibreEnds_6 :
  let s : State := (part0 (m1.x 2 0))
  let xa : XR := 2
  let c := s.cur.core
  let k := s.cur.slot
  let d := s.drainArith c k
  let quiet := fun ships => d.me.recs = 0 ∧ d.leaveIds ships = [] ∧ d.me.resume = .none ∧ d.myCore.wbuf = [] ∧ d.pushIds c = []
  s.Inv ∧ s.ready (.migrate false xa) = .go ∧ s.me.anc = false ∧ s.me.lvl = 0 ∧ s.samePart c (s.rx xa).toNat = true
    ∧ (s.rx xa).toNat = c ∧ quiet true := by
  simp only [State.inv_iff]; decide +kernel

theorem witness_FibreEnds_7 :
  let s : State := (m1.modMe fun f => {f with fsw := 0x00610000})
  let v : Bool := true
  let xa : XR := 2
  s.Inv ∧ s.ready (.migrate v xa) = .go ∧ s.me.anc = false ∧ s.me.lvl ≠ 0 := by
  simp only [State.inv_iff]; decide +kernel

theorem witness_Spawns_1 :
  let s : State := sp0
  let t : Bool := true
  let xa : XR := 2
  let xb : XR := 4
  let xc : XR := 5
  let w : BitVec 10 := 2
  let h : BitVec 10 := 1
  let res : Option XR := (some 6)
  let c := s.cur.core
  let pc := s.rx xb
  let a := (s.rx xa).toNat
  let legal := pc.toNat / 2 ^ 48 = 0 ∧ pc.toNat % 8 = 0 ∧ s.me.resume = .none ∧ s.mustWait { rel := true } 0 0 false = []
  s.mayAccess (.spawn false t xa xb xc res) ∧ legal ∧ s.samePart c a = true ∧ s.mayAccess (.spawnr t xa xb xc w h res)
    ∧ a < 131072
    ∧ (∀ y, y < h.toNat → ∀ x, x < w.toNat → a / 512 + y ≤ 255 ∧ a % 512 + x ≤ 511 ∧ s.samePart c ((a / 512 + y) * 512 + (a % 512 + x)) = true) := by
  decide +kernel

theorem witness_Spawns_2 :
  let s : State := (sp0.modMe fun f => {f with resume := .stage 3 [0] none})
  let t : Bool := false
  let xa : XR := 2
  let xb : XR := 4
  let xc : XR := 5
  let w : BitVec 10 := 2
  let h : BitVec 10 := 1
  let res : Option XR := (some 6)
  let n : Nat := 3
  let ids : List Nat := [0]
  let v : Bool := false
  s.mayAccess (.spawn v t xa xb xc res) ∧ s.me.resume = .stage n ids none ∧ s.mayAccess (.spawnr t xa xb xc w h res) := by
  decide +kernel

theorem witness_Spawns_3 :
  let s : State := (sp0.modMe fun f => {f with resume := .stage 3 [0] (some (0x12, 7))})
  let t : Bool := true
  let xa : XR := 2
  let xb : XR := 4
  let xc : XR := 5
  let res : Option XR := none
  let n : Nat := 3
  let ids : List Nat := [0]
  let cause : Nat := 0x12
  let val : Word := 7
  let v : Bool := true
  s.mayAccess (.spawn v t xa xb xc res) ∧ s.me.resume = .stage n ids (some (cause, val)) := by
  decide +kernel

theorem witness_Placements_1 :
  let s : State := (m0.send (.reserve (rq .spawn none))).1
  let k : Nat := 0
  let r : SpawnReq := (rq .spawn none)
  let t : Travel := kid
  let j : Nat := 0
  s.Inv ∧ s.net.get? k = some (.reserve r) ∧ s.Passes (.reserve r) ∧ r.kids = [t]
    ∧ (∃ j, j < 256 ∧ (s.fib t.core j).st = .free) := by
  simp only [State.inv_iff]; decide +kernel

theorem witness_Placements_2 :
  let s : State := (full m0 |>.send (.reserve (rq .spawn none))).1
  let k : Nat := 0
  let r : SpawnReq := (rq .spawn none)
  let t : Travel := kid
  let j : Nat := 0
  s.Inv ∧ s.net.get? k = some (.reserve r) ∧ s.Passes (.reserve r) ∧ r.kids = [t]
    ∧ (∀ j, j < 256 → (s.fib t.core j).st ≠ .free) ∧ s.poolRoom t.ctx = false := by
  simp only [State.inv_iff]; decide +kernel

theorem witness_Placements_3 :
  let s : State := (m0.send (.reserved (rq .spawn (some 6)) (some [kid]))).1
  let k : Nat := 0
  let r : SpawnReq := (rq .spawn (some 6))
  let kids : List Travel := [kid]
  s.Inv ∧ s.net.get? k = some (.reserved r (some kids)) ∧ s.Passes (.reserved r (some kids)) ∧ r.mode = .spawn := by
  simp only [State.inv_iff]; decide +kernel

theorem witness_Placements_4 :
  let s : State := (m0.send (.reserved (rq .spawnT (some 6)) none)).1
  let k : Nat := 0
  let r : SpawnReq := (rq .spawnT (some 6))
  s.Inv ∧ s.net.get? k = some (.reserved r none) ∧ s.Passes (.reserved r none) ∧ r.mode = .spawnT := by
  simp only [State.inv_iff]; decide +kernel

theorem witness_Placements_5 :
  let s : State := (m0.send (.travel {kid with slot := some 4})).1
  let k : Nat := 0
  let t : Travel := {kid with slot := some 4}
  let j : Nat := 4
  s.Inv ∧ s.net.get? k = some (.travel t) ∧ s.Passes (.travel t) ∧ t.slot = some j := by
  simp only [State.inv_iff]; decide +kernel

theorem witness_Placements_6 :
  let s : State := (m0.send (.travel kid)).1
  let k : Nat := 0
  let t : Travel := kid
  s.Inv ∧ s.net.get? k = some (.travel t) ∧ s.Passes (.travel t) ∧ t.slot = none := by
  simp only [State.inv_iff]; decide +kernel

theorem witness_Placements_7 :
  let s : State := {m0 with pool := [kid]}
  let t : Travel := kid
  let j : Nat := 4
  s.Inv ∧ s.pool = [t] ∧ s.poolFor t.core = [0] ∧ (∃ j, j < 256 ∧ (s.fib t.core j).st = .free) := by
  simp only [State.inv_iff]; decide +kernel

theorem witness_Placements_8 :
  let s : State := (m1.send (.reserved (rq .migrate none) (some [{kid with slot := some 4}]))).1
  let k : Nat := 0
  let r : SpawnReq := (rq .migrate none)
  let t : Travel := {kid with slot := some 4}
  let kids : List Travel := []
  let m : Msg := .reserved r (some (t :: kids))
  s.Inv ∧ s.net.get? k = some (.reserved r (some (t :: kids))) ∧ r.mode = .migrate
    ∧ s.beforeLeave r.core r.slot k = none ∧ s.Passes m := by
  simp only [State.inv_iff]; decide +kernel

theorem witness_Placements_9 :
  let s : State := (mw.send (.reserved (rq .migrate none) (some [{kid with slot := some 4}]))).1
  let k : Nat := 0
  let r : SpawnReq := (rq .migrate none)
  let t : Travel := {kid with slot := some 4}
  let kids : List Travel := []
  s.Inv ∧ s.net.get? k = some (.reserved r (some (t :: kids))) ∧ r.mode = .migrate ∧ s.ownIds r.core r.slot = []
    ∧ s.pushIds r.core = [] ∧ (s.core r.core).wbuf ≠ [] := by
  simp only [State.inv_iff]; decide +kernel

end Fibres

namespace Streams

def m0 := (((tst 0).x 2 0x100).x 3 0x1234567890ABCDEF).setBytes 0x100 (bytesOfNat 32 0x9989AB)
def m1 := m0.modMe fun f => {f with anc := false}
def desc (w1 : Nat) := bytesOfNat 8 0x1000 ++ bytesOfNat 8 w1 ++ bytesOfNat 8 16 ++ bytesOfNat 8 0
def bo : State := m0.setPort 0 1 {bound := true, out := true, n1 := 1, n0 := 4, pos := 2, cause := 5}
def rep (s : State) : State := (s.send (.reply (.port 0 1 2) (.v (portReg 1) 0xF 0) (List.range 16 |>.map (BitVec.ofNat 8)) .none)).1
def ca : Acc := {dAcc with op := .cancel 0 1, pa := 0x10000, len := 512}
def V0 : Vector Lane 4 := #v[1,2,3,4]
def pk (s : State) (n : Need) : State := s.modMe fun f => {f with st := .parked, need := n, resume := .stage 1 [0] none}
def ast : Aster := {kind := 1, dreg := 4, size := 3, tid := 0}
def D8 : List Byte := [1,2,3,4,5,6,7,8]
def wk : State := (m0.send (.wake 0x10000 ast D8 .none)).1
def m9 : State := m0.setReg (partOff 0) 0x8000000000000000
def wk9 : State := (m9.send (.wake 0x10000 {ast with ctx := 3} D8 .none)).1
def ast3 : Aster := {kind := 3, dreg := 4, size := 3, tid := 0}
def H9 : State := (m0.setReg 0x1A0000 0x8000001).setPpt 0x20000 4
def tq : State := ((m1.modCore 0 fun r => {r with hotH := {}, hotN := {slot := some 0, count := 1024}}).modMe fun f => {f with fsw := 0x00010000}).setFib 0 4 {tid := 4, st := .ready}

theorem witness_StreamPorts_1 :
  let s : State := (m0.setBytes 0x100 (desc (2^63 + 1*2^40 + 4*2^16)))
  let p := s.locate { acc := { rd := true }, n := 32, conv := false } (s.rx 2)
  let x : Site := locD dSite p
  let v : State := (p.2.siteFault x none .none).2
  let u : State := p.2
  let sp : Fin 4 := 1
  let xa : XR := 2
  let d := s.rx xa
  let bs := v.bytes x.pa 32
  let word := fun i : Nat => natOfBytes ((bs.drop (8 * i)).take 8)
  s.mayAccess (.sbind sp xa) ∧ (s.port s.cur.core sp).bound = false ∧ d.toNat % 32 = 0
    ∧ s.openReqs s.cur.core s.cur.slot = []
    ∧ s.locate { acc := { rd := true }, n := 32, conv := false } d = (.ok x, u)
    ∧ u.mayGo (x.cls true false false false) [x] ∧ x.remote = false ∧ (x.ty = .strict ∨ x.ty = .release)
    ∧ u.siteFault x none .none = (none, v) ∧ v.wakeStuck (blkOf x.pa) = false ∧ word 1 / 2 ^ 56 % 2 ^ 7 = 0
    ∧ word 1 % 2 ^ 16 = 0 ∧ word 1 / 2 ^ 40 % 2 ^ 16 ≠ 0 ∧ word 1 / 2 ^ 16 % 2 ^ 24 ≠ 0 ∧ word 2 / 2 ^ 48 = 0
    ∧ word 3 / 2 ^ 48 = 0 ∧ (word 1).testBit 63 = true := by
  decide +kernel

theorem witness_StreamPorts_2 :
  let s : State := (m0.setBytes 0x100 (desc (2^63 + 1*2^40 + 4*2^16)))
  let sp : Fin 4 := 1
  let xd : XR := 3
  s.ready (.sfree sp) = .go ∧ s.cResume = .none ∧ (s.port s.cur.core sp).bound = false ∧ s.ready (.sstat xd sp) = .go := by
  decide +kernel

theorem witness_StreamPorts_3 :
  let s : State := (m0.setBytes 0x100 (desc (2^63 + 1*2^40 + 4*2^16)))
  let p := s.locate { acc := { rd := true }, n := 32, conv := false } (s.rx 2)
  let sp : Fin 4 := 1
  let w := s.outWaits [sp]
  let p := s.stopPorts [sp]
  s.ready (.sfree sp) = .go ∧ s.cResume = .none ∧ w = [] ∧ p.2 = [] := by
  decide +kernel

theorem witness_StreamPorts_4 :
  let s : State := (m0.setPort 0 1 { bound := true, n1 := 1, n0 := 4, queued := [(2, 0x10000)] })
  let sp : Fin 4 := 1
  let xa : XR := 2
  s.mayAccess (.sbind sp xa) ∧ (s.port s.cur.core sp).bound = true ∧ s.Inv ∧ (s.port s.cur.core sp).out = false := by
  simp only [State.inv_iff]; decide +kernel

theorem witness_StreamPorts_5 :
  let s : State := (m0.setPort 0 1 { bound := true, n1 := 1, n0 := 4, queued := [(2, 0x10000)] })
  let sp : Fin 4 := 1
  let w := s.outWaits [sp]
  let p := s.stopPorts [sp]
  s.ready (.sfree sp) = .go ∧ s.cResume = .none ∧ w = [] ∧ p.2 ≠ [] := by
  decide +kernel

theorem witness_StreamPorts_6 :
  let s : State := (m0.setPort 0 1 { bound := true, n1 := 1, n0 := 4, queued := [(2, 0x10000)] })
  let sp : Fin 4 := 1
  let xd : XR := 3
  let p := s.port s.cur.core sp
  let ahead := if p.out then 0 else p.got.length + (if p.pos < p.n0 * p.n1 ∧ vAllFull s.myCore.v [portReg sp] = true then 1 else 0)
  s.ready (.sstat xd sp) = .go ∧ (s.port s.cur.core sp).bound = true ∧ p.pos < 2 ^ 52 ∧ p.cause < 64 ∧ ahead < 8 := by
  decide +kernel

theorem witness_StreamPorts_7 :
  let s : State := (m0.setBytes 0x100 (desc (1*2^40 + 4*2^16)))
  let p := s.locate { acc := { rd := true }, n := 32, conv := false } (s.rx 2)
  let x : Site := locD dSite p
  let v : State := (p.2.siteFault x none .none).2
  let u : State := p.2
  let sp : Fin 4 := 1
  let xa : XR := 2
  let d := s.rx xa
  let bs := v.bytes x.pa 32
  let word := fun i : Nat => natOfBytes ((bs.drop (8 * i)).take 8)
  s.mayAccess (.sbind sp xa) ∧ (s.port s.cur.core sp).bound = false ∧ d.toNat % 32 = 0
    ∧ s.openReqs s.cur.core s.cur.slot = []
    ∧ s.locate { acc := { rd := true }, n := 32, conv := false } d = (.ok x, u)
    ∧ u.mayGo (x.cls true false false false) [x] ∧ x.remote = false ∧ (x.ty = .strict ∨ x.ty = .release)
    ∧ u.siteFault x none .none = (none, v) ∧ v.wakeStuck (blkOf x.pa) = false ∧ word 1 / 2 ^ 56 % 2 ^ 7 = 0
    ∧ word 1 % 2 ^ 16 = 0 ∧ word 1 / 2 ^ 40 % 2 ^ 16 ≠ 0 ∧ word 1 / 2 ^ 16 % 2 ^ 24 ≠ 0 ∧ word 2 / 2 ^ 48 = 0
    ∧ word 3 / 2 ^ 48 = 0 ∧ (word 1).testBit 63 = false := by
  decide +kernel

theorem witness_StreamPorts_8 :
  let s : State := bo
  let p := s.locate { acc := { rd := true }, n := 32, conv := false } (s.rx 2)
  let sp : Fin 4 := 1
  s.ready (.sfree sp) = .go ∧ s.cResume = .none ∧ (s.port s.cur.core sp).out = true
    ∧ (∀ p ∈ s.openReqs s.cur.core s.cur.slot, p.2.cls.st = false) ∧ s.Inv := by
  simp only [State.inv_iff]; decide +kernel

theorem witness_StreamPorts_9 :
  let s : State := ((m0.setPort 0 1 { bound := true, out := true, n1 := 1, n0 := 4 }).send (.req { dAcc with owner := .port 0 1 2, cls := { st := true }, op := .write [] })).1
  let sp : Fin 4 := 1
  let w := s.outWaits [sp]
  s.ready (.sfree sp) = .go ∧ s.cResume = .none ∧ w ≠ [] := by
  decide +kernel

theorem witness_StreamArrivals_1 :
  let s : State := (rep (m0.setPort 0 1 {bound := true, n1 := 1, n0 := 4, pos := 2, asked := 3}))
  let k : Nat := 0
  let c : Nat := 0
  let e : Nat := 2
  let sp : Fin 4 := 1
  let data : List Byte := (List.range 16 |>.map (BitVec.ofNat 8))
  let dst := Dst.v (portReg sp) 0xF 0
  let p := s.port c sp
  s.net = [(k, .reply (.port c sp.val e) dst data .none)] ∧ p.bound = true ∧ p.out = false ∧ e = p.pos ∧ e < p.asked
    ∧ s.Inv ∧ data.length = 16 := by
  simp only [State.inv_iff]; decide +kernel

theorem witness_StreamArrivals_2 :
  let s : State := (rep m0)
  let k : Nat := 0
  let c : Nat := 0
  let e : Nat := 2
  let sp : Fin 4 := 1
  let data : List Byte := (List.range 16 |>.map (BitVec.ofNat 8))
  let dst := Dst.v (portReg sp) 0xF 0
  let p := s.port c sp
  s.net = [(k, .reply (.port c sp.val e) dst data .none)] ∧ p.bound = false := by
  decide +kernel

theorem witness_StreamArrivals_3 :
  let s : State := (m0.send (.req ca)).1
  let k : Nat := 0
  let c : Nat := 0
  let sp : Fin 4 := 1
  let a : Acc := ca
  s.net.get? k = some (.req a) ∧ a.op = .cancel c sp.val ∧ s.wakeStuck (blkOf a.pa) = false
    ∧ (s.blkMeta a.pa).pres ≠ .deferred := by
  decide +kernel

theorem witness_AnswersArrive_1 :
  let s : State := (m0.send (.arithX 0 0 4 9 0x11)).1
  let k : Nat := 0
  let c : Nat := 0
  let j : Nat := 0
  let xd : XR := 4
  let val : Word := 9
  let fl : Flags := 0x11
  s.net.get? k = some (.arithX c j xd val fl) := by
  decide +kernel

theorem witness_AnswersArrive_2 :
  let s : State := (m0.send (.arithV 0 0 5 3 V0 0x11)).1
  let k : Nat := 0
  let c : Nat := 0
  let j : Nat := 0
  let vd : VR := 5
  let lanes : BitVec 4 := 3
  let vals : Vector Lane 4 := V0
  let fl : Flags := 0x11
  s.net.get? k = some (.arithV c j vd lanes vals fl) := by
  decide +kernel

theorem witness_AnswersArrive_3 :
  let s : State := (m0.send (.ack .nobody)).1
  let k : Nat := 0
  let o : Owner := .nobody
  s.net.get? k = some (.ack o) := by
  decide +kernel

theorem witness_AnswersArrive_4 :
  let s : State := (m0.send (.answer (.fibre 0 0) 0 5)).1
  let k : Nat := 0
  let c : Nat := 0
  let j : Nat := 0
  let va : Word := 5
  s.net.get? k = some (.answer (.fibre c j) 0 va) := by
  decide +kernel

theorem witness_AnswersArrive_5 :
  let s : State := ((pk m0 (.gone [0])).send (.answer (.fibre 0 0) 1 5)).1
  let k : Nat := 0
  let c : Nat := 0
  let j : Nat := 0
  let code : Nat := 1
  let va : Word := 5
  s.net.get? k = some (.answer (.fibre c j) code va) ∧ code ≠ 0 := by
  decide +kernel

theorem witness_AnswersArrive_6 :
  let s : State := (pk m0 .assembly)
  let c : Nat := 0
  let j : Nat := 0
  (s.fib c j).need = .assembly ∧ (s.core c).bab.length < 8 ∧ j < 256 := by
  decide +kernel

theorem witness_AnswersArrive_7 :
  let s : State := ((pk m0 .assembly).modCore 0 fun r => {r with bab := List.replicate 8 {blk := 0, bytes := [], mark := none}})
  let c : Nat := 0
  let j : Nat := 0
  (s.fib c j).need = .assembly ∧ 8 ≤ (s.core c).bab.length := by
  decide +kernel

theorem witness_WakesArrive_1 :
  let s : State := (wk.modMe fun f => {f with recs := 1})
  let k : Nat := 0
  let blk : Nat := 0x10000
  let r : Aster := ast
  let data : List Byte := D8
  let fl : RFlag := .none
  let xd : XR := 4
  let m := Msg.wake blk r data fl
  s.net.get? k = some m ∧ s.Passes m ∧ s.stale r = false ∧ s.reachable r = true ∧ r.kind = 1
    ∧ r.dst = .x xd .d false 0 ∧ fl = .none ∧ data.length = 8 := by
  decide +kernel

theorem witness_WakesArrive_2 :
  let s : State := (m0.send (.wake 0x10000 {ast with inst := 3} D8 .none)).1
  let k : Nat := 0
  let blk : Nat := 0x10000
  let r : Aster := {ast with inst := 3}
  let data : List Byte := D8
  let fl : RFlag := .none
  let m := Msg.wake blk r data fl
  s.net.get? k = some m ∧ s.Passes m ∧ s.stale r = true := by
  decide +kernel

theorem witness_WakesArrive_3 :
  let s : State := wk9
  let k : Nat := 0
  let blk : Nat := 0x10000
  let r : Aster := {ast with ctx := 3}
  let data : List Byte := D8
  let fl : RFlag := .none
  let m := Msg.wake blk r data fl
  s.net.get? k = some m ∧ s.Passes m ∧ s.stale r = false ∧ s.reachable r = false ∧ s.poolGroup r.ctx.toNat = none := by
  decide +kernel

theorem witness_WakesArrive_4 :
  let s : State := (wk9.setReg 0x1C0018 0x400011)
  let k : Nat := 0
  let blk : Nat := 0x10000
  let g : Nat := 0x400000
  let r : Aster := {ast with ctx := 3}
  let data : List Byte := D8
  let fl : RFlag := .none
  let m := Msg.wake blk r data fl
  s.net.get? k = some m ∧ s.Passes m ∧ s.stale r = false ∧ s.reachable r = false ∧ s.poolGroup r.ctx.toNat = some g := by
  decide +kernel

theorem witness_WakesArrive_5 :
  let s : State := ((m0.modMe fun f => {f with resume := .stage 0 [] none}).send (.wake 0x10000 ast3 D8 .none)).1
  let k : Nat := 0
  let blk : Nat := 0x10000
  let r : Aster := ast3
  let data : List Byte := D8
  let fl : RFlag := .none
  let ids : List Nat := []
  let fail : Option (Nat × Word) := none
  let m := Msg.wake blk r data fl
  let c := r.core.toNat
  let j := r.slot.toNat
  s.net.get? k = some m ∧ s.Passes m ∧ s.stale r = false ∧ s.reachable r = true ∧ r.kind = 3 ∧ fl = .none
    ∧ (s.fib c j).resume = .stage 0 ids fail := by
  decide +kernel

theorem witness_TimersAndFetches_1 :
  let s : State := ((pk m0 (.hold 3 0x77)).setReg (ctxTrapOff 0) 0x4001)
  let c : Nat := 0
  let j : Nat := 0
  let page : Nat := 3
  let va : Word := 0x77
  (s.fib c j).need = .hold page va ∧ s.quantumOver c true = false ∧ s.quantumOver c false = false := by
  decide +kernel

theorem witness_TimersAndFetches_2 :
  let s : State := (m0.setPort 0 1 { bound := true, held := some (3, 0x77), asked := 2 })
  let c : Nat := 0
  let page : Nat := 3
  let va : Word := 0x77
  let sp : Fin 4 := 1
  (s.port c sp).held = some (page, va) ∧ (s.port c sp).failed = none ∧ AMap.wf {} s.cores = true := by
  decide +kernel

theorem witness_TimersAndFetches_3 :
  let s : State := (m0.modTile 0 fun k => k.setChan false 7 { wait := .hold 3 0x77 })
  let page : Nat := 3
  let tile : Nat := 0
  let p : Nat := 7
  let va : Word := 0x77
  let conv : Bool := false
  (s.chan tile conv p).wait = .hold page va ∧ (p < (if conv then 4 else 8)) ∧ AMap.wf {} s.tiles = true := by
  decide +kernel

theorem witness_TimersAndFetches_4 :
  let s : State := {H9 with hostHeld := [{ k := 5, pa := 0x20000, n := 8, data := none }]}
  let k : Nat := 5
  let pa : Nat := 0x20000
  let n : Nat := 8
  s.hostHeld = [{ k := k, pa := pa, n := n, data := none }] ∧ s.isHeld pa = true := by
  decide +kernel

theorem witness_TimersAndFetches_5 :
  let s : State := tq
  let c : Nat := 0
  let j : Nat := 0
  s.quantumOver c true = false ∧ s.quantumOver c false = true ∧ ((s.core c).hotN).slot = some j ∧ j < 256
    ∧ (s.fib c j).st = .running ∧ s.Inv := by
  simp only [State.inv_iff]; decide +kernel

theorem witness_TimersAndFetches_6 :
  let s : State := (m0.modMe fun f => {f with pc := 0x800000})
  let fp := s.fetchAt 0 s.me.pc
  let ftc : Nat × Nat × Word := match fp.1 with | .fault c v => (c, 0, v) | .hold q v => (0, q, v) | _ => (0,0,0)
  let u : State := fp.2
  let cause : Nat := ftc.1
  let val : Word := ftc.2.2
  s.fetchAt s.cur.core s.me.pc = (.fault cause val, u) := by
  decide +kernel

end Streams

namespace Accums

def m0 := (((tst 2).x 2 0x100).x 3 0x1234567890ABCDEF).setBytes 0x100 (bytesOfNat 32 0x9989AB)
def open_ (s : State) (p : Fin 8) (g : Accum → Accum) : State := s.setAcc s.myTile p (g { s.acc s.myTile p with isOpen := true, tid := s.me.tid })

theorem witness_Accumulators_1 :
  let s : State := m0
  let act : Act := .reissue
  let wide : Bool := true
  let p : Fin 8 := 2
  let q : Fin 8 := 5
  let k : BitVec 8 := 9
  let t := s.myTile
  let a := s.acc t p
  let idle := (s.tile t).busy p = false
  let claims := wide = true ∨ act = .reissue
  AMap.wf {} s.tiles = true ∧ AMap.wf (0 : Lane) a.cells = true ∧ s.ready (.mbegin act wide p k) = .go
    ∧ a.isOpen = false ∧ a.pair = false ∧ idle
    ∧ (claims → (s.acc t (p + 1)).isOpen = false ∧ (s.acc t (p + 1)).pair = false ∧ (s.tile t).busy (p + 1) = false)
    ∧ wide = true ∧ q ≠ p ∧ q ≠ p + 1 := by
  decide +kernel

theorem witness_Accumulators_2 :
  let s : State := m0
  let p : Fin 8 := 2
  let q : Fin 8 := 5
  let rs : Fin 16 := 3
  let cs : Fin 16 := 4
  let vd : VR := 1
  let row : Fin 32 := 31
  let grp : Fin 8 := 7
  let t := s.myTile
  let a := s.acc t p
  let idle := (s.tile t).busy p = false
  AMap.wf {} s.tiles = true ∧ AMap.wf (0 : Lane) a.cells = true ∧ s.ready (.mzero p) = .go ∧ s.foreign p = false
    ∧ a.isOpen = false ∧ idle ∧ s.ready (.mscl p rs cs) = .go ∧ s.ready (.mva p vd row grp) = .go ∧ q ≠ p
    ∧ s.ready (.mrv vd p row grp) = .go ∧ s.isOutV vd = false := by
  decide +kernel

theorem witness_Accumulators_3 :
  let s : State := (open_ m0 2 fun a => {a with tid := 99})
  let act : Act := .none
  let wide : Bool := false
  let p : Fin 8 := 2
  let k : BitVec 8 := 9
  let t := s.myTile
  let a := s.acc t p
  let claims := wide = true ∨ act = .reissue
  AMap.wf {} s.tiles = true ∧ AMap.wf (0 : Lane) a.cells = true ∧ s.ready (.mbegin act wide p k) = .go
    ∧ (a.isOpen = true ∨ a.pair = true ∨ claims ∧ ((s.acc t (p + 1)).isOpen = true ∨ (s.acc t (p + 1)).pair = true)) := by
  decide +kernel

theorem witness_Accumulators_4 :
  let s : State := (open_ m0 2 fun a => {a with tid := 99})
  let p : Fin 8 := 2
  let rs : Fin 16 := 3
  let cs : Fin 16 := 4
  let vd : VR := 1
  let row : Fin 32 := 0
  let grp : Fin 8 := 0
  let t := s.myTile
  let a := s.acc t p
  AMap.wf {} s.tiles = true ∧ AMap.wf (0 : Lane) a.cells = true ∧ s.ready (.mzero p) = .go
    ∧ (s.foreign p = true ∨ a.isOpen = true) ∧ s.ready (.mscl p rs cs) = .go ∧ s.foreign p = true
    ∧ s.ready (.mva p vd row grp) = .go := by
  decide +kernel

theorem witness_Accumulators_5 :
  let s : State := (m0.setPort 2 1 { bound := true, out := true, n1 := 1, n0 := 4 })
  let act : Act := .none
  let wide : Bool := false
  let p : Fin 8 := 2
  let k : BitVec 8 := 9
  let t := s.myTile
  let a := s.acc t p
  let idle := (s.tile t).busy p = false
  let claims := wide = true ∨ act = .reissue
  AMap.wf {} s.tiles = true ∧ AMap.wf (0 : Lane) a.cells = true ∧ s.ready (.mbegin act wide p k) = .go
    ∧ a.isOpen = false ∧ a.pair = false ∧ idle
    ∧ (claims → (s.acc t (p + 1)).isOpen = false ∧ (s.acc t (p + 1)).pair = false ∧ (s.tile t).busy (p + 1) = false)
    ∧ ¬ claims := by
  decide +kernel

theorem witness_Accumulators_6 :
  let s : State := (m0.setPort 2 1 { bound := true, out := true, n1 := 1, n0 := 4 })
  let p : Fin 8 := 2
  let row : Fin 32 := 0
  let grp : Fin 8 := 0
  let sp : Fin 4 := 1
  let t := s.myTile
  let a := s.acc t p
  let idle := (s.tile t).busy p = false
  AMap.wf {} s.tiles = true ∧ AMap.wf (0 : Lane) a.cells = true ∧ s.ready (.mrv (portReg sp) p row grp) = .go
    ∧ s.isOutV (portReg sp) = true ∧ idle := by
  decide +kernel

theorem witness_Accumulators_7 :
  let s : State := (tst 0)
  let p : Fin 8 := 2
  let t := s.myTile
  let a := s.acc t p
  AMap.wf {} s.tiles = true ∧ AMap.wf (0 : Lane) a.cells = true ∧ (coreInTile s.cur.core ≠ 2 ∨ s.ops.f.anc = false) := by
  decide +kernel

theorem witness_Accumulators_8 :
  let s : State := m0
  let act : Act := .reissue
  let wide : Bool := false
  let p : Fin 8 := 2
  let k : BitVec 8 := 9
  let t := s.myTile
  let a := s.acc t p
  let idle := (s.tile t).busy p = false
  let claims := wide = true ∨ act = .reissue
  AMap.wf {} s.tiles = true ∧ AMap.wf (0 : Lane) a.cells = true ∧ s.ready (.mbegin act wide p k) = .go
    ∧ a.isOpen = false ∧ a.pair = false ∧ idle
    ∧ (claims → (s.acc t (p + 1)).isOpen = false ∧ (s.acc t (p + 1)).pair = false ∧ (s.tile t).busy (p + 1) = false)
    ∧ claims ∧ wide = false := by
  decide +kernel

theorem witness_AccumulatorBounds_1 :
  let s : State := m0
  let act : Act := .none
  let p : Fin 8 := 2
  let k : BitVec 8 := 9
  let xr : XR := 1
  let xa : XR := 2
  let t := s.myTile
  let a := s.acc t p
  let idle := (s.tile t).busy p = false
  s.ready (.mstat xr p) = .go ∧ idle ∧ a.act = act ∧ a.count < 65536 ∧ s.ready (.bset p xa) = .go ∧ a.isOpen = false
    ∧ a.pair = false ∧ s.ready (.bthr act p k) = .go ∧ s.foreign p = false
    ∧ (act = .reissue → p.val % 2 = 0 ∧ (a.isOpen = true → a.claim = true)) := by
  decide +kernel

theorem witness_AccumulatorBounds_2 :
  let s : State := m0
  let p : Fin 8 := 2
  let xr : XR := 1
  let t := s.myTile
  let idle := (s.tile t).busy p = false
  s.ready (.bget xr p) = .go ∧ idle := by
  decide +kernel

theorem witness_AccumulatorBounds_3 :
  let s : State := (open_ m0 2 fun a => {a with bound := 7, act := .trap, k := 200, wide := true, reis := true, count := 65535, rs := 5, cs := 6, scl := true})
  let p : Fin 8 := 2
  let xa : XR := 2
  let t := s.myTile
  let a := s.acc t p
  s.ready (.bset p xa) = .go ∧ a.isOpen = true := by
  decide +kernel

end Accums

namespace Matrix

def m0 := (((tst 2).x 2 0x30000).x 3 0x0).modCore 2 fun r => {r with wf := r.wf.set 0 1}
def open_ (s : State) (p : Fin 8) (g : Accum → Accum) : State := s.setAcc s.myTile p (g { s.acc s.myTile p with isOpen := true, tid := s.me.tid })
def b0 : State := open_ m0 2 id
def got0 : AMap (List Byte × BitVec 16 × BitVec 8) := (List.range 32).map fun i => (i, List.replicate 64 (BitVec.ofNat 8 i), 0xFFFF, 0xFF)
def f0 : MmaFetch := { core := 2, slot := 0, p := 2, fmt := 1, len := 64, got := got0, rows := (List.range 32).map fun i => { va := BitVec.ofNat 64 (0x30000 + 64 * i), pa := 0x100400000000 + 64 * i, ty := .release, msg := false } }
def s3 : State := (b0.modTile 0 fun k => { k with fetch := some f0 }).modMe fun f => { f with resume := .stage 50 [] none }
def j0 : MmaJob := {p := 2, wide := false, fmt := 1, a := List.replicate 1024 1, b := List.replicate 1024 2, ea := 0, eb := 0, ma := 0, mb := 0}
def ex (g : Accum → Accum) := open_ m0 2 fun a => g { a with cells := [(0, 0x3F800000)], bound := 0xFFFF, k := 1 }

theorem witness_MatrixProducts_1 :
  let s : State := s3
  let rr := s.readRuns (((List.range 32).map fun i => runAddr s.myTile i (s.rx 3).toNat).flatMap fun b => runParts b f0.len)
  let u : State := rr.2
  let p : Fin 8 := 2
  let xa : XR := 2
  let xb : XR := 3
  let stride : BitVec 20 := 64
  let f : MmaFetch := f0
  let ids : List Nat := []
  let fail : Option (Nat × Word) := none
  let t := s.myTile
  s.mayAccess (.mma p xa xb stride) ∧ s.me.resume = .stage 50 ids fail ∧ (s.tile t).fetch = some f
    ∧ s.rowsOpen t = false ∧ f.fail = none ∧ f.queued = []
    ∧ (s.readRuns (((List.range 32).map fun i => runAddr t i (s.rx xb).toNat).flatMap fun b => runParts b f.len) = (none, u))
    ∧ (u.acc t f.p).count < 65535 ∧ AMap.wf {} u.tiles = true := by
  decide +kernel

theorem witness_MatrixProducts_2 :
  let s : State := s3
  let p : Fin 8 := 2
  let t := s.myTile
  let a := s.acc t p
  s.ready (.mend p) = .go ∧ s.foreign p = false ∧ a.isOpen = true ∧ (s.tile t).busy p = false ∧ a.wide = false
    ∧ (a.act = .none ∨ exceeds a.all a.bound a.k.toNat = false) ∧ AMap.wf {} s.tiles = true := by
  decide +kernel

theorem witness_MatrixProducts_3 :
  let s : State := (b0.modTile 0 fun k => { k with mmas := [j0] })
  let j : MmaJob := j0
  let js : List MmaJob := []
  let tile : Nat := 0
  (s.tile tile).mmas = j :: js ∧ AMap.wf {} s.tiles = true := by
  decide +kernel

theorem witness_MatrixProducts_4 :
  let s : State := (ex fun a => {a with act := .trap})
  let p : Fin 8 := 2
  let t := s.myTile
  let a := s.acc t p
  s.ready (.mend p) = .go ∧ s.foreign p = false ∧ a.isOpen = true ∧ (s.tile t).busy p = false ∧ a.act = .trap
    ∧ a.wide = false ∧ exceeds a.all a.bound a.k.toNat = true := by
  decide +kernel

theorem witness_MatrixProducts_5 :
  let s : State := (ex fun a => {a with act := .reissue, claim := true})
  let p : Fin 8 := 2
  let t := s.myTile
  let a := s.acc t p
  s.ready (.mend p) = .go ∧ s.foreign p = false ∧ a.isOpen = true ∧ (s.tile t).busy p = false ∧ a.act = .reissue
    ∧ a.wide = false ∧ exceeds a.all a.bound a.k.toNat = true ∧ AMap.wf {} s.tiles = true := by
  decide +kernel

theorem witness_MatrixProducts_6 :
  let s : State := (open_ m0 2 fun a => {a with wide := true, claim := true, act := .none})
  let p : Fin 8 := 2
  let t := s.myTile
  let a := s.acc t p
  let low := s.acc t (p + 1)
  let cc := (a.all.zip low.all).map fun c => cellPlus c.1 (Fx.ofLane c.2)
  let bb := if low.all.all fun l => (Fx.ofLane l).isZero then a.bound else growBound a.bound (roundTerm (topExp cc) 24)
  s.ready (.mend p) = .go ∧ s.foreign p = false ∧ a.isOpen = true ∧ (s.tile t).busy p = false ∧ a.wide = true
    ∧ (a.act = .none ∨ exceeds cc bb a.k.toNat = false) ∧ AMap.wf {} s.tiles = true ∧ a.claim = true := by
  decide +kernel

theorem witness_MatrixProducts_7 :
  let s : State := (ex fun a => {a with act := .trap, wide := true})
  let p : Fin 8 := 2
  let t := s.myTile
  let a := s.acc t p
  let low := s.acc t (p + 1)
  let cc := (a.all.zip low.all).map fun c => cellPlus c.1 (Fx.ofLane c.2)
  let bb := if low.all.all fun l => (Fx.ofLane l).isZero then a.bound else growBound a.bound (roundTerm (topExp cc) 24)
  s.ready (.mend p) = .go ∧ s.foreign p = false ∧ a.isOpen = true ∧ (s.tile t).busy p = false ∧ a.wide = true
    ∧ a.act ≠ .none ∧ exceeds cc bb a.k.toNat = true := by
  decide +kernel

theorem witness_MatrixStore_1 :
  let s : State := (m0.x 2 0x40000)
  let p := s.locateRows { wr := true } (s.rx 2) 64 fmtOk (fun _ k f pa _ => !(fmtOk f && (k.map fun k => inWindow k pa).getD false)) (fun _ => s.rx 2)
  let q := locD (0, []) p
  let u : State := p.2
  let p : Fin 8 := 2
  let xa : XR := 2
  let stride : BitVec 20 := 64
  let fmt : FmtCode := q.1
  let rows : List Site := q.2
  let ty : PageType := ((q.2.map (·.ty)).headD .strict)
  let t := s.myTile
  let a := s.acc t p
  let r := 32 * fmtBytes fmt
  let k := u.tile t
  s.mayAccess (.mst p xa stride) ∧ s.me.resume = .none ∧ s.foreign p = false ∧ a.isOpen = false
    ∧ (s.tile t).busy p = false ∧ u.acc t p = a
    ∧ (s.locateRows { wr := true } (s.rx xa) stride fmtOk (fun _ k f pa _ => !(fmtOk f && (k.map fun k => inWindow k pa).getD false)) (fun _ => s.rx xa) = (.ok (fmt, rows), u))
    ∧ ty ≠ .once ∧ (∀ x ∈ rows, x.ty = ty ∧ x.remote = false ∧ (u.rowRefusal x).1 = none) ∧ rows ≠ []
    ∧ (s.rx xa).toNat % r = 0 ∧ stride.toNat % r = 0 ∧ stride ≠ 0 ∧ u.mayGo (clsAll false true false false rows) rows := by
  decide +kernel

theorem witness_MatrixStore_2 :
  let s : State := (open_ (m0.x 2 0x40000) 2 id)
  let p := s.locateRows { wr := true } (s.rx 2) 64 fmtOk (fun _ k f pa _ => !(fmtOk f && (k.map fun k => inWindow k pa).getD false)) (fun _ => s.rx 2)
  let p : Fin 8 := 2
  let xa : XR := 2
  let stride : BitVec 20 := 64
  let t := s.myTile
  let a := s.acc t p
  s.mayAccess (.mst p xa stride) ∧ s.me.resume = .none ∧ a.isOpen = true := by
  decide +kernel

theorem witness_MatrixStore_3 :
  let s : State := (m0.modMe fun f => {f with resume := .stage 51 [0] none})
  let p : Fin 8 := 2
  let xa : XR := 2
  let stride : BitVec 20 := 64
  let ids : List Nat := [0]
  s.mayAccess (.mst p xa stride) ∧ s.me.resume = .stage 51 ids none := by
  decide +kernel

theorem witness_MatrixStore_4 :
  let s : State := (m0.modMe fun f => {f with resume := .stage 51 [0] (some (5,6))})
  let p : Fin 8 := 2
  let xa : XR := 2
  let stride : BitVec 20 := 64
  let n : Nat := 51
  let ids : List Nat := [0]
  let cause : Nat := 5
  let val : Word := 6
  s.mayAccess (.mst p xa stride) ∧ s.me.resume = .stage n ids (some (cause, val)) ∧ n = 51 := by
  decide +kernel

theorem witness_MatrixStore_5 :
  let s : State := (m0.x 2 0x50000)
  let p := s.locateRows { wr := true } (s.rx 2) 64 fmtOk (fun _ k f pa _ => !(fmtOk f && (k.map fun k => inWindow k pa).getD false)) (fun _ => s.rx 2)
  let q := locD (0, []) p
  let wr : List Put := (q.2.zipIdx).map fun x => { site := x.1, data := rowData q.1 (scaledCells (s.acc s.myTile 2) 1 1) x.2 }
  let rb := p.2.reserveBlocks (rowsByBlock wr)
  let u : State := p.2
  let v : State := rb.2
  let p : Fin 8 := 2
  let xa : XR := 2
  let stride : BitVec 20 := 64
  let fmt : FmtCode := q.1
  let rows : List Site := q.2
  let t := s.myTile
  let a := s.acc t p
  let r := 32 * fmtBytes fmt
  let k := u.tile t
  let ys := scaledCells a (k.scale.get a.rs) (k.scale.get a.cs)
  let ws : List Put := (rows.zipIdx).map fun x => { site := x.1, data := rowData fmt ys x.2 }
  s.mayAccess (.mst p xa stride) ∧ s.me.resume = .none ∧ s.foreign p = false ∧ a.isOpen = false
    ∧ (s.tile t).busy p = false ∧ u.acc t p = a
    ∧ (s.locateRows { wr := true } (s.rx xa) stride fmtOk (fun _ k f pa _ => !(fmtOk f && (k.map fun k => inWindow k pa).getD false)) (fun _ => s.rx xa) = (.ok (fmt, rows), u))
    ∧ (∀ x ∈ rows, x.ty = .once ∧ x.remote = false) ∧ rows ≠ [] ∧ (s.rx xa).toNat % 512 = 0 ∧ (s.rx xa).toNat % r = 0
    ∧ stride.toNat = r ∧ stride ≠ 0 ∧ (∀ b ∈ rowsByBlock ws, u.reserved b.1 = false ∧ u.wakeStuck b.1 = false)
    ∧ u.mayGo (clsAll false true false true rows) rows ∧ u.reserveBlocks (rowsByBlock ws) = (none, v) := by
  decide +kernel

theorem witness_MatrixStore_6 :
  let s : State := ((m0.x 2 0x50000).setMeta 0x100000000200 {pres := .full})
  let p := s.locateRows { wr := true } (s.rx 2) 64 fmtOk (fun _ k f pa _ => !(fmtOk f && (k.map fun k => inWindow k pa).getD false)) (fun _ => s.rx 2)
  let q := locD (0, []) p
  let wr : List Put := (q.2.zipIdx).map fun x => { site := x.1, data := rowData q.1 (scaledCells (s.acc s.myTile 2) 1 1) x.2 }
  let rb := p.2.reserveBlocks (rowsByBlock wr)
  let u : State := p.2
  let v : State := rb.2
  let p : Fin 8 := 2
  let xa : XR := 2
  let stride : BitVec 20 := 64
  let fmt : FmtCode := q.1
  let rows : List Site := q.2
  let cause : Nat := (rb.1.getD (0, 0)).1
  let val : Word := (rb.1.getD (0, 0)).2
  let t := s.myTile
  let a := s.acc t p
  let r := 32 * fmtBytes fmt
  let k := u.tile t
  let ys := scaledCells a (k.scale.get a.rs) (k.scale.get a.cs)
  let ws : List Put := (rows.zipIdx).map fun x => { site := x.1, data := rowData fmt ys x.2 }
  s.mayAccess (.mst p xa stride) ∧ s.me.resume = .none ∧ s.foreign p = false ∧ a.isOpen = false
    ∧ (s.tile t).busy p = false ∧ u.acc t p = a
    ∧ (s.locateRows { wr := true } (s.rx xa) stride fmtOk (fun _ k f pa _ => !(fmtOk f && (k.map fun k => inWindow k pa).getD false)) (fun _ => s.rx xa) = (.ok (fmt, rows), u))
    ∧ (∀ x ∈ rows, x.ty = .once ∧ x.remote = false) ∧ rows ≠ [] ∧ (s.rx xa).toNat % 512 = 0 ∧ (s.rx xa).toNat % r = 0
    ∧ stride.toNat = r ∧ stride ≠ 0 ∧ (∀ b ∈ rowsByBlock ws, u.reserved b.1 = false ∧ u.wakeStuck b.1 = false)
    ∧ u.mayGo (clsAll false true false true rows) rows ∧ u.reserveBlocks (rowsByBlock ws) = (some (cause, val), v) := by
  decide +kernel

theorem witness_BlockBounds_1 :
  let s : State := ((m0.x 2 0x200).x 3 0x51234)
  let wr := false
  let p := s.locateBound wr (s.rx 2)
  let u : State := p.2
  let xr : XR := 4
  let xa : XR := 2
  let x : Site := (locD dSite p)
  let b := x.block
  let h := if x.ty = .strict then u.hearMe else u
  let w := fun wr => (h.touchLines x.pa 1 wr).meet b.pa 0
  let fine := fun wr => x.remote = false ∧ h.wakeStuck b.pa = false ∧ (w wr).isRetired b.pa = false
  s.mayAccess (.bblk xr xa) ∧ s.locateBound false (s.rx xa) = (.ok x, u) ∧ fine false
    ∧ u.mayGo { strict := x.ty == .strict, ld := true } [b] := by
  decide +kernel

theorem witness_BlockBounds_2 :
  let s : State := ((m0.x 2 0x200).x 3 0x51234)
  let wr := false
  let p := s.locateBound wr (s.rx 2)
  let u : State := p.2
  let xa : XR := 2
  let xb : XR := 3
  let x : Site := (locD dSite p)
  let b := x.block
  let h := if x.ty = .strict then u.hearMe else u
  let w := fun wr => (h.touchLines x.pa 1 wr).meet b.pa 0
  let fine := fun wr => x.remote = false ∧ h.wakeStuck b.pa = false ∧ (w wr).isRetired b.pa = false
  let plain := (x.ty = .strict ∨ x.ty = .release) ∧ (w true).guardsOf (blkOf x.pa) true = [] ∧ hasMeta b.pa = true
  s.mayAccess (.bblkSet xa xb) ∧ s.locateBound true (s.rx xa) = (.ok x, u) ∧ fine true ∧ plain
    ∧ u.mayGo (b.cls false true false false) [b] := by
  decide +kernel

theorem witness_BlockBounds_3 :
  let s : State := ((m0.x 2 0x200).x 3 0x51234)
  let wr := false
  let p := s.locateBound wr (s.rx 2)
  let u : State := p.2
  let xa : XR := 2
  let xb : XR := 3
  let x : Site := (locD dSite p)
  let b := x.block
  let fmt : FmtCode := (s.rx xb >>> 16).setWidth 6
  let h := if x.ty = .strict then u.hearMe else u
  let w := fun wr => (h.touchLines x.pa 1 wr).meet b.pa 0
  let fine := fun wr => x.remote = false ∧ h.wakeStuck b.pa = false ∧ (w wr).isRetired b.pa = false
  let plain := (x.ty = .strict ∨ x.ty = .release) ∧ (w true).guardsOf (blkOf x.pa) true = [] ∧ hasMeta b.pa = true
  s.mayAccess (.bmark xa xb) ∧ fmtOk fmt = true ∧ s.locateBound true (s.rx xa) = (.ok x, u) ∧ fine true ∧ plain
    ∧ u.mayGo (b.cls false true false false) [b] := by
  decide +kernel

theorem witness_BlockBounds_4 :
  let s : State := (((m0.x 2 0x10200).x 3 0x10012).modCore 2 fun r => {r with bab := [{blk := 0x10200, bytes := [], mark := none}]})
  let wr := true
  let e : BabEntry := {blk := 0x10200, bytes := [], mark := none}
  let p := s.locateBound wr (s.rx 2)
  let u : State := p.2
  let xa : XR := 2
  let xb : XR := 3
  let x : Site := (locD dSite p)
  let b := x.block
  let fmt : FmtCode := (s.rx xb >>> 16).setWidth 6
  s.mayAccess (.bmark xa xb) ∧ fmtOk fmt = true ∧ s.locateBound true (s.rx xa) = (.ok x, u) ∧ x.ty = .once
    ∧ u.myCore.babOf b.pa = some e := by
  decide +kernel

/-- The operands of an MMA; that `ownRows` answers rows is what `inr_of` makes of the last clause. -/
theorem witness_MatrixProducts_first :
    let s := b0
    let a := s.acc 0 2
    let p := s.locateRows { rd := true } (s.rx 2) 64 mmaFmt
      (fun s k f pa ty => s.rowBad k f (a.isOpen && a.act == .reissue) pa ty) id
    let q := locD (0, []) p
    let u := p.2
    let o := u.ownRows q.2.zipIdx []
    s.myTile = 0 ∧ s.mayAccess (.mma 2 2 3 64) ∧ s.me.resume = .none ∧ s.foreign 2 = false ∧ p = (.ok (q.1, q.2), u)
      ∧ (s.rx 2).toNat % (32 * fmtBytes q.1) = 0 ∧ (64#20).toNat % (32 * fmtBytes q.1) = 0 ∧ (s.rx 3).toNat % 32 = 0
      ∧ (s.rx 3).toNat + 32 * fmtBytes q.1 ≤ 8192 ∧ (u.tile 0).mmas.length < 2
      ∧ u.mayGo (clsAll true false false false q.2) q.2
      ∧ o.1.isRight = true := by
  decide +kernel

end Matrix

namespace Engines

def m0 := ((((tst 0).x 2 0x100).x 3 0x3000).x 4 0x400)
def m1 := (tst 1).x 2 0x1000 |>.x 3 0x3000 |>.x 4 0x400
def busy (s : State) := s.modChan s.myTile false 3 fun _ => {st := .busy}
def cmd0 : EngCmd := {op := .cpy 64, src := 0x100, dst := 0x3000, aux := 0, gen := none, done := some 5, core := 0, slot := 0, tid := 0, ctx := 0}
def errc (s : State) := s.modChan s.myTile true 2 fun _ => {st := .error, status := 0x4455}
def ac : Acc := {dAcc with owner := .channel 0 false 3, op := .chanEnd}
def fin : State := ((m0.modChan 0 false 3 fun _ => {st := .busy, cmd := some cmd0, bytes := 64}).send (.req ac)).1
def cmd1 : EngCmd := {cmd0 with op := .cpyc 1024}

theorem witness_EngineCommands_1 :
  let s : State := m0
  let ch : Fin 8 := 3
  let xa : XR := 2
  let xb : XR := 3
  let len : BitVec 21 := 0x400
  let n : BitVec 16 := 7
  let gen : GenArg := (some 9)
  let done : Option XR := none
  let t := s.myTile
  let a := s.rx xa
  let b := s.rx xb
  let by_ := fun (x : Word) (n : Nat) => x.toNat % n = 0
  let free := fun (conv : Bool) (p : Nat) => (s.chan t conv p).st = .idle ∧ s.mustWait { rel := true } 0 0 false = []
  s.mayAccess (.cpy ch xb xa len gen done) ∧ by_ a 32 ∧ by_ b 32 ∧ len.toNat % 32 = 0
    ∧ overlapVa a len.toNat b len.toNat = false ∧ free false ch.val ∧ s.mayAccess (.cpyc ch xb xa len gen done)
    ∧ len.toNat % 1024 = 0 := by
  decide +kernel

theorem witness_EngineCommands_2 :
  let s : State := m0
  let ch : Fin 8 := 3
  let xa : XR := 2
  let xb : XR := 3
  let xc : XR := 4
  let rows : BitVec 9 := 3
  let atoms : BitVec 12 := 5
  let n : BitVec 16 := 7
  let gen : GenArg := (some 9)
  let done : Option XR := none
  let t := s.myTile
  let a := s.rx xa
  let b := s.rx xb
  let c := s.rx xc
  let by_ := fun (x : Word) (n : Nat) => x.toNat % n = 0
  let free := fun (conv : Bool) (p : Nat) => (s.chan t conv p).st = .idle ∧ s.mustWait { rel := true } 0 0 false = []
  s.mayAccess (.cpyg ch xb xa xc rows atoms gen done) ∧ by_ a 32 ∧ by_ b 32 ∧ by_ c 4 ∧ free false ch.val
    ∧ s.mayAccess (.cpys ch xb xa xc rows atoms gen done) := by
  decide +kernel

theorem witness_EngineCommands_3 :
  let s : State := m0
  let ch : Fin 8 := 3
  let xa : XR := 2
  let xb : XR := 3
  let xc : XR := 4
  let len : BitVec 21 := 0x400
  let n : BitVec 16 := 7
  let gen : GenArg := (some 9)
  let done : Option XR := none
  let t := s.myTile
  let b := s.rx xb
  let c := s.rx xc
  let by_ := fun (x : Word) (n : Nat) => x.toNat % n = 0
  let free := fun (conv : Bool) (p : Nat) => (s.chan t conv p).st = .idle ∧ s.mustWait { rel := true } 0 0 false = []
  s.mayAccess (.cpyt ch xb xa xc len gen done) ∧ by_ b 32 ∧ by_ c 128 ∧ free false ch.val := by
  decide +kernel

theorem witness_EngineCommands_4 :
  let s : State := m0
  let ch : Fin 8 := 3
  let xa : XR := 2
  let xc : XR := 4
  let n : BitVec 16 := 7
  let slot : Fin 16 := 9
  let gen : GenArg := (some 9)
  let done : Option XR := none
  let t := s.myTile
  let c := s.rx xc
  let by_ := fun (x : Word) (n : Nat) => x.toNat % n = 0
  let free := fun (conv : Bool) (p : Nat) => (s.chan t conv p).st = .idle ∧ s.mustWait { rel := true } 0 0 false = []
  s.mayAccess (.cpyk ch slot xa xc gen done) ∧ by_ c 128 ∧ free false ch.val := by
  decide +kernel

theorem witness_EngineCommands_5 :
  let s : State := m1
  let cv : Fin 4 := 2
  let xa : XR := 2
  let xb : XR := 3
  let xc : XR := 4
  let n : BitVec 16 := 7
  let f : B8 := ⟨true,false,3⟩
  let g : B8 := ⟨false,true,2⟩
  let gen : GenArg := (some 9)
  let done : Option XR := none
  let t := s.myTile
  let a := s.rx xa
  let b := s.rx xb
  let by_ := fun (x : Word) (n : Nat) => x.toNat % n = 0
  let free := fun (conv : Bool) (p : Nat) => (s.chan t conv p).st = .idle ∧ s.mustWait { rel := true } 0 0 false = []
  s.mayAccess (.cvq f cv xb xa xc n gen done) ∧ by_ a 128 ∧ by_ b 32
    ∧ overlapVa a (128 * n.toNat) b (32 * n.toNat) = false ∧ free true cv.val
    ∧ s.mayAccess (.cvd f cv xb xa xc n gen done) ∧ by_ a 32 ∧ by_ b 128
    ∧ overlapVa a (32 * n.toNat) b (128 * n.toNat) = false ∧ s.mayAccess (.cvr f g cv xb xa xc n gen done)
    ∧ overlapVa a (32 * n.toNat) b (32 * n.toNat) = false := by
  decide +kernel

theorem witness_EngineCommands_6 :
  let s : State := (busy m0)
  let ch : Fin 8 := 3
  let xa : XR := 2
  let xb : XR := 3
  let len : BitVec 21 := 0x400
  let n : BitVec 16 := 7
  let gen : GenArg := (some 9)
  let done : Option XR := none
  let t := s.myTile
  let a := s.rx xa
  let b := s.rx xb
  let by_ := fun (x : Word) (n : Nat) => x.toNat % n = 0
  s.mayAccess (.cpy ch xb xa len gen done) ∧ by_ a 32 ∧ by_ b 32 ∧ len.toNat % 32 = 0
    ∧ overlapVa a len.toNat b len.toNat = false ∧ (s.chan t false ch.val).st = .busy := by
  decide +kernel

theorem witness_EngineCommands_7 :
  let s : State := (m0.x 2 0x104)
  let ch : Fin 8 := 3
  let xa : XR := 2
  let xb : XR := 3
  let len : BitVec 21 := 0x400
  let n : BitVec 16 := 7
  let gen : GenArg := (some 9)
  let done : Option XR := none
  let a := s.rx xa
  let b := s.rx xb
  let by_ := fun (x : Word) (n : Nat) => x.toNat % n = 0
  s.mayAccess (.cpy ch xb xa len gen done) ∧ a.toNat % 32 ≠ 0 ∧ by_ b 32 := by
  decide +kernel

theorem witness_EngineStatus_1 :
  let s : State := (fin.modMe fun f => {f with st := .parked, need := .channel 0 false 3})
  let ch : Fin 8 := 3
  let xr : XR := 5
  let k : Nat := 0
  let tile : Nat := 0
  let p : Nat := 3
  let conv : Bool := false
  let a : Acc := ac
  let cmd : EngCmd := cmd0
  let xd : XR := 5
  s.ready (.cpywQuery ch xr) = .go ∧ s.ready (.cpywWait ch xr) = .go ∧ s.net.get? k = some (.req a)
    ∧ a.owner = .channel tile conv p ∧ a.op = .chanEnd ∧ (s.chan tile conv p).cmd = some cmd ∧ cmd.done = some xd
    ∧ AMap.wf {} s.tiles = true ∧ (p < (if conv then 4 else 8)) := by
  decide +kernel

theorem witness_EngineStatus_2 :
  let s : State := (errc m1)
  let cv : Fin 4 := 2
  let xr : XR := 5
  s.ready (.cvwQuery cv xr) = .go ∧ s.ready (.cvwWait cv xr) = .go := by
  decide +kernel

theorem witness_EngineStatus_3 :
  let s : State := (m0.modChan 0 false 3 fun _ => {st := .busy, cmd := some cmd1, wait := .group})
  let tile : Nat := 0
  let p : Nat := 3
  let cmd : EngCmd := cmd1
  let len : Nat := 1024
  (s.chan tile false p).wait = .group ∧ (s.chan tile false p).cmd = some cmd ∧ cmd.op = .cpyc len
    ∧ AMap.wf {} s.tiles = true ∧ p < 8 := by
  decide +kernel

end Engines

namespace Collectives

def part0 (s : State) := s.setReg (partOff 0) 0x8000000000000000
def sA (c : Nat) : State := let s := part0 (tst c); s.setTlb c ((s.tlbs.getD c []) ++ [{placedPage with vpn := 8, pa := 0x100000000000 + coreInTile c * 0x10000, ty := .once}, {placedPage with vpn := 9, pa := 0x100000000000 + coreInTile c * 0x10000, ty := .strict}])
def w0 (nb kind op : Nat) := 5 * 2^48 + 6 * 2^32 + nb * 2^24 + 0 * 2^18 + op * 2^16 + kind * 2^12
def geo (w h c r : Nat) := w * 2^32 + h * 2^23 + c * 2^14 + r * 2^6
def m1 := ((sA 1).x 2 0x80010 |>.x 3 0x100).setBytes 0x100 (bytesOfNat 8 (w0 2 0 0) ++ bytesOfNat 8 (geo 4 1 0 0) ++ bytesOfNat 16 0)
def withE (st : CollState) : State := let e : Coll := { dColl with st := st, core := 1, blk := 0x100000010000, nb := 2, cid := 5, seq := 6, rank := 1, n := 4 }; m1.modTile 0 fun k => { k with coll := [e] }
def ms := m1.x 2 0x90000

theorem witness_CollectiveInstructions_1 :
  let s : State := m1
  let seq : BitVec 16 := 6
  let p := s.locateEntry (s.rx 2)
  let b := locD none p
  let u : State := p.2
  let xa : XR := 2
  let xr : XR := 4
  let b : Nat := (b.getD 0)
  s.ready (.cdis xa) = .go ∧ s.locateEntry (s.rx xa) = (.ok (some b), u) ∧ entryAt (u.tile u.myTile).coll b = none
    ∧ s.ready (.cabt xa seq) = .go ∧ s.ready (.cstat xr xa) = .go := by
  set_option simprocs false in dsimp only; and_intros <;> first | decide +kernel | exact Or.inl (by decide +kernel) | exact data_of _ (by decide +kernel) | (intro t h; cases h)

theorem witness_CollectiveInstructions_2 :
  let s : State := (withE .armed)
  let seq : BitVec 16 := 6
  let p := s.locateEntry (s.rx 2)
  let b := locD none p
  let e : Coll := (b.bind fun b => entryAt (p.2.tile 0).coll b).getD dColl
  let u : State := p.2
  let xa : XR := 2
  let xr : XR := 4
  let b : Nat := (b.getD 0)
  s.ready (.cdis xa) = .go ∧ s.locateEntry (s.rx xa) = (.ok (some b), u) ∧ entryAt (u.tile u.myTile).coll b = some e
    ∧ e.st ≠ .firing ∧ e.st ≠ .preempted ∧ AMap.wf {} u.tiles = true ∧ s.ready (.cabt xa seq) = .go ∧ e.pkind ≠ 2
    ∧ s.ready (.cstat xr xa) = .go ∧ e.nb ≤ 64 := by
  set_option simprocs false in dsimp only; and_intros <;> first | decide +kernel | exact Or.inl (by decide +kernel) | exact data_of _ (by decide +kernel) | (intro t h; cases h)

theorem witness_CollectiveInstructions_3 :
  let s : State := ((withE .firing).modTile 0 fun k => { k with coll := k.coll.map fun e => { e with pkind := 2 } })
  let seq : BitVec 16 := 6
  let p := s.locateEntry (s.rx 2)
  let b := locD none p
  let e : Coll := (b.bind fun b => entryAt (p.2.tile 0).coll b).getD dColl
  let u : State := p.2
  let xa : XR := 2
  let b : Nat := (b.getD 0)
  s.ready (.cdis xa) = .go ∧ s.locateEntry (s.rx xa) = (.ok (some b), u) ∧ entryAt (u.tile u.myTile).coll b = some e
    ∧ e.st = .firing ∧ s.ready (.cabt xa seq) = .go ∧ e.pkind = 2 := by
  set_option simprocs false in dsimp only; and_intros <;> first | decide +kernel | exact Or.inl (by decide +kernel) | exact data_of _ (by decide +kernel) | (intro t h; cases h)

theorem witness_CollectiveInstructions_4 :
  let s : State := m1
  let r := syncD (s.syncRead .plain (s.rx 3) 32)
  let en := r.2.collEntryOf r.1 []
  let lb := r.2.locateBlocks { rd := true } 0x80000 en.nb
  let ss := locD [] lb
  let u : State := r.2
  let l : State := r.2
  let v : State := lb.2
  let z : State := lb.2
  let xa : XR := 2
  let xb : XR := 3
  let bs : List Byte := r.1
  let list : List Nat := []
  let ds : List Nat := []
  let xs : List Site := ss.tail
  let ys : List Site := []
  let x : Site := (ss.headD dSite)
  let va := s.rx xa &&& ~~~511#64
  let kind := fld (recWord bs 0) 12 2
  let entry := l.collEntryOf bs list
  let armed := { entry with blk := x.pa }
  let mine := { armed with dest := ds }
  let dest := BitVec.ofNat 64 (recWord bs 2)
  s.mayAccess (.carm xa xb) ∧ (s.rx xb).toNat % 32 = 0 ∧ s.syncRead .plain (s.rx xb) 32 = .data bs u
    ∧ collDescOk bs = true
    ∧ (kind ≠ 2 ∧ list = [] ∧ l = u ∧ (Geometry.ofNat (recWord bs 1)).has u.cur.core = true ∨ kind = 2 ∧ (∀ g, readList (BitVec.ofNat 64 (recWord bs 3)) (recWord bs 1) [] g u = g list l) ∧ listOk list = true ∧ l.myPkg ∈ list)
    ∧ l.locateBlocks { rd := true } va entry.nb = (.ok (x :: xs), v) ∧ (∀ y ∈ x :: xs, v.inMyScratch y = true)
    ∧ va.toNat % 65536 + 512 * entry.nb ≤ 65536
    ∧ (kind ≠ 2 → ∀ i, i < entry.n → v.samePart v.cur.core (entry.root + i * entry.step) = true)
    ∧ (entry.allred = false ∧ entry.rank ≠ 0 ∧ ds = [] ∧ z = v ∨ (entry.allred = true ∨ entry.rank = 0) ∧ dest.toNat % 512 = 0 ∧ v.locateBlocks { wr := true } dest entry.nb = (.ok ys, z) ∧ (∀ y ∈ ys, y.remote = false ∧ armed.covers y.pa = false) ∧ ds = ys.map (·.pa))
    ∧ (∀ o ∈ (z.tile z.myTile).coll, o.blk ≠ x.pa ∧ (o.live = true → mine.inputs.any o.covers = false))
    ∧ (z.tile z.myTile).coll.length < 32 ∧ (mine.cid, mine.seq) ∉ (z.tile z.myTile).aborts := by
  set_option simprocs false in dsimp only; and_intros <;> first | decide +kernel | exact Or.inl (by decide +kernel) | exact data_of _ (by decide +kernel) | (intro t h; cases h)

theorem witness_CollectiveInstructions_5 :
  let s : State := ms
  let first : BitVec 9 := 0
  let last : BitVec 9 := 3
  let p := s.locateByte { rd := true } (s.rx 2)
  let x : Site := locD dSite p
  let rf := p.2.readFault x.block none [(x.block.pa, 512)]
  let cs := mcastTargets p.2.cur.core false first.toNat last.toNat
  let dsts := cs.map fun c => scratchBlk c (blkOf x.pa % 0x10000)
  let u : State := p.2
  let v : State := rf.2
  let xa : XR := 2
  let col : Bool := false
  let once := x.ty == .once
  let cs := mcastTargets u.cur.core col first.toNat last.toNat
  let dsts := cs.map fun c => scratchBlk c (blkOf x.pa % 0x10000)
  let cls : Cls := { strict := x.ty == .strict, acq := once, rel := once, ld := true, st := true }
  s.mayAccess (.mcast col xa first last) ∧ s.me.resume = .none ∧ s.locateByte { rd := true } (s.rx xa) = (.ok x, u)
    ∧ u.inMyScratch x = true ∧ x.ty ≠ .priv ∧ (∀ c ∈ cs, u.samePart u.cur.core c = true)
    ∧ (∀ d ∈ dsts, pptType (u.typeByte d) = x.ty)
    ∧ (u.mayGo cls (x.block :: dsts.map fun d => { x.block with pa := d }))
    ∧ u.readFault x.block none [(x.block.pa, 512)] = (none, v) ∧ (x.ty = .once → (v.blkMeta x.block.pa).pres = .full)
    ∧ v.wakeStuck x.block.pa = false ∧ (∀ d ∈ dsts, v.reserved d = false ∧ v.wakeStuck d = false) := by
  set_option simprocs false in dsimp only; and_intros <;> first | decide +kernel | exact Or.inl (by decide +kernel) | exact data_of _ (by decide +kernel) | (intro t h; cases h)

theorem witness_CollectiveInstructions_6 :
  let s : State := (ms.modMe fun f => {f with resume := .stage 52 [0] none})
  let xa : XR := 2
  let col : Bool := false
  let first : BitVec 9 := 0
  let last : BitVec 9 := 3
  let ids : List Nat := [0]
  s.mayAccess (.mcast col xa first last) ∧ s.me.resume = .stage 52 ids none := by
  set_option simprocs false in dsimp only; and_intros <;> first | decide +kernel | exact Or.inl (by decide +kernel) | exact data_of _ (by decide +kernel) | (intro t h; cases h)

end Collectives

namespace Plane

def part0 (s : State) := s.setReg (partOff 0) 0x8000000000000000
def geo (w h c r : Nat) := w * 2^32 + h * 2^23 + c * 2^14 + r * 2^6
def bar (w : Nat) : State := ((part0 (tst 1)).x 2 0x100).setBytes 0x100 (bytesOfNat 8 (5*2^48 + w))
def sg : State := ((tst 1).modCore 1 fun r => {r with bars := [{ bid := 5 }]}).setReg (partOff 0) 0x8000000000000000 |>.send (.signal 1 0 5 true 2 0) |>.1
def sgf : State := ((tst 1).modCore 1 fun r => {r with bars := List.replicate 16 { bid := 7 }}).setReg (partOff 0) 0x8000000000000000 |>.send (.signal 1 0 5 true 2 0) |>.1
def P0 : Partial := dPartial
def Q0 : Partial := { P0 with right := true }
def s0 := part0 (tst 0)
def held (q : Partial) : State := { s0 with routers := [(0, { slots := [q] })] }
def E0 : Coll := { dColl with st := .firing, cid := 1, seq := 2, n := 4, blk := 0x100000000000 }
def withE (s : State) (e : Coll) : State := s.modTile 0 fun k => { k with coll := [e] }
def dR1 : Route := { tenant := 0, src := 1, tap := 1, dst := 1, vc := 3, bytes := some 64 }

theorem witness_Barriers_1 :
  let s : State := (bar (geo 1 1 1 0))
  let r := syncD (s.syncRead .plain (s.rx 2) 8)
  let u : State := r.2
  let xa : XR := 2
  let xr : XR := 4
  let bs : List Byte := r.1
  let w := natOfBytes bs
  let g := Geometry.ofNat w
  let good := s.mayAccess (.barrier xa xr) ∧ (s.rx xa).toNat % 8 = 0 ∧ s.syncRead .plain (s.rx xa) 8 = .data bs u ∧ geometryOk w = true ∧ w / 2 ^ 42 % 2 ^ 6 = 0 ∧ g.has u.cur.core = true ∧ (∀ i, i < g.width * g.height → u.samePart u.cur.core ((g.row0 + i / g.width) * 512 + g.col0 + i % g.width) = true) ∧ u.me.recs = 0 ∧ u.mustWait { rel := true } 0 0 false = [] ∧ AMap.wf {} u.cores = true ∧ AMap.wf {} u.fibres = true
  good ∧ u.myCore.bars = [] ∧ g.width * g.height = 1 := by
  set_option simprocs false in dsimp only; and_intros <;> first | decide +kernel | exact Or.inl (by decide +kernel) | exact data_of _ (by decide +kernel) | (intro t h; cases h)

theorem witness_Barriers_2 :
  let s : State := (bar (geo 4 2 0 0))
  let r := syncD (s.syncRead .plain (s.rx 2) 8)
  let u : State := r.2
  let xa : XR := 2
  let xr : XR := 4
  let bs : List Byte := r.1
  let w := natOfBytes bs
  let g := Geometry.ofNat w
  let good := s.mayAccess (.barrier xa xr) ∧ (s.rx xa).toNat % 8 = 0 ∧ s.syncRead .plain (s.rx xa) 8 = .data bs u ∧ geometryOk w = true ∧ w / 2 ^ 42 % 2 ^ 6 = 0 ∧ g.has u.cur.core = true ∧ (∀ i, i < g.width * g.height → u.samePart u.cur.core ((g.row0 + i / g.width) * 512 + g.col0 + i % g.width) = true) ∧ u.me.recs = 0 ∧ u.mustWait { rel := true } 0 0 false = [] ∧ AMap.wf {} u.cores = true ∧ AMap.wf {} u.fibres = true
  good ∧ u.myCore.bars = [] ∧ g.width * g.height ≠ 1 := by
  set_option simprocs false in dsimp only; and_intros <;> first | decide +kernel | exact Or.inl (by decide +kernel) | exact data_of _ (by decide +kernel) | (intro t h; cases h)

theorem witness_Barriers_3 :
  let s : State := sg
  let k : Nat := 0
  let c : Nat := 1
  let src : Nat := 0
  let rnd : Nat := 2
  let tenant : Nat := 0
  let epoch : Bool := true
  let b : Barrier := { bid := 5 }
  let m := Msg.signal c src b.bid epoch rnd tenant
  s.net.get? k = some m ∧ s.Passes m ∧ (s.core c).bars = [b] ∧ b.run = none ∧ AMap.wf {} s.cores = true := by
  decide +kernel

theorem witness_Barriers_4 :
  let s : State := sgf
  let k : Nat := 0
  let c : Nat := 1
  let src : Nat := 0
  let rnd : Nat := 2
  let tenant : Nat := 0
  let epoch : Bool := true
  let b : Barrier := { bid := 5 }
  let m := Msg.signal c src b.bid epoch rnd tenant
  s.net.get? k = some m ∧ s.Passes m ∧ (∀ o ∈ (s.core c).bars, o.bid ≠ b.bid) ∧ 16 ≤ (s.core c).bars.length := by
  decide +kernel

theorem witness_CorePlaneMessages_1 :
  let s : State := (s0.send (.part P0)).1
  let k : Nat := 0
  let p : Partial := P0
  let d := s.dropMsg k
  let here := p.root + p.rank * p.step
  let w := s.routers.getD here {}
  AMap.wf {} s.tiles = true ∧ AMap.wf {} s.routers = true ∧ s.net.get? k = some (.part p) ∧ s.Passes (.part p)
    ∧ s.tagStop (.part p) (s.routesOf (.part p)) = none ∧ 2 ^ p.level < p.n
    ∧ (p.tenant, p.cid, p.seq, p.group) ∉ w.tags ∧ d.heldAt here = [] := by
  decide +kernel

theorem witness_CorePlaneMessages_2 :
  let s : State := (s0.send (.part P0)).1
  let t : State := s0
  let k : Nat := 0
  let m : Msg := (.part P0)
  AMap.wf {} s.tiles = true ∧ AMap.wf {} s.routers = true ∧ AMap.wf {} t.cores = true ∧ s.net.get? k = some m
    ∧ s.routesOf m ≠ [] ∧ s.Passes m := by
  decide +kernel

theorem witness_CorePlaneMessages_3 :
  let s : State := (held Q0 |>.send (.part P0)).1
  let k : Nat := 0
  let p : Partial := P0
  let q : Partial := Q0
  let d := s.dropMsg k
  let here := p.root + p.rank * p.step
  let w := s.routers.getD here {}
  AMap.wf {} s.tiles = true ∧ AMap.wf {} s.routers = true ∧ s.net.get? k = some (.part p) ∧ s.Passes (.part p)
    ∧ s.tagStop (.part p) (s.routesOf (.part p)) = none ∧ 2 ^ p.level < p.n
    ∧ (p.tenant, p.cid, p.seq, p.group) ∉ w.tags ∧ d.heldAt here = [q] ∧ q.partner p = true := by
  decide +kernel

theorem witness_CorePlaneMessages_4 :
  let s : State := (withE s0 E0 |>.send (.result 0 0 1 2 0 0 [])).1
  let k : Nat := 0
  let c : Nat := 0
  let root : Nat := 0
  let tenant : Nat := 0
  let group : Nat := 0
  let cid : BitVec 16 := 1
  let seq : BitVec 16 := 2
  let e : Coll := E0
  let mine := fun x => (s.tile (tileOf x)).coll.filter fun e => e.core == x && e.cid == cid && e.seq == seq && e.group == group
  AMap.wf {} s.tiles = true ∧ AMap.wf {} s.routers = true
    ∧ s.net.get? k = some (.result c root cid seq tenant group []) ∧ s.Passes (.result c root cid seq tenant group [])
    ∧ mine c = [e] ∧ e.st = .firing := by
  decide +kernel

theorem witness_CorePlaneMessages_5 :
  let s : State := (s0.send (.abort 0 0 1 2 0 0 4 1 false)).1
  let k : Nat := 0
  let src : Nat := 0
  let root : Nat := 0
  let tenant : Nat := 0
  let group : Nat := 0
  let n : Nat := 4
  let step : Nat := 1
  let cid : BitVec 16 := 1
  let seq : BitVec 16 := 2
  let e : Coll := E0
  let mis : Bool := false
  let mine := fun x => (s.tile (tileOf x)).coll.filter fun e => e.core == x && e.cid == cid && e.seq == seq && e.group == group
  let ask := Msg.abort src root cid seq tenant group n step mis
  AMap.wf {} s.tiles = true ∧ AMap.wf {} s.routers = true ∧ s.net.get? k = some ask ∧ s.Passes ask ∧ mine root = [] := by
  decide +kernel

theorem witness_CorePlaneMessages_6 :
  let s : State := (withE s0 E0 |>.send (.abort 0 0 1 2 0 0 4 1 false)).1
  let k : Nat := 0
  let src : Nat := 0
  let root : Nat := 0
  let tenant : Nat := 0
  let group : Nat := 0
  let n : Nat := 4
  let step : Nat := 1
  let cid : BitVec 16 := 1
  let seq : BitVec 16 := 2
  let e : Coll := E0
  let mis : Bool := false
  let mine := fun x => (s.tile (tileOf x)).coll.filter fun e => e.core == x && e.cid == cid && e.seq == seq && e.group == group
  let ask := Msg.abort src root cid seq tenant group n step mis
  AMap.wf {} s.tiles = true ∧ AMap.wf {} s.routers = true ∧ s.net.get? k = some ask ∧ s.Passes ask ∧ mine root = [e]
    ∧ e.live = true ∧ e.decided = false ∧ e.dest = [] := by
  decide +kernel

theorem witness_CorePlaneMessages_7 :
  let s : State := (s0.send (.aborted 0 0 1 2 0 0 false)).1
  let k : Nat := 0
  let c : Nat := 0
  let root : Nat := 0
  let tenant : Nat := 0
  let group : Nat := 0
  let cid : BitVec 16 := 1
  let seq : BitVec 16 := 2
  let e : Coll := E0
  let mis : Bool := false
  let mine := fun x => (s.tile (tileOf x)).coll.filter fun e => e.core == x && e.cid == cid && e.seq == seq && e.group == group
  let tell := Msg.aborted c root cid seq tenant group mis
  AMap.wf {} s.tiles = true ∧ AMap.wf {} s.routers = true ∧ s.net.get? k = some tell ∧ s.Passes tell ∧ mine c = [] := by
  decide +kernel

theorem witness_CorePlaneMessages_8 :
  let s : State := (withE s0 E0 |>.send (.aborted 0 0 1 2 0 0 false)).1
  let k : Nat := 0
  let c : Nat := 0
  let root : Nat := 0
  let tenant : Nat := 0
  let group : Nat := 0
  let cid : BitVec 16 := 1
  let seq : BitVec 16 := 2
  let e : Coll := E0
  let mis : Bool := false
  let mine := fun x => (s.tile (tileOf x)).coll.filter fun e => e.core == x && e.cid == cid && e.seq == seq && e.group == group
  let tell := Msg.aborted c root cid seq tenant group mis
  AMap.wf {} s.tiles = true ∧ AMap.wf {} s.routers = true ∧ s.net.get? k = some tell ∧ s.Passes tell ∧ mine c = [e]
    ∧ e.live = true ∧ e.dest = [] := by
  decide +kernel

theorem witness_CorePlaneMessages_9 :
  let s : State := ((tst 0).send (.aborted 0 0 1 2 0 0 false)).1
  let k : Nat := 0
  let m : Msg := (.aborted 0 0 1 2 0 0 false)
  let r : Route := { dRoute with vc := 2 }
  let at_ : Nat := 0
  AMap.wf {} s.tiles = true ∧ AMap.wf {} s.routers = true ∧ s.net.get? k = some m
    ∧ s.planeStop (s.routesOf m) = some (r, at_) := by
  decide +kernel

theorem witness_CorePlaneMessages_10 :
  let s : State := ({ s0 with routers := [(1, { tags := [(0, 1, 2, 0)] })] }.send (.part { P0 with rank := 1 })).1
  let k : Nat := 0
  let p : Partial := { P0 with rank := 1 }
  let r : Route := dR1
  let at_ : Nat := 1
  AMap.wf {} s.tiles = true ∧ AMap.wf {} s.routers = true ∧ s.net.get? k = some (.part p) ∧ s.Passes (.part p)
    ∧ s.tagStop (.part p) (s.routesOf (.part p)) = some (r, at_) := by
  decide +kernel

end Plane

namespace Routines

def D : State := (tst 0).x 2 0x100 |>.x 3 0x10203
def rq (xd : Option XR) : Acc := {dAcc with owner := .fibre 0 0, va := 0x104, pa := 0, len := 512, op := .dimus 2 7 9 [] xd}
def img : List Byte := bytesOfNat 8 0 ++ List.replicate 56 0 ++ List.replicate 64 0
def ra : State := D.setBytes 0x104 (bytesOfNat 4 0xFFFFFFFF)

theorem witness_Routines_1 :
  let s : State := D
  let n : Fin 64 := 2
  let reply : Bool := false
  let e : DRoutine := (s.routine n.val).getD dDRoutine
  let p := s.locateShip e reply (s.rx 2)
  let u : State := p.2
  let xr : XR := 4
  let xa : XR := 2
  let xb : XR := 3
  let xc : XR := 5
  let x : Site := (locD dSite p)
  let va := s.rx xa
  let fine := fun (reply : Bool) => s.me.resume = .none ∧ s.routineValid n.val = true ∧ s.routine n.val = some e ∧ e.pay = false ∧ va.toNat % e.align = 0 ∧ s.locateShip e reply va = (.ok x, u) ∧ u.mayGo (x.cls reply true false false) [x.block] ∧ x.remote = false
  s.mayAccess (.ship n xa xb xc) ∧ fine false ∧ s.mayAccess (.shipr n xr xa xb xc) ∧ fine true := by
  decide +kernel

theorem witness_Routines_2 :
  let s0 : State := D
  let s : State := s0.setBytes 0x100 img
  let n : Fin 64 := 20
  let xa : XR := 2
  let xb : XR := 3
  let xc : XR := 5
  s.mayAccess (.ship n xa xb xc) ∧ s.me.resume = .none ∧ s.routineValid n.val = false := by
  decide +kernel

theorem witness_Routines_3 :
  let s0 : State := D
  let s : State := s0.setBytes 0x100 img
  let f := s.xlateMine { rd := true } [{ va := 0x100, len := 128 }]
  let r := syncD (f.2.syncRead .plain 0x100 128)
  let u : State := f.2
  let v : State := r.2
  let n : Fin 64 := 20
  let xa : XR := 2
  let bs : List Byte := r.1
  let r : Routine := (match readImage r.1 with | .inl r => r | _ => dRoutine)
  let fs : AMap Frame := (match f.1 with | .ok fs => fs | _ => [])
  let va := s.rx xa
  s.mayAccess (.dload n xa) ∧ s.me.resume = .none ∧ va.toNat % 128 = 0
    ∧ s.xlateMine { rd := true } [{ va := va, len := 128 }] = (.ok fs, u) ∧ (frameOf fs va).ty ≠ .once
    ∧ (frameOf fs va).ty ≠ .priv ∧ u.syncRead .plain va 128 = .data bs v ∧ readImage bs = .inl r ∧ v.dloading = []
    ∧ v.runsOfRoutine n.val = [] := by
  set_option simprocs false in dsimp only; and_intros <;> first | decide +kernel | exact Or.inl (by decide +kernel) | exact data_of _ (by decide +kernel) | (intro t h; cases h)

theorem witness_Routines_4 :
  let s : State := (D.modMe fun f => {f with resume := .stage 3 [0] none})
  let n : Fin 64 := 2
  let xr : XR := 4
  let xa : XR := 2
  let xb : XR := 3
  let xc : XR := 5
  let m : Nat := 3
  let ids : List Nat := [0]
  s.mayAccess (.shipr n xr xa xb xc) ∧ s.me.resume = .stage m ids none := by
  decide +kernel

theorem witness_Routines_5 :
  let xd : Option XR := (some 4)
  let s : State := (((D.x 3 7).x 5 9).send (.req (rq xd))).1
  let e : DRoutine := (s.routine 2).getD dDRoutine
  let r := s.dimusRun e 0x104 7 9 []
  let v : State := r.1
  let n : Fin 64 := 2
  let xr : XR := 4
  let xb : XR := 3
  let xc : XR := 5
  let k : Nat := 0
  let c : Nat := 0
  let j : Nat := 0
  let a : Acc := (rq xd)
  let pay : List Byte := []
  let z : Word := (r.2.getD 0)
  s.net.get? k = some (.req a) ∧ a.op = .dimus n.val (s.rx xb) (s.rx xc) pay (some xr) ∧ a.owner = .fibre c j
    ∧ s.wakeStuck (blkOf a.pa) = false ∧ s.routine n.val = some e
    ∧ s.dimusRun e (a.pa + a.va.toNat % 512) (s.rx xb) (s.rx xc) pay = (v, some z) := by
  decide +kernel

theorem witness_Routines_6 :
  let xd : Option XR := none
  let s : State := (((D.x 3 7).x 5 9).send (.req (rq xd))).1
  let e : DRoutine := (s.routine 2).getD dDRoutine
  let r := s.dimusRun e 0x104 7 9 []
  let v : State := r.1
  let n : Fin 64 := 2
  let xb : XR := 3
  let xc : XR := 5
  let k : Nat := 0
  let c : Nat := 0
  let j : Nat := 0
  let a : Acc := (rq xd)
  let pay : List Byte := []
  let z : Word := (r.2.getD 0)
  s.net.get? k = some (.req a) ∧ a.op = .dimus n.val (s.rx xb) (s.rx xc) pay none ∧ a.owner = .fibre c j
    ∧ s.wakeStuck (blkOf a.pa) = false ∧ s.routine n.val = some e
    ∧ s.dimusRun e (a.pa + a.va.toNat % 512) (s.rx xb) (s.rx xc) pay = (v, some z) := by
  decide +kernel

theorem witness_RoutineAdds_1 :
  let s : State := ra
  let e : DRoutine := ((builtin 2).getD dDRoutine)
  let a : Nat := 0x104
  let u := ((s.writeBackBlock a).demand (s.redirected a)).meet a 1
  builtin 2 = some e ∧ a % 4 = 0 ∧ u.isRetired a = false ∧ u.ecc (a / 32 * 32) = .clean ∧ isDram a = true
    ∧ Memory.wf u.mem = true := by
  decide +kernel

end Routines

namespace Tables

def pte (pg : Nat) (ty : Nat) := pg * 65536 + ty * 32 + 0x1F - 0x10
def tab : State :=
  let s := (tst 0).setReg 0x1B0000 (0x4000001)  -- root page 0x400
  let s := s.setReg 0x1A0000 (0x8000000 + 1)
  let s := s.setBytes 0x4000000 (bytesOfNat 8 (0x4010000 + 1))
  let s := s.setBytes 0x4010000 (bytesOfNat 8 (0x4020000 + 1))
  let s := s.setBytes 0x4020008 (bytesOfNat 8 (pte 1 0))
  let s := (s.setPpt 0x20000 1).setPpt 0x30000 2
  let s := s.setBytes 0x4020010 (bytesOfNat 8 (pte 2 1))
  let s := s.setBytes 0x4020018 (bytesOfNat 8 (pte 3 2))
  (s.x 2 0x10000).x 3 (BitVec.ofNat 64 (pte 5 0))
def openA : Acc := {dAcc with pa := 0x10008, owner := .fibre 0 0}
def B := (tab.setBytes 0x30200 [1,2,3]).setMeta 0x30200 {pres := .full, gen := 1023, bound := 7, maxe := 8, dsc := true}
def hp : State := ((tab.setTlb 0 []).setPpt 0x10000 4).modMe fun f => { f with pc := 0x10000 }

theorem witness_TimersAndFetches_7 :
  let fp := hp.fetchAt 0 hp.me.pc
  let ftc : Nat × Word := match fp.1 with | .hold q v => (q, v) | _ => (0, 0)
  let s : State := hp
  let u : State := fp.2
  let page : Nat := ftc.1
  let val : Word := ftc.2
  s.fetchAt s.cur.core s.me.pc = (.hold page val, u) := by
  decide +kernel

theorem witness_TableEntries_1 :
  let s : State := tab
  let xa : XR := 2
  let xb : XR := 3
  let quiet := fun t : State => t.openWhere (fun _ => true) = []
  s.ready (.tlbiVa xa) = .go ∧ s.me.resume = .none ∧ quiet s ∧ s.ready (.tlbiCtx xb) = .go ∧ s.ready .tlbiAll = .go := by
  decide +kernel

theorem witness_TableEntries_2 :
  let s : State := tab
  let wr : Bool := true
  let l := s.leafOf wr (s.rx 2)
  let u : State := l.2
  let xa : XR := 2
  let filter : Fin 8 := 3
  let l : Leaf := (locD dLeaf l)
  let a := s.rx xa
  s.ready (.watchOn filter xa) = .go ∧ s.leafOf true a = (.ok l, u) ∧ s.ready (.watchOff filter xa) = .go := by
  decide +kernel

theorem witness_TableEntries_3 :
  let s : State := tab
  let ep := s.entryOf 2 (s.rx 2)
  let u : State := ep.2
  let lvl : Fin 3 := 2
  let xa : XR := 2
  let xb : XR := 3
  let addr : Nat := (locD 0 ep)
  let a := s.rx xa
  let touch := fun w : State => (w.touchLines addr 8 true).meet addr 8
  let w := touch (touch u)
  let sound := (touch u).isRetired addr = false ∧ w.Sound addr 8 ∧ Memory.wf w.mem = true ∧ ((touch u).nat addr 8).testBit 7 = false
  s.ready (.map lvl xa xb) = .go ∧ s.entryOf lvl.val a = (.ok addr, u) ∧ u.mapFault lvl.val (s.rx xb).toNat = none
    ∧ u.me.recs = 0 ∧ u.mustWait { strict := true, st := true } addr 8 false = [] ∧ sound := by
  decide +kernel

theorem witness_TableEntries_4 :
  let s : State := tab
  let ep := s.entryOf 2 (s.rx 2)
  let u : State := ep.2
  let lvl : Fin 3 := 2
  let xa : XR := 2
  let addr : Nat := (locD 0 ep)
  let a := s.rx xa
  let touch := fun w : State => (w.touchLines addr 8 true).meet addr 8
  let w := touch (touch u)
  let sound := (touch u).isRetired addr = false ∧ w.Sound addr 8 ∧ Memory.wf w.mem = true ∧ ((touch u).nat addr 8).testBit 7 = false
  let quiet := fun t : State => t.openWhere (fun _ => true) = []
  s.ready (.unmap lvl xa) = .go ∧ s.me.resume = .none ∧ s.entryOf lvl.val a = (.ok addr, u) ∧ u.me.recs = 0 ∧ quiet w
    ∧ u.openReqs u.cur.core u.cur.slot = [] ∧ sound := by
  decide +kernel

theorem witness_TableEntries_5 :
  let s : State := (tab.x 3 0x50053)
  let ep := s.entryOf 2 (s.rx 2)
  let ft : Nat × Word := match ep.1 with | .fault c v => (c, v) | _ => (5, 0)
  let u : State := ep.2
  let lvl : Fin 3 := 2
  let xa : XR := 2
  let xb : XR := 3
  let addr : Nat := (locD 0 ep)
  let cause : Nat := ft.1
  let a := s.rx xa
  s.ready (.map lvl xa xb) = .go ∧ s.entryOf lvl.val a = (.ok addr, u)
    ∧ u.mapFault lvl.val (s.rx xb).toNat = some cause := by
  decide +kernel

theorem witness_TableEntries_6 :
  let s : State := (tab.x 2 0x8000000000000000)
  let ep := s.entryOf 2 (s.rx 2)
  let ft : Nat × Word := match ep.1 with | .fault c v => (c, v) | _ => (5, 0)
  let u : State := ep.2
  let lvl : Fin 3 := 2
  let xa : XR := 2
  let xb : XR := 3
  let cause : Nat := ft.1
  let va : Word := ft.2
  let a := s.rx xa
  s.ready (.map lvl xa xb) = .go ∧ s.entryOf lvl.val a = (.fault cause va, u) := by
  decide +kernel

theorem witness_TableEntries_7 :
  let s : State := (tab.modMe fun f => {f with resume := .stage 3 [0] none})
  let lvl : Fin 3 := 2
  let xa : XR := 2
  let n : Nat := 3
  let ids : List Nat := [0]
  let fail : Option (Nat × Word) := none
  s.ready (.unmap lvl xa) = .go ∧ s.me.resume = .stage n ids fail := by
  decide +kernel

theorem witness_PageOperations_1 :
  let s : State := tab
  let ty : PageType := .strict
  let e : Bool := false
  let lp := s.leafOf false (s.rx 2)
  let lf : Leaf := locD dLeaf lp
  let u : State := lp.2
  let empty : Bool := e
  let xa : XR := 2
  let xd : XR := 4
  let l : Leaf := lf
  let st : Nat := ((lp.2.retypeStatus lf (s.rx 2) ty e).getD 99)
  let a := s.rx xa
  s.ready (.retype ty empty xa (some xd)) = .go ∧ s.me.resume = .none ∧ s.leafOf false a = (.ok l, u)
    ∧ u.isRemote (l.page a) = false ∧ u.retypeStatus l a ty empty = some st ∧ s.ready (.retype ty empty xa none) = .go := by
  decide +kernel

theorem witness_PageOperations_2 :
  let s : State := tab
  let ty : PageType := .strict
  let e : Bool := false
  let pages : BitVec 16 := 1
  let lp := s.leafOf false (s.rx 2)
  let lf : Leaf := locD dLeaf lp
  let xa : XR := 2
  let xd : XR := 4
  let st : Nat := ((lp.2.retypeStatus lf (s.rx 2) ty e).getD 99)
  let a := s.rx xa
  let pgs := zeroPages a.toNat pages.toNat
  let may := a.toNat % 65536 = 0 ∧ (∀ p ∈ pgs, s.zeroable p = true ∧ s.isHeld p = false) ∧ s.me.recs = 0 ∧ s.mustWait { st := true } (rawOf a.toNat) (65536 * pages.toNat) false = [] ∧ (pgs.any fun p => s.pageStuck (pageOf (rawOf p))) = false
  s.ready (.zero xa pages (some xd)) = .go ∧ s.me.resume = .none ∧ may := by
  decide +kernel

theorem witness_PageOperations_3 :
  let s : State := tab
  let ty : PageType := .once
  let e : Bool := true
  let lp := s.leafOf false (s.rx 2)
  let lf : Leaf := locD dLeaf lp
  let u : State := lp.2
  let empty : Bool := e
  let xa : XR := 2
  let xd : XR := 4
  let l : Leaf := lf
  let a := s.rx xa
  s.ready (.retype ty empty xa (some xd)) = .go ∧ s.me.resume = .none ∧ s.leafOf false a = (.ok l, u)
    ∧ u.isRemote (l.page a) = false ∧ u.retypeStatus l a ty empty = none ∧ s.ready (.retype ty empty xa none) = .go := by
  decide +kernel

theorem witness_PageOperations_5 :
  let s : State := (tab.send (.retype 0 0 0 (some 4) .once false 0x4020008 1)).1
  let ty : PageType := .once
  let empty : Bool := false
  let xd : XR := 4
  let k : Nat := 0
  let c : Nat := 0
  let j : Nat := 0
  let leaf : Nat := 0x4020008
  let page : Nat := 1
  let tid : BitVec 48 := 0
  s.net.get? k = some (.retype c j tid (some xd) ty empty leaf page) ∧ s.pageOpen page = [] ∧ s.pageStuck page = false := by
  decide +kernel

theorem witness_PageOperations_6 :
  let s : State := ((tab.send (.retype 0 0 0 (some 4) .once false 0x4020008 1)).1.send (.req openA)).1
  let ty : PageType := .once
  let empty : Bool := false
  let xd : XR := 4
  let k : Nat := 0
  let c : Nat := 0
  let j : Nat := 0
  let leaf : Nat := 0x4020008
  let page : Nat := 1
  let tid : BitVec 48 := 0
  s.net.get? k = some (.retype c j tid (some xd) ty empty leaf page) ∧ s.pageOpen page ≠ [] := by
  decide +kernel

theorem witness_PageOperations_7 :
  let s : State := (tab.send (.zero 0 0 0 (some 4) 0x10000 3)).1
  let xd : XR := 4
  let k : Nat := 0
  let c : Nat := 0
  let j : Nat := 0
  let addr : Nat := 0x10000
  let n : Nat := 3
  let tid : BitVec 48 := 0
  s.net.get? k = some (.zero c j tid (some xd) addr n) := by
  decide +kernel

theorem witness_BlockConversions_1 :
  let s : State := B
  let src : PageType := .strict
  let dst : PageType := .once
  let e : Bool := false
  let empty : Bool := e
  let blk : Nat := 0x30200
  blk % 512 = 0 ∧ hasMeta blk = true ∧ s.isRetired blk = false ∧ Memory.wf s.mem = true ∧ AMap.wf {} s.bmeta = true
    ∧ dst = .once ∧ src ≠ .once ∧ empty = false := by
  decide +kernel

theorem witness_BlockConversions_2 :
  let s : State := B
  let dst : PageType := .once
  let e : Bool := true
  let empty : Bool := e
  let blk : Nat := 0x30200
  blk % 512 = 0 ∧ hasMeta blk = true ∧ s.isRetired blk = false ∧ Memory.wf s.mem = true ∧ AMap.wf {} s.bmeta = true
    ∧ dst = .once ∧ empty = true := by
  decide +kernel

theorem witness_BlockConversions_3 :
  let s : State := B
  let src : PageType := .once
  let dst : PageType := .strict
  let blk : Nat := 0x30200
  blk % 512 = 0 ∧ hasMeta blk = true ∧ s.isRetired blk = false ∧ Memory.wf s.mem = true ∧ AMap.wf {} s.bmeta = true
    ∧ dst ≠ .once ∧ src = .once := by
  decide +kernel

theorem witness_BlockConversions_4 :
  let s : State := B
  let src : PageType := .priv
  let dst : PageType := .strict
  let blk : Nat := 0x30200
  blk % 512 = 0 ∧ hasMeta blk = true ∧ s.isRetired blk = false ∧ Memory.wf s.mem = true ∧ AMap.wf {} s.bmeta = true
    ∧ dst ≠ .once ∧ src ≠ .once := by
  decide +kernel

theorem witness_BlockConversions_5 :
  let s : State := B
  let src : PageType := .once
  let dst : PageType := .once
  let e : Bool := false
  let empty : Bool := e
  let blk : Nat := 0x30200
  blk % 512 = 0 ∧ hasMeta blk = true ∧ s.isRetired blk = false ∧ Memory.wf s.mem = true ∧ AMap.wf {} s.bmeta = true
    ∧ src = dst ∧ empty = false := by
  decide +kernel

end Tables

namespace Moves

def up (s : State) : State := s.setReg 0x210100 0x8000000000000000
def B : State := (up (tst 0)).setReg 0x1A0000 0x8000001
def mv (s : State) : State := (s.setReg 0x1A0010 0x10000).setReg 0x1A0018 0x20000
def m1 : State := { (mv B).setRegF moveStatOff 60 3 1 with move := some {src := 1, dst := 2, copied := 128 } }
def m2 (m : Move) (st : Nat) : State := { (mv B).setRegF moveStatOff 60 3 st with move := some m }
def openA : Acc := {dAcc with pa := 0x10008, owner := .fibre 0 0}
def ra0 : Acc := { dAcc with pa := 0x200000000000 + 5 * 0x20000000 }

theorem witness_PageTypesAndMoves_1 :
  let s : State := B
  let t : Word := 0x10002
  let b : Nat := 0
  let val : Word := t
  let p : Nat := ((s.pptAddr 0x10000).getD 0)
  let page := val.toNat / 2 ^ 16 % 2 ^ 30
  let pa := page * 65536
  let ty := PageType.ofCode (val.toNat % 4)
  let up := s.isReady = true ∧ s.hostBehind = false ∧ s.summary = none ∧ AMap.rising none s.regs = true
  let met := (s.writeField 0x1A0008 val).meetPpt (pageAddr (pageOf (rawOf pa)))
  let w := (met.touchLines p 1 true).meet p 1
  up ∧ s.ppt pa = some b ∧ b.testBit 2 = false ∧ b.testBit 3 = false ∧ ¬ (ty = .once ∧ regionOf pa = .pooled)
    ∧ vaultTypeOk pa ty = true ∧ s.pptAddr pa = some p ∧ w.Sound p 1 ∧ Memory.wf w.mem = true := by
  decide +kernel

theorem witness_PageTypesAndMoves_2 :
  let s : State := B
  let up := s.isReady = true ∧ s.hostBehind = false ∧ s.summary = none ∧ AMap.rising none s.regs = true
  up ∧ (s.reg 0x1A0000).getLsbD 0 = true := by
  decide +kernel

theorem witness_PageTypesAndMoves_3 :
  let s : State := B
  let up := s.isReady = true ∧ s.hostBehind = false ∧ s.summary = none ∧ AMap.rising none s.regs = true
  let src := (s.reg 0x1A0010).toNat / 2 ^ 16 % 2 ^ 30 * 65536
  let dst := (s.reg 0x1A0018).toNat / 2 ^ 16 % 2 ^ 30 * 65536
  up ∧ s.move = none ∧ s.moveFault src dst = none := by
  decide +kernel

theorem witness_PageTypesAndMoves_4 :
  let s : State := m1
  let m : Move := {src := 1, dst := 2, copied := 128 }
  s.move = some m ∧ s.regF moveStatOff 60 3 = 1 ∧ s.passesEnded m = false := by
  decide +kernel

theorem witness_PageTypesAndMoves_5 :
  let s : State := m1
  let m : Move := {src := 1, dst := 2, copied := 128 }
  let up := s.isReady = true ∧ s.hostBehind = false ∧ s.summary = none ∧ AMap.rising none s.regs = true
  up ∧ s.move = some m ∧ s.regF moveStatOff 60 3 = 1 := by
  decide +kernel

theorem witness_PageTypesAndMoves_6 :
  let s : State := (tst 0)
  s.isReady = false := by
  decide +kernel

theorem witness_PageTypesAndMoves_7 :
  let s : State := ((mv B).setPpt 0x10000 8)
  let e : Nat := 2
  let up := s.isReady = true ∧ s.hostBehind = false ∧ s.summary = none ∧ AMap.rising none s.regs = true
  let src := (s.reg 0x1A0010).toNat / 2 ^ 16 % 2 ^ 30 * 65536
  let dst := (s.reg 0x1A0018).toNat / 2 ^ 16 % 2 ^ 30 * 65536
  up ∧ s.move = none ∧ s.moveFault src dst = some e ∧ e < 16 := by
  decide +kernel

theorem witness_PageTypesAndMoves_8 :
  let s : State := ((B.setReg 0x1A0000 0x8000000).setPpt 0x10000 8)
  let t : Word := 0x10001
  let b : Nat := 8
  let val : Word := t
  let page := val.toNat / 2 ^ 16 % 2 ^ 30
  let pa := page * 65536
  let ty := PageType.ofCode (val.toNat % 4)
  let up := s.isReady = true ∧ s.hostBehind = false ∧ s.summary = none ∧ AMap.rising none s.regs = true
  up ∧ s.ppt pa = some b
    ∧ (b.testBit 2 = true ∨ b.testBit 3 = true ∨ ty = .once ∧ regionOf pa = .pooled ∨ vaultTypeOk pa ty = false) := by
  decide +kernel

theorem witness_PageTypesAndMoves_9 :
  let s : State := (m2 {src := 1, dst := 2, copied := 0 } 1)
  let m : Move := {src := 1, dst := 2, copied := 0 }
  s.move = some m ∧ s.regF moveStatOff 60 3 = 1 ∧ s.passesEnded m = true ∧ s.retyping m.src = false
    ∧ s.retyping m.dst = false := by
  decide +kernel

theorem witness_PageTypesAndMoves_10 :
  let s : State := (m2 dMove 2)
  let m : Move := dMove
  s.move = some m ∧ s.regF moveStatOff 60 3 = 2 ∧ s.pageOpen m.src = [] ∧ s.pageOpen m.dst = []
    ∧ s.pageStuck m.src = false ∧ s.pageStuck m.dst = false := by
  decide +kernel

theorem witness_PageTypesAndMoves_11 :
  let s : State := ((m2 {src := 1, dst := 2, copied := 0 } 1).send (.retype 0 0 0 none .once false 0 1)).1
  let m : Move := {src := 1, dst := 2, copied := 0 }
  s.move = some m ∧ s.regF moveStatOff 60 3 = 1 ∧ s.passesEnded m = true
    ∧ (s.retyping m.src || s.retyping m.dst) = true := by
  decide +kernel

theorem witness_PageTypesAndMoves_12 :
  let s : State := ((m2 dMove 2).send (.req openA)).1
  let m : Move := dMove
  s.move = some m ∧ s.regF moveStatOff 60 3 = 2 ∧ s.pageOpen m.src ≠ [] := by
  decide +kernel

theorem witness_PageTypesAndMoves_13 :
  let s : State := (m2 dMove 3)
  let m : Move := dMove
  let up := s.isReady = true ∧ s.hostBehind = false ∧ s.summary = none ∧ AMap.rising none s.regs = true
  up ∧ s.move = some m ∧ s.regF moveStatOff 60 3 = 3 := by
  decide +kernel

theorem witness_Patrols_1 :
  let s : State := {B with rowFail := [(3,0,0,0)]}
  let c : Nat := 3
  let tile : Nat := 5
  let ch : Nat := 0
  let bank : Nat := 0
  let row : Nat := 0
  c < 64 ∧ s.regF (0x190000 + 0x40 * c) 0 8 ≠ 0 ∧ AMap.wf 0 s.patrol = true ∧ tile < 16384
    ∧ AMap.wf 0 s.vpatrol = true ∧ s.isReady = true ∧ s.hostBehind = false ∧ AMap.rising none s.regs = true
    ∧ (c, ch, bank, row) ∈ s.rowFail ∧ s.repairable (c, ch, bank, row) = true := by
  decide +kernel

theorem witness_Patrols_2 :
  let s : State := (B.setReg (0x190000+0x40*3) 0)
  let c : Nat := 3
  c < 64 ∧ s.regF (0x190000 + 0x40 * c) 0 8 = 0 := by
  decide +kernel

theorem witness_PagesAndExtents_1 :
  let s : State := {B with retirePend := [0], redir := (List.range 256).map fun i => (i + 2, 0)}
  let page : Nat := 0
  let must := (s.mustRetire page = true ∨ page ∈ s.retirePend) ∧ s.redir.get? page = none
  let may := must ∧ s.move = none ∧ s.isHeld (pageAddr page) = false ∧ s.pageOpen page = [] ∧ s.pageStuck page = false
  may ∧ (s.spareFor page = none ∨ 256 ≤ s.redir.length) ∧ page ∈ s.retirePend := by
  decide +kernel

theorem witness_PagesAndExtents_2 :
  let s : State := {B with retirePend := [0], redir := (List.range 256).map fun i => (i + 2, 0)}
  let i : Nat := 65535
  let val : Word := 0x8000000000090000
  s.hostOpen ∧ s.regF spareOff 56 8 < 64 ∧ isDram (pageAddr (val.toNat / 2 ^ 16 % 2 ^ 30)) = true ∧ i < 65536
    ∧ val.getLsbD 63 = true ∧ s.regF rstatOff 63 1 = 0 ∧ AMap.rising none s.regs = true := by
  decide +kernel

theorem witness_PagesAndExtents_3 :
  let s : State := (B.setRegF rstatOff 63 1 1)
  let i : Nat := 7
  s.hostOpen ∧ s.regF rstatOff 63 1 = 1 ∧ i < 65536
    ∧ ((s.openWhere fun a => extentOf a.pa == some (s.regF rstatOff 0 16)) = []) := by
  decide +kernel

theorem witness_PagesAndExtents_4 :
  let s : State := {B with retirePend := [1], spares := [5]}
  let page : Nat := 1
  let new : Nat := 5
  let must := (s.mustRetire page = true ∨ page ∈ s.retirePend) ∧ s.redir.get? page = none
  let may := must ∧ s.move = none ∧ s.isHeld (pageAddr page) = false ∧ s.pageOpen page = [] ∧ s.pageStuck page = false
  may ∧ s.redir.length < 256 ∧ s.spareFor page = some new := by
  decide +kernel

theorem witness_PagesAndExtents_5 :
  let s : State := {B with retirePend := [1], move := some { src := 1, dst := 2 }}
  let page : Nat := 1
  let must := (s.mustRetire page = true ∨ page ∈ s.retirePend) ∧ s.redir.get? page = none
  must ∧ (s.move.isSome = true ∨ s.isHeld (pageAddr page) = true ∨ s.pageOpen page ≠ [] ∨ s.pageStuck page = true) := by
  decide +kernel

theorem witness_PagesAndExtents_6 :
  let s : State := (B.setRegF spareOff 56 8 64)
  let val : Word := 0x90000
  s.hostOpen ∧ (64 ≤ s.regF spareOff 56 8 ∨ isDram (pageAddr (val.toNat / 2 ^ 16 % 2 ^ 30)) = false) := by
  decide +kernel

theorem witness_PagesAndExtents_7 :
  let s : State := (((B.setRegF rstatOff 63 1 1).setRegF rstatOff 0 16 5).send (.req ra0)).1
  s.regF rstatOff 63 1 = 1 ∧ ((s.openWhere fun a => extentOf a.pa == some (s.regF rstatOff 0 16)) ≠ []) := by
  decide +kernel

end Moves

namespace Launches

def up (s : State) : State := s.setReg 0x210100 0x8000000000000000
def part0 (s : State) := s.setReg (partOff 0) 0x8000000000000000
def B : State := up (part0 (tst 0))
def qe (s : State) (z : Nat) : State := s.setReg (qOff 1 8) (BitVec.ofNat 64 (0xC000000004000000 + z * 2^55))
def res (s : State) (st : Nat) : State := (s.setReg (partOff 0) (0x8002000000000000 + 3 * 2^50)).setPartState 0 st
def ev : State := {B with evicted := [(3, (0, dLaunch))]}
def qg (w : State → State) : State := w (((qe B 4).setQState 1 1).setReg (qOff 1 0x10) 1)
def pkA : List Byte := bytesOfNat 8 (2^56 + 2^55) ++ bytesOfNat 8 0x4000 ++ bytesOfNat 8 0x77 ++ bytesOfNat 8 0x88 ++ bytesOfNat 8 0x1000000 ++ bytesOfNat 8 0x2000200 ++ bytesOfNat 16 0
def tab (s : State) : State :=
  let s := (s.setReg 0x1B0000 (0x4000001)).setReg 0x1A0000 (0x8000000 + 1)
  let s := (s.setBytes 0x4000000 (bytesOfNat 8 (0x4010000 + 1))).setBytes 0x4010000 (bytesOfNat 8 (0x4020000 + 1))
  let s := (s.setBytes (0x4020000 + 8 * 0x100) (bytesOfNat 8 (0x100 * 65536 + 0x2F))).setBytes (0x4020000 + 8 * 0x200) (bytesOfNat 8 (0x200 * 65536 + 0x4F))
  (s.setPpt 0x1000000 1).setPpt 0x2000000 2
def fullC : State := { res B 1 with fibres := (List.range 256).map fun k => (fibKey 3 k, { tid := 1, st := .ready }) }
def lm (s : State) (o : Launch) : State := {s with launches := [(0, o)], net := [(0, .launchDone 0x1000)]}
def pkb : List Byte := bytesOfNat 8 (2^55 + 2*2^52 + 3*2^48 + 1*2^44 + 5*2^40 + 2*2^36) ++ bytesOfNat 8 0x4000 ++ bytesOfNat 8 0x77 ++ bytesOfNat 8 0x88 ++ bytesOfNat 8 0x99 ++ bytesOfNat 8 0xAA00 ++ bytesOfNat 16 0x99 ++ bytesOfNat 64 0
def aw : Launch := { dLaunch with ctx := 9 }
def ma : Acc := { dAcc with owner := .mma 0 }

theorem witness_Queues_1 :
  let s : State := B
  let q : Nat := 1
  let val : Word := 77
  s.hostOpen ∧ q < 512 ∧ s.qEn q = false ∧ AMap.rising none s.regs = true ∧ val.getLsbD 63 = false := by
  decide +kernel

theorem witness_Queues_2 :
  let s : State := (qe B 4)
  let q : Nat := 1
  let val : Word := 16
  s.hostOpen ∧ q < 512 ∧ s.qEn q = true ∧ (val - s.qRd q).toNat ≤ 2 ^ s.qCfg q 55 5 ∧ val.getLsbD 63 = false := by
  decide +kernel

theorem witness_Queues_3 :
  let s : State := (qe B 4)
  let q : Nat := 1
  let val : Word := 0x8000000000000000
  s.hostOpen ∧ q < 512 ∧ s.qEn q = true ∧ 2 ^ s.qCfg q 55 5 < (val - s.qRd q).toNat ∧ val.getLsbD 63 = true := by
  decide +kernel

theorem witness_Queues_4 :
  let s : State := (qe B 4)
  let q : Nat := 511
  let val : Word := 0x8000000000000000
  let cfg := s.setReg (qOff q 0x08) ((RegName.qCfg q).written (s.reg (qOff q 0x08)) val)
  s.hostOpen ∧ q < 512 ∧ s.qEn q = false ∧ val.getLsbD 63 = true ∧ cfg.qValid q = false := by
  decide +kernel

theorem witness_Queues_5 :
  let s : State := B
  let q : Nat := 1
  let val : Word := 0xC200000004000000
  let cfg := s.setReg (qOff q 0x08) ((RegName.qCfg q).written (s.reg (qOff q 0x08)) val)
  s.hostOpen ∧ q < 512 ∧ s.qEn q = false ∧ val.getLsbD 63 = true ∧ cfg.qValid q = true ∧ cfg.overruns q = false := by
  decide +kernel

theorem witness_Queues_6 :
  let s : State := (B.setReg (qOff 1 0x10) 17)
  let q : Nat := 1
  let val : Word := 0xC200000004000000
  let cfg := s.setReg (qOff q 0x08) ((RegName.qCfg q).written (s.reg (qOff q 0x08)) val)
  s.hostOpen ∧ q < 512 ∧ s.qEn q = false ∧ val.getLsbD 63 = true ∧ cfg.qValid q = true ∧ cfg.overruns q = true := by
  decide +kernel

theorem witness_Partitions_1 :
  let s : State := B
  let t : Nat := 0
  let val : Word := 0x8000000000000000
  s.hostOpen ∧ t < 64 ∧ s.partEn t = true ∧ val.getLsbD 63 = true := by
  decide +kernel

theorem witness_Partitions_2 :
  let s : State := B
  let t : Nat := 0
  let val : Word := 0
  s.hostOpen ∧ t < 64 ∧ s.partEn t = true ∧ val.getLsbD 63 = false ∧ s.partState t = 0 ∧ s.resident t = none := by
  decide +kernel

theorem witness_Partitions_3 :
  let s : State := (res B 1)
  let t : Nat := 0
  let val : Word := 0
  s.hostOpen ∧ t < 64 ∧ s.partEn t = true ∧ val.getLsbD 63 = false ∧ (s.partState t ≠ 0 ∨ s.resident t ≠ none) := by
  decide +kernel

theorem witness_Partitions_4 :
  let s : State := B
  let t : Nat := 63
  let val : Word := 0x80000000000100FF
  let set := s.setRegF (partOff t) 0 32 (val.toNat % 2 ^ 32)
  s.hostOpen ∧ t < 64 ∧ s.partEn t = false ∧ (val.getLsbD 63 = false ∨ set.partValid t = false) := by
  decide +kernel

theorem witness_Partitions_5 :
  let s : State := B
  let t : Nat := 63
  let val : Word := 0x800000000001FF00
  let set := s.setRegF (partOff t) 0 32 (val.toNat % 2 ^ 32)
  s.hostOpen ∧ t < 64 ∧ s.partEn t = false ∧ val.getLsbD 63 = true ∧ set.partValid t = true
    ∧ AMap.wf {} s.tiles = true := by
  decide +kernel

theorem witness_LaunchDispatches_1 :
  let s : State := (lm B dLaunch)
  let u : State := s
  let t : Nat := 0
  let may := t < 64 ∧ s.partEn t = true ∧ s.partState t < 2 ∧ s.summary = none ∧ s.incoming.get? t = none
  may ∧ s.grant t = (none, u) := by
  decide +kernel

theorem witness_LaunchDispatches_2 :
  let s : State := (lm B dLaunch)
  let t : Nat := 0
  s.partState t ≠ 1 ∧ AMap.rising none s.regs = true := by
  decide +kernel

theorem witness_LaunchDispatches_3 :
  let s : State := (lm B dLaunch)
  let ll : Launch := ((s.launches.head?).map (·.2)).getD dLaunch
  let t : Nat := 0
  let k : Nat := 0
  let blk : Nat := 0x1000
  let l : Launch := ll
  let ended : State := ({ s.dropMsg k with launches := [], evicted := [] } : State).countDone l.q
  s.net.get? k = some (.launchDone blk) ∧ s.summary = none ∧ s.evicted = [] ∧ s.launches = [(t, l)] ∧ l.done = blk
    ∧ l.notified = true ∧ (l.irq = false ∨ ended.qCfg l.q 60 1 = 0) := by
  decide +kernel

theorem witness_LaunchDispatches_4 :
  let s : State := (lm {B with summary := some []} dLaunch)
  let t : Nat := 0
  let k : Nat := 0
  let blk : Nat := 0x1000
  t < 64 ∧ (s.partEn t = false ∨ 2 ≤ s.partState t ∨ s.summary.isSome = true ∨ (s.incoming.get? t).isSome = true)
    ∧ s.net.get? k = some (.launchDone blk) ∧ s.summary.isSome = true := by
  decide +kernel

theorem witness_LaunchDispatches_5 :
  let s : State := ev
  let g := s.grant 0
  let u : State := g.2
  let t : Nat := 0
  let ctx : Nat := 3
  let may := t < 64 ∧ s.partEn t = true ∧ s.partState t < 2 ∧ s.summary = none ∧ s.incoming.get? t = none
  may ∧ s.grant t = (some (.back ctx), u) ∧ u.resident t = none := by
  decide +kernel

theorem witness_LaunchDispatches_6 :
  let s : State := { res B 1 with evicted := [(4, (0, { dLaunch with ctx := 4 }))] }
  let g := s.grant 0
  let u : State := g.2
  let t : Nat := 0
  let ctx : Nat := 4
  let may := t < 64 ∧ s.partEn t = true ∧ s.partState t < 2 ∧ s.summary = none ∧ s.incoming.get? t = none
  may ∧ s.grant t = (some (.back ctx), u) ∧ u.resident t ≠ none := by
  decide +kernel

theorem witness_LaunchDispatches_7 :
  let s : State := (qg id)
  let gg := s.grant 0
  let rp := gg.2.readPacket 1
  let cp := rp.2.checkPacket 0 (gg.2.qCtx 1) rp.1
  let gl : Nat := (match gg.1 with | some (.queue _ n) => n | _ => 0)
  let u : State := gg.2
  let v : State := rp.2
  let w : State := cp.2
  let q : Nat := 1
  let t : Nat := 0
  let left : Nat := gl
  let bs : List Byte := rp.1
  let may := t < 64 ∧ s.partEn t = true ∧ s.partState t < 2 ∧ s.summary = none ∧ s.incoming.get? t = none
  let taken := may ∧ s.grant t = (some (.queue q left), u) ∧ u.readPacket q = (bs, v)
  taken ∧ v.checkPacket t (u.qCtx q) bs = (.nop, w) := by
  decide +kernel

theorem witness_LaunchDispatches_8 :
  let s : State := (qg fun s => s.setHostBytes 0 [1])
  let gg := s.grant 0
  let rp := gg.2.readPacket 1
  let cp := rp.2.checkPacket 0 (gg.2.qCtx 1) rp.1
  let pf : Nat × Packet × Nat × Nat := match cp.1 with | .bad b => (b, dPacket, 0, 0) | .launch p a b => (0, p, a, b) | _ => (0, dPacket, 0, 0)
  let gl : Nat := (match gg.1 with | some (.queue _ n) => n | _ => 0)
  let u : State := gg.2
  let v : State := rp.2
  let w : State := cp.2
  let q : Nat := 1
  let t : Nat := 0
  let left : Nat := gl
  let byte : Nat := pf.1
  let bs : List Byte := rp.1
  let g : Taken := cp.1
  let may := t < 64 ∧ s.partEn t = true ∧ s.partState t < 2 ∧ s.summary = none ∧ s.incoming.get? t = none
  let taken := may ∧ s.grant t = (some (.queue q left), u) ∧ u.readPacket q = (bs, v)
  taken ∧ v.checkPacket t (u.qCtx q) bs = (g, w) ∧ (g = .held ∨ g = .bad byte) := by
  decide +kernel

theorem witness_LaunchDispatches_9 :
  let s : State := (tab (qg fun s => s.setHostBytes 0 pkA))
  let gg := s.grant 0
  let rp := gg.2.readPacket 1
  let cp := rp.2.checkPacket 0 (gg.2.qCtx 1) rp.1
  let pf : Nat × Packet × Nat × Nat := match cp.1 with | .bad b => (b, dPacket, 0, 0) | .launch p a b => (0, p, a, b) | _ => (0, dPacket, 0, 0)
  let gl : Nat := (match gg.1 with | some (.queue _ n) => n | _ => 0)
  let u : State := gg.2
  let v : State := rp.2
  let w : State := cp.2
  let q : Nat := 1
  let t : Nat := 0
  let left : Nat := gl
  let cn : Nat := pf.2.2.1
  let d : Nat := pf.2.2.2
  let bs : List Byte := rp.1
  let pk : Packet := pf.2.1
  let may := t < 64 ∧ s.partEn t = true ∧ s.partState t < 2 ∧ s.summary = none ∧ s.incoming.get? t = none
  let taken := may ∧ s.grant t = (some (.queue q left), u) ∧ u.readPacket q = (bs, v)
  let y := w.setReg (qOff q 0x18) (w.qRd q + 1)
  let x : State := { y with arb := y.arb.insert (32 * t + y.qPrio q) (q, if y.qWr q = y.qRd q then 0 else left) }
  taken ∧ v.checkPacket t (u.qCtx q) bs = (.launch pk cn d, w) ∧ x.resident t = none ∧ x.saved.get? (x.qCtx q) = none := by
  decide +kernel

theorem witness_LaunchDispatches_10 :
  let s : State := (tab (qg fun s => (s.setHostBytes 0 pkA).setResident 0 (some 0)))
  let gg := s.grant 0
  let rp := gg.2.readPacket 1
  let cp := rp.2.checkPacket 0 (gg.2.qCtx 1) rp.1
  let pf : Nat × Packet × Nat × Nat := match cp.1 with | .bad b => (b, dPacket, 0, 0) | .launch p a b => (0, p, a, b) | _ => (0, dPacket, 0, 0)
  let gl : Nat := (match gg.1 with | some (.queue _ n) => n | _ => 0)
  let u : State := gg.2
  let v : State := rp.2
  let w : State := cp.2
  let q : Nat := 1
  let t : Nat := 0
  let left : Nat := gl
  let cn : Nat := pf.2.2.1
  let d : Nat := pf.2.2.2
  let bs : List Byte := rp.1
  let pk : Packet := pf.2.1
  let may := t < 64 ∧ s.partEn t = true ∧ s.partState t < 2 ∧ s.summary = none ∧ s.incoming.get? t = none
  let taken := may ∧ s.grant t = (some (.queue q left), u) ∧ u.readPacket q = (bs, v)
  let y := w.setReg (qOff q 0x18) (w.qRd q + 1)
  let x : State := { y with arb := y.arb.insert (32 * t + y.qPrio q) (q, if y.qWr q = y.qRd q then 0 else left) }
  taken ∧ v.checkPacket t (u.qCtx q) bs = (.launch pk cn d, w) ∧ x.resident t = some (x.qCtx q) := by
  decide +kernel

theorem witness_LaunchDispatches_11 :
  let s : State := (tab (qg fun s => (s.setHostBytes 0 pkA).setResident 0 (some 9)))
  let gg := s.grant 0
  let rp := gg.2.readPacket 1
  let cp := rp.2.checkPacket 0 (gg.2.qCtx 1) rp.1
  let pf : Nat × Packet × Nat × Nat := match cp.1 with | .bad b => (b, dPacket, 0, 0) | .launch p a b => (0, p, a, b) | _ => (0, dPacket, 0, 0)
  let gl : Nat := (match gg.1 with | some (.queue _ n) => n | _ => 0)
  let u : State := gg.2
  let v : State := rp.2
  let w : State := cp.2
  let q : Nat := 1
  let t : Nat := 0
  let left : Nat := gl
  let cn : Nat := pf.2.2.1
  let d : Nat := pf.2.2.2
  let bs : List Byte := rp.1
  let pk : Packet := pf.2.1
  let may := t < 64 ∧ s.partEn t = true ∧ s.partState t < 2 ∧ s.summary = none ∧ s.incoming.get? t = none
  let taken := may ∧ s.grant t = (some (.queue q left), u) ∧ u.readPacket q = (bs, v)
  let y := w.setReg (qOff q 0x18) (w.qRd q + 1)
  let x : State := { y with arb := y.arb.insert (32 * t + y.qPrio q) (q, if y.qWr q = y.qRd q then 0 else left) }
  taken ∧ v.checkPacket t (u.qCtx q) bs = (.launch pk cn d, w) ∧ x.resident t ≠ some (x.qCtx q)
    ∧ (x.resident t ≠ none ∨ x.saved.get? (x.qCtx q) ≠ none) := by
  decide +kernel

theorem witness_LaunchDispatches_12 :
  let s : State := {fullC.setReg (0x1C2000 + 8 * 3) 0x11 with roots := [{ dTravel with ctx := 3 }]}
  let rr : Travel := s.roots.headD dTravel
  let op := (({ s with roots := [] } : State).reserveOne rr).getD (s, rr)
  let u : State := op.1
  let t : Nat := 0
  let r : Travel := rr
  let r' : Travel := op.2
  s.partState t = 1 ∧ s.roots = [r] ∧ s.rootWaits t r = true
    ∧ ({ s with roots := [] } : State).reserveOne r = some (u, r') := by
  decide +kernel

theorem witness_LaunchDispatches_13 :
  let s : State := {fullC with roots := [{ dTravel with ctx := 3 }]}
  let rr : Travel := s.roots.headD dTravel
  let t : Nat := 0
  let r : Travel := rr
  s.partState t = 1 ∧ s.roots = [r] ∧ s.rootWaits t r = true ∧ ({ s with roots := [] } : State).reserveOne r = none := by
  decide +kernel

theorem witness_LaunchDispatches_14 :
  let s : State := {res B 1 with roots := [dTravel]}
  let rr : Travel := s.roots.headD dTravel
  let t : Nat := 0
  let r : Travel := rr
  s.partState t = 1 ∧ s.roots = [r] ∧ s.rootWaits t r = false := by
  decide +kernel

theorem witness_LaunchDispatches_15 :
  let s : State := (lm (B.setReg (qOff 1 8) 0x1000000000000000) { dLaunch with irq := true })
  let ll : Launch := ((s.launches.head?).map (·.2)).getD dLaunch
  let t : Nat := 0
  let k : Nat := 0
  let blk : Nat := 0x1000
  let l : Launch := ll
  let ended : State := ({ s.dropMsg k with launches := [], evicted := [] } : State).countDone l.q
  s.net.get? k = some (.launchDone blk) ∧ s.summary = none ∧ s.evicted = [] ∧ s.launches = [(t, l)] ∧ l.done = blk
    ∧ l.notified = true ∧ l.irq = true ∧ ended.qCfg l.q 60 1 = 1 := by
  decide +kernel

theorem witness_LaunchPackets_1 :
  let pk : Packet := (Packet.ofBytes pkb)
  let w : Nat := 1
  let h : Nat := 1
  0 < pk.sx ∧ 0 < pk.sy ∧ pk.ox ≤ 32 * w ∧ pk.oy ≤ 16 * h := by
  decide +kernel

theorem witness_Evictions_1 :
  let s : State := (res B 2)
  let t : Nat := 0
  let ctx : Nat := 3
  let left := s.resident t = some ctx ∧ s.partState t = 2 ∧ s.kills.get? t = none
  let evicting := left ∧ s.summary = none
  evicting ∧ s.drained t = false ∧ t ∉ s.saving := by
  decide +kernel

theorem witness_Evictions_2 :
  let s : State := {(res B 2) with fibres := []}
  let t : Nat := 0
  let ctx : Nat := 3
  let left := s.resident t = some ctx ∧ s.partState t = 2 ∧ s.kills.get? t = none
  let evicting := left ∧ s.summary = none
  evicting ∧ s.drained t = true ∧ s.regF (imgOff ctx) 0 1 = 0 := by
  decide +kernel

theorem witness_Evictions_3 :
  let s : State := {(res B 2) with fibres := []}
  let t : Nat := 0
  let ctx : Nat := 3
  s.resident t = some ctx ∧ s.partState t = 2 ∧ (t ∈ s.saving ∨ s.drained t = true) := by
  decide +kernel

theorem witness_Evictions_4 :
  let s : State := {(res B 2).setReg (imgOff 3) 0x200001 with fibres := []}
  let t : Nat := 0
  let ctx : Nat := 3
  let left := s.resident t = some ctx ∧ s.partState t = 2 ∧ s.kills.get? t = none
  let evicting := left ∧ s.summary = none
  let full := (s.partCores t).any fun c => !(s.core c).wbuf.isEmpty
  evicting ∧ s.drained t = true ∧ s.regF (imgOff ctx) 0 1 = 1 ∧ full = false := by
  decide +kernel

theorem witness_Evictions_5 :
  let s : State := {((res B 2).modCore 0 fun r => {r with wbuf := [(1, [])]}).setReg (imgOff 3) 0x200001 with fibres := []}
  let t : Nat := 0
  let ctx : Nat := 3
  let left := s.resident t = some ctx ∧ s.partState t = 2 ∧ s.kills.get? t = none
  let evicting := left ∧ s.summary = none
  let full := (s.partCores t).any fun c => !(s.core c).wbuf.isEmpty
  evicting ∧ s.drained t = true ∧ s.regF (imgOff ctx) 0 1 = 1 ∧ full = true := by
  decide +kernel

theorem witness_Evictions_6 :
  let s : State := {res B 2 with summary := some []}
  let t : Nat := 0
  let ctx : Nat := 3
  let left := s.resident t = some ctx ∧ s.partState t = 2 ∧ s.kills.get? t = none
  left ∧ s.summary.isSome = true := by
  decide +kernel

theorem witness_Evictions_7 :
  let s : State := {B with incoming := [(0, .back 3)], summary := some []}
  let t : Nat := 0
  let place := s.resident t = none ∧ s.kills.get? t = none ∧ s.partEn t = true
  (s.incoming.get? t).isSome = true ∧ place ∧ s.summary.isSome = true := by
  decide +kernel

theorem witness_Evictions_8 :
  let s : State := {B with incoming := [(0, .back 3)]}
  let t : Nat := 0
  let ctx : Nat := 3
  let place := s.resident t = none ∧ s.kills.get? t = none ∧ s.partEn t = true
  let comes := place ∧ s.summary = none
  s.incoming.get? t = some (.back ctx) ∧ comes ∧ s.saved.get? ctx = none := by
  decide +kernel

theorem witness_Evictions_9 :
  let s : State := {B with incoming := [(0, .back 3)], saved := [(3, dSaved)]}
  let t : Nat := 0
  let ctx : Nat := 3
  let q : Nat := 1
  let num : Nat := 5
  let cn : Nat := 0
  let d : Nat := 0
  let pk : Packet := dPacket
  let sv : Saved := dSaved
  let w : State := { s with incoming := s.incoming.erase t }
  let place := s.resident t = none ∧ s.kills.get? t = none ∧ s.partEn t = true
  let comes := place ∧ s.summary = none
  (s.incoming.get? t = some (.back ctx) ∨ s.incoming.get? t = some (.fresh q num pk ctx cn d)) ∧ comes
    ∧ s.saved.get? ctx = some sv ∧ w.restorable t ctx sv = false := by
  decide +kernel

theorem witness_Evictions_10 :
  let s : State := {B with incoming := [(0, .fresh 1 5 dPacket 3 0x1000000 0x2000200)]}
  let t : Nat := 0
  let ctx : Nat := 3
  let q : Nat := 1
  let num : Nat := 5
  let cn : Nat := 0x1000000
  let d : Nat := 0x2000200
  let pk : Packet := dPacket
  let place := s.resident t = none ∧ s.kills.get? t = none ∧ s.partEn t = true
  let comes := place ∧ s.summary = none
  s.incoming.get? t = some (.fresh q num pk ctx cn d) ∧ comes ∧ s.saved.get? ctx = none := by
  decide +kernel

theorem witness_Kills_1 :
  let s : State := {B with lark := some (0, 5)}
  let t : Nat := 0
  let n : Nat := 5
  t < 64 ∧ s.kills.get? t = none ∧ AMap.rising none s.regs = true ∧ s.hostOpen ∧ s.regF larkStatOff 63 1 = 0
    ∧ s.partEn t = true ∧ s.resident t = none ∧ s.lark = some (t, n) ∧ s.regF larkBaseOff 0 1 = 0 := by
  decide +kernel

theorem witness_Kills_2 :
  let s : State := {res B 1 with launches := [(0, dLaunch)]}
  let t : Nat := 0
  let ctx : Nat := 3
  let l : Launch := dLaunch
  s.watched t = [l] ∧ s.summary = none ∧ s.resident t = some l.ctx ∧ s.hostOpen ∧ t < 64 ∧ s.regF larkStatOff 63 1 = 0
    ∧ s.partEn t = true ∧ s.resident t = some ctx := by
  decide +kernel

theorem witness_Kills_3 :
  let s : State := {res B 1 with launches := [(0, dLaunch)], summary := some []}
  let t : Nat := 0
  s.watched t ≠ [] ∧ s.summary.isSome = true := by
  decide +kernel

theorem witness_Kills_4 :
  let s : State := {res B 1 with evicted := [(9, (0, aw))], saved := [(9, dSaved)]}
  let t : Nat := 0
  let l : Launch := aw
  s.launches.get? t = none ∧ s.evicted = [(l.ctx, (t, l))] ∧ l.win ≠ 0 ∧ s.summary = none ∧ s.resident t ≠ some l.ctx
    ∧ AMap.rising none s.saved = true := by
  decide +kernel

theorem witness_Kills_5 :
  let s : State := {res B 1 with launches := [(0, dLaunch)], evicted := [(9, (0, aw))]}
  let t : Nat := 0
  2 ≤ (s.watched t).length ∧ s.summary = none := by
  decide +kernel

theorem witness_Kills_6 :
  let s : State := {res B 3 with kills := [(0, dKill)]}
  let t : Nat := 0
  let kl : Kill := dKill
  let stops := s.kills.get? t = some kl ∧ s.summary = none
  let open_ := s.net.any fun m => s.msgIn t m.2 && m.2.finishes
  stops ∧ s.partState t ≠ 4 ∧ open_ = false ∧ AMap.rising none s.saved = true ∧ AMap.rising none s.inst = true := by
  decide +kernel

theorem witness_Kills_7 :
  let s : State := {res B 3 with kills := [(0, dKill)], summary := some []}
  let t : Nat := 0
  let kl : Kill := dKill
  s.kills.get? t = some kl ∧ s.summary.isSome = true := by
  decide +kernel

theorem witness_Kills_8 :
  let s : State := ({res B 3 with kills := [(0, dKill)]}.send (.req ma)).1
  let t : Nat := 0
  let kl : Kill := dKill
  let stops := s.kills.get? t = some kl ∧ s.summary = none
  let open_ := s.net.any fun m => s.msgIn t m.2 && m.2.finishes
  stops ∧ s.partState t ≠ 4 ∧ open_ = true := by
  decide +kernel

theorem witness_Kills_9 :
  let s : State := {res B 4 with kills := [(0, dKill)]}
  let t : Nat := 0
  let kl : Kill := dKill
  let stops := s.kills.get? t = some kl ∧ s.summary = none
  stops ∧ s.partState t = 4 ∧ AMap.rising none s.kills = true ∧ AMap.rising none s.launches = true
    ∧ AMap.rising none s.evicted = true := by
  decide +kernel

theorem witness_Kills_10 :
  let s : State := B
  let t : Nat := 63
  s.hostOpen ∧ t < 64 ∧ (s.regF larkStatOff 63 1 = 1 ∨ s.partEn t = false) := by
  decide +kernel

end Launches

namespace Hosts

def up (s : State) : State := s.setReg 0x210100 0x8000000000000000
def part0 (s : State) := s.setReg (partOff 0) 0x8000000000000000
def B : State := up (part0 (tst 0))
def wt : HostWait := {k := 7, pa := 0x20000, n := 8, data := some [1,2,3,4,5,6,7,8]}
def H : State := (B.setReg 0x1A0000 0x8000001).setPpt 0x20000 4
def d8 : List Byte := [1,2,3,4,5,6,7,8]
def HO : State := (B.setReg 0x1A0000 0x8000001).setPpt 0x20000 2

theorem witness_Energy_1 :
  let s : State := B
  let mw : Nat := 4000000
  let f : Nat := 3
  f < s.powerFactors ∧ 3900000 ≤ mw ∧ mw ≤ 4200000 ∧ s.isHot = false := by
  decide +kernel

theorem witness_HostRegisters_1 :
  let s : State := B
  let off : Nat := 0x20000
  let len : Nat := 8
  let vec : Nat := 5
  let q : Nat := 1
  barOk off len = false ∧ AMap.rising none s.regs = true ∧ s.hostOpen ∧ q < 512 ∧ s.qEn q = false ∧ q < 64 ∧ q < 65536
    ∧ s.isReady = true ∧ s.hostBehind = false ∧ s.hcb.length < 256 ∧ vec < 2048
    ∧ s.regF (0x308000 + vec / 64 * 8) (vec % 64) 1 = 0 := by
  decide +kernel

theorem witness_HostRegisters_2 :
  let s : State := B
  let off : Nat := 0x1D0008
  let r : RegName := .zinBase
  s.hostOpen ∧ regName off = some r ∧ r.plain = true := by
  decide +kernel

theorem witness_HostRegisters_3 :
  let s : State := (tst 0)
  let off : Nat := 0x1D0008
  let r : RegName := .zinBase
  s.isReady = false ∧ regName off = some r := by
  decide +kernel

theorem witness_HostRegisters_4 :
  let s : State := {B with summary := some []}
  let off : Nat := 0x1D0008
  let r : RegName := .zinBase
  s.isReady = true ∧ (s.hostBehind = true ∨ s.summary.isSome = true) ∧ regName off = some r := by
  decide +kernel

theorem witness_HostRegisters_5 :
  let s : State := (B.setReg 0x308000 32)
  let vec : Nat := 5
  s.hostOpen ∧ vec < 2048 ∧ s.regF (0x308000 + vec / 64 * 8) (vec % 64) 1 = 1 := by
  decide +kernel

theorem witness_HostRegisters_6 :
  let s : State := (B.setReg (qOff 1 8) 0x8000000000000000)
  let q : Nat := 1
  s.hostOpen ∧ q < 512 ∧ s.qEn q = true := by
  decide +kernel

theorem witness_HostAccesses_1 :
  let s : State := B
  let off : Nat := 0x20000
  let n : Nat := 8
  let val : Word := 0x20000
  let data : List Byte := d8
  off + n ≤ 2 ^ 36 ∧ off + data.length ≤ 2 ^ 36 ∧ s.hostOpen ∧ s.sealWaits val = false := by
  decide +kernel

theorem witness_HostAccesses_2 :
  let s : State := B
  let off : Nat := 0x20000
  let n : Nat := 8
  let data : List Byte := d8
  let alone := s.hostHeld = [] ∧ s.hostRegBusy = false
  let pa := s.apAddr off
  alone ∧ off + n ≤ 2 ^ 36 ∧ s.hostTarget pa n false = true ∧ s.isHeld pa = false ∧ s.wakeStuck (blkOf pa) = false
    ∧ off + data.length ≤ 2 ^ 36 ∧ s.hostTarget pa data.length true = true ∧ s.reserved (blkOf pa) = false := by
  decide +kernel

theorem witness_HostAccesses_3 :
  let s : State := B
  let off : Nat := 0x20000
  let n : Nat := 8
  let pa := s.apAddr off
  let m := ((s.touchLines pa n false).meet pa n).meetPpt pa
  (pptType (m.typeByte pa) ≠ .once ∨ (m.blkMeta pa).pres = .full ∨ m.isRetired pa = true) := by
  decide +kernel

theorem witness_HostAccesses_4 :
  let s : State := B
  let off : Nat := 0x20000
  let pa := s.apAddr off
  pptType (s.typeByte pa) ≠ .once := by
  decide +kernel

theorem witness_HostAccesses_5 :
  let s : State := H
  let off : Nat := 0x20000
  let n : Nat := 8
  let data : List Byte := d8
  let alone := s.hostHeld = [] ∧ s.hostRegBusy = false
  let pa := s.apAddr off
  alone ∧ off + n ≤ 2 ^ 36 ∧ s.hostTarget pa n false = true ∧ (s.isHeld pa = true ∨ s.wakeStuck (blkOf pa) = true)
    ∧ off + data.length ≤ 2 ^ 36 ∧ s.hostTarget pa data.length true = true
    ∧ (s.isHeld pa = true ∨ s.wakeStuck (blkOf pa) = true ∨ s.reserved (blkOf pa) = true) := by
  decide +kernel

theorem witness_HostAccesses_6 :
  let s : State := H
  let val : Word := 0x20000
  s.hostOpen ∧ s.sealWaits val = true := by
  decide +kernel

theorem witness_HostAccesses_7 :
  let s : State := (B.setReg 0x210000 0x3FF000000000)
  let off : Nat := 0x20000
  let n : Nat := 8
  let data : List Byte := d8
  let alone := s.hostHeld = [] ∧ s.hostRegBusy = false
  let pa := s.apAddr off
  alone ∧ off + n ≤ 2 ^ 36 ∧ s.hostTarget pa n false = false ∧ off + data.length ≤ 2 ^ 36
    ∧ s.hostTarget pa data.length true = false := by
  decide +kernel

theorem witness_HostAccesses_8 :
  let s : State := {H with hostHeld := [wt]}
  let k : Nat := 7
  let data : List Byte := d8
  let w : HostWait := wt
  s.hostHeld = [w] ∧ w.k = k ∧ w.data = some data ∧ w.reg = false ∧ s.isHeld w.pa = true := by
  decide +kernel

theorem witness_HostAccesses_9 :
  let s : State := HO
  let off : Nat := 0x20000
  let n : Nat := 8
  let pa := s.apAddr off
  let m := ((s.touchLines pa n false).meet pa n).meetPpt pa
  pptType (m.typeByte pa) = .once ∧ (m.blkMeta pa).pres ≠ .full ∧ m.isRetired pa = false := by
  decide +kernel

theorem witness_HostUnits_1 :
  let s : State := B
  let val : Word := 0
  let size := val.toNat / 2 ^ 56 % 32
  s.hostOpen ∧ (size < 4 ∨ 16 < size) := by
  decide +kernel

theorem witness_HostUnits_2 :
  let s : State := B
  let val : Word := 0
  let i : Nat := 0
  s.isReady = true ∧ s.hostBehind = false ∧ AMap.rising none s.regs = true
    ∧ (s.reg 0x211010 = s.reg 0x211018 ∨ s.regF errCfgOff 61 1 = 0) ∧ s.hostOpen ∧ val.getLsbD 63 = false
    ∧ s.regF fabIdOff 63 1 = 0 ∧ i < 16 ∧ s.regF (portOff i) 62 1 = 0 ∧ s.regF zinOff 63 1 = 0 := by
  decide +kernel

theorem witness_HostUnits_3 :
  let s : State := B
  let val : Word := 0
  let zinBad := val.toNat / 2 ^ 32 % 2 ^ 20 < 100 ∨ val.toNat % 256 = 0
  s.hostOpen ∧ (val.getLsbD 63 = false ∨ ¬ zinBad) := by
  decide +kernel

theorem witness_HostUnits_4 :
  let s : State := ((B.setReg errCfgOff 0x2000000000000000).setReg 0x211010 5)
  let val : Word := 0x84000000F0000000
  let size := val.toNat / 2 ^ 56 % 32
  s.hostOpen ∧ 4 ≤ size ∧ size ≤ 16 := by
  decide +kernel

theorem witness_HostUnits_5 :
  let s : State := ((B.setReg errCfgOff 0x2000000000000000).setReg 0x211010 5)
  let val : Word := 0x84000000F0000000
  s.regF errCfgOff 61 1 = 1 ∧ s.reg 0x211010 ≠ s.reg 0x211018 ∧ s.hostOpen ∧ val.getLsbD 63 = true
    ∧ s.regF resyncOff 63 1 = 0 ∧ 102400 ≤ val.toNat % 2 ^ 32 := by
  decide +kernel

theorem witness_HostUnits_6 :
  let s : State := ((B.setReg errCfgOff 0x2000000000000000).setReg 0x211010 5)
  let val : Word := 0x84000000F0000000
  let zinBad := val.toNat / 2 ^ 32 % 2 ^ 20 < 100 ∨ val.toNat % 256 = 0
  s.hostOpen ∧ val.getLsbD 63 = true ∧ zinBad := by
  decide +kernel

theorem witness_HostUnits_7 :
  let s : State := {B.setReg (portOff 3) 0x8000000000000000 with summary := some [1,2,3]}
  let i : Nat := 3
  let peer : Nat := 1023
  let bs : List Byte := [1,2,3]
  s.summary = some bs ∧ s.errHeld = [] ∧ s.hostHeld = [] ∧ i < 16 ∧ peer < 1024 ∧ s.regF (portOff i) 63 1 = 1
    ∧ s.regF (portOff i) 62 1 = 0 := by
  decide +kernel

theorem witness_HostUnits_8 :
  let s : State := (B.setReg errCfgOff 0x2000000000000000)
  let val : Word := 0x8000000000000000
  s.hostOpen ∧ val.getLsbD 63 = true ∧ (s.regF resyncOff 63 1 = 1 ∨ val.toNat % 2 ^ 32 < 102400) := by
  decide +kernel

theorem witness_HostUnits_9 :
  let s : State := { B.setReg zinOff 0x8000006400000001 with fresh := 0 }
  s.regF zinOff 63 1 = 1 := by
  decide +kernel

theorem witness_ModuleEvents_1 :
  let s : State := {B with report := some [1,2]}
  let val : Word := 0x8000000000000000
  let head : List Byte := [1,2]
  let tile : Nat := 16383
  s.hostOpen ∧ val.getLsbD 63 = true ∧ s.regF attCtlOff 63 1 = 0 ∧ s.report = some head
    ∧ AMap.rising none s.regs = true ∧ tile < 16384 ∧ s.tileUsed tile = false ∧ (s.tile tile).gated = false
    ∧ s.summary = none := by
  decide +kernel

theorem witness_ModuleEvents_2 :
  let s : State := (B.setReg 0x228030 12)
  let tile : Nat := 5
  let ctx : Nat := 3
  let buf := s.traceBuf tile
  let seg := s.regF (0x228000 + 16 * ctx) 0 5
  let pos := buf.pos.getD ctx 0
  let a := s.regF (0x228000 + 16 * ctx + 8) 12 34 * 4096 + tile * 2 ^ seg + pos % 2 ^ seg
  let w := (s.touchLines a 16 true).meet a 16
  12 ≤ seg ∧ w.Sound a 16 ∧ Memory.wf w.mem = true := by
  decide +kernel

theorem witness_ModuleEvents_3 :
  let s : State := {B with summary := some []}
  let tile : Nat := 5
  tile < 16384 ∧ s.summary.isSome = true := by
  decide +kernel

end Hosts

namespace Others

def m0 := (((tst 0).x 2 0x100).x 3 0x1234567890ABCDEF).setBytes 0x100 (bytesOfNat 32 0x9989AB)
def acc0 : Acc := { owner := .fibre 0 0, tid := 0, ctx := 0, va := 0x100, pa := 0x100, len := 8, ty := .release, cls := { ld := true }, op := .read (.x 4 .d false 0) }
def q0 := ((m0.emptyX 4).send (.req acc0)).1
def m1 := m0.modMe fun f => {f with fsw := 0x00610000}
def part0 (s : State) := s.setReg (partOff 0) 0x8000000000000000
def up (s : State) : State := s.setReg 0x210100 0x8000000000000000
def B : State := up (part0 (tst 0))

theorem witness_SystemRegisters_18 :
  let s : State := (m1.x 2 1)
  let xa : XR := 2
  let reg : BitVec 12 := 0xB
  let i : Fin 8 := 3
  s.ready (.mts reg xa) = .go ∧ mtsRefuses reg.toNat (s.rx xa) = false ∧ reg.toNat = 0x008 + i.val := by
  decide +kernel

theorem witness_FencesAndBuffers_4 :
  let s : State := q0
  let kinds : BitVec 4 := 0x1
  let sc : Scope := .tile
  s.Inv ∧ s.ready (.fence kinds sc) = .go ∧ ((kinds.getLsbD 0 || kinds.getLsbD 1) = true → s.me.recs = 0)
    ∧ s.fenceWaits kinds sc ≠ [] ∧ (∀ w ∈ s.fenceWaits kinds sc, w.2.far = false ∨ w.2.cls.st = false) := by
  simp only [State.inv_iff]; decide +kernel

theorem witness_PageOperations_4 :
  let s : State := (m0.modMe fun f => {f with resume := .stage 3 [0] none})
  let ty : PageType := .once
  let empty : Bool := false
  let xa : XR := 2
  let st : Nat := 3
  let n : Nat := 3
  let pages : BitVec 16 := 1
  let ids : List Nat := [0]
  s.ready (.retype ty empty xa none) = .go ∧ s.me.resume = .stage n ids none ∧ s.ready (.zero xa pages none) = .go
    ∧ s.me.resume = .stage st ids none := by
  decide +kernel

theorem witness_HostUnits_10 :
  let s : State := (B.setReg fabIdOff 0x8000000000000000)
  s.hostOpen ∧ s.regF fabIdOff 63 1 = 1 := by
  decide +kernel

theorem witness_HostUnits_11 :
  let s : State := (B.setReg (portOff 15) 0x4000000000000000)
  let i : Nat := 15
  i < 16 ∧ s.regF (portOff i) 62 1 = 1 := by
  decide +kernel

theorem witness_ModuleEvents_4 :
  let s : State := (B.setTrace 16383 { recs := List.replicate 128 (0, 0, 0) })
  let tile : Nat := 16383
  let buf := s.traceBuf tile
  128 ≤ buf.recs.length ∧ AMap.rising none s.trace = true := by
  decide +kernel

theorem witness_OperandChecks_1 :
  let s : State := (m0.modMe fun f => {f with fsw := 0x00010000})
  let i : Instr := (.mts 4 2)
  i.slotKind ≠ .event ∧ i.userFault = true ∧ s.ops.f.sys = false := by
  decide +kernel

theorem witness_OperandChecks_2 :
  let s : State := (m0.modMe fun f => {f with anc := false})
  let i : Instr := (.vint .mul 1 2 3 none)
  i.slotKind ≠ .event ∧ (i.userFault = false ∨ s.ops.f.sys = true)
    ∧ (i.anchored = true ∧ s.ops.f.anc = false ∨ ∃ r, i.role = some r ∧ coreInTile s.cur.core ≠ r) := by
  decide +kernel

end Others

namespace Whole

theorem bytes_of_empty (s : State) (h : s.mem = []) (a n : Nat) : s.bytes a n = List.replicate n 0 := by
  induction n generalizing a with
  | zero => rfl
  | succ n ih =>
    have : s.byte a = 0 := by simp [State.byte, h, AMap.getD, AMap.get?]
    simp [State.bytes, this, ih, List.replicate_succ]

theorem imgBad_of_empty (s : State) (h : s.mem = []) (ctx i : Nat) : s.imgBad ctx i = false := by
  have h0 : recordBad (List.replicate 96 0) = false := by decide +kernel
  simp only [State.imgBad, State.imgRecord, bytes_of_empty s h, h0, List.any_eq_false]
  simp

def up (s : State) : State := s.setReg 0x210100 0x8000000000000000
def B : State := up ((tst 0).setReg (partOff 0) 0x8000000000000000)

/-- A context whose image is valid comes back to its partition, for a launch of its own or for a new one. -/
theorem witness_Evictions_restored (i : Incoming) (hi : i = .back 3 ∨ i = .fresh 1 0 dPacket 3 0x1000 0x2000) :
    let s : State := { B.setReg (imgOff 3) 3 with incoming := [(0, i)], saved := [(3, dSaved)] }
    s.incoming.get? 0 = some i ∧ s.summary = none ∧ s.resident 0 = none ∧ s.kills.get? 0 = none ∧ s.partEn 0 = true
      ∧ s.saved.get? 3 = some dSaved ∧ ({ s with incoming := s.incoming.erase 0 } : State).restorable 0 3 dSaved = true := by
  have h0 : ∀ l, ({ B.setReg (imgOff 3) 3 with incoming := l, saved := [(3, dSaved)] } : State).mem = [] := by
    intro l; rfl
  have h1 : ((B.setReg (imgOff 3) 3).regF (imgOff 3) 0 1 == 1 && (B.setReg (imgOff 3) 3).regF (imgOff 3) 1 1 == 1
    && dSaved.part == 0) = true := by decide +kernel
  intro s
  refine ⟨rfl, rfl, ?_, ?_, ?_, rfl, ?_⟩
  · rcases hi with rfl | rfl <;> decide +kernel
  · rcases hi with rfl | rfl <;> decide +kernel
  · rcases hi with rfl | rfl <;> decide +kernel
  let w : State := { s with incoming := s.incoming.erase 0 }
  have h : w.mem = [] := h0 _
  have h1 : (w.regF (imgOff 3) 0 1 == 1 && w.regF (imgOff 3) 1 1 == 1 && dSaved.part == 0) = true := h1
  show w.restorable 0 3 dSaved = true
  simp [State.restorable, h1, imgBad_of_empty w h]

/-- The row in which page 0 begins. -/
def row0 : Nat × Nat × Nat × Nat := ((controllerOf 0).getD 0, rowOf 0)
/-- A page in a failing row whose bank has no spare row left, without a spare page. -/
theorem witness_PagesAndExtents_unspared :
    let s : State := { B with rowFail := [row0], rowsUsed := [(rowKey row0.1 row0.2.1 row0.2.2.1 0, 4)] }
    s.mustRetire 0 = true ∧ s.redir.get? 0 = none ∧ s.move = none ∧ s.pageStuck 0 = false ∧ s.isHeld (pageAddr 0) = false ∧ s.pageOpen 0 = []
      ∧ s.spareFor 0 = none ∧ 0 ∉ s.retirePend := by
  refine ⟨?_, rfl, rfl, by decide +kernel, by decide +kernel, by decide +kernel, rfl, by decide +kernel⟩
  have h : inRow (pageAddr 0 + 32 * 0) row0 = true := by
    have : controllerOf 0 = some ((controllerOf 0).getD 0) := rfl
    simp [inRow, row0, pageAddr, this.symm]
  simp only [State.mustRetire, List.any_cons, List.any_nil, Bool.or_false, Bool.and_eq_true, Bool.not_eq_true']
  refine ⟨by simp [State.repairable, AMap.getD, AMap.get?], ?_⟩
  rw [List.any_eq_true]
  exact ⟨0, by decide +kernel, h⟩

/-- A partition of which every core sleeps. -/
def sl : State :=
  { (B.setReg (partOff 0) (0x8002000000000000 + 3 * 2 ^ 50)).setPartState 0 1 with
    cores := [], fibres := [(0, { st := .parked, need := .block })] }

theorem sl_fib (c k : Nat) : (sl.fib c k).st = .free ∨ (sl.fib c k).st = .parked := by
  unfold State.fib
  have : sl.fibres = [(0, { st := .parked, need := .block })] := rfl
  rw [this]
  simp only [AMap.getD, AMap.get?]
  split
  · right; rfl
  · split <;> (left; rfl)

theorem witness_Kills_deadlock :
    sl.resident 0 = some 3 ∧ 0 ∉ sl.asleep ∧ sl.partEn 0 = true ∧ sl.allAsleep 0 3 = true := by
  refine ⟨by decide +kernel, by decide +kernel, by decide +kernel, ?_⟩
  have h1 : ((sl.fibresIn 0).any (fun e => e.2.st == .parked)) = true := by decide +kernel
  have h2 : (sl.msgsOf 0).isEmpty = true := by decide +kernel
  have h3 : (sl.partTiles 0).all (fun k => (sl.tile k).quiet) = true := by decide +kernel
  have h4 : ∀ c, sl.coreAsleep c = true := by
    intro c
    have hc : sl.core c = {} := rfl
    have hf : ∀ k, ((sl.fib c k).st == .free || (sl.fib c k).st == .parked) = true := by
      intro k; rcases sl_fib c k with h | h <;> simp [h]
    simp [State.coreAsleep, hc, hf]
  simp [State.allAsleep, h1, h2, h3, h4]

/-- What the statements about stores ask before a store may end (`StoreEnds`). -/
abbrev storeMay (s u : State) (rel : Option Scope) (ws : List Put) : Prop :=
  let xs := ws.map (·.site)
  let once := ws.filter fun w => w.site.ty == .once
  let done := u.myCore.completed once
  s.cResume = .none ∧ u.mayGo { clsAll false true false (rel.isSome || !done.isEmpty) xs with
      near := done.isEmpty && rel.any fun sc => sc != .span } xs
    ∧ u.putWait ws = none ∧ (∀ w ∈ ws, (u.writeFault w.site).1 = none) ∧ (∀ b ∈ namedBlocks once done, u.commitHit b.2 = none)
/-- The ONCE blocks that some writes complete. -/
def completes (u : State) (ws : List Put) : List Nat := u.myCore.completed (ws.filter fun w => w.site.ty == .once)
/-- The block at 0x10000 with its first bytes held. -/
def halfDone (n : Nat) : State := (tst 0).modCore 0 fun r =>
  { r with bab := [{ blk := 0x10000, bytes := (List.range n).map fun i => (i, 7), mark := none }] }
/-- A store of a doubleword to the address in x2. -/
def st2 (rel : Option Scope) : Instr := .st .d rel 3 2 0
/-- A store to each type of page, and one that completes a ONCE block. -/
def stores (s : State) (rel : Option Scope) (ty : PageType) (whole : Bool) : Bool :=
  let p := s.locate (storeWant .d rel) (s.at 2 0)
  let x := locD dSite p
  let put : Put := { site := x, data := bytesOfNat x.len (s.rx 3).toNat }
  decide (s.mayAccess (st2 rel) ∧ p.1 = .ok x ∧ x.ty = ty ∧ x.fmt = 0) && decide (storeMay s p.2 rel [put])
    && (completes p.2 [put]).isEmpty == !whole

theorem witness_ScalarStores :
    stores ((tst 0).x 2 0x20000) none .strict false = true ∧ stores ((tst 0).x 2 0x100) (some .tile) .release false = true
      ∧ stores (((tst 0).setTlb 0 [{ placedPage with ty := .priv }]).x 2 0x100) none .priv false = true
      ∧ stores ((halfDone 8).x 2 0x10010) none .once false = true ∧ stores ((halfDone 504).x 2 0x101F8) none .once true = true := by
  decide +kernel

/-- The answers to the commits of a store that completed a block, which still owes a write or does not. -/
theorem witness_StoreAnswered :
    let s (o : List Put) (fl : Option (Nat × Word)) : State := ((tst 0).x 2 0x100).modMe fun f =>
      { f with owed := o, resume := .stage 1 [0] fl }
    let w : Put := { site := { dSite with pa := 0x20000, len := 4 }, data := [1, 2, 3, 4] }
    (s [] (some (7, 0x10000))).mayAccess (st2 none) ∧ (s [] (some (7, 0x10000))).cResume = .stage 1 [0] (some (7, 0x10000))
      ∧ (s [] none).mayAccess (st2 none) ∧ (s [] none).cResume = .stage 1 [0] none ∧ (s [] none).me.owed = []
      ∧ (s [w] none).me.owed = [w] ∧ (s [w] none).putWait [w] = none ∧ completes (s [w] none) [w] = [] := by
  decide +kernel

/-- Writes to memory, to a system register, to a PRIVATE and to a ONCE page. -/
theorem witness_Puts :
    let w (pa : Nat) (ty : PageType) : Put := { site := { dSite with pa := pa, len := 4, ty := ty }, data := [1, 2, 3, 4] }
    (w 0x100 .release).site.isReg = false ∧ (w (sysBase + 0x100) .strict).site.isReg = true
      ∧ (w 0x100 .priv).site.pa % 64 + (w 0x100 .priv).data.length ≤ 64 ∧ (w 0x100 .once).site.ty = .once
      ∧ (∀ y ∈ [w 0x100 .release, w 0x200 .priv], y.site.ty ≠ .once) := by
  decide +kernel

theorem witness_OnceStoreMerges :
    let s := (halfDone 8).x 2 0x10010
    let p := s.locate (storeWant .d none) (s.at 2 0)
    let x := locD dSite p
    let put : Put := { site := x, data := bytesOfNat 8 (s.rx 3).toNat }
    s.mayAccess (.st .d none 3 2 0) ∧ p.1 = .ok x ∧ s.cResume = .none ∧ x.ty = .once ∧ x.remote = false ∧ x.fmt = 0 ∧ x.len = 8
      ∧ (p.2.myCore.babOf (blkOf x.pa)).isSome = true ∧ p.2.myCore.completed [put] = [] ∧ p.2.mayGo (x.cls false true false false) [x]
      ∧ 0x10010 % 512 + put.data.length ≤ 512 ∧ (s.myCore.babOf 0x10000).isSome = true := by
  decide +kernel

/-- A vector store of the lanes that its mask enables, to pages of each type, and one that completes ONCE blocks. -/
def vstores (s : State) (i : Instr) (p : Loc (List (Nat × Site)) × State) (all : Bool) (ty : PageType) (whole : Bool) : Bool :=
  let xs := locD [] p
  let ws := p.2.lanePuts 1 (if all then xs else lastWriters xs)
  decide (s.mayAccess i ∧ xs.length = 4 ∧ (∀ x ∈ xs, x.2.ty = ty)) && decide (storeMay s p.2 none ws)
    && (completes p.2 ws).isEmpty == !whole

theorem witness_VectorStores :
    let w : Want := { acc := { wr := true }, n := 4 }
    let quad (s : State) := s.locateQuad w (s.at 2 0) 0xF
    let by_ (s : State) (n : Nat) := s.locateLanes w ((List.range 4).map fun k => (k, s.at 2 0 + BitVec.ofNat 64 (n * k)))
    let vst : Instr := .vst 1 2 none 0
    let vsts : Instr := .vsts 1 2 4 none 0
    let vscat : Instr := .vscat 1 2 5 2 none 0
    let s (a : Word) : State := ((tst 0).x 2 a).x 4 4
    let m : State := (tst 0).setM 1 0
    vstores (s 0x20000) vst (quad (s 0x20000)) true .strict false = true ∧ vstores (s 0x100) vsts (by_ (s 0x100) 4) false .release false = true
      ∧ vstores (s 0x100) vscat (by_ (s 0x100) 0) false .release false = true
      ∧ vstores (((tst 0).setTlb 0 [{ placedPage with ty := .priv }]).x 2 0x100) vst
        (quad (((tst 0).setTlb 0 [{ placedPage with ty := .priv }]).x 2 0x100)) true .priv false = true
      ∧ vstores ((halfDone 8).x 2 0x10010) vst (quad ((halfDone 8).x 2 0x10010)) true .once false = true
      ∧ vstores ((halfDone 496).x 2 0x101F0) vst (quad ((halfDone 496).x 2 0x101F0)) true .once true = true
      ∧ m.mayAccess (.vst 1 2 (some 1) 0) ∧ m.cResume = .none ∧ m.enabled (some 1) = 0 := by
  decide +kernel

/-- Whether an element of an output port is on its way. -/
def isDone : ElemOut → Bool
  | .done _ => true
  | _ => false
/-- What is on its way. -/
def sentOf : ElemOut → State
  | .done s => s
  | _ => {}
/-- A core whose port 1 is an output port at an address. -/
def outAt (s : State) (a : Word) : State :=
  s.setPort 0 1 { bound := true, out := true, n1 := 1, n0 := 4, base := a, s0 := 16, s1 := 0 }
/-- A vector instruction that writes the port's register, with an FP exception that no bit enables and with one that is enabled. -/
theorem witness_StreamResults :
    let s := outAt (tst 0) 0x100
    let e := (s.modMe fun g => { g with fsw := 0x00211F00 }).v4 2 0x7F800001 0 0 0
    let r (s : State) (k : Fin 4) := fpAdd (RMode.ofRm (fld s.rfsw.toNat 5 2) .dyn) (s.rv 2 k) (s.rv 2 k)
    let fl (s : State) := laneOr 0xF fun k => (r s k).flags
    s.isOutV (portReg 1) = true ∧ s.ready (.vadd .dyn (portReg 1) 2 2 none) = .go ∧ fl s &&& fswEnables s.rfsw = 0
      ∧ isDone (s.storeElem true 1 0xF fun k => (r s k).bits) = true
      ∧ isDone ((outAt (tst 0) 0x800000).storeElem true 1 0xF fun k => (r s k).bits) = false
      ∧ e.isOutV (portReg 1) = true ∧ e.ready (.vadd .dyn (portReg 1) 2 2 none) = .go ∧ fl e &&& fswEnables e.rfsw ≠ 0 := by
  decide +kernel

/-- Elements that are stored, to a RELEASE page and to a ONCE page, and one whose address has no translation. -/
theorem witness_StreamElements :
    let go (s : State) (once : Bool) : Prop :=
      let p := s.locateElem (s.port 0 1) true (s.port 0 1).pos 0xF
      let xs := locD [] p
      let ws := xs.map fun x => putAt x.2 ((s.rv 1 (Fin.ofNat 4 x.1)).setWidth 64)
      s.ops.f.resume = .none ∧ p.1 = .ok xs ∧ xs.length = 4 ∧ (∀ x ∈ xs, (p.2.writeFault x.2).1 = none) ∧ p.2.me.recs = 0
        ∧ p.2.elemWaits (clsAll false true false false (xs.map (·.2))) (xs.map (·.2)) = [] ∧ (∀ x ∈ xs, (x.2.ty == .once) = once)
        ∧ (once = true → p.2.myCore.completed ws = []
          ∧ (p.2.myCore.babNew (ws.map fun w => blkOf w.site.pa)).length ≤ 8 - p.2.myCore.bab.length)
    let bad := outAt (tst 0) 0x800000
    go (outAt (tst 0) 0x100) false ∧ go (outAt (tst 0) 0x10000) true
      ∧ (match (bad.locateElem (bad.port 0 1) true 0 0xF).1 with | .fault _ _ => true | _ => false) = true
      ∧ ((tst 0).modMe fun f => { f with resume := .stage 100 [0] none }).ops.f.resume = .stage 100 [0] none := by
  decide +kernel

/-- Vector loads into the register of an output port, and the arrival of what one of them reads. -/
theorem witness_StreamLoads :
    let s := ((outAt (tst 0) 0x20000).x 2 0x100).x 4 4
    let q : Want := { acc := { rd := true }, n := 4 }
    let go (i : Instr) (p : Loc (List (Nat × Site)) × State) : Bool :=
      let xs := locD [] p
      let u := p.2
      let v := (u.lanesFault (portReg 1) xs).2
      let z := v.locateElem (v.port 0 1) true (v.port 0 1).pos 0xF
      let ys := locD [] z
      decide (s.mayAccess i ∧ s.isOutV (portReg 1) = true ∧ p.1 = .ok xs ∧ u.mayGo (clsAll true false false false (xs.map (·.2))) (xs.map (·.2)))
        && decide ((u.lanesFault (portReg 1) xs).1 = none ∧ v.isOutV (portReg 1) = true ∧ isDone (v.noteElem 1 0xF) = true)
        && decide (z.1 = .ok ys ∧ (∀ y ∈ ys, (z.2.writeFault y.2).1 = none ∧ y.2.ty ≠ .once)
        ∧ z.2.elemWaits (clsAll false true false false (ys.map (·.2))) (ys.map (·.2)) = [])
    let byFour := s.locateLanes q ((List.range 4).map fun k => (k, s.at 2 0 + BitVec.ofNat 64 (4 * k)))
    go (.vld (portReg 1) 2 none 0) (s.locateQuad q (s.at 2 0) 0xF) = true
      ∧ (spanSite (locD [] (s.locateQuad q (s.at 2 0) 0xF))).isSome = true
      ∧ go (.vlds (portReg 1) 2 4 none 0) byFour = true ∧ go (.vgath (portReg 1) 2 5 2 none 0) byFour = true := by
  decide +kernel

theorem witness_StreamLoaded :
    let a : Acc := { dAcc with owner := .port 0 1 0, op := .await, pa := 0x20000, len := 4 }
    let l : PortLane := { id := 0, lane := 0, va := 0x20000, pa := 0x20000, fmt := 0, ty := .strict, remote := false }
    let s := ((tst 0).setPort 0 1 { bound := true, out := true, n1 := 1, n0 := 4, lanes := [l] }).send (.req a)
    (s.1.port 0 1).bound = true ∧ (s.1.port 0 1).out = true ∧ (s.1.port 0 1).lanes = [l] ∧ s.1.net.get? 0 = some (.req a)
      ∧ (((s.1.core 0).v.get (portReg 1)).get (Fin.ofNat 4 l.lane)).full = true := by
  decide +kernel

/-- A bound input port with nothing queued, and an output port. -/
theorem witness_BoundPorts :
    ((tst 0).setPort 0 1 { bound := true, n1 := 1, n0 := 4 }).Inv
      ∧ (((tst 0).setPort 0 1 { bound := true, n1 := 1, n0 := 4 }).port 0 1).bound = true := by
  simp only [State.inv_iff]; decide +kernel

/-- An instruction whose registers are clear, in the mode and at the core that it needs. -/
theorem witness_OperandsClear : (Instr.add .d 1 2 3).slotKind ≠ .event ∧ (tst 0).Clear (.add .d 1 2 3) := by
  refine ⟨by decide, ?_, ?_, ?_, ?_, ?_⟩
  · intro _; decide +kernel
  · intro _; decide +kernel
  · intro r h; cases h
  · exact (by decide +kernel : ∀ r ∈ (Instr.add .d 1 2 3).regUse.xs,
      ((tst 0).ops.f.x.get r).full = true ∧ ((tst 0).ops.f.x.get r).flag = .none)
  · have h0 : (Instr.add .d 1 2 3).regUse.vs = [] := by decide +kernel
    intro r h
    rw [h0] at h
    cases h

/-- An operand is flagged, or EMPTY; the instruction traps, parks or waits. -/
theorem witness_OperandsStop :
    let s : State := tst 0
    let flagged : State := s.modMe fun g => { g with x := g.x.set 2 { val := 0, full := true, flag := .poison, va := 5 } }
    let parks : State := s.emptyX 2
    let waits : State := (parks.send (.arithX 0 0 2 9 0)).1
    2 ∈ (Instr.add .d 1 2 3).regUse.rx ∧ (flagged.ops.f.x.get 2).flag ≠ .none
      ∧ (∀ x ∈ (Instr.add .d 1 2 3).regUse.rx, x ≠ 2 → (flagged.ops.f.x.get x).flag = .none)
      ∧ (∀ x ∈ (Instr.add .d 1 2 3).regUse.xs, (flagged.ops.f.x.get x).full = true)
      ∧ flagged.ready (.add .d 1 2 3) = .trap 0x09 5
      ∧ (parks.ops.f.x.get 2).full = false ∧ parks.ready (.add .d 1 2 3) = .wait (.regs [2] []) true
      ∧ waits.ready (.add .d 1 2 3) = .wait (.regs [2] []) false := by
  decide +kernel

/-- The enable bits of FSW and the flags that an FP instruction raises: none enabled; one enabled that is not raised; one that
is. -/
theorem witness_FpEnds :
    let s : State := ((tst 0).x 2 0x3FC00000).x 3 0x7F800001
    let e (f : BitVec 32) : State := s.modMe fun g => { g with fsw := f }
    let fl := (fpAdd .rne 0x3FC00000 0x7F800001).flags
    fswEnables (e 0x00210000).rfsw = 0 ∧ (fswEnables (e 0x00210200).rfsw ≠ 0 ∧ fl &&& fswEnables (e 0x00210200).rfsw = 0)
      ∧ fl &&& fswEnables (e 0x00211F00).rfsw ≠ 0 := by
  decide +kernel

/-- Well-formed instructions of each form, a pair that may stand together and one that may not. -/
theorem witness_Encodings :
    (Instr.addi .d 1 1 7).wf = true ∧ (Instr.addi .d 1 1 7).slotKind ≠ .event
      ∧ (Instr.bz 1 2).wf = true ∧ (Instr.movi 1 3).wf = true
      ∧ encode (.bz 1 2) = some (.c 0x8E400002) ∧ encode (.addi .d 1 1 0x7FFFF) = some (.a 0x6C9FFFFF)
      ∧ pairAllowed (.bz 1 2) (.addi .d 1 1 0x7FFFF) = true
      ∧ (Instr.nopa).wf = true ∧ encode .nopa = some (.a 0) ∧ (Instr.ld .d false none 1 2 0).wf = true
      ∧ encode (.movi 1 3) = some (.long 0x00200000 3) := by
  decide +kernel

theorem witness_EncodingsUnique :
    decodeOne (.c 0x8E400002) = some (.bz 1 2) ∧ decodeOne (.a 0x6C9FFFFF) = some (.addi .d 1 1 0x7FFFF)
      ∧ decodeOne (.long 0x00200000 3) = some (.movi 1 3)
      ∧ decodeOne (.long 943857664 (64 + 5 * 2 ^ 22)) = some (.cpy 0 1 2 64 none none)
      ∧ (Instr.cpy 0 1 2 64 none none).uncheckedGen = true ∧ (64 + 5 * 2 ^ 22 : Nat).testBit 21 = false := by
  decide +kernel

/-- A state whose plan names an event, and one whose plan names a core with a fibre in its high-priority slot. -/
theorem witness_StepStarts :
    ({ tst 0 with plan := [.event (.quantumExpiry 0)] } : State).plan = .event (.quantumExpiry 0) :: []
      ∧ (let s := runs 0x00200000 3
        s.plan = .core 0 :: [] ∧ ({ s with plan := [] } : State).isStopped 0 = false
          ∧ ((picked s).core 0).hotH.slot = some 0 ∧ (picked s).me.vrecs = 0 ∧ (picked s).breakpoint = none
          ∧ ((picked s).fetchAt 0 (picked s).me.pc).1 = .words 0x00200000 3) := by
  decide +kernel

/-- A breakpoint. -/
theorem witness_StepBreakpoint :
    let s := (((runs 0x00200000 3).setReg (tbpOff 0 2) 0xC000000000000000).setReg (ctxTrapOff 0) 0x4001).modMe
      fun f => { f with fsw := 0x00010000 }
    (picked s).breakpoint = some 2 ∧ isNext (exec (.taskBreakpoint 2) (picked s)) = true
      ∧ ends (nextOf (exec (.taskBreakpoint 2) (picked s))) = true := by
  decide +kernel

/-- An encoding that is rejected. -/
theorem witness_StepReject :
    let s := (runs 0xFE000000 0).setReg (ctxTrapOff 0) 0x4001
    let o := exec (.illegalEncoding 0xFE000000 0) (fetched s 0xFE000000 0)
    decodeWords 0xFE000000 0 = .reject .badC ∧ isNext o = true ∧ ends (nextOf o) = true := by
  decide +kernel

/-- A long instruction. -/
theorem witness_StepLong :
    let g := fetched (runs 0x00200000 3) 0x00200000 3
    decodeWords 0x00200000 3 = .ok (.long (.movi 1 3)) ∧ g.starved (.long (.movi 1 3)) = false
      ∧ isNext (exec (.movi 1 3) g) = true ∧ ends (nextOf (exec (.movi 1 3) g)) = true := by
  decide +kernel

/-- A pair. -/
theorem witness_StepPair :
    let x : Instr := .bz 1 2
    let y : Instr := .addi .d 1 1 0x7FFFF
    let g := fetched (runs 0x8E400002 0x6C9FFFFF) 0x8E400002 0x6C9FFFFF
    let t := exec x g.latched
    let r := exec y (nextOf t)
    decodeWords 0x8E400002 0x6C9FFFFF = .ok (.pair x y) ∧ g.starved (.pair x y) = false
      ∧ g.latched.earlyFault x = false ∧ g.latched.earlyFault y = false ∧ g.latched.waits y = false
      ∧ isNext t = true ∧ (nextOf t).cur.disp = .retired
      ∧ isNext (exec y g.latched) = true ∧ (nextOf (exec y g.latched)).cur.disp = .retired
      ∧ isNext r = true ∧ (nextOf r).cur.disp = .retired
      ∧ ends (((nextOf r).unlatched.debit 0 0 (g.bundleCost 0 (.pair x y)) g.me.paid).consumePorts 0 (g.usedVs (.pair x y)))
        = true := by
  decide +kernel

/-- A bundle that costs energy, on a core whose budget is spent. -/
theorem witness_StepStarved :
    let s := (runs 0x21D28000 0x200).modCore 0 fun r => { r with hotH := {}, hotN := { slot := some 0, qtm := 1024 }, ebud := 0 }
    let p : State := { s with plan := [] }
    let g := fetched s 0x21D28000 0x200
    p.isStopped 0 = false ∧ ((picked s).core 0).hotH.slot = none ∧ ((picked s).core 0).hotN.slot = some 0
      ∧ (picked s).me.vrecs = 0 ∧ (picked s).breakpoint = none
      ∧ ((picked s).fetchAt 0 (picked s).me.pc).1 = .words 0x21D28000 0x200
      ∧ decodeWords 0x21D28000 0x200 = .ok (.long (.mma 2 2 4 0x200)) ∧ g.starved (.long (.mma 2 2 4 0x200)) = true
      ∧ g.me.paid = false ∧ g.readySlots 0 false = [] ∧ g.quantumOver 0 true = false ∧ g.quantumOver 0 false = false := by
  decide +kernel

/-- A step from a state in canonical form. -/
theorem witness_InvariantIsKept : (runs 0x00200000 3).Inv ∧ isNext (step (runs 0x00200000 3)) = true := by
  simp only [State.inv_iff]; decide +kernel

/-- A-slot instructions that retire: one that writes x1, one that writes a vector register and one that raises flags. -/
theorem witness_RegisterFrames :
    let s := tst 0
    s.Inv ∧ (Instr.add .d 1 2 3).slotKind = .a ∧ isNext (exec (.add .d 1 2 3) s) = true
      ∧ (nextOf (exec (.add .d 1 2 3) s)).cur.disp = .retired
      ∧ (nextOf (exec (.vmin 1 2 3 none) s)).cur.disp = .retired
      ∧ (nextOf (exec (.fmin 1 2 3) s)).cur.disp = .retired := by
  simp only [State.inv_iff]; decide +kernel

end Whole

end Sys2Proof.Tests
end

section
/-!
PROOFS. The integer comparisons, moves, products and quotients of R276, R280 and R281: operands cut to the operating width,
the arithmetic of a width as the arithmetic of numbers, and the end of each instruction that may act.
-/

namespace Sys2Proof.Machine

/-! ## Operands at the operating width (R275) -/

/-- The bits of an operand that an operation at the operating width reads. -/
def opBits (sz : Wd) (x : Word) : BitVec (widthBits sz) := x.setWidth (widthBits sz)

@[simp] theorem opBits_toNat (sz : Wd) (x : Word) : (opBits sz x).toNat = opNat sz x := by
  simp [opBits, opNat]

@[simp] theorem opBits_toInt (sz : Wd) (x : Word) : (opBits sz x).toInt = opInt sz x := by
  rw [BitVec.toInt_eq_msb_cond, BitVec.msb_eq_decide, opBits_toNat, opInt]
  by_cases h : opNat sz x < 2 ^ (widthBits sz - 1)
  · simp [h, Nat.not_le.mpr h]
  · simp [h, Nat.not_lt.mp h]

/-- An operand read as an unsigned or a signed integer: what DIV and REM divide (R281). -/
def opNum (u : Bool) (sz : Wd) (x : Word) : Int := if u then opNat sz x else opInt sz x

@[simp] theorem opNum_unsigned (sz : Wd) (x : Word) : opNum true sz x = opNat sz x := rfl
@[simp] theorem opNum_signed (sz : Wd) (x : Word) : opNum false sz x = opInt sz x := rfl

@[simp] theorem ofInt_opNum (u : Bool) (sz : Wd) (x : Word) :
    BitVec.ofInt (widthBits sz) (opNum u sz x) = opBits sz x := by
  cases u with
  | true => rw [opNum_unsigned, ← opBits_toNat, BitVec.ofInt_natCast, BitVec.ofNat_toNat, BitVec.setWidth_eq]
  | false => rw [opNum_signed, ← opBits_toInt, BitVec.ofInt_toInt]

theorem opNum_eq_zero_iff (u : Bool) (sz : Wd) (x : Word) : opNum u sz x = 0 ↔ opBits sz x = 0#(widthBits sz) := by
  constructor
  · intro h
    rw [← ofInt_opNum u, h, BitVec.ofInt_ofNat]
  · intro h
    cases u with
    | true => rw [opNum_unsigned, ← opBits_toNat, h]; simp
    | false => rw [opNum_signed, ← opBits_toInt, h]; simp

theorem opNat_eq_iff (sz : Wd) (x y : Word) : opNat sz x = opNat sz y ↔ opBits sz x = opBits sz y := by
  rw [← opBits_toNat, ← opBits_toNat, BitVec.toNat_inj]

/-! ## Results at the operating width (R275) -/

theorem cutWd_eq {α : Type} (sz : Wd) (f : (n : Nat) → BitVec n → BitVec n → α) (x y : Word) :
    cutWd sz f x y = f (widthBits sz) (opBits sz x) (opBits sz y) := by
  cases sz <;> simp [cutWd, opBits, widthBits]

theorem onWd_eq (sz : Wd) (f : (n : Nat) → BitVec n → BitVec n → BitVec n) (x y : Word) :
    onWd sz f x y = (f (widthBits sz) (opBits sz x) (opBits sz y)).signExtend 64 := by
  cases sz <;> simp [onWd, opBits, widthBits]

/-- An operation whose result at the operating width is a number modulo 2^n writes that number's word. -/
theorem onWd_of_eq_ofInt {sz : Wd} {f : (n : Nat) → BitVec n → BitVec n → BitVec n} {x y : Word} {z : Int}
    (h : f (widthBits sz) (opBits sz x) (opBits sz y) = BitVec.ofInt (widthBits sz) z) :
    onWd sz f x y = widthWord sz z := by
  rw [onWd_eq, h]; rfl

theorem onWd_fst (u : Bool) (sz : Wd) (x y : Word) : onWd sz (fun _ a _ => a) x y = widthWord sz (opNum u sz x) :=
  onWd_of_eq_ofInt (ofInt_opNum u sz x).symm

theorem onWd_mul (sz : Wd) (x y : Word) :
    onWd sz (fun _ a b => a * b) x y = widthWord sz ((opNat sz x : Int) * opNat sz y) :=
  onWd_of_eq_ofInt (by rw [BitVec.ofInt_mul, ← opNum_unsigned, ← opNum_unsigned, ofInt_opNum, ofInt_opNum])

theorem onWd_mulh (u : Bool) (sz : Wd) (x y : Word) :
    onWd sz (aluMulh u) x y = widthWord sz (opNum u sz x * opNum u sz y / 2 ^ widthBits sz) := by
  refine onWd_of_eq_ofInt ?_
  cases u with
  | true => rw [aluMulh, if_pos rfl, ← BitVec.ofInt_natCast]; push_cast; simp
  | false => simp [aluMulh]

theorem onWd_div (u : Bool) (sz : Wd) (x y : Word) :
    onWd sz (aluDiv u) x y = widthWord sz ((opNum u sz x).tdiv (opNum u sz y)) := by
  refine onWd_of_eq_ofInt ?_
  cases u with
  | true => rw [opNum_unsigned, opNum_unsigned, ← Int.ofNat_tdiv, BitVec.ofInt_natCast]; simp [aluDiv]
  | false => simp [aluDiv]

theorem onWd_rem (u : Bool) (sz : Wd) (x y : Word) :
    onWd sz (aluRem u) x y = widthWord sz ((opNum u sz x).tmod (opNum u sz y)) := by
  refine onWd_of_eq_ofInt ?_
  cases u with
  | true => rw [opNum_unsigned, opNum_unsigned, ← Int.ofNat_tmod, BitVec.ofInt_natCast]; simp [aluRem]
  | false => simp [aluRem]

/-- The order of two operands is that of their numbers, signed or unsigned. -/
theorem aluLess_opBits (u : Bool) (sz : Wd) (x y : Word) :
    aluLess u (widthBits sz) (opBits sz x) (opBits sz y) = decide (opNum u sz x < opNum u sz y) := by
  cases u with
  | true => simp [aluLess, BitVec.ult_eq_decide]
  | false => rw [aluLess, if_neg (by decide), BitVec.slt_eq_decide, opBits_toInt, opBits_toInt]; rfl

theorem onWd_min (u : Bool) (sz : Wd) (x y : Word) :
    onWd sz (aluMin u) x y = widthWord sz (if opNum u sz x ≤ opNum u sz y then opNum u sz x else opNum u sz y) := by
  refine onWd_of_eq_ofInt ?_
  rw [aluMin, aluLess_opBits]
  by_cases h : opNum u sz x ≤ opNum u sz y
  · rw [if_neg (by rw [decide_eq_true_iff]; exact Int.not_lt.mpr h), if_pos h, ofInt_opNum]
  · rw [if_pos (decide_eq_true (Int.not_le.mp h)), if_neg h, ofInt_opNum]

theorem onWd_max (u : Bool) (sz : Wd) (x y : Word) :
    onWd sz (aluMax u) x y = widthWord sz (if opNum u sz x ≤ opNum u sz y then opNum u sz y else opNum u sz x) := by
  refine onWd_of_eq_ofInt ?_
  rw [aluMax, aluLess_opBits]
  obtain h | h | h := Int.lt_trichotomy (opNum u sz x) (opNum u sz y)
  · rw [if_pos (decide_eq_true h), if_pos (Int.le_of_lt h), ofInt_opNum]
  · rw [if_neg (by rw [decide_eq_true_iff, h]; exact Int.lt_irrefl _), if_pos (Int.le_of_eq h), ← h, ofInt_opNum]
  · rw [if_neg (by rw [decide_eq_true_iff]; exact Int.lt_asymm h), if_neg (Int.not_le.mpr h), ofInt_opNum]

/-! ## Truth values (R280) -/

theorem slt_word (u : Bool) (sz : Wd) (x y : Word) :
    boolWord (cutWd sz (aluLess u) x y) = if opNum u sz x < opNum u sz y then 1 else 0 := by
  rw [cutWd_eq, aluLess_opBits, boolWord]; simp

theorem seteq_word (sz : Wd) (x y : Word) :
    boolWord (cutWd sz (fun _ a b => a == b) x y) = if opNat sz x = opNat sz y then 1 else 0 := by
  rw [cutWd_eq, boolWord]; simp [opNat_eq_iff]

theorem setne_word (sz : Wd) (x y : Word) :
    boolWord (cutWd sz (fun _ a b => a != b) x y) = if opNat sz x = opNat sz y then 0 else 1 := by
  rw [cutWd_eq, boolWord]; simp [opNat_eq_iff]

theorem divZero_iff (u : Bool) (sz : Wd) (x : Word) : divZero sz x = true ↔ opNum u sz x = 0 := by
  rw [divZero, cutWd_eq, beq_iff_eq, opNum_eq_zero_iff]

theorem sel_test_iff (sz : Wd) (x y : Word) : cutWd sz (fun n c _ => c != 0#n) x y = true ↔ opNat sz x ≠ 0 := by
  rw [cutWd_eq, bne_iff_ne, ne_eq, ← opNum_eq_zero_iff true, opNum_unsigned, Int.natCast_eq_zero]

theorem sel_word (sz : Wd) (x y c : Word) :
    (if cutWd sz (fun n c _ => c != 0#n) c 0 then onWd sz (fun _ a _ => a) x 0 else onWd sz (fun _ a _ => a) y 0)
      = widthWord sz (if opNat sz c ≠ 0 then opNat sz x else opNat sz y) := by
  simp only [sel_test_iff, onWd_fst true, opNum_unsigned]
  exact (apply_ite (widthWord sz) _ _ _).symm

/-! ## Extensions (R280) -/

theorem aluSext_eq (e : ExtFrom) (x : Word) :
    aluSext e x = BitVec.ofInt 64 (BitVec.ofNat (ExtFrom.bits e) x.toNat).toInt := by
  rw [BitVec.ofNat_toNat]; rfl

theorem aluZext_eq (e : ExtFrom) (x : Word) : aluZext e x = BitVec.ofNat 64 (x.toNat % 2 ^ ExtFrom.bits e) := by
  rw [aluZext, ← BitVec.ofNat_toNat, BitVec.toNat_setWidth]

/-! ## The end of each instruction that may act -/

theorem intNow_writes {i : Instr} {xd : XR} {f : State → Word} {s : State} {v : Word} (h : s.ready i = .go) (hv : f s = v) :
    intNow i xd f s = .next (s.wroteX xd v) := hv ▸ intNow_go i xd f s h

theorem intLater_sends {i : Instr} {xd : XR} {f : State → Word} {s : State} {v : Word} (h : s.ready i = .go) (hv : f s = v) :
    intLater i xd f s = .next (s.sentX xd v 0) := hv ▸ intLater_go i xd f s h

section Ends

variable {s : State} {u : Bool} {sz : Wd} {e : ExtFrom} {xd xa xb xc : XR}

theorem exec_min (h : s.ready (.min u sz xd xa xb) = .go) :
    exec (.min u sz xd xa xb) s = .next (s.wroteX xd (widthWord sz
      (if opNum u sz (s.rx xa) ≤ opNum u sz (s.rx xb) then opNum u sz (s.rx xa) else opNum u sz (s.rx xb)))) :=
  show execMin u sz xd xa xb s = _ from intNow_writes h (onWd_min u sz _ _)

theorem exec_max (h : s.ready (.max u sz xd xa xb) = .go) :
    exec (.max u sz xd xa xb) s = .next (s.wroteX xd (widthWord sz
      (if opNum u sz (s.rx xa) ≤ opNum u sz (s.rx xb) then opNum u sz (s.rx xb) else opNum u sz (s.rx xa)))) :=
  show execMax u sz xd xa xb s = _ from intNow_writes h (onWd_max u sz _ _)

theorem exec_slt (h : s.ready (.slt u sz xd xa xb) = .go) :
    exec (.slt u sz xd xa xb) s
      = .next (s.wroteX xd (if opNum u sz (s.rx xa) < opNum u sz (s.rx xb) then 1 else 0)) :=
  show execSlt u sz xd xa xb s = _ from intNow_writes h (slt_word u sz _ _)

theorem exec_seteq (h : s.ready (.seteq sz xd xa xb) = .go) :
    exec (.seteq sz xd xa xb) s = .next (s.wroteX xd (if opNat sz (s.rx xa) = opNat sz (s.rx xb) then 1 else 0)) :=
  show execSeteq sz xd xa xb s = _ from intNow_writes h (seteq_word sz _ _)

theorem exec_setne (h : s.ready (.setne sz xd xa xb) = .go) :
    exec (.setne sz xd xa xb) s = .next (s.wroteX xd (if opNat sz (s.rx xa) = opNat sz (s.rx xb) then 0 else 1)) :=
  show execSetne sz xd xa xb s = _ from intNow_writes h (setne_word sz _ _)

theorem exec_mov (h : s.ready (.mov xd xa) = .go) : exec (.mov xd xa) s = .next (s.wroteX xd (s.rx xa)) :=
  show execMov xd xa s = _ from intNow_go _ _ _ s h

theorem exec_sext (h : s.ready (.sext e xd xa) = .go) :
    exec (.sext e xd xa) s
      = .next (s.wroteX xd (BitVec.ofInt 64 (BitVec.ofNat (ExtFrom.bits e) (s.rx xa).toNat).toInt)) :=
  show execSext e xd xa s = _ from intNow_writes h (aluSext_eq e _)

theorem exec_zext (h : s.ready (.zext e xd xa) = .go) :
    exec (.zext e xd xa) s = .next (s.wroteX xd (BitVec.ofNat 64 ((s.rx xa).toNat % 2 ^ ExtFrom.bits e))) :=
  show execZext e xd xa s = _ from intNow_writes h (aluZext_eq e _)

theorem exec_sel (h : s.ready (.sel sz xd xa xb xc) = .go) :
    exec (.sel sz xd xa xb xc) s = .next (s.wroteX xd
      (widthWord sz (if opNat sz (s.rx xc) ≠ 0 then opNat sz (s.rx xa) else opNat sz (s.rx xb)))) :=
  show execSel sz xd xa xb xc s = _ from intNow_writes h (sel_word sz _ _ _)

theorem exec_mul (h : s.ready (.mul sz xd xa xb) = .go) :
    exec (.mul sz xd xa xb) s
      = .next (s.sentX xd (widthWord sz ((opNat sz (s.rx xa) : Int) * opNat sz (s.rx xb))) 0) :=
  show execMul sz xd xa xb s = _ from intLater_sends h (onWd_mul sz _ _)

theorem exec_mulh (h : s.ready (.mulh u sz xd xa xb) = .go) :
    exec (.mulh u sz xd xa xb) s
      = .next (s.sentX xd (widthWord sz (opNum u sz (s.rx xa) * opNum u sz (s.rx xb) / 2 ^ widthBits sz)) 0) :=
  show execMulh u sz xd xa xb s = _ from intLater_sends h (onWd_mulh u sz _ _)

/-- DIV divides unless the divisor is zero and FSW.IZ is set. -/
theorem exec_div_go (h : s.ready (.div u sz xd xa xb) = .go) (hz : ¬ (divZero sz (s.rx xb) ∧ fswIz s.rfsw)) :
    exec (.div u sz xd xa xb) s
      = .next (s.sentX xd (if divZero sz (s.rx xb) then 0 else onWd sz (aluDiv u) (s.rx xa) (s.rx xb)) 0) :=
  (show execDiv u sz xd xa xb s = _ from (if_neg fun hc => hz hc.2)).trans (intLater_go _ _ _ s h)

/-- REM divides unless the divisor is zero and FSW.IZ is set. -/
theorem exec_rem_go (h : s.ready (.rem u sz xd xa xb) = .go) (hz : ¬ (divZero sz (s.rx xb) ∧ fswIz s.rfsw)) :
    exec (.rem u sz xd xa xb) s
      = .next (s.sentX xd (if divZero sz (s.rx xb) then onWd sz (fun _ a _ => a) (s.rx xa) 0
          else onWd sz (aluRem u) (s.rx xa) (s.rx xb)) 0) :=
  (show execRem u sz xd xa xb s = _ from (if_neg fun hc => hz hc.2)).trans (intLater_go _ _ _ s h)

theorem exec_div_nonzero (h : s.ready (.div u sz xd xa xb) = .go) (hb : opNum u sz (s.rx xb) ≠ 0) :
    exec (.div u sz xd xa xb) s
      = .next (s.sentX xd (widthWord sz ((opNum u sz (s.rx xa)).tdiv (opNum u sz (s.rx xb)))) 0) := by
  have hz : ¬ divZero sz (s.rx xb) := mt (divZero_iff u sz _).mp hb
  rw [exec_div_go h fun hc => hz hc.1, if_neg hz, onWd_div]

theorem exec_div_zero (h : s.ready (.div u sz xd xa xb) = .go) (hb : opNum u sz (s.rx xb) = 0)
    (hiz : s.rfsw.getLsbD 16 = false) : exec (.div u sz xd xa xb) s = .next (s.sentX xd 0 0) := by
  rw [exec_div_go h fun hc => Bool.false_ne_true (hiz.symm.trans hc.2), if_pos ((divZero_iff u sz _).mpr hb)]

theorem exec_div_trap (h : s.ready (.div u sz xd xa xb) = .go) (hb : opNum u sz (s.rx xb) = 0)
    (hiz : s.rfsw.getLsbD 16 = true) : exec (.div u sz xd xa xb) s = .next (s.trapEntry true 0x0B (s.rx xa)) :=
  show execDiv u sz xd xa xb s = _ from if_pos ⟨h, (divZero_iff u sz _).mpr hb, hiz⟩

theorem exec_rem_nonzero (h : s.ready (.rem u sz xd xa xb) = .go) (hb : opNum u sz (s.rx xb) ≠ 0) :
    exec (.rem u sz xd xa xb) s
      = .next (s.sentX xd (widthWord sz ((opNum u sz (s.rx xa)).tmod (opNum u sz (s.rx xb)))) 0) := by
  have hz : ¬ divZero sz (s.rx xb) := mt (divZero_iff u sz _).mp hb
  rw [exec_rem_go h fun hc => hz hc.1, if_neg hz, onWd_rem]

theorem exec_rem_zero (h : s.ready (.rem u sz xd xa xb) = .go) (hb : opNum u sz (s.rx xb) = 0)
    (hiz : s.rfsw.getLsbD 16 = false) :
    exec (.rem u sz xd xa xb) s = .next (s.sentX xd (widthWord sz (opNum u sz (s.rx xa))) 0) := by
  rw [exec_rem_go h fun hc => Bool.false_ne_true (hiz.symm.trans hc.2), if_pos ((divZero_iff u sz _).mpr hb), onWd_fst u]

theorem exec_rem_trap (h : s.ready (.rem u sz xd xa xb) = .go) (hb : opNum u sz (s.rx xb) = 0)
    (hiz : s.rfsw.getLsbD 16 = true) : exec (.rem u sz xd xa xb) s = .next (s.trapEntry true 0x0B (s.rx xa)) :=
  show execRem u sz xd xa xb s = _ from if_pos ⟨h, (divZero_iff u sz _).mpr hb, hiz⟩

end Ends

/-! ## The four parts of the statement -/

theorem integerComparisons : Parts.IntegerComparisons := by
  intro s sz xd xa xb a b ua ub
  refine ⟨exec_min, fun h => ?minu, exec_max, fun h => ?maxu, exec_slt, fun h => ?sltu, exec_seteq, exec_setne⟩
  case minu => simpa using exec_min h
  case maxu => simpa using exec_max h
  case sltu => simpa using exec_slt h

theorem integerMoves : Parts.IntegerMoves := fun _ _ _ _ _ _ =>
  ⟨rfl, exec_mov, exec_sext, exec_sext, exec_sext, exec_zext, exec_zext, exec_zext, exec_sel⟩

theorem integerProducts : Parts.IntegerProducts := fun _ _ _ _ _ => ⟨exec_mul, exec_mulh, exec_mulh⟩

theorem integerQuotients : Parts.IntegerQuotients := fun _ _ _ _ _ _ =>
  ⟨fun h => ⟨exec_div_nonzero h, exec_div_zero h, exec_div_trap h⟩,
    fun h => ⟨exec_rem_nonzero h, exec_rem_zero h, exec_rem_trap h⟩⟩

/-- Settles O2, from its four parts: each instruction ends as the lemma about it above says. -/
theorem integerComparisonsMovesAndProducts : Obligations.IntegerComparisonsMovesAndProducts :=
  ⟨integerComparisons, integerMoves, integerProducts, integerQuotients⟩

end Sys2Proof.Machine
end

section
/-!
PROOFS. The scalar FP instructions of latency 1 (R283 to R285, R287): how a result and its flags end the slot, the fields of
an FP32 value, and the words that FSGN and FCLASS write.
-/

namespace Sys2Proof.Machine

/-! ## The end of an FP instruction of latency 1 (R67, R68, R270) -/

theorem fpTraps_eq_true_iff (s : State) (fl : Flags) : s.fpTraps fl = true ↔ fl &&& fswEnables s.rfsw ≠ 0 := by
  simp [State.fpTraps]

theorem fpNow_go (i : Instr) (xd : XR) (f : State → Word × Flags) (s : State) (h : s.ready i = .go) :
    fpNow i xd f s = if s.fpTraps (f s).2 then .next (s.fpTrap (f s).2)
      else .next (((s.setX xd (f s).1).raise (f s).2).withDisp .retired) := by
  rw [fpNow, slotA_go i s _ h]; rfl

/-- An instruction that FP's latency-1 shape gives its meaning retires with its result, or traps on an enabled flag. -/
theorem fpEndsNow_of_fpNow {i : Instr} {xd : XR} {f : State → Word × Flags} {s : State} {v : Word} {fl : Flags}
    (hi : exec i s = fpNow i xd f s) (hf : f s = (v, fl)) (h : s.ready i = .go) : FpEndsNow i xd v fl s := by
  have he := fpNow_go i xd f s h
  rw [← hi, hf] at he
  exact ⟨fun hn => he.trans (if_neg fun hr => (fpTraps_eq_true_iff s fl).mp hr hn),
    fun ht => he.trans (if_pos ((fpTraps_eq_true_iff s fl).mpr ht))⟩

/-- Without a flag the result is written, whatever is enabled. -/
theorem fpNow_writes {i : Instr} {xd : XR} {f : State → Word × Flags} {s : State} {v : Word}
    (h : s.ready i = .go) (hf : f s = (v, 0)) : fpNow i xd f s = .next (s.wroteX xd v) := by
  have hq : ¬ s.fpTraps 0 = true := by simp [State.fpTraps]
  rw [fpNow_go i xd f s h, hf, if_neg hq]; rfl

/-! ## The fields of an FP32 value (R62) -/

/-- The exponent field of FP32 bits. -/
def fpExpo (a : Lane) : Nat := a.toNat / 2 ^ 23 % 256
/-- The fraction field of FP32 bits. -/
def fpFrac (a : Lane) : Nat := a.toNat % 2 ^ 23

theorem fld_sign (a : Lane) : (fld a.toNat 31 1 == 1) = a.msb := by
  rw [BitVec.msb_eq_decide, Bool.eq_iff_iff, beq_iff_eq, decide_eq_true_iff, fld]
  omega

theorem fld_quiet (a : Lane) : (fld a.toNat 22 1 == 0) = decide (fpFrac a < 2 ^ 22) := by
  rw [Bool.eq_iff_iff, beq_iff_eq, decide_eq_true_iff, fld, fpFrac]
  omega

theorem fld_frac (a : Lane) : fld a.toNat 0 23 = fpFrac a := by
  rw [fld, Nat.pow_zero, Nat.div_one, fpFrac]

/-- What FP32 bits stand for, by their fields (R62). -/
theorem ofLane_eq (a : Lane) : Fx.ofLane a =
    if fpExpo a = 255 then (if fpFrac a = 0 then .inf a.msb else .nan (decide (fpFrac a < 2 ^ 22)))
    else if fpExpo a = 0 then .fin a.msb (fpFrac a) fp32.emin
    else .fin a.msb (2 ^ 23 + fpFrac a) (fp32.emin + (fpExpo a : Int) - 1) := by
  rw [← fld_sign, ← fld_quiet, ← fld_frac]
  rfl

/-- The bit of the class of FP32 bits, by their fields (R287). -/
theorem fpClass_eq (a : Lane) : fpClass a =
    if fpExpo a = 255 then
      (if fpFrac a = 0 then (if a.msb then 0 else 7) else if fpFrac a < 2 ^ 22 then 8 else 9)
    else if fpExpo a = 0 then (if fpFrac a = 0 then (if a.msb then 3 else 4) else if a.msb then 2 else 5)
    else if a.msb then 1 else 6 := by
  have he : fld a.toNat 23 8 = fpExpo a := rfl
  rw [fpClass, ofLane_eq, he]
  by_cases h255 : fpExpo a = 255
  · by_cases hf : fpFrac a = 0
    · cases hm : a.msb <;> simp [h255, hf]
    · by_cases hq : fpFrac a < 2 ^ 22 <;> simp [h255, hf, hq, -Nat.reducePow]
  · by_cases h0 : fpExpo a = 0
    · simp [h0]
    · simp [h255, h0]

/-! ## The word that FSGN writes (R284) -/

theorem toNat_and_magnitude (a : Lane) : (a &&& 0x7FFFFFFF#32).toNat = a.toNat % 2 ^ 31 :=
  Nat.and_two_pow_sub_one_eq_mod a.toNat 31

theorem or_signBit {m : Nat} (hm : m < 2 ^ 31) (c : Bool) :
    m ||| (if c then 0x80000000#32 else 0 : Lane).toNat = c.toNat * 2 ^ 31 + m := by
  cases c with
  | false => simp
  | true => exact (Nat.or_comm _ _).trans (Nat.two_pow_add_eq_or_of_lt hm 1).symm

/-- FP32 bits with a sign given, in bits 31:0 with zero above. -/
theorem signed_word (a : Lane) (c : Bool) :
    (((a &&& 0x7FFFFFFF#32) ||| (if c then 0x80000000#32 else 0)).setWidth 64 : Word)
      = (c.toNat : Word) * 2 ^ 31 + (a.toNat : Word) % 2 ^ 31 := by
  have hlow : a.toNat % 2 ^ 31 < 2 ^ 31 := Nat.mod_lt _ (by decide)
  have hp : (2 ^ 31 : Word) = 0x80000000#64 := rfl
  have hk : (0x80000000#64).toNat = 2 ^ 31 := rfl
  have hcast : ∀ n : Nat, (n : Word).toNat = n % 2 ^ 64 := fun _ => rfl
  have hc : c.toNat ≤ 1 := Bool.toNat_le c
  have ha : a.toNat < 2 ^ 32 := a.isLt
  apply BitVec.eq_of_toNat_eq
  rw [BitVec.toNat_setWidth, BitVec.toNat_or, toNat_and_magnitude, or_signBit hlow, hp, BitVec.toNat_add, BitVec.toNat_mul,
    BitVec.toNat_umod, hcast, hcast, hk]
  omega

/-! ## The statement -/

/-- Settles O3: each instruction has the latency-1 shape, with the result and flags of its entry. -/
theorem floatComparisons : Obligations.FloatComparisons := by
  intro s xd xa xb op p a b
  refine ⟨fun h => ?fmin, fun h => ?fmax, fun h => ?fsgn, fun h => ?fcmp, fun h => ?fclass⟩
  case fmin => exact fpEndsNow_of_fpNow (f := fun s => (fpMin (s.rf xa) (s.rf xb)).word) rfl rfl h
  case fmax => exact fpEndsNow_of_fpNow (f := fun s => (fpMax (s.rf xa) (s.rf xb)).word) rfl rfl h
  case fsgn =>
    show execFsgn op xd xa xb s = _
    refine fpNow_writes h (congrArg (·, 0) ?_)
    cases op <;> exact signed_word a _
  case fcmp =>
    exact fpEndsNow_of_fpNow (f := fun s =>
      (if (fpCmp p (s.rf xa) (s.rf xb)).1 then 1 else 0, (fpCmp p (s.rf xa) (s.rf xb)).2)) rfl rfl h
  case fclass =>
    show execFclass xd xa s = _
    exact fpNow_writes h (congrArg (fun k => (BitVec.ofNat 64 (2 ^ k), 0)) (fpClass_eq a))

end Sys2Proof.Machine
end

section
/-!
PROOFS. The fibre's identity, the anchor and the system registers (R395, R396, R412, R425, R427): what a record and a wake leave
as it was, what the freeing of ports and the closing of groups do, and how each of the five instructions ends.
-/

namespace Sys2Proof.Machine

/-! ## What records and wakes leave as it was (R379, R449, R463) -/

/-- The running slot, the cores and the tiles are the same: neither a record nor a wake touches them. -/
structure SameUnits (s t : State) : Prop where
  cur   : t.cur = s.cur
  cores : t.cores = s.cores
  tiles : t.tiles = s.tiles

theorem SameUnits.refl (s : State) : SameUnits s s := ⟨rfl, rfl, rfl⟩

theorem SameUnits.trans {s t u : State} (h : SameUnits s t) (k : SameUnits t u) : SameUnits s u :=
  ⟨k.cur.trans h.cur, k.cores.trans h.cores, k.tiles.trans h.tiles⟩

theorem SameUnits.foldl {α : Type} {f : State → α → State} (hf : ∀ s x, SameUnits s (f s x)) (l : List α) (s : State) :
    SameUnits s (l.foldl f s) :=
  List.foldlRecOn l f (SameUnits.refl s) fun t ht x _ => ht.trans (hf t x)

theorem SameUnits.ite {s t u : State} {p : Prop} [Decidable p] (h : SameUnits s t) (k : SameUnits s u) :
    SameUnits s (if p then t else u) := by
  split
  · exact h
  · exact k

theorem State.sameUnits_setBytes (s : State) (a : Nat) (bs : List Byte) : SameUnits s (s.setBytes a bs) := by
  rw [State.setBytes_eq]; exact ⟨rfl, rfl, rfl⟩

theorem State.sameUnits_setHostBytes (s : State) (a : Nat) (bs : List Byte) : SameUnits s (s.setHostBytes a bs) := by
  rw [State.setHostBytes_eq]; exact ⟨rfl, rfl, rfl⟩

theorem State.sameUnits_setPoison (s : State) (a : Nat) (b : Bool) : SameUnits s (s.setPoison a b) :=
  .ite ⟨rfl, rfl, rfl⟩ ⟨rfl, rfl, rfl⟩

theorem State.sameUnits_dirtyLine (s : State) (k : Nat) : SameUnits s (s.dirtyLine k) := by
  unfold State.dirtyLine
  split
  · exact ⟨rfl, rfl, rfl⟩
  · exact .ite ⟨rfl, rfl, rfl⟩ (.refl s)

theorem State.sameUnits_writeWhole (s : State) (a : Nat) (bs : List Byte) : SameUnits s (s.writeWhole a bs) := by
  have hw := (SameUnits.foldl (fun s u => State.sameUnits_setPoison s u false) (unitsOf a bs.length) s).trans
    (State.sameUnits_setBytes _ a bs)
  exact .ite (.refl s) (.ite hw (hw.trans (State.sameUnits_dirtyLine _ _)))

theorem State.sameUnits_noteWrite (s : State) (a : Nat) : SameUnits s (s.noteWrite a) :=
  .ite ⟨rfl, rfl, rfl⟩ (.refl s)

theorem State.sameUnits_setReg (s : State) (off : Nat) (v : Word) : SameUnits s (s.setReg off v) := ⟨rfl, rfl, rfl⟩

theorem State.sameUnits_setTrace (s : State) (k : Nat) (b : TraceBuf) : SameUnits s (s.setTrace k b) := ⟨rfl, rfl, rfl⟩

theorem State.sameUnits_now (s : State) : SameUnits s s.now.2 := ⟨rfl, rfl, rfl⟩

theorem State.sameUnits_putErr (s : State) (kind : Nat) (rc : Option RecCtx) (ws : List Word) (t : Option Nat) :
    SameUnits s (s.putErr kind rc ws t) := by
  have hnow : SameUnits s (match t with | some t => (t, s) | none => s.now).2 := by
    cases t with
    | none => exact s.sameUnits_now
    | some t => exact .refl s
  unfold State.putErr
  exact (hnow.trans (.ite (State.sameUnits_setHostBytes _ _ _)
    (.ite (.refl _) ((State.sameUnits_writeWhole _ _ _).trans (State.sameUnits_noteWrite _ _))))).trans
    (State.sameUnits_setReg _ _ _)

theorem State.sameUnits_dropErr (s : State) : SameUnits s s.dropErr := ⟨rfl, rfl, rfl⟩

theorem State.sameUnits_errNow (s : State) (kind : Nat) (rc : Option RecCtx) (ws : List Word) (t : Option Nat) :
    SameUnits s (s.errNow kind rc ws t) := by
  have hlost : SameUnits s (if s.errLost = 0 then s
      else { s.putErr 0x01 none [BitVec.ofNat 64 s.errLost] with errLost := 0 }) := by
    obtain ⟨hcur, hcores, htiles⟩ := s.sameUnits_putErr 0x01 none [BitVec.ofNat 64 s.errLost] none
    exact .ite (.refl s) ⟨hcur, hcores, htiles⟩
  unfold State.errNow
  exact .ite s.sameUnits_dropErr
    (.ite (hlost.trans (State.sameUnits_putErr _ _ _ _ _)) (hlost.trans (State.sameUnits_dropErr _)))

theorem State.sameUnits_errRec (s : State) (kind : Nat) (rc : Option RecCtx) (ws : List Word) :
    SameUnits s (s.errRec kind rc ws) := by
  unfold State.errRec
  exact .ite ⟨rfl, rfl, rfl⟩ (s.sameUnits_errNow kind rc ws none)

theorem State.sameUnits_traceRec (s : State) (c ctx evt : Nat) (tid : BitVec 48) (data : Lane) :
    SameUnits s (s.traceRec c ctx evt tid data) := by
  unfold State.traceRec
  refine .ite (.refl s) (s.sameUnits_now.trans (.ite (.ite ?_ ?_) (.ite ?lossMarker ?_)))
  case lossMarker => exact (State.sameUnits_setTrace _ _ _).trans (State.sameUnits_errRec _ _ _ _)
  all_goals exact State.sameUnits_setTrace _ _ _

theorem State.sameUnits_rearm (s : State) (c : Nat) : SameUnits s (s.rearm c) := by
  unfold State.rearm
  exact .ite (.refl s) ⟨rfl, rfl, rfl⟩

theorem State.sameUnits_setFib (s : State) (c k : Nat) (f : Fibre) : SameUnits s (s.setFib c k f) := ⟨rfl, rfl, rfl⟩

theorem State.sameUnits_wakeWhere (s : State) (p : Nat → Nat → Fibre → Bool) : SameUnits s (s.wakeWhere p) := by
  unfold State.wakeWhere
  exact .foldl (fun _ _ => (State.sameUnits_setFib _ _ _ _).trans
    ((State.sameUnits_rearm _ _).trans (State.sameUnits_traceRec _ _ _ _ _ _))) _ _

/-! ## The running slot -/

@[simp] theorem State.applyArith_cur (s : State) (m : Msg) : (s.applyArith m).cur = s.cur := by
  cases m <;> rfl

@[simp] theorem State.drainArith_cur (s : State) (c k : Nat) : (s.drainArith c k).cur = s.cur :=
  have hfold : ∀ l : List (Nat × Msg), (l.foldl (fun s p => s.applyArith p.2) s).cur = s.cur := fun l =>
    List.foldlRecOn (motive := fun t : State => t.cur = s.cur) l _ rfl fun t ht p _ => (t.applyArith_cur p.2).trans ht
  hfold _

@[simp] theorem State.closeMyGroups_cur (s : State) : s.closeMyGroups.cur = s.cur := by
  unfold State.closeMyGroups State.wakeGuards
  split
  · rw [(State.sameUnits_wakeWhere _ _).cur, State.modTile, State.setTile_cur]
  · rfl

/-! ## The freeing of ports (R303) -/

section FreePorts

variable {s : State} {sps : List (Fin 4)} {k : State → Out}

theorem State.freePorts_answered {ids : List Nat} {fl : Option (Nat × Word)} (h : s.cResume = .stage 50 ids fl) :
    s.freePorts sps k = k (s.unbindAll sps) := by
  simp [State.freePorts, h]

theorem State.freePorts_waits (h : s.cResume = .none) (hw : s.outWaits sps ≠ []) :
    s.freePorts sps k = .next (s.parkMe 7 (.performed (s.outWaits sps))) := by
  simp [State.freePorts, h, hw, State.endPark]

theorem State.freePorts_now (h : s.cResume = .none) (hw : s.outWaits sps = []) (hp : (s.stopPorts sps).2 = []) :
    s.freePorts sps k = k ((s.stopPorts sps).1.unbindAll sps) := by
  simp [State.freePorts, h, hw, hp]

theorem State.freePorts_awaits (h : s.cResume = .none) (hw : s.outWaits sps = []) (hp : (s.stopPorts sps).2 ≠ []) :
    s.freePorts sps k = (s.stopPorts sps).1.awaitIds 50 (s.stopPorts sps).2 none := by
  simp [State.freePorts, h, hw, hp]

end FreePorts

/-! ## Ports that are not bound -/

section Unbound

variable {s : State} (h : ∀ sp, (s.port s.cur.core sp).bound = false)
include h

theorem State.outWaits_of_unbound (sps : List (Fin 4)) : s.outWaits sps = [] := by
  simp [State.outWaits, h]

theorem State.stopPorts_of_unbound (sps : List (Fin 4)) : s.stopPorts sps = (s, []) := by
  refine List.foldlRecOn (motive := fun acc : State × List Nat => acc = (s, [])) _ _ rfl ?_
  rintro _ rfl sp _
  simp [h]

theorem State.unbindAll_of_unbound (sps : List (Fin 4)) : s.unbindAll sps = s := by
  refine List.foldlRecOn (motive := fun t : State => t = s) _ _ rfl ?_
  rintro _ rfl sp _
  simp [h]

end Unbound

/-! ## Vectors -/

theorem vector_get_set_self {α : Type} {n : Nat} (v : Vector α n) (i : Fin n) (x : α) : (v.set i x).get i = x :=
  Vector.getElem_set_self i.isLt

theorem vector_get_set_ne {α : Type} {n : Nat} (v : Vector α n) (x : α) {i j : Fin n} (h : j ≠ i) :
    (v.set i x).get j = v.get j :=
  Vector.getElem_set_ne i.isLt j.isLt (Fin.val_ne_of_ne h.symm)

theorem vector_get_ofFn {α : Type} {n : Nat} (f : Fin n → α) (i : Fin n) : (Vector.ofFn f).get i = f i :=
  Vector.getElem_ofFn i.isLt

theorem vector_get_replicate {α : Type} {n : Nat} (x : α) (i : Fin n) : (Vector.replicate n x).get i = x :=
  Vector.getElem_replicate i.isLt

/-! ## A core whose ports are unbound (R303) -/

/-- A core with a port unbound, and the port's register zero and FULL. -/
def Core.unbindPort (r : Core) (sp : Fin 4) : Core :=
  { r with sp := r.sp.set sp {} }.modV (portReg sp) 0xF fun i _ => { val := (Vector.replicate 4 0 : Vector Lane 4).get i }

/-- A core with the bound ones of some ports unbound. -/
def Core.unbindPorts (r : Core) (sps : List (Fin 4)) : Core :=
  sps.foldl (fun r sp => if (r.sp.get sp).bound then r.unbindPort sp else r) r

/-- The register of a port holds zero, FULL, in every lane. -/
def Core.portZero (r : Core) (sp : Fin 4) : Prop :=
  ∀ k : Fin 4, (r.v.get (portReg sp)).get k = { val := 0, full := true }

theorem portReg_ne {p q : Fin 4} (h : p ≠ q) : portReg p ≠ portReg q := by
  revert p q; decide

theorem Core.unbindPort_bound_self (r : Core) (sp : Fin 4) : ((r.unbindPort sp).sp.get sp).bound = false :=
  congrArg Port.bound (vector_get_set_self r.sp sp {})

theorem Core.unbindPort_port_other (r : Core) {sp q : Fin 4} (h : q ≠ sp) : (r.unbindPort sp).sp.get q = r.sp.get q :=
  vector_get_set_ne r.sp {} h

theorem Core.unbindPort_zero_self (r : Core) (sp : Fin 4) : (r.unbindPort sp).portZero sp := by
  have hlane : ∀ k : Fin 4, (0xF : BitVec 4).getLsbD k.val = true := by decide
  intro k
  rw [Core.unbindPort, Core.modV, vector_get_set_self, vmapLanes, vector_get_ofFn, if_pos (hlane k), vector_get_replicate]

theorem Core.unbindPort_reg_other (r : Core) {sp q : Fin 4} (h : q ≠ sp) :
    (r.unbindPort sp).v.get (portReg q) = r.v.get (portReg q) :=
  vector_get_set_ne r.v _ (portReg_ne h)

theorem Core.unbindPorts_keeps_unbound {r : Core} {sp : Fin 4} (h : (r.sp.get sp).bound = false) (sps : List (Fin 4)) :
    ((r.unbindPorts sps).sp.get sp).bound = false := by
  refine List.foldlRecOn (motive := fun t : Core => (t.sp.get sp).bound = false) _ _ h fun t ht q _ => ?_
  split
  · obtain rfl | hq := Decidable.em (sp = q)
    · exact t.unbindPort_bound_self sp
    · rw [t.unbindPort_port_other hq, ht]
  · exact ht

theorem Core.unbindPorts_keeps_zero {r : Core} {sp : Fin 4} (h : r.portZero sp) (sps : List (Fin 4)) :
    (r.unbindPorts sps).portZero sp := by
  refine List.foldlRecOn (motive := fun t : Core => t.portZero sp) _ _ h fun t ht q _ => ?_
  split
  · obtain rfl | hq := Decidable.em (sp = q)
    · exact t.unbindPort_zero_self sp
    · rw [Core.portZero, t.unbindPort_reg_other hq]; exact ht
  · exact ht

/-- Every port of the list is unbound in the end, and the register of each that was bound is zero. -/
theorem Core.unbindPorts_of_mem {sp : Fin 4} {sps : List (Fin 4)} (h : sp ∈ sps) (r : Core) :
    ((r.unbindPorts sps).sp.get sp).bound = false
      ∧ ((r.sp.get sp).bound = true → (r.unbindPorts sps).portZero sp) := by
  induction sps generalizing r with
  | nil => simp at h
  | cons q sps ih =>
    have hstep : r.unbindPorts (q :: sps) = (if (r.sp.get q).bound then r.unbindPort q else r).unbindPorts sps := rfl
    obtain rfl | hq := Decidable.em (sp = q)
    · by_cases hb : (r.sp.get sp).bound = true
      · rw [hstep, if_pos hb]
        exact ⟨unbindPorts_keeps_unbound (r.unbindPort_bound_self sp) sps,
          fun _ => unbindPorts_keeps_zero (r.unbindPort_zero_self sp) sps⟩
      · rw [hstep, if_neg hb]
        exact ⟨unbindPorts_keeps_unbound (Bool.eq_false_iff.mpr hb) sps, fun ht => absurd ht hb⟩
    · have hp : (if (r.sp.get q).bound then r.unbindPort q else r).sp.get sp = r.sp.get sp := by
        split
        · exact r.unbindPort_port_other hq
        · rfl
      rw [hstep, ← hp]
      exact ih ((List.mem_cons.mp h).resolve_left hq) _

/-! ## The running core whose ports are unbound -/

theorem State.setCore_core_self {s : State} (h : AMap.wf {} s.cores = true) (c : Nat) (r : Core) :
    (s.setCore c r).core c = r :=
  AMap.getD_setD_self ({} : Core) s.cores c r h

theorem State.setCore_cores_wf {s : State} (h : AMap.wf {} s.cores = true) (c : Nat) (r : Core) :
    AMap.wf {} (s.setCore c r).cores = true :=
  AMap.wf_setD {} s.cores c r h

theorem State.unbind_core {s : State} (h : AMap.wf {} s.cores = true) (c : Nat) (sp : Fin 4) :
    (s.unbind c sp).core c = (s.core c).unbindPort sp := by
  rw [State.core, State.unbind, State.settle, (State.sameUnits_wakeWhere _ _).cores]
  refine (State.setCore_core_self (State.setCore_cores_wf h c _) c _).trans ?_
  rw [State.setPort, State.modCore, State.setCore_core_self h]; rfl

theorem State.unbind_cores_wf {s : State} (h : AMap.wf {} s.cores = true) (c : Nat) (sp : Fin 4) :
    AMap.wf {} (s.unbind c sp).cores = true := by
  rw [State.unbind, State.settle, (State.sameUnits_wakeWhere _ _).cores]
  exact State.setCore_cores_wf (State.setCore_cores_wf h c _) c _

@[simp] theorem State.unbind_cur (s : State) (c : Nat) (sp : Fin 4) : (s.unbind c sp).cur = s.cur :=
  (State.sameUnits_wakeWhere _ _).cur

theorem State.unbindAll_core {s : State} (h : AMap.wf {} s.cores = true) (sps : List (Fin 4)) :
    (s.unbindAll sps).core s.cur.core = (s.core s.cur.core).unbindPorts sps := by
  induction sps generalizing s with
  | nil => rfl
  | cons sp sps ih =>
    show ((if (s.port s.cur.core sp).bound then s.unbind s.cur.core sp else s).unbindAll sps).core s.cur.core
      = (if (s.port s.cur.core sp).bound then (s.core s.cur.core).unbindPort sp else s.core s.cur.core).unbindPorts sps
    split
    · have hu := ih (State.unbind_cores_wf h s.cur.core sp)
      rwa [State.unbind_cur, State.unbind_core h] at hu
    · exact ih h

/-! ## The groups of a fibre closed (R308) -/

/-- What the closing of groups keeps of an accumulator: its cells, its bound and its fibre; none opens. -/
structure Accum.Keeps (a b : Accum) : Prop where
  opens : b.isOpen = true → a.isOpen = true
  tid   : b.tid = a.tid
  cells : b.cells = a.cells
  bound : b.bound = a.bound

theorem Accum.Keeps.refl (a : Accum) : a.Keeps a := ⟨id, rfl, rfl, rfl⟩

theorem Accum.Keeps.trans {a b c : Accum} (h : a.Keeps b) (k : b.Keeps c) : a.Keeps c :=
  ⟨h.opens ∘ k.opens, k.tid.trans h.tid, k.cells.trans h.cells, k.bound.trans h.bound⟩

/-- One accumulator of `closeGroups`: its group closes when it is the fibre's. -/
def Tile.closeOwn (tid : BitVec 48) (t : Tile) (p : Fin 8) : Tile :=
  if (t.acc.get p).isOpen && (t.acc.get p).tid == tid then t.closeAcc p else t

theorem Tile.closeGroups_eq (t : Tile) (tid : BitVec 48) : t.closeGroups tid = (List.finRange 8).foldl (closeOwn tid) t := rfl

theorem Accum.keeps_set {v : Vector Accum 8} {p : Fin 8} {a : Accum} (h : (v.get p).Keeps a) (q : Fin 8) :
    (v.get q).Keeps ((v.set p a).get q) := by
  obtain rfl | hq := Decidable.em (q = p)
  · rwa [vector_get_set_self]
  · rw [vector_get_set_ne _ _ hq]; exact .refl _

/-- The accumulators of a tile with the group on one of them closed, before the pair flag that it set clears. -/
def Tile.shutAcc (t : Tile) (p : Fin 8) : Vector Accum 8 :=
  t.acc.set p { t.acc.get p with isOpen := false, claim := false, aRead := [], bRead := [] }

theorem Tile.closeAcc_keeps_shutAcc (t : Tile) (p q : Fin 8) :
    ((t.shutAcc p).get q).Keeps ((t.closeAcc p).acc.get q) := by
  by_cases hc : (t.acc.get p).claim = true
  · have he : (t.closeAcc p).acc = (t.shutAcc p).set (p + 1 : Fin 8) { (t.shutAcc p).get (p + 1) with pair := false } :=
      if_pos hc
    rw [he]
    refine Accum.keeps_set ?_ q
    exact ⟨id, rfl, rfl, rfl⟩
  · have he : (t.closeAcc p).acc = t.shutAcc p := if_neg hc
    rw [he]
    exact .refl _

theorem Tile.closeAcc_keeps (t : Tile) (p q : Fin 8) : (t.acc.get q).Keeps ((t.closeAcc p).acc.get q) := by
  have hshut : (t.acc.get q).Keeps ((t.shutAcc p).get q) := by
    refine Accum.keeps_set ?_ q
    exact ⟨fun h => absurd h Bool.false_ne_true, rfl, rfl, rfl⟩
  exact hshut.trans (t.closeAcc_keeps_shutAcc p q)

theorem Tile.closeAcc_closed (t : Tile) (p : Fin 8) : ((t.closeAcc p).acc.get p).isOpen = false := by
  have hshut : ((t.shutAcc p).get p).isOpen = false := by rw [Tile.shutAcc, vector_get_set_self]
  rw [Bool.eq_false_iff] at hshut ⊢
  exact mt (t.closeAcc_keeps_shutAcc p p).opens hshut

theorem Tile.closeOwn_keeps (tid : BitVec 48) (t : Tile) (p q : Fin 8) : (t.acc.get q).Keeps ((t.closeOwn tid p).acc.get q) := by
  unfold Tile.closeOwn
  split
  · exact t.closeAcc_keeps p q
  · exact .refl _

theorem Tile.closeOwn_foldl_keeps (tid : BitVec 48) (l : List (Fin 8)) (t : Tile) (q : Fin 8) :
    (t.acc.get q).Keeps ((l.foldl (closeOwn tid) t).acc.get q) :=
  List.foldlRecOn (motive := fun u : Tile => (t.acc.get q).Keeps (u.acc.get q)) _ _ (.refl _)
    fun u hu p _ => hu.trans (u.closeOwn_keeps tid p q)

theorem Tile.closeOwn_other (tid : BitVec 48) (t : Tile) (p : Fin 8) (h : ((t.closeOwn tid p).acc.get p).isOpen = true) :
    ((t.closeOwn tid p).acc.get p).tid ≠ tid := by
  unfold Tile.closeOwn at h ⊢
  split at h
  · simp [Tile.closeAcc_closed] at h
  · next hn =>
    rw [if_neg hn]
    simpa [h] using hn

/-- A group that stays open is another fibre's. -/
theorem Tile.closeOwn_foldl_other {tid : BitVec 48} {l : List (Fin 8)} {p : Fin 8} (hp : p ∈ l) (t : Tile)
    (h : ((l.foldl (closeOwn tid) t).acc.get p).isOpen = true) : ((l.foldl (closeOwn tid) t).acc.get p).tid ≠ tid := by
  induction l generalizing t with
  | nil => simp at hp
  | cons q l ih =>
    obtain rfl | hm := List.mem_cons.mp hp
    · have hk := closeOwn_foldl_keeps tid l (t.closeOwn tid p) p
      rw [List.foldl_cons] at h ⊢
      rw [hk.tid]
      exact t.closeOwn_other tid p (hk.opens h)
    · exact ih hm _ h

theorem AMap.getD_setD_of_rising {α : Type} [DecidableEq α] {m : AMap α} (h : AMap.rising none m = true) (i : Nat) (v d : α) :
    (AMap.setD m i v d).getD i d = v := by
  by_cases hv : v = d
  · simp [AMap.setD, AMap.getD, hv, AMap.get?_erase_self none m i h]
  · exact AMap.getD_setD_ne d m i v hv

theorem State.closeMyGroups_tile {s : State} (hc : coreInTile s.cur.core = 2) (h : AMap.rising none s.tiles = true) :
    s.closeMyGroups.tile (tileOf s.cur.core) = (s.tile (tileOf s.cur.core)).closeGroups s.me.tid := by
  rw [State.closeMyGroups, if_pos hc, State.tile, State.wakeGuards, (State.sameUnits_wakeWhere _ _).tiles, State.modTile,
    State.setTile_tiles, AMap.getD_setD_of_rising h]

/-! ## The register space of the system (R375, R426) -/

theorem inArray_of_past {off base step n : Nat} (hs : 0 < step) (h : base + step * n ≤ off) :
    inArray off base step n = none := by
  have hn : n ≤ (off - base) / step := (Nat.le_div_iff_mul_le hs).mpr (by rw [Nat.mul_comm]; omega)
  exact if_neg fun ⟨_, _, hlt⟩ => absurd hlt (Nat.not_lt.mpr hn)

theorem inArray_of_between {off base step n : Nat} (h : (off - base) % step ≠ 0) : inArray off base step n = none :=
  if_neg fun ⟨_, hmod, _⟩ => h hmod

theorem inArray_index {base step n i : Nat} (hs : 0 < step) (hi : i < n) : inArray (base + step * i) base step n = some i := by
  have hsub : base + step * i - base = step * i := Nat.add_sub_cancel_left ..
  rw [inArray, hsub, Nat.mul_mod_right, Nat.mul_div_cancel_left i hs, if_pos ⟨Nat.le_add_right .., rfl, hi⟩]

theorem singleReg_ctxTrap {off : Nat} (hlo : 0x200000 ≤ off) (hhi : off < 0x208000) : singleReg off = none := by
  unfold singleReg
  split <;> simp at hlo hhi ⊢

/-- CTX_TRAP holds three registers of each context, in an array of its own each. -/
theorem regName_ctxTrap (ctx : BitVec 10) :
    regName (ctxTrapOff ctx.toNat) = some (.tvec ctx.toNat 1)
      ∧ regName (ctxTrapOff ctx.toNat + 8) = some (.tvec ctx.toNat 2)
      ∧ regName (ctxTrapOff ctx.toNat + 16) = some (.svbase ctx.toNat) := by
  have hlt : ctx.toNat < 1024 := ctx.isLt
  generalize ctx.toNat = c at hlt
  have h1 : inArray (0x200000 + 32 * c) 0x200000 32 1024 = some c := inArray_index (by decide) hlt
  have h2 : inArray (0x200000 + 32 * c + 8) 0x200008 32 1024 = some c := by
    rw [Nat.add_right_comm]; exact inArray_index (by decide) hlt
  have h3 : inArray (0x200000 + 32 * c + 16) 0x200010 32 1024 = some c := by
    rw [Nat.add_right_comm]; exact inArray_index (by decide) hlt
  refine ⟨?tvec1, ?tvec2, ?svbase⟩
  all_goals
    rw [regName, ctxTrapOff, singleReg_ctxTrap (by omega) (by omega)]
    simp (disch := omega) only [regArrays, List.findSome?_cons, inArray_of_past, inArray_of_between, h1, h2, h3, Option.map_none,
      Option.map_some]

/-! ## System registers written (R273, R425 to R427) -/

theorem and_not_and_and_eq_zero (a b m : BitVec 32) : (a &&& ~~~m) &&& (b &&& m) = 0#32 := by
  ext i hi; grind

theorem and_not_or_and (a m : BitVec 32) : (a &&& ~~~m) ||| (a &&& m) = a := by
  ext i hi; grind

/-- The bits that a write reaches are replaced; the others are what is left of the old value without them. -/
theorem fswWrite_eq (old v : BitVec 32) : fswWrite old v
    = BitVec.ofNat 32 (old.toNat - (old &&& 0x11F7F#32).toNat + (v &&& 0x11F7F#32).toNat) := by
  have hw : (0x11F7F#32) = fswWritable := rfl
  have hold : (old &&& ~~~fswWritable).toNat + (old &&& fswWritable).toNat = old.toNat := by
    have hz := and_not_and_and_eq_zero old old fswWritable
    rw [← BitVec.toNat_add_of_and_eq_zero hz, BitVec.add_eq_or_of_and_eq_zero _ _ hz, and_not_or_and]
  have hz := and_not_and_and_eq_zero old v fswWritable
  rw [hw, ← hold, Nat.add_sub_cancel, ← BitVec.toNat_add_of_and_eq_zero hz, BitVec.ofNat_toNat, BitVec.setWidth_eq,
    BitVec.add_eq_or_of_and_eq_zero _ _ hz, fswWrite]

theorem RegName.written_plain {r : RegName} (h : r.w1c = 0) (old v : Word) :
    r.written old v = (old &&& ~~~r.rw) ||| (v &&& r.rw) := by
  have hkeep : ~~~((0 : Word) &&& v) = BitVec.allOnes 64 := congrArg (~~~ ·) BitVec.zero_and
  rw [RegName.written, h, hkeep, BitVec.and_allOnes]

theorem State.writeField_of_name {s : State} {off : Nat} {r : RegName} (hn : regName off = some r) (hc : r.w1c = 0) (v : Word) :
    s.writeField off v = s.setReg off ((s.reg off &&& ~~~r.rw) ||| (v &&& r.rw)) := by
  simp [State.writeField, hn, RegName.written_plain hc]

theorem tvec_rw (c lvl : Nat) : (RegName.tvec c lvl).rw = 0x0000FFFFFFFFFFF9 := rfl
theorem svbase_rw (c : Nat) : (RegName.svbase c).rw = 0xFFFFFFFFFFFFFC00 := rfl

section Written

variable (s : State) (v : Word)

theorem State.writeSys_fsw : s.writeSys 0 v = s.modMe fun f => { f with
    fsw := BitVec.ofNat 32 (f.fsw.toNat - (f.fsw &&& 0x11F7F#32).toNat + (v.setWidth 32 &&& 0x11F7F#32).toNat) } := by
  simp only [← fswWrite_eq]; rfl

theorem State.writeSys_readOnly {n : Nat} (h : n = 1 ∨ n = 2 ∨ n = 3 ∨ n = 5 ∨ n = 6) : s.writeSys n v = s := by
  obtain rfl | rfl | rfl | rfl | rfl := h <;> rfl

theorem State.writeSys_qtm : s.writeSys 4 v = s.modCore s.cur.core fun r => { r with qtm := v.toNat } := rfl

theorem State.writeSys_wf (i : Fin 8) :
    s.writeSys (8 + i.val) v = s.modCore s.cur.core fun r => { r with wf := r.wf.set i (v.setWidth 6) } := by
  have hi : Fin.ofNat 8 (8 + i.val - 8) = i := Fin.ext (by rw [Fin.val_ofNat]; omega)
  simp (disch := omega) only [State.writeSys, if_neg, if_pos, hi]

theorem State.writeSys_wfl (i : Fin 8) :
    s.writeSys (16 + i.val) v = s.modCore s.cur.core fun r => { r with wfl := r.wfl.set i (v &&& ~~~0x100#64) } := by
  have hi : Fin.ofNat 8 (16 + i.val - 16) = i := Fin.ext (by rw [Fin.val_ofNat]; omega)
  simp (disch := omega) only [State.writeSys, if_neg, if_pos, hi]

theorem State.writeSys_tvec1 : s.writeSys 0x20 v =
    let at_ := 0x200000 + 32 * s.myCore.ctxid.toNat
    s.setReg at_ ((s.reg at_ &&& ~~~0x0000FFFFFFFFFFF9) ||| (v &&& 0x0000FFFFFFFFFFF9)) :=
  (State.writeField_of_name (regName_ctxTrap _).1 rfl v).trans (by rw [tvec_rw]; rfl)

theorem State.writeSys_tvec2 : s.writeSys 0x28 v =
    let at_ := 0x200000 + 32 * s.myCore.ctxid.toNat + 8
    s.setReg at_ ((s.reg at_ &&& ~~~0x0000FFFFFFFFFFF9) ||| (v &&& 0x0000FFFFFFFFFFF9)) :=
  (State.writeField_of_name (regName_ctxTrap _).2.1 rfl v).trans (by rw [tvec_rw]; rfl)

theorem State.writeSys_svbase : s.writeSys 0x30 v =
    let at_ := 0x200000 + 32 * s.myCore.ctxid.toNat + 16
    s.setReg at_ ((s.reg at_ &&& ~~~0xFFFFFFFFFFFFFC00) ||| (v &&& 0xFFFFFFFFFFFFFC00)) :=
  (State.writeField_of_name (regName_ctxTrap _).2.2 rfl v).trans (by rw [svbase_rw]; rfl)

end Written

/-! ## System registers read (R425) -/

/-- Reading a system register changes the clock at most: the running slot stays. -/
@[simp] theorem State.readSys_cur (s : State) (n : Nat) : (s.readSys n).2.cur = s.cur := by
  simp only [State.readSys, apply_ite Prod.snd, apply_ite State.cur, State.now, ite_self]

theorem TrapBank.read_pc (b : TrapBank) : b.read 2 = BitVec.ofNat 64 (b.pc.toNat % 2 ^ 48) := by
  apply BitVec.eq_of_toNat_eq
  have hand : (b.pc &&& 0x0000FFFFFFFFFFFF#64).toNat = b.pc.toNat % 2 ^ 48 := Nat.and_two_pow_sub_one_eq_mod b.pc.toNat 48
  rw [TrapBank.read, hand, BitVec.toNat_ofNat]
  omega

/-! ## How SELF, IDR and ANCHOR end (R395, R396, R412) -/

theorem State.endC_eq (s : State) : s.endC = .next s.wentOn := rfl

/-- What SELF writes, by its kind. -/
def State.selfWord (s : State) : SelfKind → Word
  | .tid => BitVec.ofNat 64 s.me.tid.toNat
  | .core => BitVec.ofNat 64 s.cur.core
  | .slot => BitVec.ofNat 64 s.cur.slot
  | .save => BitVec.ofNat 64 s.me.save.toNat

section Identity

variable {s : State} {xd : XR}

theorem exec_self {kind : SelfKind} (h : s.ready (.self kind xd) = .go) :
    exec (.self kind xd) s = .next ((s.setX xd (s.selfWord kind)).wentOn) := by
  show execSelf kind xd s = _
  rw [execSelf, slotC_go _ s _ h]
  cases kind with
  | tid => rw [State.endC_eq, State.selfWord, BitVec.ofNat_toNat]
  | save => rw [State.endC_eq, State.selfWord, BitVec.ofNat_toNat]
  | core => rw [State.endC_eq, State.selfWord]
  | slot => rw [State.endC_eq, State.selfWord]

theorem exec_idr {ix : Fin 9} (h : s.ready (.idr xd ix) = .go) :
    exec (.idr xd ix) s = .next ((s.setX xd (s.myCore.ident.get ix)).wentOn) := by
  show execIdr xd ix s = _
  rw [execIdr, slotC_go _ s _ h, State.endC_eq]

theorem exec_anchorClaim (h : s.ready (.anchorClaim xd) = .go) :
    exec (.anchorClaim xd) s =
      if s.me.anc then .next ((s.setX xd 0).wentOn)
      else if s.myCore.anchor.isSome then .next ((s.setX xd 1).wentOn)
      else .next ((((s.modCore s.cur.core fun r => { r with anchor := some s.cur.slot }).modMe fun f =>
        { f with anc := true }).setX xd 0).wentOn) := by
  show execAnchorClaim xd s = _
  rw [execAnchorClaim, slotC_go _ s _ h]
  simp only [State.endC_eq]

/-- The state in which the running fibre has given up the anchor, once its ports are unbound: what ANCHOR.free ends with. -/
def State.anchorGiven (s : State) (xd : XR) : State :=
  (((s.closeMyGroups.modCore s.cur.core fun r => { r with anchor := none }).modMe fun f =>
    { f with anc := false }).setX xd 0).wentOn

theorem exec_anchorFree_foreign (h : s.ready (.anchorFree xd) = .go) (ha : s.me.anc = false) :
    exec (.anchorFree xd) s = .next ((s.setX xd 1).wentOn) := by
  show execAnchorFree xd s = _
  rw [execAnchorFree, slotC_go _ s _ h, ha]; rfl

theorem exec_anchorFree_own (h : s.ready (.anchorFree xd) = .go) (ha : s.me.anc = true) :
    exec (.anchorFree xd) s = s.freePorts allPorts fun u => .next (u.anchorGiven xd) := by
  show execAnchorFree xd s = _
  rw [execAnchorFree, slotC_go _ s _ h, if_pos ha, State.releaseAnchor]
  refine congrArg (s.freePorts allPorts) (funext fun u => ?_)
  rw [State.endC_eq, State.anchorGiven, ← State.closeMyGroups_cur u]

theorem State.anchorGiven_of_other_core (hc : coreInTile s.cur.core ≠ 2) : s.anchorGiven xd =
    (((s.modCore s.cur.core fun r => { r with anchor := none }).modMe fun f => { f with anc := false }).setX xd 0).wentOn := by
  rw [State.anchorGiven, State.closeMyGroups, if_neg hc]

end Identity

/-! ## How MFS and MTS end (R427) -/

section System

variable {s : State} {xd xa : XR} {reg : BitVec 12}

theorem exec_mfs (h : s.ready (.mfs xd reg) = .go) :
    let d := if reg = 0 then s.drainArith s.cur.core s.cur.slot else s
    let r := d.readSys reg.toNat
    exec (.mfs xd reg) s = .next (((r.2.emptyX xd).send (.fill s.cur.core s.cur.slot xd r.1 .none none)).1.wentOn) := by
  intro d r
  have hcur : r.2.cur = s.cur := (d.readSys_cur _).trans (by unfold d; split <;> simp)
  have hgo : execMfs xd reg s
      = ((r.2.emptyX xd).send (.fill r.2.cur.core r.2.cur.slot xd r.1 .none none)).1.endC := slotC_go _ s _ h
  rwa [hcur, State.endC_eq] at hgo

theorem exec_mts (h : s.ready (.mts reg xa) = .go) (hr : mtsRefuses reg.toNat (s.rx xa) = false) :
    exec (.mts reg xa) s = .next
      ((if reg = 0 then s.drainArith s.cur.core s.cur.slot else s).writeSys reg.toNat (s.rx xa)).wentOn := by
  show execMts reg xa s = _
  rw [execMts, slotC_go _ s _ h]
  simp only [hr]; rfl

theorem exec_mts_refused (h : s.ready (.mts reg xa) = .go) (hr : mtsRefuses reg.toNat (s.rx xa) = true) :
    exec (.mts reg xa) s = .next (s.trapEntry false 0x01 (s.rx xa)) := by
  show execMts reg xa s = _
  rw [execMts, slotC_go _ s _ h]
  exact if_pos hr

/-- Every register but fsw is written without a wait. -/
theorem exec_mts_other {n : Nat} {t : State} (h : s.ready (.mts reg xa) = .go) (hr : mtsRefuses reg.toNat (s.rx xa) = false)
    (hn : reg.toNat = n) (h0 : n ≠ 0) (ht : s.writeSys n (s.rx xa) = t) : exec (.mts reg xa) s = .next t.wentOn := by
  have hreg : reg ≠ 0 := fun e => h0 (hn.symm.trans (congrArg BitVec.toNat e))
  rw [exec_mts h hr, if_neg hreg, hn, ht]

end System

/-! ## The two parts of the statement -/

theorem identityAndAnchor : Parts.IdentityAndAnchor := by
  intro s xd ix
  refine ⟨exec_self, exec_self, exec_self, exec_self, exec_idr,
    fun h => ⟨fun ha => ?own, fun ha hn => ?free, fun ha hn => ?held⟩,
    fun h => ⟨exec_anchorFree_foreign h, fun ha => ?give⟩, fun hinv sp => ?ports, fun hc hr p => ?groups⟩
  case own => rw [exec_anchorClaim h, if_pos ha]
  case free => simp [exec_anchorClaim h, ha, hn]
  case held => simp [exec_anchorClaim h, ha, Option.isSome_iff_ne_none.mpr hn]
  case give =>
    intro given w p
    have hgiven : given = fun u => u.anchorGiven xd := rfl
    clear_value given
    rw [hgiven, exec_anchorFree_own h ha]
    refine ⟨State.freePorts_waits, State.freePorts_now, State.freePorts_awaits,
      fun _ _ => State.freePorts_answered, fun hres hub hc => ?_⟩
    have hstop := State.stopPorts_of_unbound hub allPorts
    rw [State.freePorts_now hres (State.outWaits_of_unbound hub _) (by rw [hstop]), hstop, State.unbindAll_of_unbound hub,
      State.anchorGiven_of_other_core hc]
  case ports =>
    have hfree := (s.core s.cur.core).unbindPorts_of_mem (List.mem_finRange sp : sp ∈ allPorts)
    rw [← State.unbindAll_core hinv.cores] at hfree
    exact hfree
  case groups =>
    simp only [State.closeMyGroups_tile hc hr, Tile.closeGroups_eq]
    have hk := Tile.closeOwn_foldl_keeps s.me.tid (List.finRange 8) (s.tile (tileOf s.cur.core)) p
    exact ⟨Tile.closeOwn_foldl_other (List.mem_finRange p) _, hk.cells, hk.bound⟩

theorem systemRegisters : Parts.SystemRegisters := by
  intro s xd xa reg i
  refine ⟨fun h => ⟨exec_mfs h, ?read⟩, fun h hr => ?write, exec_mts_refused⟩
  case read =>
    generalize (if reg = 0 then s.drainArith s.cur.core s.cur.slot else s) = d
    refine ⟨?_, ?_, ?_, ?_, ?_, ?_⟩ <;> rintro rfl
    · exact (BitVec.ofNat_toNat 64 d.me.fsw).symm
    · exact (BitVec.ofNat_toNat 64 d.me.tid).symm
    · exact (BitVec.ofNat_toNat 64 d.myCore.ctxid).symm
    · rfl
    · rfl
    · exact d.me.bank1.read_pc
  case write =>
    have other : ∀ {n : Nat} {t : State}, reg.toNat = n → n ≠ 0 → s.writeSys n (s.rx xa) = t →
      exec (.mts reg xa) s = .next t.wentOn := exec_mts_other h hr
    have named : ∀ {r : BitVec 12} {t : State}, r.toNat ≠ 0 → s.writeSys r.toNat (s.rx xa) = t → reg = r →
      exec (.mts reg xa) s = .next t.wentOn := fun h0 ht e => other (congrArg BitVec.toNat e) h0 ht
    refine ⟨fun e => ?fsw, fun e => ?readOnly, named (by decide) rfl, fun e => other e (by omega) (s.writeSys_wf _ i),
      fun e => other e (by omega) (s.writeSys_wfl _ i), ?banks, ?context⟩
    case fsw =>
      rw [exec_mts h hr, if_pos e, e]
      exact congrArg (fun t : State => Host.Outcome.next t.wentOn) (State.writeSys_fsw _ _)
    case readOnly =>
      obtain rfl | rfl | rfl | rfl | rfl := e
      all_goals exact other rfl (by decide) (s.writeSys_readOnly _ (by decide))
    case banks =>
      exact ⟨named (by decide) rfl, named (by decide) rfl, named (by decide) rfl, named (by decide) rfl, named (by decide) rfl,
        named (by decide) rfl, named (by decide) rfl, named (by decide) rfl⟩
    case context =>
      exact ⟨named (by decide) (s.writeSys_tvec1 _), named (by decide) (s.writeSys_tvec2 _),
        named (by decide) (s.writeSys_svbase _)⟩

/-- Settles O10, from its two parts: each instruction ends as the lemma about it above says. -/
theorem systemRegistersAndIdentity : Obligations.SystemRegistersAndIdentity := ⟨identityAndAnchor, systemRegisters⟩

end Sys2Proof.Machine
end
